-- ==== Sys2Proof/Word.lean ====
section
/-! DEFINITION. Word types, and the one sparse table every large store of the state is kept in.
The bit-field, byte-order and table OPERATIONS stand in Machine/Bits.lean; only the types stand here. -/
namespace Sys2Proof

/-- A byte of memory. -/
abbrev Byte := BitVec 8

/-- A 64-bit register or scalar word. -/
abbrev Word := BitVec 64

/-- A sparse table: key and value pairs in one canonical form, keys strictly rising and no value equal to what an
unlisted key reads as (Machine/Bits.lean: tget, tset, twf). -/
abbrev Tab (α : Type) := List (Nat × α)

/-- Module tile number, 0 to 767 (R10). -/
abbrev TileNo := Fin 768

/-- Compute die CD0 to CD7 (R9). -/
abbrev DieNo := Fin 8

/-- Ezvor port 0 to 35 (R9). -/
abbrev PortNo := Fin 36

/-- Context 0 to 511 (R370). -/
abbrev CtxNo := BitVec 9

end Sys2Proof
end

