-- ==== Sys2Proof/Syntax.lean ====
section
/-! DEFINITION. The commands of the block: one constructor of `Instr` for each row of spec/opcode_table.json.
Tile instruction rows carry the fields of their 64-bit word as 06_instruction_reference lays them out, the fields
marked zero, the EXT bit and word 1 among them, so that every word with the row's opcode is exactly one command.
Host command rows carry the words of R396. Event rows carry what the event names. -/
namespace Sys2Proof

/-- Scalar format R (R141). `w1` is word 1 when `ext` is set. -/
structure RForm where
  ext : Bool := false
  rd : BitVec 5 := 0
  rs1 : BitVec 5 := 0
  rs2 : BitVec 5 := 0
  zero : BitVec 40 := 0
  w1 : BitVec 64 := 0
  deriving DecidableEq, Repr

/-- Scalar format I (R141); `z` is the field [44:40] marked zero. -/
structure IForm where
  ext : Bool := false
  rd : BitVec 5 := 0
  rs1 : BitVec 5 := 0
  z : BitVec 5 := 0
  imm : BitVec 40 := 0
  w1 : BitVec 64 := 0
  deriving DecidableEq, Repr

/-- Scalar format B (R141); `z` is the field [54:50] marked zero. -/
structure BForm where
  ext : Bool := false
  z : BitVec 5 := 0
  rs1 : BitVec 5 := 0
  rs2 : BitVec 5 := 0
  off : BitVec 40 := 0
  w1 : BitVec 64 := 0
  deriving DecidableEq, Repr

/-- EXT and the synchronisation extension, word 1 of an engine instruction (R137). -/
structure Sync where
  ext : Bool := false
  wbell : BitVec 19 := 0
  wx : BitVec 5 := 0
  wen : Bool := false
  rbell : BitVec 19 := 0
  rinc : BitVec 8 := 0
  zero : BitVec 12 := 0
  deriving DecidableEq, Repr

/-- MMUL, opcode 0x40 (R146). -/
structure MmulForm where
  slot : BitVec 2 := 0
  acc : Bool := false
  da : BitVec 5 := 0
  db : BitVec 5 := 0
  kx : BitVec 5 := 0
  kn : BitVec 12 := 0
  zero : BitVec 25 := 0
  sync : Sync := {}
  deriving DecidableEq, Repr

/-- LADD, opcode 0x41 (R147). -/
structure LaddForm where
  slot : BitVec 2 := 0
  dc : BitVec 5 := 0
  nx : BitVec 5 := 0
  zero : BitVec 43 := 0
  sync : Sync := {}
  deriving DecidableEq, Repr

/-- ABMODE, opcode 0x42 (R148). -/
structure AbmodeForm where
  fused : Bool := false
  zero : BitVec 54 := 0
  sync : Sync := {}
  deriving DecidableEq, Repr

/-- ATT, opcode 0x43 (R149). -/
structure AttForm where
  slot : BitVec 2 := 0
  ax : BitVec 5 := 0
  zero : BitVec 48 := 0
  sync : Sync := {}
  deriving DecidableEq, Repr

/-- DRILL, opcode 0x50 (R150). -/
structure DrillForm where
  xs : BitVec 5 := 0
  imm : BitVec 23 := 0
  zero : BitVec 27 := 0
  sync : Sync := {}
  deriving DecidableEq, Repr

/-- Rod format, opcodes 0x60 to 0x79 (R151, R426). -/
structure RodForm where
  vd : BitVec 6 := 0
  va : BitVec 6 := 0
  vb : BitVec 6 := 0
  vc : BitVec 6 := 0
  pen : Bool := false
  pr : BitVec 3 := 0
  w32 : Bool := false
  ty : BitVec 2 := 0
  sat : Bool := false
  fn : BitVec 4 := 0
  xs : BitVec 5 := 0
  imm : BitVec 14 := 0
  sync : Sync := {}
  deriving DecidableEq, Repr

/-- MOVE, opcode 0x80 (R154). -/
structure MoveForm where
  ds : BitVec 5 := 0
  dd : BitVec 5 := 0
  mode : BitVec 2 := 0
  zero : BitVec 43 := 0
  sync : Sync := {}
  deriving DecidableEq, Repr

/-- PACK, opcode 0x81 (R155). -/
structure PackForm where
  xs : BitVec 5 := 0
  xr : BitVec 5 := 0
  zero : BitVec 45 := 0
  sync : Sync := {}
  deriving DecidableEq, Repr

/-- Link and commit control, opcodes 0x90 to 0x97: fields [54:50], [49:45], [44:40] and [39:0] (R156). -/
structure LinkForm where
  a : BitVec 5 := 0
  b : BitVec 5 := 0
  c : BitVec 5 := 0
  low : BitVec 40 := 0
  sync : Sync := {}
  deriving DecidableEq, Repr

/-- A host command (R396): queue set, the fields of word 0 and words 1 to 7. -/
structure HostCmd where
  q : Fin 513 := 0
  tag : BitVec 16 := 0
  ctx : BitVec 9 := 0
  zero : BitVec 23 := 0
  w1 : BitVec 64 := 0
  w2 : BitVec 64 := 0
  w3 : BitVec 64 := 0
  w4 : BitVec 64 := 0
  w5 : BitVec 64 := 0
  w6 : BitVec 64 := 0
  w7 : BitVec 64 := 0
  deriving DecidableEq, Repr

/-- What a collective message carries beyond its header (R228 to R233; the carriage is a log entry); data with its piece's
number of so many (R214). -/
inductive CollBody where
  | params (op : Nat) (exact : Bool) (count : Nat) (anchor dst : Int)
  | verdict (cls : BitVec 8)
  | chunk (final : Bool) (no total : Nat) (data : List Byte)
  deriving DecidableEq, Repr

/-- An error that no instruction finds: whether it is uncorrectable, and whether it stands in the Hall line of its address (R207). -/
structure FoundError where
  uncorrectable : Bool
  hall : Bool
  deriving DecidableEq, Repr

/-- A card that describes memory at another seat, with the BASE of its lift table, as the flits of a transfer carry it to
be checked there (R156, R184; the carriage is a log entry). -/
structure RemoteCard where
  w : BitVec 256
  liftBase : BitVec 48
  write : Bool
  deriving DecidableEq, Repr

/-- The payload of a flit (R214), by TYPE. `mask` is empty where every bit of `data` is written; `card` stands in the
flits of a tile's transfer. A RETURN carries the header it returns, whose source is where it goes. A TIME flit carries
the sender's timestamp and, in an answer, the answerer's two. An end flit (`count`) closes a transfer of `count` WRITE flits; a reply names the tag it
answers. -/
inductive FlitBody where
  | empty
  | bytes (addr : BitVec 48) (data : List Byte) (mask : List Byte) (card : Option RemoteCard)
  | readReq (addr : BitVec 48) (len : Nat) (card : Option RemoteCard)
  | ringB (bell : BitVec 19) (inc : BitVec 8) (count : Nat)
  | coll (list : BitVec 12) (seq : BitVec 16) (chunk : BitVec 12) (m : CollBody)
  | barrier (list : BitVec 12) (gen : BitVec 16) (release : Bool)
  | endB (count : Nat)
  | done (cls : BitVec 8) (addr : BitVec 48) (ref : BitVec 16)
  | returned (ty vc : BitVec 4) (dstPm : BitVec 11) (dstSeat : BitVec 10) (hops : BitVec 4) (len : BitVec 8) (tag : BitVec 16) (arg : BitVec 40)
      (reason : BitVec 8)
  | hello (pm : BitVec 11) (port : BitVec 6) (twin : Bool) (time : BitVec 64)
  | time (t1 t2 t3 : BitVec 64)
  | roll (table : BitVec 2) (index : Nat) (value : BitVec 64) (members : List (BitVec 10)) (epoch : BitVec 32)
  deriving DecidableEq, Repr

/-- A flit: header fields of R214 and its payload; `partner` marks partner-memory traffic (R211). As it comes off a link it has that link's
number `num`, and `badEnd` where a bad-end codeword closes it (R215). Inside the module `inp` names the port and the VC of the receive buffer
whose place it still takes (R218), and `ports` over how many ports its source spreads it, 0 where the route entry says (R264). -/
structure Flit where
  ty : BitVec 4 := 0
  vc : BitVec 4 := 0
  dstPm : BitVec 11 := 0
  srcPm : BitVec 11 := 0
  dstSeat : BitVec 10 := 0
  srcSeat : BitVec 10 := 0
  hops : BitVec 4 := 0
  len : BitVec 8 := 0
  tag : BitVec 16 := 0
  hcrcOk : Bool := true
  partner : Bool := false
  num : BitVec 12 := 0
  badEnd : Bool := false
  inp : Option (BitVec 6 × BitVec 4) := none
  ports : BitVec 6 := 0
  body : FlitBody := .empty
  deriving DecidableEq, Repr

/-- How a memory access or a transfer of a started instruction ended. -/
inductive Ending where
  | clean
  | memError (addr : BitVec 58) (cls : BitVec 8)
  deriving DecidableEq, Repr

/-- Who writes a register (R133, R224, R394). -/
inductive Agent where
  | host
  | management
  | firmware
  deriving DecidableEq, Repr

/-- A BAR access (R393): a read of `len` bytes or a write of bytes. -/
inductive BarOp where
  | read (len : Nat)
  | write (data : List Byte)
  deriving DecidableEq, Repr

/-- What a management message asks for (R401). -/
inductive MgmtReq where
  | readReg (addr : BitVec 48)
  | writeReg (addr : BitVec 48) (value : BitVec 64)
  | readMirror (addr : BitVec 48) (len : Nat)
  | readCal (off : Nat) (len : Nat)
  | sensors
  | events
  | stageFirmware (valid : Bool)
  | reset
  | calRead
  | calWrite (image : List Byte)
  | calCapture
  deriving DecidableEq, Repr

/-- A sensor reading (R418). -/
inductive Reading where
  | die (d : Fin 8) (celsius : Nat)
  | io (celsius : Nat)
  | stack (d : Fin 8) (k : Fin 4) (celsius : Nat)
  | coolant (flow : Nat) (inlet : Nat) (outlet : Nat)
  | input (watts : Nat) (decivolts : Nat)
  | dry
  deriving DecidableEq, Repr

/-- Scope of a reset or a Report Card (R359, R361). -/
inductive Scope where
  | tile (t : Fin 768)
  | port (p : Fin 36)
  | die (d : Fin 8)
  | module
  deriving DecidableEq, Repr

/-- One constructor for each row of the opcode table, in the table's order. -/
inductive Instr where
  -- scalar, card, Bell and step control (R141 to R145, R117)
  | nop (t : TileNo) (f : RForm)
  | add (t : TileNo) (f : RForm)
  | sub (t : TileNo) (f : RForm)
  | and (t : TileNo) (f : RForm)
  | or (t : TileNo) (f : RForm)
  | xor (t : TileNo) (f : RForm)
  | shl (t : TileNo) (f : RForm)
  | shr (t : TileNo) (f : RForm)
  | sra (t : TileNo) (f : RForm)
  | mul (t : TileNo) (f : RForm)
  | min (t : TileNo) (f : RForm)
  | max (t : TileNo) (f : RForm)
  | slt (t : TileNo) (f : RForm)
  | sltu (t : TileNo) (f : RForm)
  | addi (t : TileNo) (f : IForm)
  | andi (t : TileNo) (f : IForm)
  | ori (t : TileNo) (f : IForm)
  | xori (t : TileNo) (f : IForm)
  | shli (t : TileNo) (f : IForm)
  | shri (t : TileNo) (f : IForm)
  | srai (t : TileNo) (f : IForm)
  | li (t : TileNo) (f : IForm)
  | ld (t : TileNo) (f : IForm)
  | st (t : TileNo) (f : BForm)
  | crr (t : TileNo) (f : IForm)
  | crw (t : TileNo) (f : BForm)
  | beq (t : TileNo) (f : BForm)
  | bne (t : TileNo) (f : BForm)
  | blt (t : TileNo) (f : BForm)
  | bge (t : TileNo) (f : BForm)
  | bltu (t : TileNo) (f : BForm)
  | bgeu (t : TileNo) (f : BForm)
  | jmp (t : TileNo) (f : BForm)
  | jal (t : TileNo) (f : IForm)
  | jr (t : TileNo) (f : IForm)
  | halt (t : TileNo) (f : RForm)
  | step (t : TileNo) (f : RForm)
  | dld (t : TileNo) (f : IForm)
  | dst (t : TileNo) (f : BForm)
  | dadd (t : TileNo) (f : RForm)
  | bring (t : TileNo) (f : IForm)
  | bwait (t : TileNo) (f : IForm)
  | bset (t : TileNo) (f : IForm)
  -- matrix and Drill queues
  | mmul (t : TileNo) (f : MmulForm)
  | ladd (t : TileNo) (f : LaddForm)
  | abmode (t : TileNo) (f : AbmodeForm)
  | att (t : TileNo) (f : AttForm)
  | drill (t : TileNo) (f : DrillForm)
  -- Rod queue
  | vadd (t : TileNo) (f : RodForm)
  | vsub (t : TileNo) (f : RodForm)
  | vmul (t : TileNo) (f : RodForm)
  | vfma (t : TileNo) (f : RodForm)
  | vmin (t : TileNo) (f : RodForm)
  | vmax (t : TileNo) (f : RodForm)
  | vcmp (t : TileNo) (f : RodForm)
  | vsel (t : TileNo) (f : RodForm)
  | vand (t : TileNo) (f : RodForm)
  | vor (t : TileNo) (f : RodForm)
  | vxor (t : TileNo) (f : RodForm)
  | vshl (t : TileNo) (f : RodForm)
  | vshr (t : TileNo) (f : RodForm)
  | vperm (t : TileNo) (f : RodForm)
  | vperm2 (t : TileNo) (f : RodForm)
  | vred (t : TileNo) (f : RodForm)
  | vld (t : TileNo) (f : RodForm)
  | vst (t : TileNo) (f : RodForm)
  | vgather (t : TileNo) (f : RodForm)
  | vscatter (t : TileNo) (f : RodForm)
  | vbcast (t : TileNo) (f : RodForm)
  | pset (t : TileNo) (f : RodForm)
  | topk (t : TileNo) (f : RodForm)
  | bisect (t : TileNo) (f : RodForm)
  | sample (t : TileNo) (f : RodForm)
  | vcvt (t : TileNo) (f : RodForm)
  -- Mover and link queues
  | move (t : TileNo) (f : MoveForm)
  | pack (t : TileNo) (f : PackForm)
  | put (t : TileNo) (f : LinkForm)
  | get (t : TileNo) (f : LinkForm)
  | rring (t : TileNo) (f : LinkForm)
  | coll (t : TileNo) (f : LinkForm)
  | barrier (t : TileNo) (f : LinkForm)
  | gate (t : TileNo) (f : LinkForm)
  | commit (t : TileNo) (f : LinkForm)
  | chg (t : TileNo) (f : LinkForm)
  -- engine events; `q` is the queue, `k` the position among its started instructions
  | instructionStart (t : TileNo) (q : Fin 5)
  | instructionComplete (t : TileNo) (q : Fin 5) (k : Nat) (e : Ending)
  | fltBellTimeout (t : TileNo) (q : Fin 6)
  | tileDrainEnd (t : TileNo)
  | tileGo (t : TileNo)
  | tileStop (t : TileNo)
  | tilePreempt (t : TileNo)
  | preemptSave (t : TileNo)
  | preemptSaved (t : TileNo)
  | preemptLimitExpiry (t : TileNo)
  | tileRestore (t : TileNo)
  | restoreDone (t : TileNo)
  | tileResume (t : TileNo)
  | tileFlush (t : TileNo)
  | tileFaultClear (t : TileNo)
  | tileReset (t : TileNo)
  | tileResetTimeout (t : TileNo)
  | registerWrite (a : Agent) (addr : BitVec 48) (be : BitVec 8) (v : BitVec 64)
  | stageGo (t : TileNo) (n : Fin 64) (sheets : BitVec 16) (sitout : Bool) (disarm : Bool)
  | stageDisarm (t : TileNo) (n : Fin 64)
  | stageCopyDone (t : TileNo) (n : Fin 64)
  | stageCopyFail (t : TileNo) (n : Fin 64) (sheet : Nat)
  | stageDeadline (t : TileNo) (n : Fin 64)
  | patrolScrub (addr : BitVec 48) (e : FoundError)
  | archiveExtentDone (write : Bool) (extent : Nat) (addr : BitVec 48) (ok : Bool)
  -- flits arriving at `p`; 62 is the module's own local delivery
  | writeFlit (p : BitVec 6) (f : Flit)
  | readReqFlit (p : BitVec 6) (f : Flit)
  | readDataFlit (p : BitVec 6) (f : Flit)
  | ringFlit (p : BitVec 6) (f : Flit)
  | collFlit (p : BitVec 6) (f : Flit)
  | barrierFlit (p : BitVec 6) (f : Flit)
  | doneFlit (p : BitVec 6) (f : Flit)
  | returnFlit (p : BitVec 6) (f : Flit)
  | helloFlit (p : PortNo) (f : Flit)
  | timeFlit (p : PortNo) (f : Flit)
  | rollFlit (p : BitVec 6) (f : Flit)
  | idleFlit (p : PortNo) (f : Flit)
  | flitForward (p : PortNo) (f : Flit)
  | flitReplay (p : PortNo) (num : BitVec 12)
  | creditReturn (p : PortNo) (vc : BitVec 4) (acked : Nat)
  | helloTimer (p : PortNo)
  | helloTimeout (p : PortNo)
  | portTrained (p : PortNo) (ok : Bool)
  | retrainTimer (p : PortNo)
  | portEnable (p : PortNo)
  | portActive (p : PortNo)
  | evtLinkStall (p : PortNo) (vc : BitVec 4)
  | holdLimitExpiry (t : TileNo)
  | timeExchange
  | classListCreate (n : Option (BitVec 12)) (members : List (BitVec 10)) (rank : Nat) (experts : Nat)
  | classListDelete (n : BitVec 12)
  | classListMemberRemove (n : BitVec 12) (seat : BitVec 10)
  -- the training step
  | gateOutcomeRelease (ctx : CtxNo) (outcome : BitVec 4) (amax : List (BitVec 30 × Int))
  | commitPoint (ctx : CtxNo) (amax : List (BitVec 30 × Int)) (failed : Bool)
  | partnerRestoreDone (ctx : CtxNo) (sheets : List (BitVec 48 × List Byte)) (area : List Byte)
  | attemptAbort (ctx : CtxNo)
  | evtStepLate (ctx : CtxNo)
  | studyHallBubble (c : Fin 16)
  | studyHallSliceEnd (c : Fin 16)
  | chgStart (ctx : CtxNo)
  | chgSeatDone (ctx : CtxNo) (failed : Option (BitVec 10 × BitVec 48))
  | chgSwitchPoint (ctx : CtxNo)
  | ckpHeld (step : BitVec 32)
  | ckpAckRelease (ctx : CtxNo) (step : BitVec 32)
  | landingApplyDone
  | evtCkpLate (ctx : CtxNo)
  | archiveSetDone
  | storeUploadDone (ok : Bool)
  | storeRetry
  | buddyWrite (buddy : BitVec 11) (valid : Bool)
  | wardArm (v : BitVec 64)
  | replayStep (ctx : CtxNo)
  -- host commands and what they start
  | create (c : HostCmd)
  | createFrom (c : HostCmd)
  | destroy (c : HostCmd)
  | resume (c : HostCmd)
  | skip (c : HostCmd)
  | remap (c : HostCmd)
  | replan (c : HostCmd)
  | replace (c : HostCmd)
  | replaceResume (c : HostCmd)
  | replaceLayerReceived (ctx : CtxNo) (data : List Byte)
  | replaceInstall (ctx : CtxNo)
  | replaceRetry (ctx : CtxNo)
  | evtReplaceStall (ctx : CtxNo)
  | adapterLoad (c : HostCmd)
  | adapterUnload (c : HostCmd)
  | adapterFlip (slot : BitVec 10)
  | adapterWaitLimit (q : Fin 513) (tag : BitVec 16)
  | admitCmd (c : HostCmd)
  | evict (c : HostCmd)
  | dmaIn (c : HostCmd)
  | dmaOut (c : HostCmd)
  | ctxGo (c : HostCmd)
  | ctxSet (c : HostCmd)
  | classSet (c : HostCmd) (e : HostCmd)
  | steerLoad (c : HostCmd)
  | steerUnload (c : HostCmd)
  | ckpStoreSet (c : HostCmd)
  | calRead (c : HostCmd)
  | calWrite (c : HostCmd)
  | calCapture (c : HostCmd)
  | calWriteDone
  | commandCompletion (k : Nat)
  -- serving
  | rosterBoundary (d : DieNo)
  | servingEnable (d : DieNo) (on : Bool)
  | rosterTick (d : DieNo)
  | rosModeWrite (mode : Bool)
  -- faults, resets, Quiet State
  | engineHang (t : TileNo) (q : Fin 6)
  | monitorHeartbeatLoss (d : DieNo) (core : Fin 2)
  | evtPrefectLost (k : Fin 16)
  | prefectResetDone (k : Fin 16)
  | wdogExpiry
  | wdogPet
  | evtPortHang (p : PortNo)
  | dieReq (mask : BitVec 8)
  | moduleReq
  | reportCardCapture (sc : Scope)
  | rcAck (k : Fin 9)
  | portReset (p : PortNo)
  | dieReset (d : DieNo)
  | dieResetDone (d : DieNo)
  | dieResetTimeout (d : DieNo)
  | moduleReset
  | moduleResetTimeout
  -- tallies and Classrooms
  | rollCallArm (id : BitVec 16) (overwrite : Bool)
  | rollCallAck
  | rollCallLatch
  | slotStart (c : Fin 16) (slot : Fin 32)
  | slotSaveDone (c : Fin 16)
  | slotRestoreDone (c : Fin 16)
  | splitWrite (d : DieNo) (split : Bool)
  -- host interface
  | hostBarAccess (fn : Fin 513) (bar : BitVec 3) (addr : BitVec 64) (op : BarOp)
  | pcieLinkDown
  | functionLevelReset (vf : Fin 512)
  | perstDeassert
  | mctpMessage (r : MgmtReq)
  | redfishRequest (r : MgmtReq)
  | bypass
  | idcode
  | samplePreload
  | extest
  -- power
  | powerUp
  | powerUpStageDone
  | bootStageTimeout (err : BitVec 8) (unit : BitVec 8)
  | inputUndervoltage
  | inputBelow44v
  | inputBelow40v
  | inputOvervoltage
  | auxRailUp
  | modEnLow
  | standbyRailsOff
  | modEnHigh
  | powerCapStep (d : DieNo) (watts : Nat) (moduleWatts : Nat)
  | ocp (rail : Fin 10)
  | thermalReading (r : Reading)
  | thermalTrip
  | lowFlow
  | flowFailure
  | leakDetected
  | leakRailsOff
  | tileResetDone (t : TileNo)
  | scalarAccessComplete (t : TileNo) (e : Ending)
  | pcieLinkUp (p : Fin 2)
  | evtServeLate (d : DieNo)
  | dieControlUncorrectable (d : DieNo)
  deriving DecidableEq, Repr

end Sys2Proof
end

