-- ==== Sys2Proof/Decode.lean ====
section
/-! DEFINITION. The commands that a word spells by the table's bits, and the words of the tile instructions as
06_instruction_reference lays them out, with the checks that make a word legal. -/
namespace Sys2Proof

/-- No row of spec/opcode_table.json gives bits, so no word spells a command. -/
def decodeTableWord (_nbits _w : Nat) : Option Instr := none

/-- A field of `w` bits placed at bit `lo` of a word. -/
def at_ {w : Nat} (x : BitVec w) (lo : Nat) : BitVec 64 := (x.setWidth 64) <<< lo
def bitAt (b : Bool) (lo : Nat) : BitVec 64 := at_ (BitVec.ofBool b) lo

/-- Word 0 of each format (R141, R146 to R156, R426): opcode [63:56], EXT [55]. -/
def RForm.w0 (f : RForm) (op : BitVec 8) : BitVec 64 :=
  at_ op 56 ||| bitAt f.ext 55 ||| at_ f.rd 50 ||| at_ f.rs1 45 ||| at_ f.rs2 40 ||| at_ f.zero 0
def IForm.w0 (f : IForm) (op : BitVec 8) : BitVec 64 :=
  at_ op 56 ||| bitAt f.ext 55 ||| at_ f.rd 50 ||| at_ f.rs1 45 ||| at_ f.z 40 ||| at_ f.imm 0
def BForm.w0 (f : BForm) (op : BitVec 8) : BitVec 64 :=
  at_ op 56 ||| bitAt f.ext 55 ||| at_ f.z 50 ||| at_ f.rs1 45 ||| at_ f.rs2 40 ||| at_ f.off 0
def MmulForm.w0 (f : MmulForm) : BitVec 64 :=
  at_ (0x40 : BitVec 8) 56 ||| bitAt f.sync.ext 55 ||| at_ f.slot 53 ||| bitAt f.acc 52 ||| at_ f.da 47 ||| at_ f.db 42 |||
  at_ f.kx 37 ||| at_ f.kn 25 ||| at_ f.zero 0
def LaddForm.w0 (f : LaddForm) : BitVec 64 :=
  at_ (0x41 : BitVec 8) 56 ||| bitAt f.sync.ext 55 ||| at_ f.slot 53 ||| at_ f.dc 48 ||| at_ f.nx 43 ||| at_ f.zero 0
def AbmodeForm.w0 (f : AbmodeForm) : BitVec 64 :=
  at_ (0x42 : BitVec 8) 56 ||| bitAt f.sync.ext 55 ||| bitAt f.fused 54 ||| at_ f.zero 0
def AttForm.w0 (f : AttForm) : BitVec 64 :=
  at_ (0x43 : BitVec 8) 56 ||| bitAt f.sync.ext 55 ||| at_ f.slot 53 ||| at_ f.ax 48 ||| at_ f.zero 0
def DrillForm.w0 (f : DrillForm) : BitVec 64 :=
  at_ (0x50 : BitVec 8) 56 ||| bitAt f.sync.ext 55 ||| at_ f.xs 50 ||| at_ f.imm 27 ||| at_ f.zero 0
def RodForm.w0 (f : RodForm) (op : BitVec 8) : BitVec 64 :=
  at_ op 56 ||| bitAt f.sync.ext 55 ||| at_ f.vd 49 ||| at_ f.va 43 ||| at_ f.vb 37 ||| at_ f.vc 31 ||| bitAt f.pen 30 |||
  at_ f.pr 27 ||| bitAt f.w32 26 ||| at_ f.ty 24 ||| bitAt f.sat 23 ||| at_ f.fn 19 ||| at_ f.xs 14 ||| at_ f.imm 0
def MoveForm.w0 (f : MoveForm) : BitVec 64 :=
  at_ (0x80 : BitVec 8) 56 ||| bitAt f.sync.ext 55 ||| at_ f.ds 50 ||| at_ f.dd 45 ||| at_ f.mode 43 ||| at_ f.zero 0
def PackForm.w0 (f : PackForm) : BitVec 64 :=
  at_ (0x81 : BitVec 8) 56 ||| bitAt f.sync.ext 55 ||| at_ f.xs 50 ||| at_ f.xr 45 ||| at_ f.zero 0
def LinkForm.w0 (f : LinkForm) (op : BitVec 8) : BitVec 64 :=
  at_ op 56 ||| bitAt f.sync.ext 55 ||| at_ f.a 50 ||| at_ f.b 45 ||| at_ f.c 40 ||| at_ f.low 0
/-- Word 1, the synchronisation extension (R137). -/
def Sync.w1 (x : Sync) : BitVec 64 :=
  at_ x.wbell 0 ||| at_ x.wx 19 ||| bitAt x.wen 24 ||| at_ x.rbell 25 ||| at_ x.rinc 44 ||| at_ x.zero 52

/-! ### Legal words (R135, R137, R141, R146 to R158, R426) -/

/-- Scalar format R: EXT 0 and the field marked zero. -/
def legalR (f : RForm) : Bool := !f.ext && decide (f.zero = 0)
/-- NOP and HALT: every field zero. -/
def legalR0 (f : RForm) : Bool := legalR f && decide (f.rd = 0 ∧ f.rs1 = 0 ∧ f.rs2 = 0)
/-- STEP: RD and RS2 zero. -/
def legalStep (f : RForm) : Bool := legalR f && decide (f.rd = 0 ∧ f.rs2 = 0)
/-- DADD: RS2 zero. -/
def legalDadd (f : RForm) : Bool := legalR f && decide (f.rs2 = 0)
/-- Scalar format I. -/
def legalI (f : IForm) : Bool := !f.ext && decide (f.z = 0)
/-- SHLI, SHRI, SRAI: IMM [39:6] zero. -/
def legalShift (f : IForm) : Bool := legalI f && decide (f.imm.toNat < 64)
/-- LI: RS1 zero; with EXT 1, IMM zero. -/
def legalLi (f : IForm) : Bool := decide (f.z = 0 ∧ f.rs1 = 0) && (!f.ext || decide (f.imm = 0))
/-- CRR and JAL: RS1 zero. -/
def legalI1 (f : IForm) : Bool := legalI f && decide (f.rs1 = 0)
/-- JR: RD zero. -/
def legalJr (f : IForm) : Bool := legalI f && decide (f.rd = 0)
/-- BRING: RD and RS1 zero, increment 1 to 255, IMM [39:27] zero. -/
def legalBring (f : IForm) : Bool :=
  legalI f && decide (f.rd = 0 ∧ f.rs1 = 0 ∧ f.imm.toNat < 2 ^ 27 ∧ 1 ≤ f.imm.toNat / 2 ^ 19)
/-- BWAIT and BSET: RD zero, IMM [39:19] zero. -/
def legalBell (f : IForm) : Bool := legalI f && decide (f.rd = 0 ∧ f.imm.toNat < 2 ^ 19)
/-- Scalar format B. -/
def legalB (f : BForm) : Bool := !f.ext && decide (f.z = 0)
/-- CRW: RS1 zero. -/
def legalCrw (f : BForm) : Bool := legalB f && decide (f.rs1 = 0)
/-- JMP: RS1 and RS2 zero. -/
def legalJmp (f : BForm) : Bool := legalB f && decide (f.rs1 = 0 ∧ f.rs2 = 0)

/-- The synchronisation extension: [63:52] zero (R135, R137). -/
def legalSync (s : Sync) : Bool := !s.ext || decide (s.zero = 0)
/-- MMUL: KN 0 reserved, [24:0] zero. -/
def legalMmul (f : MmulForm) : Bool := legalSync f.sync && decide (f.kn ≠ 0 ∧ f.zero = 0)
def legalLadd (f : LaddForm) : Bool := legalSync f.sync && decide (f.zero = 0)
def legalAbmode (f : AbmodeForm) : Bool := legalSync f.sync && decide (f.zero = 0)
def legalAtt (f : AttForm) : Bool := legalSync f.sync && decide (f.zero = 0)
def legalDrill (f : DrillForm) : Bool := legalSync f.sync && decide (f.zero = 0)
/-- MOVE: MODE 3 reserved. -/
def legalMove (f : MoveForm) : Bool := legalSync f.sync && decide (f.mode ≠ 3 ∧ f.zero = 0)
def legalPack (f : PackForm) : Bool := legalSync f.sync && decide (f.zero = 0)

/-- Bits [hi:lo] of the low field of a link word. -/
def lowFld (f : LinkForm) (lo w : Nat) : Nat := (f.low.toNat >>> lo) % 2 ^ w
def legalPut (f : LinkForm) : Bool := legalSync f.sync && decide (lowFld f 0 39 = 0)
def legalGet (f : LinkForm) : Bool := legalSync f.sync && decide (f.low = 0)
def legalRring (f : LinkForm) : Bool :=
  legalSync f.sync && decide (f.a = 0 ∧ f.b = 0 ∧ lowFld f 27 13 = 0 ∧ lowFld f 19 8 ≠ 0)
/-- COLL: OP 7 reserved, EXACT only with OP 0, 1 and 5 (R228), NX 31 with OP 4 and 5 illegal (R232). -/
def legalColl (f : LinkForm) : Bool :=
  legalSync f.sync && decide (lowFld f 0 31 = 0 ∧ lowFld f 37 3 ≠ 7) &&
  (decide (lowFld f 36 1 = 0) || decide (lowFld f 37 3 = 0 ∨ lowFld f 37 3 = 1 ∨ lowFld f 37 3 = 5)) &&
  (decide (lowFld f 31 5 ≠ 31) || decide (lowFld f 37 3 ≠ 4 ∧ lowFld f 37 3 ≠ 5))
def legalBarrier (f : LinkForm) : Bool := legalSync f.sync && decide (f.b = 0 ∧ f.c = 0 ∧ lowFld f 19 21 = 0)
def legalGate (f : LinkForm) : Bool := legalSync f.sync && decide (f.c = 0 ∧ f.low = 0)
def legalChg (f : LinkForm) : Bool := legalSync f.sync && decide (f.a = 0 ∧ f.c = 0 ∧ lowFld f 1 39 = 0)

/-- The fields a Rod instruction uses (R426): operands used, governing predicate, widths, types, SAT, FN limit, XS,
width of IMM. -/
structure RodUse where
  vd : Bool := true
  va : Bool := true
  vb : Bool := false
  vc : Bool := false
  pen : Bool := true
  w32 : Bool := true
  ty : Nat → Bool := fun t => decide (t = 0)
  sat : Bool := false
  fn : Nat := 1
  xs : Bool := false
  imm : Nat := 0

/-- A Rod word uses only the fields of its row of R426. -/
def legalRod (u : RodUse) (f : RodForm) : Bool :=
  legalSync f.sync && (u.vd || decide (f.vd = 0)) && (u.va || decide (f.va = 0)) && (u.vb || decide (f.vb = 0)) &&
  (u.vc || decide (f.vc = 0)) && (u.pen || decide (f.pen = false ∧ f.pr = 0)) && (u.w32 || !f.w32) && u.ty f.ty.toNat &&
  (!f.sat || (u.sat && decide (f.ty = 1 ∨ f.ty = 2))) && decide (f.fn.toNat < u.fn) && (u.xs || decide (f.xs = 0)) &&
  decide (f.imm.toNat < 2 ^ u.imm)

def ty02 (t : Nat) : Bool := decide (t ≤ 2)
def ty12 (t : Nat) : Bool := decide (t = 1 ∨ t = 2)
/-- VADD, VSUB, VMUL. -/
def legalVarith (f : RodForm) : Bool := legalRod { vb := true, ty := ty02, sat := true } f
def legalVfma (f : RodForm) : Bool := legalRod { vb := true, vc := true } f
/-- VMIN, VMAX. -/
def legalVminmax (f : RodForm) : Bool := legalRod { vb := true, ty := ty02 } f
def legalVcmp (f : RodForm) : Bool := legalRod { vb := true, ty := ty02, fn := 6 } f && decide (f.vd.toNat < 8)
/-- VSEL: PR is the selector, PEN zero. -/
def legalVsel (f : RodForm) : Bool := legalRod { vb := true } f && !f.pen
/-- VAND, VOR, VXOR, VSHL, VSHR. -/
def legalVbit (f : RodForm) : Bool := legalRod { vb := true, ty := ty12 } f
def legalVperm (f : RodForm) : Bool := legalRod { vb := true } f
def legalVperm2 (f : RodForm) : Bool := legalRod { vb := true, vc := true } f
def legalVred (f : RodForm) : Bool := legalRod { ty := ty02, fn := 5 } f
def legalVld (f : RodForm) : Bool := legalRod { va := false, pen := false, w32 := false, xs := true, imm := 14 } f
def legalVst (f : RodForm) : Bool := legalRod { vd := false, pen := false, w32 := false, xs := true, imm := 14 } f
def legalVgather (f : RodForm) : Bool := legalRod { va := false, vb := true, xs := true, imm := 14 } f
def legalVscatter (f : RodForm) : Bool := legalRod { vd := false, vb := true, xs := true, imm := 14 } f
def legalVbcast (f : RodForm) : Bool := legalRod { va := false, xs := true } f
/-- PSET: VA for FN 2 to 4, VB for FN 2 and 3, W32 and XS for FN 5. -/
def legalPset (f : RodForm) : Bool :=
  let n := f.fn.toNat
  legalRod { va := decide (2 ≤ n ∧ n ≤ 4), vb := decide (n = 2 ∨ n = 3), pen := false, w32 := decide (n = 5), fn := 6, xs := decide (n = 5) } f
  && decide (f.vd.toNat < 8 ∧ f.va.toNat < 8 ∧ f.vb.toNat < 8)
/-- TOPK: VC even. -/
def legalTopk (f : RodForm) : Bool :=
  legalRod { vc := true, pen := false, w32 := false, fn := 2, xs := true, imm := 9 } f && decide (f.vc.toNat % 2 = 0)
def legalBisect (f : RodForm) : Bool := legalRod { pen := false, w32 := false, fn := 4 } f
def legalSample (f : RodForm) : Bool := legalRod { pen := false, w32 := false, fn := 2, xs := true, imm := 8 } f
def legalVcvt (f : RodForm) : Bool := legalRod { w32 := false, fn := 2 } f

/-- A host command's reserved bits are zero (R396). -/
def legalHost (c : HostCmd) : Bool := decide (c.zero = 0)
/-- A flit's LEN is at most 240 (R214). -/
def legalFlit (f : Flit) : Bool := decide (f.len.toNat ≤ 240)

end Sys2Proof
end

