-- ==== Sys2Proof/Machine/Bits.lean ====
section
/-! DEFINITION. Bit fields, sign extension, byte order, and the operations of the sparse table `Tab`. -/
namespace Sys2Proof.Machine

/-- The value at key `k`, `d` where nothing is listed. -/
def tget {α : Type} (d : α) : Tab α → Nat → α
  | [], _ => d
  | (k', v) :: r, k => if k' = k then v else tget d r k

/-- `t` with `v` listed at `k`, before the first larger key. -/
def tput {α : Type} : Tab α → Nat → α → Tab α
  | [], k, v => [(k, v)]
  | (k', v') :: r, k, v =>
    if k < k' then (k, v) :: (k', v') :: r
    else if k = k' then (k, v) :: r
    else (k', v') :: tput r k v

/-- `t` with `v` at `k`, canonical form kept: a value equal to the default `d` of that key is not listed. -/
def tset {α : Type} [DecidableEq α] (d : α) (t : Tab α) (k : Nat) (v : α) : Tab α :=
  if v = d then t.filter (fun e => decide (e.1 ≠ k)) else tput t k v

/-- Keys are above `lo` and strictly rising, and no entry equals its default. -/
def twfFrom {α : Type} [DecidableEq α] (d : Nat → α) : Nat → Tab α → Bool
  | _, [] => true
  | lo, (k, v) :: r => decide (lo ≤ k) && decide (v ≠ d k) && twfFrom d (k + 1) r

/-- The canonical form of a table. -/
def twf {α : Type} [DecidableEq α] (d : Nat → α) (t : Tab α) : Bool := twfFrom d 0 t

/-- Entries with keys in [lo, hi). -/
def trange {α : Type} (t : Tab α) (lo hi : Nat) : Tab α := t.filter (fun e => decide (lo ≤ e.1 ∧ e.1 < hi))

/-- The table without the entries whose keys lie in [lo, hi). -/
def tclear {α : Type} (t : Tab α) (lo hi : Nat) : Tab α := t.filter (fun e => !decide (lo ≤ e.1 ∧ e.1 < hi))

/-- Field of `w` bits at bit `lo` of a natural number. -/
def nfld (v lo w : Nat) : Nat := (v >>> lo) % 2 ^ w

/-- Field of `w` bits at bit `lo` of a register. -/
def fld {n : Nat} (r : BitVec n) (lo w : Nat) : Nat := nfld r.toNat lo w

/-- One bit of a register. -/
def flag {n : Nat} (r : BitVec n) (i : Nat) : Bool := r.getLsbD i

/-- `r` with the field of `w` bits at `lo` set to `x` (truncated). -/
def setFld {n : Nat} (r : BitVec n) (lo w x : Nat) : BitVec n :=
  let m : BitVec n := BitVec.ofNat n ((2 ^ w - 1) <<< lo)
  (r &&& ~~~m) ||| (BitVec.ofNat n ((x % 2 ^ w) <<< lo) &&& m)

/-- `r` with bit `i` set to `b`. -/
def setFlag {n : Nat} (r : BitVec n) (i : Nat) (b : Bool) : BitVec n := setFld r i 1 b.toNat

/-- The signed value of a `w`-bit field. -/
def sgn (w x : Nat) : Int := if x % 2 ^ w < 2 ^ (w - 1) then (x % 2 ^ w : Nat) else ((x % 2 ^ w : Nat) : Int) - (2 ^ w : Nat)

/-- The `w`-bit two's-complement field of an integer. -/
def unsgn (w : Nat) (x : Int) : Nat := (x % ((2 ^ w : Nat) : Int)).toNat

/-- Sign extension of a 40-bit immediate (R141). -/
def sext40 (i : BitVec 40) : BitVec 64 := i.signExtend 64

/-- Little-endian value of a byte list (DEDUCED, log 87). -/
def leNat : List Byte → Nat
  | [] => 0
  | b :: r => b.toNat + 256 * leNat r

/-- The `n` little-endian bytes of a value (DEDUCED, log 87). -/
def leBytes : Nat → Nat → List Byte
  | 0, _ => []
  | n + 1, v => BitVec.ofNat 8 v :: leBytes n (v / 256)

/-- Saturating addition at `2^w - 1`. -/
def satAdd (w a b : Nat) : Nat := Nat.min (a + b) (2 ^ w - 1)

/-- a reaches target b modulo 2^w within half the range (R116). -/
def reached (w a b : Nat) : Bool := decide ((a + 2 ^ w - b % 2 ^ w) % 2 ^ w < 2 ^ (w - 1))

/-- a is newer than b, up to half the range ahead (R268, R276). -/
def newer (w a b : Nat) : Bool := reached w a b && decide (a % 2 ^ w ≠ b % 2 ^ w)

/-- Ceiling of a division. -/
def cdiv (a b : Nat) : Nat := (a + b - 1) / b

/-- Numbers lo, lo+1, …, lo+n-1. -/
def upto (lo n : Nat) : List Nat := (List.range n).map (lo + ·)

/-- Two intervals [a, a+n) and [b, b+m) share a point. -/
def overlaps (a n b m : Nat) : Bool := decide (0 < n ∧ 0 < m ∧ a < b + m ∧ b < a + n)

/-- CRC-32C (polynomial 0x1EDC_6F41, reflected 0x82F6_3B78), initial value and final complement all ones. -/
def crcByte (c : Nat) (b : Byte) : Nat :=
  (List.range 8).foldl (fun c _ => if c % 2 = 1 then (c / 2) ^^^ 0x82F63B78 else c / 2) (c ^^^ b.toNat)

/-- CRC-32C of a byte list. -/
def crc32c (l : List Byte) : Nat := (l.foldl crcByte 0xFFFFFFFF) ^^^ 0xFFFFFFFF

end Sys2Proof.Machine
end

