-- ==== Sys2Proof/Machine/Numbers.lean ====
section
/-! DEFINITION. Number formats, exact values, rounding, narrowing, D32 arithmetic and the keyed generator
(02_formats_and_safeguards, R26 to R42). Values are exact: a sign, a natural mantissa and a binary exponent. -/
namespace Sys2Proof.Machine

/-- An exact value: NaN, an infinity, or (-1)^neg * m * 2^e (R26, R32). -/
inductive FVal where
  | nan
  | inf (neg : Bool)
  | fin (neg : Bool) (m : Nat) (e : Int)
  deriving DecidableEq, Repr

/-- An IEEE 754 binary32 word as the Drill Chain holds it (R29). -/
abbrev D32 := BitVec 32

/-- The canonical D32 NaN (R32). -/
def d32NaN : D32 := 0x7FC00000

/-- Floor of log2 of a positive natural. -/
def ilog2 (m : Nat) : Nat := Nat.log2 m

/-- floor(log2) of m * 2^e for m > 0. -/
def topBit (m : Nat) (e : Int) : Int := (ilog2 m : Int) + e

/-- m * 2^e rounded to an integer multiple of 2^q, ties to even: the multiple (R37). -/
def rneTo (m : Nat) (e q : Int) : Nat :=
  if e ≥ q then m * 2 ^ (e - q).toNat
  else
    let k := (q - e).toNat
    let f := m / 2 ^ k
    let r := m % 2 ^ k
    let h := 2 ^ (k - 1)
    if r > h then f + 1 else if r < h then f else f + f % 2

/-- m * 2^e in units of 2^q by R37's stochastic rule with the 12-bit draw `r`. -/
def srTo (r : Nat) (m : Nat) (e q : Int) : Nat :=
  if e ≥ q then m * 2 ^ (e - q).toNat
  else
    let k := (q - e).toNat
    let f := m / 2 ^ k
    let f12 := (m % 2 ^ k) * 4096 / 2 ^ k
    if f12 + r ≥ 4096 then f + 1 else f

/-- A rounding mode: RNE, or SR with its draw (R37). -/
inductive RMode where
  | rne
  | sr (draw : Nat)
  deriving DecidableEq, Repr

/-- Rounding of m * 2^e to a multiple of 2^q under a mode. -/
def roundTo : RMode → Nat → Int → Int → Nat
  | .rne, m, e, q => rneTo m e q
  | .sr r, m, e, q => srTo r m e q

/-! ### Formats -/

/-- Element width in bits of a format code (R26). -/
def fmtBits : Nat → Nat
  | 0 => 16 | 1 => 8 | 2 => 8 | 3 => 6 | 4 => 6 | 5 => 4 | 6 => 8 | 7 => 4 | 8 => 2 | 9 => 2 | 10 => 16 | 11 => 32 | _ => 0

/-- Reserved format codes (R26). -/
def fmtReserved (f : Nat) : Bool := decide (f ≥ 12)

/-- Formats stored as bit planes: fewer than 8 bits. -/
def fmtSub (f : Nat) : Bool := decide (3 ≤ f ∧ f ≤ 5) || decide (7 ≤ f ∧ f ≤ 9)

/-- Formats that carry lifts (R30). -/
def fmtLift (f : Nat) : Bool := decide (1 ≤ f ∧ f ≤ 5)

/-- Integer formats and TERN. -/
def fmtInt (f : Nat) : Bool := decide (6 ≤ f ∧ f ≤ 9)

/-- Top binade b (R26 table). -/
def fmtTop : Nat → Int
  | 0 => 15 | 1 => 8 | 2 => 15 | 3 => 4 | 4 => 2 | 5 => 2 | 6 => 6 | 7 => 2 | _ => 0

/-- Exponent bits, mantissa bits and bias of a floating format. -/
def fmtFloat : Nat → Nat × Nat × Int
  | 0 => (5, 10, 15) | 1 => (4, 3, 7) | 2 => (5, 2, 15) | 3 => (3, 2, 3) | 4 => (2, 3, 1) | 5 => (2, 1, 1)
  | 10 => (8, 7, 127) | 11 => (8, 23, 127) | _ => (0, 0, 0)

/-- Magnitude code of the largest finite value of a floating storage format (sign bit clear). -/
def fmtMaxCode : Nat → Nat
  | 0 => 0x7BFF | 1 => 0x7E | 2 => 0x7B | 3 => 0x1F | 4 => 0x1F | 5 => 0x7 | _ => 0

/-- Largest and lowest integer of the integer formats and TERN (R26). -/
def fmtIntMax : Nat → Int
  | 6 => 127 | 7 => 7 | 8 => 1 | 9 => 1 | _ => 0
def fmtIntMin : Nat → Int
  | 6 => -128 | 7 => -8 | 8 => -2 | 9 => -1 | _ => 0

/-- The value of a floating code with `eb` exponent bits, `mb` mantissa bits and a bias, all exponents finite. -/
def floatVal (eb mb : Nat) (bias : Int) (code : Nat) : FVal :=
  let ex := nfld code mb eb
  let ma := nfld code 0 mb
  let neg := nfld code (mb + eb) 1 = 1
  if ex = 0 then .fin neg ma (1 - bias - mb) else .fin neg (2 ^ mb + ma) ((ex : Int) - bias - mb)

/-- The exact value of a stored element code, before its scale (R26, R27). -/
def decodeElem (f code : Nat) : FVal :=
  if fmtInt f then
    if f = 9 then (if code % 4 = 1 then .fin false 1 0 else if code % 4 = 3 then .fin true 1 0 else .fin false 0 0)
    else
      let v := sgn (fmtBits f) code
      .fin (decide (v < 0)) v.natAbs 0
  else
    let (eb, mb, bias) := fmtFloat f
    let ex := nfld code mb eb
    let ma := nfld code 0 mb
    let neg := nfld code (mb + eb) 1 = 1
    let full := decide (ex = 2 ^ eb - 1)
    if f = 1 then (if full && ma = 7 then .nan else floatVal eb mb bias code)
    else if (f = 0 || f = 2 || f = 10 || f = 11) && full then (if ma = 0 then .inf neg else .nan)
    else floatVal eb mb bias code

/-- v * 2^k, exactly. -/
def FVal.scale (v : FVal) (k : Int) : FVal :=
  match v with
  | .fin n m e => .fin n m (e + k)
  | w => w

/-- Counters that one narrowing moves (R34, R35): clipped, vanished, non-finite. -/
structure NCount where
  clip : Nat := 0
  vanish : Nat := 0
  nonf : Nat := 0
  deriving DecidableEq, Repr

/-- Code of a finite non-negative magnitude of `q` units of 2^u in a floating format, as a plain magnitude code; the
caller has rounded it to the format's precision. -/
def floatCode (eb mb : Nat) (bias : Int) (m : Nat) (e : Int) : Nat :=
  if m = 0 then 0
  else
    let t := topBit m e
    let emin := 1 - bias
    if t < emin then rneTo m e (emin - mb)
    else
      let ma := rneTo m e (t - mb)
      (t + bias).toNat * 2 ^ mb + (ma - 2 ^ mb)

/-- Precision unit (as a power of two) at the binade of m * 2^e, subnormals of the format kept (R34). -/
def floatUnit (mb : Nat) (bias : Int) (m : Nat) (e : Int) : Int := max (topBit m e - mb) (1 - bias - mb)

/-- Narrowing of a true value to a storage format (R34, R35, R37): the code and the counters. `scaleE` is E + L. -/
def narrow (f : Nat) (md : RMode) (scaleE : Int) (v : FVal) : Nat × NCount :=
  if fmtInt f then
    let w := fmtBits f
    match v with
    | .nan => (0, { nonf := 1 })
    | .inf n => (unsgn w (if n then fmtIntMin f else fmtIntMax f), { nonf := 1 })
    | .fin n m e =>
      if m = 0 then (0, {})
      else
        let q := roundTo md m (e - scaleE) 0
        let i : Int := if n then -(q : Int) else q
        if i > fmtIntMax f then (unsgn w (fmtIntMax f), { clip := 1 })
        else if i < fmtIntMin f then (unsgn w (fmtIntMin f), { clip := 1 })
        else (unsgn w i, if q = 0 then { vanish := 1 } else {})
  else
    let (eb, mb, bias) := fmtFloat f
    let sb := 2 ^ (eb + mb)
    match v with
    | .nan => ((match f with | 0 => 0x7E00 | 1 => 0x7F | 2 => 0x7E | 3 => 0x1F | 4 => 0x1F | _ => 0x7), { nonf := 1 })
    | .inf n =>
      ((match f with | 0 => 0x7C00 | 1 => 0x7F | 2 => 0x7C | _ => fmtMaxCode f) + (if n then sb else 0), { nonf := 1 })
    | .fin n m e =>
      let s := if n then sb else 0
      if m = 0 then (s, {})
      else
        let e' := e - scaleE
        let u := floatUnit mb bias m e'
        let q := roundTo md m e' u
        if q = 0 then (s, { vanish := 1 })
        else
          match decodeElem f (fmtMaxCode f) with
          | .fin _ mm me =>
            if q * 2 ^ (u - min u me).toNat > mm * 2 ^ (me - min u me).toNat then (s + fmtMaxCode f, { clip := 1 })
            else (s + floatCode eb mb bias q u, {})
          | _ => (s, {})

/-! ### D32 -/

/-- Value of a D32 word. -/
def d32Val (d : D32) : FVal := decodeElem 11 d.toNat

/-- A magnitude m * 2^e already a multiple of its D32 unit, packed with a sign; 2^128 and above is infinite. -/
def d32Pack (neg : Bool) (m : Nat) (e : Int) : D32 :=
  let s : Nat := if neg then 0x80000000 else 0
  if m = 0 then BitVec.ofNat 32 s
  else if topBit m e ≥ 128 then BitVec.ofNat 32 (s + 0x7F800000)
  else BitVec.ofNat 32 (s + floatCode 8 23 127 m e)

/-- Rounding of an exact value to D32 by RNE: subnormals kept, overflow to infinity (R29, R32, R80). -/
def toD32 : FVal → D32
  | .nan => d32NaN
  | .inf n => if n then 0xFF800000 else 0x7F800000
  | .fin n m e =>
    if m = 0 then d32Pack n 0 0
    else
      let u := floatUnit 23 127 m e
      d32Pack n (rneTo m e u) u

/-- The words that are NaN. -/
def isNaN (d : D32) : Bool := decide (d32Val d = .nan)
/-- The words that are infinite or NaN. -/
def nonFinite (d : D32) : Bool := match d32Val d with | .fin .. => false | _ => true

/-- Sum of two exact values under IEEE 754 rules for zeros, infinities and NaN (RNE sign of an exact zero: +). -/
def FVal.add : FVal → FVal → FVal
  | .nan, _ => .nan
  | _, .nan => .nan
  | .inf a, .inf b => if a = b then .inf a else .nan
  | .inf a, _ => .inf a
  | _, .inf b => .inf b
  | .fin n1 m1 e1, .fin n2 m2 e2 =>
    if m1 = 0 ∧ m2 = 0 then .fin (n1 && n2) 0 0
    else
      let q := min e1 e2
      let a : Int := (m1 * 2 ^ (e1 - q).toNat : Nat)
      let b : Int := (m2 * 2 ^ (e2 - q).toNat : Nat)
      let s := (if n1 then -a else a) + (if n2 then -b else b)
      .fin (decide (s < 0)) s.natAbs q

/-- Product of two exact values under IEEE 754 rules. -/
def FVal.mul : FVal → FVal → FVal
  | .nan, _ => .nan
  | _, .nan => .nan
  | .inf a, .inf b => .inf (a != b)
  | .inf a, .fin n m _ => if m = 0 then .nan else .inf (a != n)
  | .fin n m _, .inf b => if m = 0 then .nan else .inf (n != b)
  | .fin n1 m1 e1, .fin n2 m2 e2 => .fin (n1 != n2) (m1 * m2) (e1 + e2)

/-- Negation. -/
def FVal.neg : FVal → FVal
  | .nan => .nan
  | .inf n => .inf (!n)
  | .fin n m e => .fin (!n) m e

def d32Add (a b : D32) : D32 := toD32 ((d32Val a).add (d32Val b))
def d32Mul (a b : D32) : D32 := toD32 ((d32Val a).mul (d32Val b))
/-- Fused multiply-add, one rounding. -/
def d32Fma (a b c : D32) : D32 := toD32 (((d32Val a).mul (d32Val b)).add (d32Val c))

/-- Order key of a D32 word under R90: NaN above every number, +0 above -0. -/
def d32Key (d : D32) : Int :=
  if isNaN d then 0x100000000
  else if flag d 31 then -1 - (fld d 0 31 : Int) else fld d 0 31

/-- IEEE 754 comparison a < b: false for NaN and between zeros. -/
def FVal.lt : FVal → FVal → Bool
  | .nan, _ => false
  | _, .nan => false
  | .inf a, .inf b => a && !b
  | .inf a, .fin .. => a
  | .fin .., .inf b => !b
  | .fin n1 m1 e1, .fin n2 m2 e2 =>
    let q := min e1 e2
    let a : Int := (m1 * 2 ^ (e1 - q).toNat : Nat)
    let b : Int := (m2 * 2 ^ (e2 - q).toNat : Nat)
    decide ((if n1 then -a else a) < (if n2 then -b else b))

/-- IEEE 754 equality. -/
def FVal.eq : FVal → FVal → Bool
  | .nan, _ => false
  | _, .nan => false
  | .inf a, .inf b => a == b
  | .inf _, .fin .. => false
  | .fin .., .inf _ => false
  | .fin n1 m1 e1, .fin n2 m2 e2 =>
    let q := min e1 e2
    let a : Int := (m1 * 2 ^ (e1 - q).toNat : Nat)
    let b : Int := (m2 * 2 ^ (e2 - q).toNat : Nat)
    decide ((if n1 then -a else a) = (if n2 then -b else b))

/-- The larger and the smaller of two D32 values; NaN if either is NaN; +0 counts as the larger zero (R424, R101). -/
def d32Max (a b : D32) : D32 := if isNaN a || isNaN b then d32NaN else if d32Key a ≥ d32Key b then a else b
def d32Min (a b : D32) : D32 := if isNaN a || isNaN b then d32NaN else if d32Key a ≤ d32Key b then a else b

/-! ### FP16 lanes of the Rod Engine (R99) -/

/-- Rounding of an exact value to FP16 by RNE with IEEE overflow to infinity and the canonical NaN 0x7E00. -/
def toFP16 (v : FVal) : Nat :=
  match v with
  | .nan => 0x7E00
  | .inf n => if n then 0xFC00 else 0x7C00
  | .fin n m e =>
    let s := if n then 0x8000 else 0
    if m = 0 then s
    else
      let u := floatUnit 10 15 m e
      let q := rneTo m e u
      if q = 0 then s
      else if topBit q u ≥ 16 then s + 0x7C00
      else s + floatCode 5 10 15 q u

/-- Rounding of an exact value to BF16 by RNE (R36): NaN leaves as 0x7FC0. -/
def toBF16 (v : FVal) : Nat :=
  match v with
  | .nan => 0x7FC0
  | .inf n => if n then 0xFF80 else 0x7F80
  | .fin n m e =>
    let s := if n then 0x8000 else 0
    if m = 0 then s
    else
      let u := floatUnit 7 127 m e
      let q := rneTo m e u
      if q = 0 then s
      else if topBit q u ≥ 128 then s + 0x7F80
      else s + floatCode 8 7 127 q u

/-! ### The keyed generator (R39) -/

/-- One round of Philox4x32. -/
def philoxRound (c : BitVec 32 × BitVec 32 × BitVec 32 × BitVec 32) (k0 k1 : BitVec 32) :
    BitVec 32 × BitVec 32 × BitVec 32 × BitVec 32 :=
  let (c0, c1, c2, c3) := c
  let p0 := 0xD2511F53 * c0.toNat
  let p1 := 0xCD9E8D57 * c2.toNat
  (BitVec.ofNat 32 (p1 >>> 32) ^^^ c1 ^^^ k0, BitVec.ofNat 32 p1, BitVec.ofNat 32 (p0 >>> 32) ^^^ c3 ^^^ k1, BitVec.ofNat 32 p0)

/-- `n` rounds, the key bumped between rounds. -/
def philoxRounds : Nat → BitVec 32 × BitVec 32 × BitVec 32 × BitVec 32 → BitVec 32 → BitVec 32 →
    BitVec 32 × BitVec 32 × BitVec 32 × BitVec 32
  | 0, c, _, _ => c
  | n + 1, c, k0, k1 => philoxRounds n (philoxRound c k0 k1) (k0 + 0x9E3779B9) (k1 + 0xBB67AE85)

/-- Output word 0 of Philox4x32-10. -/
def philox (key : BitVec 64) (c0 c1 c2 c3 : BitVec 32) : BitVec 32 :=
  (philoxRounds 10 (c0, c1, c2, c3) (key.truncate 32) (BitVec.ofNat 32 (key.toNat >>> 32))).1

/-- The 12-bit stochastic-rounding draw of an element (R39). -/
def srDraw (seed : BitVec 64) (step : BitVec 32) (tid : Nat) (elem : Nat) : Nat :=
  (philox seed (BitVec.ofNat 32 elem) (BitVec.ofNat 32 (elem >>> 32)) step (BitVec.ofNat 32 (tid % 2 ^ 30))).toNat % 4096

/-- The 24-bit sampling draw (R40), in units of 2^-24. -/
def sampleDraw (seed : BitVec 64) (pos draw ident : BitVec 32) : Nat :=
  (philox seed pos draw ident 0x40000000).toNat >>> 8

/-! ### Scale exponents and lifts -/

/-- floor(log2 |v|) of a finite non-zero value, `none` otherwise (R41, R42). -/
def amaxExp : FVal → Option Int
  | .fin _ m e => if m = 0 then none else some (topBit m e)
  | _ => none

/-- Largest amax exponent of a list of values. -/
def amaxOf (l : List FVal) : Option Int :=
  l.foldl (fun a v => match a, amaxExp v with
    | none, b => b
    | some x, some y => some (max x y)
    | some x, none => some x) none

/-- The lift of a block with the given values in format `f` at tensor exponent `E` (R42). -/
def liftFor (f : Nat) (E : Int) (block : List FVal) : Nat :=
  match amaxOf block with
  | none => 0
  | some b => (max 0 (min 15 (b + 1 - fmtTop f - E))).toNat

/-- The tensor exponent from the largest history amax exponent, before R31's clamp (R41). -/
def exponentFor (f : Nat) (a : Int) : Int := if fmtLift f then a + 3 - fmtTop f - 15 else a + 3 - fmtTop f

end Sys2Proof.Machine
end

