-- ==== Sys2Proof/Machine/Functions.lean ====
section
/-! DEFINITION. Correctly rounded functions (R48, R87, R93, R288, R295). Reciprocals and roots are exact integer
quotients with a sticky bit. Transcendental functions are enclosed in integer intervals at 2^-P, and P is doubled until
both ends round alike (the exact value is never a tie). -/
namespace Sys2Proof.Machine

/-! ### Rational results -/

/-- floor(a / b) with a sticky low bit, as a mantissa with one more bit. -/
def stickyDiv (a b : Nat) : Nat := 2 * (a / b) + (if a % b = 0 then 0 else 1)

/-- The value n1*2^e1 / (m2*2^e2) to at least 64 bits with a sticky bit below them. -/
def quotVal (neg : Bool) (m1 : Nat) (e1 : Int) (m2 : Nat) (e2 : Int) : FVal :=
  let k := ilog2 m2 + 512
  .fin neg (stickyDiv (m1 * 2 ^ k) m2) (e1 - e2 - k - 1)

/-- Integer square root by bisection on bits. -/
def isqrtStep (n : Nat) : Nat → Nat → Nat
  | 0, r => r
  | b + 1, r => let c := r + 2 ^ b; isqrtStep n b (if c * c ≤ n then c else r)
def isqrt (n : Nat) : Nat := isqrtStep n (n.log2 / 2 + 1) 0

/-- 1 / x correctly rounded to D32 from an exact value (RCP of R87, ROWF_KIND 0 of R93). -/
def rcpD32 : FVal → D32
  | .nan => d32NaN
  | .inf n => toD32 (.fin n 0 0)
  | .fin n m e => if m = 0 then toD32 (.inf n) else toD32 (quotVal n 1 0 m e)

/-- 1 / sqrt(x) correctly rounded to D32 (RSQRT of R87, ROWF_KIND 1 of R93). -/
def rsqrtD32 : FVal → D32
  | .nan => d32NaN
  | .inf n => if n then d32NaN else 0
  | .fin n m e =>
    if m = 0 then toD32 (.inf n)
    else if n then d32NaN
    else
      let (m', e') := if e % 2 = 0 then (m, e) else (2 * m, e - 1)
      let k := ilog2 m' + 256
      let q := 2 ^ (2 * k) / m'
      let r := isqrt q
      let sticky := if r * r * m' = 2 ^ (2 * k) then 0 else 1
      toD32 (.fin false (2 * r + sticky) (-(k : Int) - e' / 2 - 1))

/-- sqrt(x) correctly rounded to D32 (sqrt_cr of R95). -/
def sqrtD32 (d : D32) : D32 :=
  match d32Val d with
  | .nan => d32NaN
  | .inf n => if n then d32NaN else 0x7F800000
  | .fin n m e =>
    if m = 0 then d
    else if n then d32NaN
    else
      let (m', e') := if e % 2 = 0 then (m, e) else (2 * m, e - 1)
      let q := m' * 2 ^ 128
      let r := isqrt q
      toD32 (.fin false (2 * r + (if r * r = q then 0 else 1)) (e' / 2 - 64 - 1))

/-! ### Intervals at 2^-P -/

/-- An enclosure lo <= 2^P * value <= hi. -/
structure Iv where
  lo : Int
  hi : Int
  deriving DecidableEq, Repr

def Iv.add (a b : Iv) : Iv := ⟨a.lo + b.lo, a.hi + b.hi⟩
def Iv.sub (a b : Iv) : Iv := ⟨a.lo - b.hi, a.hi - b.lo⟩

/-- Floor and ceiling of an integer over a positive natural. -/
def fdiv (a : Int) (b : Nat) : Int := a.fdiv b
def cdivI (a : Int) (b : Nat) : Int := -((-a).fdiv b)

/-- Product at 2^-P, rounded outward. -/
def Iv.mul (P : Nat) (a b : Iv) : Iv :=
  let p1 := a.lo * b.lo
  let p2 := a.lo * b.hi
  let p3 := a.hi * b.lo
  let p4 := a.hi * b.hi
  ⟨fdiv (min (min p1 p2) (min p3 p4)) (2 ^ P), cdivI (max (max p1 p2) (max p3 p4)) (2 ^ P)⟩

/-- Division by a positive natural, rounded outward. -/
def Iv.divN (a : Iv) (n : Nat) : Iv := ⟨fdiv a.lo n, cdivI a.hi n⟩

/-- 1 / a at 2^-P for a positive enclosure. -/
def Iv.inv (P : Nat) (a : Iv) : Iv :=
  if a.lo ≤ 0 then ⟨0, 2 ^ (4 * P)⟩
  else ⟨fdiv (2 ^ (2 * P)) a.hi.toNat, cdivI (2 ^ (2 * P)) a.lo.toNat⟩

/-- An exact value as an enclosure at 2^-P. -/
def ivOf (P : Nat) (neg : Bool) (m : Nat) (e : Int) : Iv :=
  let sgnd : Int := if neg then -(m : Int) else m
  let k := e + P
  if k ≥ 0 then ⟨sgnd * 2 ^ k.toNat, sgnd * 2 ^ k.toNat⟩
  else ⟨fdiv sgnd (2 ^ (-k).toNat), cdivI sgnd (2 ^ (-k).toNat)⟩

/-- Sum of z^(2i+1)/(2i+1) (atanh), `n` terms, for |z| <= 1/2, with its tail. -/
def atanhTerms (P : Nat) (z2 : Iv) : Nat → Nat → Iv → Iv → Iv
  | 0, _, t, acc => ⟨acc.lo - 2 * t.lo.natAbs - 2 * t.hi.natAbs - 2, acc.hi + 2 * t.lo.natAbs + 2 * t.hi.natAbs + 2⟩
  | n + 1, i, t, acc => atanhTerms P z2 n (i + 1) (t.mul P z2) (acc.add (t.divN (2 * i + 1)))
def ivAtanh (P : Nat) (z : Iv) : Iv := atanhTerms P (z.mul P z) (P / 2 + 4) 0 z ⟨0, 0⟩

/-- ln 2 = 2 atanh(1/3). -/
def ivLn2 (P : Nat) : Iv :=
  let a := ivAtanh P ⟨fdiv (2 ^ P) 3, cdivI (2 ^ P) 3⟩
  a.add a

/-- Sum of y^i / i!, `n` terms, for |y| <= 1, with its tail. -/
def expTerms (P : Nat) (y : Iv) : Nat → Nat → Iv → Iv → Iv
  | 0, _, t, acc => ⟨acc.lo - 2 * t.lo.natAbs - 2 * t.hi.natAbs - 2, acc.hi + 2 * t.lo.natAbs + 2 * t.hi.natAbs + 2⟩
  | n + 1, i, t, acc => expTerms P y n (i + 1) ((t.mul P y).divN (i + 1)) (acc.add t)
def ivExpSmall (P : Nat) (y : Iv) : Iv := expTerms P y (P / 2 + 8) 0 ⟨2 ^ P, 2 ^ P⟩ ⟨0, 0⟩

/-- e^y as (enclosure of e^r in about [0.7, 2.1], k): e^y = e^r * 2^k. -/
def ivExp (P : Nat) (y : Iv) : Iv × Int :=
  let l := ivLn2 P
  let k := y.lo.fdiv l.lo
  let kl : Iv := if k ≥ 0 then ⟨k * l.lo, k * l.hi⟩ else ⟨k * l.hi, k * l.lo⟩
  (ivExpSmall P (y.sub kl), k)

/-- ln of m * 2^e, m > 0. -/
def ivLn (P : Nat) (m : Nat) (e : Int) : Iv :=
  let t := ilog2 m
  let num := m - 2 ^ t
  let den := m + 2 ^ t
  let z : Iv := ⟨fdiv ((num : Int) * 2 ^ P) den, cdivI ((num : Int) * 2 ^ P) den⟩
  let a := ivAtanh P z
  let l := ivLn2 P
  let k : Int := e + t
  let kl : Iv := if k ≥ 0 then ⟨k * l.lo, k * l.hi⟩ else ⟨k * l.hi, k * l.lo⟩
  (a.add a).add kl

/-- sum of (-1)^i z^(2i+1)/(2i+1) for z = 1/q (arctangent), `n` terms. -/
def atanTerms (P q : Nat) : Nat → Nat → Iv → Iv → Iv
  | 0, _, t, acc => ⟨acc.lo - 2 * t.hi.natAbs - 2, acc.hi + 2 * t.hi.natAbs + 2⟩
  | n + 1, i, t, acc =>
    atanTerms P q n (i + 1) (t.divN (q * q))
      (if i % 2 = 0 then acc.add (t.divN (2 * i + 1)) else acc.sub (t.divN (2 * i + 1)))
def ivAtanInv (P q : Nat) : Iv := atanTerms P q (P / 4 + 4) 0 ⟨fdiv (2 ^ P) q, cdivI (2 ^ P) q⟩ ⟨0, 0⟩

/-- pi = 16 atan(1/5) - 4 atan(1/239). -/
def ivPi (P : Nat) : Iv :=
  let a := ivAtanInv P 5
  let b := ivAtanInv P 239
  ⟨16 * a.lo - 4 * b.hi, 16 * a.hi - 4 * b.lo⟩

/-- sqrt of a positive enclosure. -/
def ivSqrt (P : Nat) (a : Iv) : Iv := ⟨isqrt (a.lo.toNat * 2 ^ P), isqrt (a.hi.toNat * 2 ^ P) + 1⟩

/-- Sum of x^(2i+1) / (1*3*..*(2i+1)), `n` terms; the ratio x2/(2i+3) is below 1/2 at the cut. -/
def phiTerms (P : Nat) (x2 : Iv) : Nat → Nat → Iv → Iv → Iv
  | 0, _, t, acc => ⟨acc.lo - 2 * t.lo.natAbs - 2 * t.hi.natAbs - 2, acc.hi + 2 * t.lo.natAbs + 2 * t.hi.natAbs + 2⟩
  | n + 1, i, t, acc => phiTerms P x2 n (i + 1) ((t.mul P x2).divN (2 * i + 3)) (acc.add t)

/-- Phi(x) = 1/2 (1 + erf(x/sqrt 2)) for |x| <= 20. -/
def ivPhi (P : Nat) (x : Iv) : Iv :=
  let x2 := x.mul P x
  let (ex, k) := ivExp P ((⟨-x2.hi, -x2.lo⟩ : Iv).divN 2)
  let pdf0 := ex.mul P ((ivSqrt P (let p := ivPi P; p.add p)).inv P)
  let pdf : Iv := if k ≥ 0 then ⟨pdf0.lo * 2 ^ k.toNat, pdf0.hi * 2 ^ k.toNat⟩ else pdf0.divN (2 ^ (-k).toNat)
  let sm := phiTerms P x2 (P + 512) 0 x ⟨0, 0⟩
  let h : Int := 2 ^ (P - 1)
  (⟨h, h⟩ : Iv).add (pdf.mul P sm)

/-! ### Rounding an enclosure -/

/-- Doubles the precision from `P` until both ends of the enclosure round alike under `rnd`. -/
def ziv {β : Type} [DecidableEq β] (approx : Nat → Iv × Int) (rnd : Int → Int → β) : Nat → Nat → β
  | 0, P => let (iv, k) := approx P; rnd iv.lo (k - P)
  | f + 1, P =>
    let (iv, k) := approx P
    let a := rnd iv.lo (k - P)
    if a = rnd iv.hi (k - P) then a else ziv approx rnd f (2 * P)

/-- An integer times a power of two as an exact value. -/
def ofInt (i : Int) (e : Int) : FVal := .fin (decide (i < 0)) i.natAbs e

/-- D32 rounding of an integer times a power of two. -/
def rndD32 (i e : Int) : D32 := toD32 (ofInt i e)

/-- Rounding of 1 <= value <= 2 to `bits` significant bits: units of 2^(1-bits). -/
def rndSig (bits : Nat) (i e : Int) : Nat := rneTo i.natAbs e (1 - (bits : Int))

/-- λ: log2(e) rounded to D32 (R48). -/
def d32Lambda : D32 := 0x3FB8AA3B

/-- How R48 decomposes its argument: an exact zero, an infinity, NaN, or the pair (n, f) with t = n + f. -/
inductive ExpArg where
  | zero
  | inf
  | nan
  | pair (n : Int) (fm : Nat) (fe : Int)
  deriving DecidableEq, Repr

/-- floor and fraction of a finite value. -/
def floorFrac (neg : Bool) (m : Nat) (e : Int) : Int × Nat × Int :=
  if e ≥ 0 then ((if neg then -1 else 1) * ((m * 2 ^ e.toNat : Nat) : Int), 0, 0)
  else
    let k := (-e).toNat
    let i : Int := if neg then -(m : Int) else m
    let n := i.fdiv (2 ^ k)
    (n, (i - n * 2 ^ k).toNat, e)

/-- (n, f) of a D32 word t (R48); beyond 2^14 in magnitude n is held there, where every use of the pair already overflows or vanishes. -/
def expSplit (t : D32) : ExpArg :=
  match d32Val t with
  | .nan => .nan
  | .inf n => if n then .zero else .inf
  | .fin neg m e => let (n, fm, fe) := floorFrac neg m e; .pair (max (-16384) (min n 16384)) fm fe

/-- 2^f correctly rounded to `bits` significant bits, in units of 2^(1-bits); between 2^(bits-1) and 2^bits (R48). -/
def pow2Sig (bits fm : Nat) (fe : Int) : Nat :=
  if fm = 0 then 2 ^ (bits - 1)
  else ziv (fun P => (ivExpSmall P ((ivOf P false fm fe).mul P (ivLn2 P)), 0)) (rndSig bits) 8 96

/-- The renormalised pair of R48 at a precision: (n, g in units of 2^(1-bits)) with g in [1, 2). -/
def expPair (bits : Nat) (n : Int) (fm : Nat) (fe : Int) : Int × Nat :=
  let g := pow2Sig bits fm fe
  if g = 2 ^ bits then (n + 1, 2 ^ (bits - 1)) else (n, g)

/-- 2^n * g as an exact value, by R48 from a D32 argument x. -/
def expVal (x : D32) : FVal :=
  match expSplit (d32Mul x d32Lambda) with
  | .nan => .nan
  | .zero => .fin false 0 0
  | .inf => .inf false
  | .pair n fm fe => let (n', g) := expPair 24 n fm fe; .fin false g (n' - 23)

/-- ln x correctly rounded to D32 (R87). -/
def lnD32 (d : D32) : D32 :=
  match d32Val d with
  | .nan => d32NaN
  | .inf n => if n then d32NaN else 0x7F800000
  | .fin n m e =>
    if m = 0 then 0xFF800000
    else if n then d32NaN
    else if m = 2 ^ ilog2 m ∧ topBit m e = 0 then 0
    else ziv (fun P => (ivLn P m e, 0)) rndD32 8 128

/-- base - ln S correctly rounded to FP32, for S = m * 2^e > 0 (LOGP and LSE of R93; `negate` gives ln S). -/
def logpD32 (base : FVal) (m : Nat) (e : Int) : D32 :=
  match base with
  | .fin n bm be =>
    if m = 2 ^ ilog2 m ∧ topBit m e = 0 then toD32 base
    else ziv (fun P => ((ivOf P n bm be).sub (ivLn P m e), 0)) rndD32 8 512
  | v => toD32 v
def lseD32 (m : Nat) (e : Int) : D32 :=
  if m = 2 ^ ilog2 m ∧ topBit m e = 0 then 0 else ziv (fun P => (ivLn P m e, 0)) rndD32 8 512

/-- x = m * 2^e with |x| >= 2^b. -/
def magGe (m : Nat) (e : Int) (b : Int) : Bool := decide (m ≠ 0) && decide (topBit m e ≥ b)

/-- sigmoid(x) enclosed, for |x| < 256. -/
def ivSigmoid (P : Nat) (neg : Bool) (m : Nat) (e : Int) : Iv × Int :=
  let (u, k) := ivExp P (ivOf P true m e)
  let one : Iv := ⟨2 ^ P, 2 ^ P⟩
  let w : Iv := if k ≥ 0 then ⟨u.lo * 2 ^ k.toNat, u.hi * 2 ^ k.toNat⟩ else u.divN (2 ^ (-k).toNat)
  let s := (one.add w).inv P
  if neg then (u.mul P s, k) else (s, 0)

/-- SIGMOID (R87). -/
def sigmoidD32 (d : D32) : D32 :=
  match d32Val d with
  | .nan => d32NaN
  | .inf n => if n then 0 else 0x3F800000
  | .fin n m e =>
    if m = 0 then 0x3F000000
    else if magGe m e 8 then (if n then 0 else 0x3F800000)
    else ziv (fun P => ivSigmoid P n m e) rndD32 8 192

/-- SILU (R87). -/
def siluD32 (d : D32) : D32 :=
  match d32Val d with
  | .nan => d32NaN
  | .inf n => if n then 0x80000000 else 0x7F800000
  | .fin n m e =>
    if m = 0 then d
    else if magGe m e 8 then (if n then 0x80000000 else d)
    else
      ziv (fun P => let (s, k) := ivSigmoid P n m e; (⟨(if n then -(s.hi * m) else s.lo * m), (if n then -(s.lo * m) else s.hi * m)⟩, k + e))
        rndD32 8 192

/-- GELU (R87). -/
def geluD32 (d : D32) : D32 :=
  match d32Val d with
  | .nan => d32NaN
  | .inf n => if n then 0x80000000 else 0x7F800000
  | .fin n m e =>
    if m = 0 then d
    else if magGe m e 5 then (if n then 0x80000000 else d)
    else
      ziv (fun P => let s := ivPhi P (ivOf P n m e)
                    (⟨(if n then -(s.hi * m) else s.lo * m), (if n then -(s.lo * m) else s.hi * m)⟩, e))
        rndD32 6 768

/-- log2 of m * 2^e minus the exact value t, times 2^11, rounded under a mode to an integer (Q of R288). -/
def qOffset (md : RMode) (m : Nat) (e : Int) (tn : Bool) (tm : Nat) (te : Int) : Int :=
  let rnd (i k : Int) : Int :=
    let q := roundTo md i.natAbs (k + 11) 0
    if i < 0 then -(q : Int) else q
  if m = 2 ^ ilog2 m then
    match (FVal.fin (decide (topBit m e < 0)) (topBit m e).natAbs 0).add (.fin (!tn) tm te) with
    | .fin n m' e' => let q := roundTo md m' (e' + 11) 0; if n then -(q : Int) else q
    | _ => 0
  else
    ziv (fun P =>
      let l := ivLn P m e
      let inv := (ivLn2 P).inv P
      ((l.mul P inv).sub (ivOf P tn tm te), 0)) rnd 8 512

end Sys2Proof.Machine
end

