-- ==== Sys2Proof/Config.lean ====
section
/-! DEFINITION. What one module or one firmware image fixes and what the spec leaves open: constants without a body, so
that no proof can see a value of them. A claim holds whatever they are. The step reads and advances State.free for a
fresh value each time. -/
namespace Sys2Proof

/-- A free choice of one bit: which word of a race stands (R114, R183), which words of a stopped instruction were
written (R127, R354; DESIGN CHOICE, log 4). -/
opaque Config.freeBit : Nat → Bool

/-- A free 64-bit value (DESIGN CHOICE, log 4). -/
opaque Config.freeWord : Nat → BitVec 64

/-- MGT_SERIAL, fused (R407). -/
opaque Config.serial : BitVec 64

/-- MGT_ID [63:32]: version and build of the firmware image of a bring-up (R407). -/
opaque Config.firmwareId : Nat → BitVec 32

/-- The services firmware assigns to Prefect core `k` at its `n`-th assignment (R14; DESIGN CHOICE, log 74). -/
opaque Config.services : (n k : Nat) → BitVec 8

/-- The values that the self-calibration of the `n`-th bring-up produced (R406), bytes 0x40 to 0x5_CFFF (DEDUCED, log 76). -/
opaque Config.selfCalibration : (n : Nat) → List Byte

/-- The factory contents of the calibration store, bytes 0x40 to 0x5_CFFF, and WRITES and the time word of its header
(18_host_bringup_calibration; DEDUCED, log 76). -/
opaque Config.factoryCal : List Byte
opaque Config.factoryWrites : BitVec 16
opaque Config.factoryTime : BitVec 64

/-- D of R258: the longest barrier release, in ns, over the routes of the class list (DEDUCED, log 54). -/
opaque Config.barrierNs : (list : Nat) → Nat

/-- The bytes of a Report Card field that the state does not hold (R360; DESIGN CHOICE, log 73). -/
opaque Config.reportByte : (n off : Nat) → Byte

/-- How a Report Card packs the values of a field into its bytes; `n` tells apart the parts that the state does not hold (R360; DESIGN
CHOICE, log 73). -/
opaque Config.packField : (n place : Nat) → (values : List Nat) → (off : Nat) → Byte

/-- Whether a field of the `n`-th capture does not answer within 1 µs (R359; DESIGN CHOICE, log 73). -/
opaque Config.silent : (n field : Nat) → Bool

/-- The bit of BOOT_UNIT that stands for a port (R404; DESIGN CHOICE, log 77). -/
opaque Config.bootBit : (port : Nat) → Fin 8

/-- Whether a modified Hall line cannot be written back before a die reset (R361; DESIGN CHOICE, log 71). -/
opaque Config.backFails : (n line : Nat) → Bool

/-- Whether every seat holds, at a module time, a set of a step in a tier, 1 Archive or 2 shared store (R345; DEDUCED, log 67). -/
opaque Config.setHeld : (time : BitVec 64) → (tier step : Nat) → Bool

/-- The seat at which a read of that set fails, none where every extent reads (R345; DEDUCED, log 67). -/
opaque Config.setFails : (time : BitVec 64) → (tier step : Nat) → Option (BitVec 10)

/-- The bytes of this seat's part of that set (DEDUCED, log 67). -/
opaque Config.setByte : (time : BitVec 64) → (tier step off : Nat) → Byte

/-- Sheets of the area that the buddy holds armed for this seat at a module time, as the job service learns them (R328; DEDUCED, log 67). -/
opaque Config.partnerArea : (time : BitVec 64) → Nat

/-- LNK_PORTn_NBR of the module whose seat a spare takes at a module time (R342; DEDUCED, log 69). -/
opaque Config.failedNbr : (time : BitVec 64) → (port : Nat) → BitVec 64

/-- The scale exponent of a tensor that travels inside a layer image, none where the image carries none (R274; DESIGN CHOICE, log 46). -/
opaque Config.imageExp : (image : List Byte) → (tid : Nat) → Option Int

/-- Bytes of the RoCE v2 queue-pair and remote-region block that CKP_STORE_SET names (R396). -/
opaque Config.roceBytes : Nat

/-- The replacement descriptor and the source list (R271, R273), whose layout in memory the spec does not give: their sizes,
and what a descriptor's bytes name: L, the ranges of a layer, the staging buffers A and B and their length, the START Bell,
and the address of the replacement record. -/
opaque Config.replBytes : Nat
opaque Config.sourceBytes : Nat
opaque Config.replLayers : List Byte → Nat
opaque Config.replRanges : List Byte → (layer : Nat) → List (Nat × Nat)
opaque Config.replStaging : List Byte → Nat × Nat × Nat
opaque Config.replBell : List Byte → BitVec 19
opaque Config.replRecord : List Byte → Nat

end Sys2Proof
end

