-- ==== Sys2Proof/Machine/State.lean ====
section
/-! DEFINITION. The state of the block as plain data: every register, memory, queue, counter and mode that the spec gives
the module, the queue of waiting commands, and the model's own fields (each named in a log entry). Every sparse store is
a `Tab` in canonical form, or a list of `Host.Cell` for bytes. -/
namespace Sys2Proof.Machine

/-! ### One tile (05_tile_programming_model) -/

/-- A Row Abacus entry (R88). -/
structure RowEntry where
  sum : BitVec 384 := 0
  max : BitVec 32 := 0
  maxv : Bool := false
  pick : BitVec 32 := 0
  pickv : Bool := false
  dup : Bool := false
  mark : Bool := false
  count : Nat := 0
  deriving DecidableEq, Repr

/-- A tensor card as captured at issue (R108): its D register, its 256 bits and the BASE of D[LIFT_D]. -/
structure Card where
  reg : Nat := 0
  w : BitVec 256 := 0
  liftBase : Nat := 0
  deriving DecidableEq, Repr

/-- An engine instruction with everything it captures at issue (R108, R140). -/
inductive EngineOp where
  | mmul (slot : Nat) (acc : Bool) (a b : Card) (k0 k : Nat)
  | ladd (slot : Nat) (c : Card) (n : Nat)
  | abmode (fused : Bool)
  | att (slot : Nat) (fused : Bool) (off : Nat) (card : List Byte) (plist : List Byte) (q o st : Card)
      (step : BitVec 32) (seed : BitVec 64)
  | drill (fused : Bool) (card ext : List Byte) (cin cout op2 aux cm cv cw : Card) (step : BitVec 32) (seed : BitVec 64)
  | rod (opc : Nat) (f : RodForm) (x : BitVec 64) (seed : BitVec 64)
  | move (mode : Nat) (src dst : Card)
  | pack (desc : List Byte) (res : Nat)
  | put (seat : Nat) (rrem : Bool) (src dst : Card)
  | get (seat : Nat) (src dst : Card)
  | rring (seat : Nat) (bell : BitVec 19) (inc : BitVec 8)
  | coll (cl op : Nat) (exact : Bool) (src dst : Card) (count x1 : BitVec 64)
  | barrier (cl : Nat) (bell : BitVec 19)
  | gate (cl res : Nat) (step : BitVec 32)
  | commit (cl res : Nat) (step : BitVec 32)
  | chg (layout : Bool) (res : Nat) (step : BitVec 32)
  deriving DecidableEq, Repr

/-- An issued, unstarted instruction (R107, R112). `seq` is its place in the tile's issue order, `attempt` the run of
its job's attempt in which it issued, 0 where TILE_STEP was not NEXT then (R252, R255). -/
structure QInstr where
  seq : Nat
  pc : BitVec 64
  w0 : BitVec 64
  w1 : BitVec 64
  wait : Option (BitVec 19 × BitVec 32)
  ring : Option (BitVec 19 × BitVec 8)
  op : EngineOp
  attempt : Nat := 0
  deriving DecidableEq, Repr

/-- A pending write of one byte: canonical address, the bits it writes, their values. -/
structure PW where
  addr : Nat
  mask : Byte
  val : Byte
  deriving DecidableEq, Repr

/-- An execution fault an instruction will raise when it completes: code, INFO0, INFO1. -/
structure ExecFault where
  code : BitVec 8
  info0 : BitVec 64
  info1 : BitVec 64
  deriving DecidableEq, Repr

/-- A scalar access in flight (R142): an LD with its destination and data, a posted ST, or a BRING behind STs. -/
inductive Access where
  | ld (seq : Nat) (pc : BitVec 64) (rd : BitVec 5) (addr : Nat) (data : BitVec 64) (fail : Option ExecFault)
  | st (seq : Nat) (pc : BitVec 64) (addr : Nat) (writes : List PW) (fail : Option ExecFault)
  | bring (bell : BitVec 19) (inc : BitVec 8)
  deriving DecidableEq, Repr

/-- The Abacus of a tile (R56 to R75) with the issued view of R422. -/
structure Abacus where
  fused : Bool := false
  cells : Tab (BitVec 160) := []
  marks : Tab Bool := []
  anchor : Tab Int := []
  valid : Tab Bool := []
  chain : Tab Nat := []
  ovf : BitVec 4 := 0
  iFused : Bool := false
  iAnchor : Tab Int := []
  iValid : Tab Bool := []
  deriving DecidableEq, Repr, Inhabited

/-- Drill, Rod and Mover status and counters (R98, R105, R185, R209). -/
structure EngineRegs where
  rowOvf : Bool := false
  readInf : Bool := false
  drlCode : BitVec 8 := 0
  drlRow : BitVec 16 := 0
  drlElem : BitVec 64 := 0
  nanSeen : Bool := false
  negP : Bool := false
  clipSeen : Bool := false
  nonfSeen : Bool := false
  outInf : Bool := false
  converted : BitVec 64 := 0
  clip : BitVec 32 := 0
  vanish : BitVec 32 := 0
  nonf : BitVec 32 := 0
  outInfN : BitVec 32 := 0
  late : BitVec 64 := 0
  deriving DecidableEq, Repr, Inhabited

/-- A stage entry (R197, R209). `active`: its copy is one of the four that the tile's stage engine has under way (R198).
`disarm` is a DISARM that waits for the end of the copy (R202); `told` says that EVT_TIER_LATE has been raised for the copy (R200). -/
structure Stage where
  up : BitVec 48 := 0
  low : BitVec 48 := 0
  dl : BitVec 64 := 0
  state : BitVec 2 := 0
  wasLate : Bool := false
  sitout : Bool := false
  err : BitVec 4 := 0
  sheets : BitVec 16 := 0
  active : Bool := false
  disarm : Bool := false
  told : Bool := false
  deriving DecidableEq, Repr

/-- A started instruction in flight (R110): the writes it makes when it completes, the fault it raises instead, and,
for a link instruction, whether its remote part has been decided (`ready`), the module and tags of the flits it waits for,
the flits it has sent (R223), the bytes a GET has received, whether it waits for its seat after a return, and the stage entries
that give a COLL its bytes from LOW (R199). -/
structure Started where
  i : QInstr
  writes : List PW := []
  fail : Option ExecFault := none
  ready : Bool := true
  pm : BitVec 11 := 0
  tags : List (BitVec 16) := []
  held : List Flit := []
  got : List PW := []
  parked : Bool := false
  low : List (Nat × Stage) := []
  deriving DecidableEq, Repr

/-- The fault record of a tile (R124, R133); `seq` is the issue order of the recorded instruction. -/
structure FaultRec where
  code : BitVec 8 := 0
  atExec : Bool := false
  queue : BitVec 3 := 0
  valid : Bool := false
  more : BitVec 8 := 0
  pc : BitVec 48 := 0
  info0 : BitVec 64 := 0
  info1 : BitVec 64 := 0
  seq : Nat := 0
  deriving DecidableEq, Repr, Inhabited

/-- How starts are held back: not at all; draining after a stop or an issue fault (R122); held after an execution
fault or by a preemption (R123, R128). -/
inductive Halt where
  | none
  | drain
  | hold
  deriving DecidableEq, Repr, Inhabited

/-- Where a preemption or a restore stands (R128, R130). -/
inductive Pre where
  | idle
  | asked
  | saving
  | restoring
  deriving DecidableEq, Repr, Inhabited

/-- One tile (R106, R133). `met` holds for a queue the stage entries that its head waits for (R199). `nuc` is the mass
at or above the candidate that BISECT last kept, by VD (R104). `lost` marks a job tile that a reset has cleared and firmware is to restart (R255, R361; DESIGN CHOICE, log 3).
`headAt` is when a head last left its queue (R376), `entry` the PC at which CTX_GO last started the tile (R361).
`quietWhy` is the reason of the tile's own Quiet State, `bellLate` a FLT_BELL_TIMEOUT whose record is not captured (R350, R360). -/
structure Tile where
  x : Tab (BitVec 64) := []
  p : Tab (BitVec 256) := []
  v : Tab (BitVec 4096) := []
  d : Tab (BitVec 256) := []
  aba : Abacus := {}
  rows : Tab RowEntry := []
  eng : EngineRegs := {}
  stages : Tab Stage := []
  queues : Tab (List QInstr) := []
  started : Tab (List Started) := []
  access : List Access := []
  topkK : Tab Nat := []
  nuc : Tab Nat := []
  last32 : List (BitVec 64 × BitVec 64 × BitVec 64) := []
  seq : Nat := 0
  pc : BitVec 64 := 0
  step : BitVec 32 := 0
  seed : BitVec 64 := 0
  ctx : BitVec 9 := 0
  bellBase : BitVec 16 := 0
  bellCount : BitVec 17 := 0
  waitLimit : BitVec 32 := 0x186A0
  saveBase : BitVec 48 := 0
  preLimit : BitVec 16 := 0x3E8
  run : Bool := false
  stopped : Bool := true
  saved : Bool := false
  preFail : Bool := false
  quiet : Bool := false
  fault : FaultRec := {}
  halt : Halt := .none
  pre : Pre := .idle
  wasRun : Bool := false
  resetting : Bool := false
  pendResume : Bool := false
  pendFlush : Bool := false
  restart : Option (BitVec 48) := none
  bwait : Option (BitVec 19 × BitVec 32) := none
  waits : Tab (Option (BitVec 64)) := []
  met : Tab (List Nat) := []
  lost : Bool := false
  headAt : BitVec 64 := 0
  entry : Option (BitVec 64) := none
  quietWhy : Nat := 0
  bellLate : Bool := false
  deriving DecidableEq, Repr, Inhabited

/-- The parts of a tile that the internal bytes of a save image describe, where no save of this module wrote the image (R131;
DESIGN CHOICE, log 24). -/
opaque Config.imageTile : (n : Nat) → (image : List Byte) → Tile

/-! ### Memory (08_memory_tiers) -/

/-- A line of a Hall cache set, most recently used first: its 256-byte line address, its way and whether it is modified
(R192). -/
structure HLine where
  line : Nat
  way : Nat
  modified : Bool
  deriving DecidableEq, Repr

/-- Module memory: bytes under canonical addresses, dirty bits by sheet, the length of each poisoned protection word by its first byte, and
the Hall cache tags by die * 16384 + set. -/
structure Mem where
  cells : List Host.Cell := []
  dirty : Tab Bool := []
  poison : Tab Nat := []
  hall : Tab (List HLine) := []
  deriving DecidableEq, Repr

/-! ### Host side (18_host_bringup_calibration) -/

/-- An event record (R398): code, module time, words 2 and 3. -/
structure EvRec where
  code : BitVec 16
  time : BitVec 64
  w2 : BitVec 64
  w3 : BitVec 64
  deriving DecidableEq, Repr

/-- A host command that has been taken and has not written its completion (R396). `status` is none while it runs. -/
structure CmdRec where
  op : BitVec 16
  c : HostCmd
  status : Option (BitVec 16) := none
  result : BitVec 64 := 0
  deriving DecidableEq, Repr

/-- Host memory reached by DMA and by the rings, the rings' lap phases and pending LOST flags by queue set, commands in
progress, MSI-X signals by (function, vector), the out-of-band event log, the last 1024 events of each die (R360), and of each report ring the place of the
next record and whether a run of drops is going on (R389, R390). -/
structure HostSide where
  mem : List Host.Cell := []
  cmds : List CmdRec := []
  compLap : Tab Bool := []
  evLap : Tab Bool := []
  lost : Tab Bool := []
  msixOn : Tab Bool := []
  msix : List (Nat × Nat) := []
  oob : List EvRec := []
  last : Tab (List EvRec) := []
  srPos : Tab Nat := []
  srDrop : Tab Bool := []
  deriving DecidableEq, Repr

/-! ### Fabric (09_ezvor_fabric) -/

/-- A port beyond its registers: training done, the next flit number, flits sent and not acknowledged, flits held for a
credit, credits in use by VC (R215, R218, R225); `line` is what the port has put on its link, in order. As the receiver of its
link: the number of the next flit, the credits it has returned by VC, whether it has requested a replay, and the tally of flits of a
reserved TYPE (R214, R215, R218). -/
structure Port where
  trained : Bool := false
  next : BitVec 12 := 0
  sent : List (BitVec 12 × Flit) := []
  held : List Flit := []
  used : Tab Nat := []
  line : List (BitVec 12 × Flit) := []
  got : BitVec 12 := 0
  returned : Tab Nat := []
  ask : Bool := false
  reserved : Nat := 0
  deriving DecidableEq, Repr

/-- A class list (R227): members in rank order, own rank, experts per member, barrier generation, collective sequence and
their committed values (R335). `arrived` belongs to the meeting point (R120); `waiting` says that this seat's arrival for
its current generation has been sent and not released (R119). -/
structure ClassList where
  members : List (BitVec 10) := []
  rank : Nat := 0
  experts : Nat := 0
  gen : BitVec 16 := 0
  seq : BitVec 16 := 0
  cGen : BitVec 16 := 0
  cSeq : BitVec 16 := 0
  arrived : List (BitVec 10) := []
  waiting : Bool := false
  deriving DecidableEq, Repr

/-- Parameters of a collective as rank 0 compares them (R228). -/
structure CollParams where
  op : Nat := 0
  exact : Bool := false
  count : Nat := 0
  anchor : Int := 0
  dst : Int := 0
  deriving DecidableEq, Repr

/-- A collective in progress on this module, by class list and sequence: the issuing tile and instruction, parameters
received at rank 0 by rank, the verdict, contributions and final chunks received by rank, messages sent (R228 to R233). -/
structure Coll where
  tile : Option (Nat × Nat) := none
  params : Tab (Option CollParams) := []
  verdict : Option (BitVec 8) := none
  parts : Tab (Option (List Byte)) := []
  finals : Tab (Option (List Byte)) := []
  pieces : Tab (Option (List Byte)) := []
  held : List Flit := []
  deriving DecidableEq, Repr

/-- Fabric state beyond the LNK registers: the ports, the local delivery buffer, class lists and collectives; (source, tag)
pairs seen and the newest tag by source (R216); replies and Changeover writes sent, kept for a return (R223); WRITE flits that have arrived, 1 or 2 + error class; end flits whose WRITE flits have not all arrived;
messages that wait for their seat (R223); partner flits of
the landing that is not acknowledged; next tag by destination; next roll epoch, ROLLs that arrived
early (R224); consecutive exchanges within 10 ns (R235). -/
structure Fabric where
  ports : Tab Port := []
  localq : List Flit := []
  lists : Tab (Option ClassList) := []
  colls : Tab (Option Coll) := []
  seen : Tab Bool := []
  newest : Tab (Option (BitVec 16)) := []
  kept : List Flit := []
  wrote : Tab Nat := []
  rings : List Flit := []
  parked : List Flit := []
  landed : List Flit := []
  tagNext : Tab (BitVec 16) := []
  rollNext : BitVec 32 := 0
  rolls : List Flit := []
  good : Nat := 0
  deriving DecidableEq, Repr

/-! ### Classrooms, resets, power, test access (15, 16, 18, 19) -/

/-- A switch in progress on a Classroom (R373, R376): the incoming context (none where the slot's context is not valid), whether
its restore has begun, the slot start it is charged from, whether it belongs to a Study Hall slice, whether it goes back to
the outgoing context (R374), and whether the slice has ended before the switch. -/
structure Switch where
  incoming : Option (BitVec 9)
  restoring : Bool := false
  start : BitVec 64
  study : Bool := false
  back : Bool := false
  ended : Bool := false
  deriving DecidableEq, Repr

/-- Classroom and context state beyond the CLS registers, by Classroom: the slot table in force (R371, Classroom * 32 + slot), the
start of the current slot and of the cycle that last took writes of the table, switches, the job that a Study Hall slice returns to, when the slice began and what the job's pipeline Bells
on the die held then (R376), and when the resident context began to run;
by context its windows; and the order of save areas written (Classroom * 32 + slot) and of contexts becoming valid (R373). -/
structure Rooms where
  table : Tab (BitVec 64) := []
  slotAt : Tab (Option (BitVec 64)) := []
  cycleAt : Tab (Option (BitVec 64)) := []
  switch : Tab (Option Switch) := []
  slice : Tab (Option (BitVec 9)) := []
  sliceAt : Tab (BitVec 64) := []
  sliceBells : Tab (List (BitVec 32)) := []
  runFrom : Tab (Option (BitVec 64)) := []
  windows : Tab (List (Nat × Nat)) := []
  order : Nat := 0
  areaAt : Tab Nat := []
  validAt : Tab Nat := []
  deriving DecidableEq, Repr

/-- What a command returned to its sender on a bus: a BAR read, a management reply, a test-port register, a
refusal with Completer Abort, or a status code. -/
inductive Reply where
  | none
  | data (l : List Byte)
  | abort
  | value (v : BitVec 64)
  | status (code : BitVec 16)
  | events (l : List EvRec)
  deriving DecidableEq, Repr

/-- A calibration image being programmed (R406). -/
structure CalJob where
  image : List Byte
  origin : BitVec 2
  deriving DecidableEq, Repr

/-- Module state beyond the registers: power inputs and rails, test port, firmware staging, calibration store, clocks,
cores, resets in progress; `calTorn` while the store is erased and after a write that lost power (R406); `standby` and `leakOff`
between a Quiet State and the rails going off (R413, R418); the clocks in MHz to which heat and the power cap hold a die, the
drop of its cap in 1/8 W, and the clocks that software requested (R415, R418); reasons of the Quiet States entered while the scope is in
reset (die, or 8 the module), the tile whose detector made a die quiet plus 1, ports that failed their PHY calibration (R404), and a
module reset that waits for the input (R412); whether the Archive extent that was in progress at the Quiet State has completed (R413); `resetFailed` after a module reset that did not bring READY (R362); `card` says whether the Report
Card of a quiet scope has been collected (tile, 768 + die, 776 the module). -/
structure Sys where
  inputOk : Bool := false
  aux : Bool := false
  modEn : Bool := false
  rails : Bool := false
  pwrgd : Bool := false
  disconnected : Bool := false
  portConfig : Bool := false
  jtag : BitVec 4 := 1
  fwStaged : Option Bool := none
  fwGood : Bool := true
  bringups : Nat := 0
  cal : List Host.Cell := []
  calWritten : Bool := false
  calTorn : Bool := false
  standby : Bool := false
  leakOff : Bool := false
  calJob : Option CalJob := none
  wdogFrom : BitVec 64 := 0
  clkHeat : Tab Nat := []
  clkCap : Tab Nat := []
  cut : Tab Nat := []
  clkReq : Tab Nat := []
  hot : Tab Bool := []
  refresh2 : Tab Bool := []
  temp : Tab Nat := []
  monDown : Tab Bool := []
  preDown : Tab Bool := []
  preLost : Tab (List (BitVec 64)) := []
  assign : Nat := 0
  tileResets : Tab (List (BitVec 64)) := []
  dieReset : Option Nat := none
  dieWait : List Nat := []
  portReset : Tab Bool := []
  modReset : Bool := false
  modWait : Bool := false
  lastExtent : Bool := false
  newQuiet : Tab Nat := []
  fired : Tab Nat := []
  phyBad : Tab Bool := []
  resetFailed : Bool := false
  card : Tab Bool := []
  smbAlert : Bool := false
  deriving DecidableEq, Repr

/-! ### Per-step counts of the numerics (R49, R50, R46) -/

/-- Counts of one tensor in the current attempt (R49, R50, R41): narrowed, clipped, vanished, non-finite, the format,
the exponent used, the largest amax exponent, whether a counter has stuck, and the histogram by bin. -/
structure TStat where
  narrowed : Nat := 0
  clip : Nat := 0
  vanish : Nat := 0
  nonf : Nat := 0
  fmt : Nat := 0
  exp : Int := 0
  amax : Option Int := none
  stuck : Bool := false
  hist : Tab Nat := []
  deriving DecidableEq, Repr

/-- Counts by context, captured step and tensor (`statKey`); updated and stalled weight elements by context and captured step
(`stepKey`); the steering store (slot to bytes); Roster entries whose ATT has sat out a step. -/
structure Counts where
  stats : Tab TStat := []
  updTotal : Tab Nat := []
  updStall : Tab Nat := []
  steer : Tab (List Byte) := []
  sitOut : Tab Bool := []
  deriving DecidableEq, Repr

/-! ### Jobs (10_training_step, 11, 14) -/

/-- Dynamic state of a tensor of a job: its exponent, the exponent published with the weight epoch (R44), its history of 16
amax exponents (newest first, none for an all-zero step) and the correction entry of the step in progress (R43). -/
structure TensorSt where
  exp : Int := 0
  pub : Int := 0
  hist : List (Option Int) := []
  corr : Option Int := none
  deriving DecidableEq, Repr

/-- A Changeover in progress (R263 to R266): the layout it leads to, the bytes of the local entries with the source byte of
each (they race until the seat reports done, R265), the transfers not acknowledged by destination seat, and whether this
seat has reported done. -/
structure Change where
  layout : Bool
  writes : List (PW × Nat) := []
  awaits : Tab Nat := []
  done : Bool := false
  deriving DecidableEq, Repr

/-- A replacement of weights (R271 to R275): the descriptor once accepted, the replacement record's fields, the source list,
the layers received, and whether the layer being received fails its GET. -/
structure Repl where
  desc : Option (List Byte) := none
  eNew : BitVec 32 := 0
  eOld : BitVec 32 := 0
  sources : List Byte := []
  received : Nat := 0
  front : Nat := 0
  state : BitVec 2 := 0
  cut : BitVec 32 := 0
  failing : Bool := false
  deriving DecidableEq, Repr

/-- The numerical state of a job at a committed step: its job record (R336) and the committed counters of its class lists
(R335). `next` is the step after it. -/
structure JobRec where
  next : Nat := 0
  ls : Int := 0
  streak : Nat := 0
  epoch : BitVec 32 := 0
  repl : BitVec 64 := 0
  tensors : Tab TensorSt := []
  lists : List (Nat × BitVec 16 × BitVec 16) := []
  deriving DecidableEq, Repr

/-- An attempt in progress that a rollback to BASE interrupts, to be repeated after the replay (R339): the job's numerics, the
attempt, its aborts, whether the job was stopped, S at its attempt 0, and whether it ran with a corrected exponent (R44). -/
structure Again where
  numerics : JobRec
  attempt : Nat
  aborts : Nat
  stopped : Bool
  sStart : Int
  expCorr : Bool
  deriving DecidableEq, Repr

/-- What a job holds beyond its numerics for recovery (R327 to R341): the records at the acknowledged step and at BASE with
its step F, the journal records after F, the addresses of the landing that is not acknowledged, whether the next commit is
copied whole, the seat map and class lists last copied, whether a scan waits for a re-protection, the last committed Step Report
with its attempt, S at attempt 0, the step before which a replay ends, whether a restore or a rollback is under way, the records of the last commit
and of the landing under way, whether a resume command waits for the restore, the attempt that a rollback interrupted, whether the creation landing or a re-protection is under way, whether a replay has diverged and the
job service has still to say so, whether EVT_CKP_LATE has been raised for the commit, for the step that a replay runs the
state before it, whether a re-protection has still to be sent (R341), a poisoned sheet that the restore before the next CHG brings
(R270), the seat that a swap under way replaces (R342), and whether the replay of a spare ends in the generation layout (R346). -/
structure Recovery where
  ack : JobRec := {}
  base : JobRec := {}
  journal : List (List Byte) := []
  landing : List Nat := []
  whole : Bool := true
  table : List Byte := []
  scanWait : Bool := false
  report : List Byte := []
  reportAttempt : Nat := 0
  sStart : Int := 0
  replay : Option Nat := none
  restoring : Bool := false
  rollback : Bool := false
  creating : Bool := false
  reprotect : Bool := false
  diverged : Bool := false
  tell : Bool := false
  late : Bool := false
  ran : Bool := false
  before : JobRec := {}
  beforeSheets : List (Nat × List Byte) := []
  last : JobRec := {}
  sent : JobRec := {}
  go : Bool := false
  again : Option Again := none
  unsent : Bool := false
  mend : Option Nat := none
  swap : Option (BitVec 10) := none
  genNext : Bool := false
  deriving DecidableEq, Repr

/-- A job of a context (R238 to R256, R268): the blocks copied at creation and what changes. `gates` and `commits` count the
GATEs and COMMITs that have started for the attempt; `outcome` is the gate outcome of the attempt once known; `start` is when
the attempt began. `run` numbers the attempts of the step and their repetitions from 1, and `ends` says how an earlier run ended: 1 or 2
its gate failed with that outcome, 3 FLT_OPT_NONFINITE, 5 FLT_STEP_RETRY, aborted where nothing is listed (R251 to R256); `gated` holds the counts at the
gate point (R249). -/
structure Job where
  tt : List Byte := []
  classes : List Byte := []
  regions : List Byte := []
  learnPlan : List Byte := []
  genPlan : List Byte := []
  desc : List Byte := []
  kept : Bool := false
  layout : Bool := false
  next : Nat := 0
  attempt : Nat := 0
  aborts : Nat := 0
  run : Nat := 1
  ends : Tab Nat := []
  gated : Option (List (Nat × TStat)) := none
  stopped : Bool := false
  ls : Int := 0
  streak : Nat := 0
  tensors : Tab TensorSt := []
  expCorr : Bool := false
  scaleClamp : Bool := false
  gates : Nat := 0
  commits : Nat := 0
  outcome : Option (BitVec 4) := none
  optFail : Bool := false
  stateStarted : Bool := false
  acked : Bool := true
  start : BitVec 64 := 0
  late : Bool := false
  epoch : BitVec 32 := 0
  committed : Bool := false
  change : Option Change := none
  chgReport : Option (BitVec 10 × BitVec 48) := none
  repl : Repl := {}
  rcv : Recovery := {}
  deriving DecidableEq, Repr

/-! ### What a buddy holds (R327, R331, R343, R344) -/

/-- A complete Archive set: its step, its place in the order of sets, and whether it waits to be uploaded. -/
structure ArchSet where
  step : Nat
  number : Nat
  upload : Bool
  deriving DecidableEq, Repr

/-- The ward's partner area beyond its bytes: the step whose landing is complete, the released step whose apply is in progress,
the applied step and BASE step, Archive sets by slot, the set being written (slot, step, bytes), sets completed, whether the last upload
failed, the ward seat, the shared store's queue-pair block with its Ethernet port, and whether its queue pair is in the error state (R354). -/
structure Ward where
  held : Option Nat := none
  release : Option Nat := none
  acked : Option Nat := none
  base : Option Nat := none
  sets : Tab (Option ArchSet) := []
  writing : Option (Nat × Nat × List Byte) := none
  count : Nat := 0
  failed : Bool := false
  seat : Option Nat := none
  store : List Byte := []
  port : Bool := false
  qpError : Bool := false
  deriving DecidableEq, Repr

/-! ### Serving (11, 13) -/

/-- Roster entry states (R301, R302). -/
inductive EState where
  | free
  | admitted
  | prefill
  | decode
  | held
  | expired
  | done
  | evicted
  deriving DecidableEq, Repr

/-- A Roster entry (R301); its SITOUT stands in Counts.sitOut. `evict` is an EVICT that waits for the end of the step;
`dig` and `ring` say that the digest and the compatibility ring have reported the final state (R305). -/
structure Entry where
  state : EState := .free
  why : BitVec 2 := 0
  prevDecode : Bool := false
  gen : BitVec 15 := 0
  tenant : Nat := 0
  cls : Nat := 0
  prio : Nat := 0
  stream : Nat := 0
  aslot : Option Nat := none
  steer : Option Nat := none
  prompt : Nat := 0
  pos : Nat := 0
  emitted : Nat := 0
  maxNew : Nat := 0
  deadline : Nat := 0
  plist : Nat := 0
  npages : Nat := 0
  epoch : BitVec 32 := 0
  aver : BitVec 16 := 0
  tAdmit : Nat := 0
  cring : Nat := 0
  evict : Bool := false
  dig : Bool := false
  ring : Bool := false
  deriving DecidableEq, Repr

/-- A serving class of a die (R323). -/
structure ServeClass where
  maxActive : Nat
  pfSlots : Nat
  chunk : Nat
  maxPrompt : Nat
  maxOut : Nat
  d : Nat
  tenants : Nat
  deriving DecidableEq, Repr

/-- An item of the batch in progress: entry index, identity, kind, and the cost reserved for it (R310, R314). -/
structure BatchItem where
  entry : Nat
  ident : Nat
  decode : Bool
  last : Bool
  pos : Nat
  ntok : Nat
  remain : Nat
  cost : Nat
  deriving DecidableEq, Repr

/-- Serving on a die (R308, R309): the step in progress or, with no batch out, the next one, the batch, when it was formed, and whether it has overrun
T_DIE. -/
structure DieServe where
  step : BitVec 32 := 0
  batch : List BatchItem := []
  formed : BitVec 64 := 0
  late : Bool := false
  ended : List Nat := []
  deriving DecidableEq, Repr

/-- A tenant's bucket beyond its registers (R314), and whether a run of steps with a full digest ring goes on (R317). -/
structure Tenant where
  refill : Option (BitVec 64) := none
  rem : Nat := 0
  full : Bool := false
  deriving DecidableEq, Repr

/-- Roster, classes by die * 64 + class, dies and tenants. -/
structure Serve where
  entries : Tab Entry := []
  classes : Tab (Option ServeClass) := []
  dies : Tab DieServe := []
  tenants : Tab Tenant := []
  deriving DecidableEq, Repr

/-- States of an adapter slot (R276). -/
inductive AState where
  | free
  | loading
  | live
  | draining
  deriving DecidableEq, Repr

/-- An adapter slot record (R276). -/
structure Adapter where
  state : AState := .free
  rank : Nat := 0
  version : BitVec 16 := 0
  id : Nat := 0
  base : Nat := 0
  refs : Nat := 0
  flip : BitVec 64 := 0
  deriving DecidableEq, Repr

/-! ### Stops -/

/-- Why the machine stops. -/
inductive Fault where
  /-- Raised by RESTORE_DONE when the image at TILE_SAVE_BASE was saved by another tile: R131 says that the manual does
  not define the result of restoring an image on any other tile. Safe: the hardware goes on to a state the spec leaves
  open, the model to none. -/
  | restoredOnOtherTile
  deriving DecidableEq, Repr

/-- Why a command has no meaning here. -/
inductive Refusal where
  /-- Raised by an arm of exec whose command has no meaning yet. Safe: nothing is claimed of it. -/
  | notModelled (mnemonic : String)
  deriving DecidableEq, Repr

/-! ### The state -/

/-- The whole block. `pending` is the queue of commands; `free` numbers the free values a step takes; `rollCall` is the time and
ID of an armed Roll Call (R385). -/
structure State where
  pending : List Instr := []
  now : BitVec 64 := 0
  free : Nat := 0
  tiles : Tab Tile := []
  bells : Tab (BitVec 32) := []
  m : Mem := {}
  regs : Tab (BitVec 64) := []
  shadow : Tab (BitVec 64) := []
  rollCall : Option (BitVec 64 × BitVec 16) := none
  saves : List (Nat × Tile) := []
  host : HostSide := {}
  fab : Fabric := {}
  rooms : Rooms := {}
  sys : Sys := {}
  counts : Counts := {}
  jobs : Tab (Option Job) := []
  ward : Ward := {}
  archive : List Host.Cell := []
  serve : Serve := {}
  adapters : Tab Adapter := []
  reply : Reply := .none
  deriving DecidableEq, Repr

/-- The machine right after reset: every register at the value the spec gives it (registers not listed in `regs` read
their reset value), every store empty, and no command waiting (DESIGN CHOICE, log 3; DESIGN CHOICE, log 63). -/
def State.reset : State := {}

end Sys2Proof.Machine
end

