-- ==== Sys2Proof/Machine/Operands.lean ====
section
/-! DEFINITION. Every operand form: the address map (R187 to R190, R425), tensor cards (R161 to R178), Slate operands
(R139), and the reading and writing of card elements, images, lifts and bit planes. -/
namespace Sys2Proof.Machine

/-! ### Address map (R187 to R190) -/

/-- What an address check depends on: the dies that are partitioned, and the armed partner area (base, length). `raw` names
bytes by the addresses given, for memory at another seat, which decodes them by its own map (R187). -/
structure MapCtx where
  split : BitVec 8 := 0
  ward : Option (Nat × Nat) := none
  raw : Bool := false
  deriving DecidableEq, Repr

/-- A memory region that a footprint may lie in (R165). -/
inductive Region where
  | dram
  | cupb
  | slate (t : Nat)
  | bad
  deriving DecidableEq, Repr

def dramDie : Nat := 0x005000000000
def dramStack : Nat := 0x001400000000
def dramEnd : Nat := 0x028000000000
def niBase : Nat := 0x080000000000
def cupBase : Nat := 0x100000000000
def cupEnd : Nat := 0x140000000000
def cupResv : Nat := 0x13FFC0000000
def slateBase : Nat := 0x200000000000
def slateWin : Nat := 0x40000000
def slateSize : Nat := 0x600000
def mgmtBase : Nat := 0xFF0000000000

/-- First byte of the Slate window of tile `t` (R187). -/
def slateOf (t : Nat) : Nat := slateBase + t * slateWin

/-- The byte that an address reaches, named once: interleaved DRAM addresses through R188, others themselves (R425). -/
def canon (mc : MapCtx) (a : Nat) : Nat :=
  if mc.raw then a
  else if a < dramEnd then
    let die := a / dramDie
    let o := a % dramDie
    let (stack, off) :=
      if flag mc.split die then
        let h := if o < 0x002800000000 then 0 else 1
        let o' := o - h * 0x002800000000
        (2 * h + (o' / 4096) % 2, (o' / 8192) * 4096 + o' % 4096)
      else ((o / 4096) % 4, (o / 16384) * 4096 + o % 4096)
    niBase + die * dramDie + stack * dramStack + off
  else a

/-- The pieces of canonical addresses that a range of `n` bytes reaches. -/
def pieces (mc : MapCtx) (lo n : Nat) : List (Nat × Nat) :=
  if n = 0 then []
  else if lo < dramEnd then
    (List.range ((lo + n - 1) / 4096 - lo / 4096 + 1)).map (fun k =>
      let sh := lo / 4096 + k
      let a := Nat.max lo (sh * 4096)
      let e := Nat.min (lo + n) ((sh + 1) * 4096)
      (canon mc a, e - a))
  else [(lo, n)]

/-- Two ranges share a byte, whichever view names them (R425). -/
def rangesMeet (mc : MapCtx) (a n b m : Nat) : Bool :=
  if a < dramEnd ∨ b < dramEnd then
    (if a < dramEnd ∧ b < dramEnd then overlaps a n b m
     else (pieces mc a n).any (fun p => (pieces mc b m).any (fun q => overlaps p.1 p.2 q.1 q.2)))
  else overlaps a n b m

/-- Region of the byte interval [lo, hi] before the partner area is taken out. -/
def regionBase (mc : MapCtx) (lo hi : Int) : Region :=
  if lo < 0 ∨ hi < lo then .bad
  else
    let l := lo.toNat
    let h := hi.toNat
    if h < dramEnd then
      let d := l / dramDie
      if h / dramDie ≠ d then .bad
      else if flag mc.split d then
        (if (l % dramDie) / 0x002800000000 = (h % dramDie) / 0x002800000000 ∧ (h % dramDie) % 0x002800000000 < 0x0027F8000000
          then .dram else .bad)
      else if h % dramDie < 0x004FF0000000 then .dram else .bad
    else if niBase ≤ l ∧ h < niBase + dramEnd then
      (if (l - niBase) / dramStack = (h - niBase) / dramStack ∧ (h - niBase) % dramStack < 0x0013FC000000 then .dram else .bad)
    else if cupBase ≤ l ∧ h < cupResv then .cupb
    else if slateBase ≤ l ∧ h < slateBase + 768 * slateWin then
      (let t := (l - slateBase) / slateWin
       if (h - slateBase) / slateWin = t ∧ (h - slateBase) % slateWin < slateSize then .slate t else .bad)
    else .bad

/-- Region of the byte interval [lo, hi], `bad` where it leaves every populated, unreserved region (R165, R189, R190). An
armed partner area is reserved (R327). -/
def regionOf (mc : MapCtx) (lo hi : Int) : Region :=
  match regionBase mc lo hi, mc.ward with
  | .dram, some (b, n) => if rangesMeet mc lo.toNat (hi - lo + 1).toNat b n then .bad else .dram
  | .cupb, some (b, n) => if rangesMeet mc lo.toNat (hi - lo + 1).toNat b n then .bad else .cupb
  | r, _ => r

/-- The address lies in the address map outside the management and control range, populated and unreserved (R190). -/
def mapped (mc : MapCtx) (a n : Nat) : Bool := decide (regionOf mc a (a + n - 1 : Nat) ≠ .bad)

/-! ### Card fields (R161, R162) -/

/-- Field of a card: word `k`, `w` bits at `lo`. -/
def Card.f (c : Card) (k lo w : Nat) : Nat := fld c.w (64 * k + lo) w
def Card.base (c : Card) : Nat := c.f 0 0 48
def Card.fmt (c : Card) : Nat := c.f 0 48 4
def Card.ndim (c : Card) : Nat := c.f 0 52 3
def Card.kind (c : Card) : Nat := c.f 0 55 2
def Card.packed (c : Card) : Bool := c.f 0 57 1 = 1
def Card.upper (c : Card) : Bool := c.f 0 58 1 = 1
def Card.lax (c : Card) : Nat := c.f 0 59 1
def Card.d0mode (c : Card) : Nat := c.f 0 60 2
def Card.liftEn (c : Card) : Bool := c.f 0 62 1 = 1
def Card.liftD (c : Card) : Nat := c.f 1 10 5
/-- EXPA: the tensor exponent (KIND 0) or the anchor (KIND 1 and 2), signed. -/
def Card.expa (c : Card) : Int := sgn 10 (c.f 1 0 10)
/-- Extent of dimension k. -/
def Card.ext (c : Card) (k : Nat) : Nat :=
  match k with
  | 0 => c.f 1 16 22 + 1
  | 1 => c.f 1 38 16 + 1
  | 2 => c.f 2 0 16 + 1
  | 3 => c.f 2 16 16 + 1
  | 4 => c.f 2 32 16 + 1
  | _ => 1
/-- Stride of dimension k, 1 to 4, in bytes (R162). -/
def Card.stride (c : Card) (k : Nat) : Int := sgn 16 (c.f 3 (16 * (k - 1)) 16) * (4 ^ c.f 2 (48 + 4 * (k - 1)) 4 : Nat)
/-- Rows and columns of the engine view (R163). -/
def Card.rows (c : Card) : Nat := c.ext 1 * c.ext 2 * c.ext 3 * c.ext 4
def Card.cols (c : Card) : Nat := c.ext 0
def Card.size (c : Card) : Nat := c.rows * c.cols
/-- Stored as bit planes. -/
def Card.planar (c : Card) : Bool := decide (c.kind = 0) && fmtSub c.fmt && !c.packed
/-- Element width in bits in dimension 0: 1 for a planar card (R175). -/
def Card.width (c : Card) : Nat :=
  if c.kind = 1 then 160 else if c.kind = 2 then 512 else if c.planar then 1 else fmtBits c.fmt
/-- The format an engine sees: INT2 for an upper-plane read (R72). -/
def Card.eff (c : Card) : Nat := if c.upper then 8 else c.fmt
/-- The exponent an engine sees (R72). -/
def Card.exp (c : Card) : Int := if c.upper then c.expa + 2 else c.expa
/-- The card has a lift table that counts (R172). -/
def Card.lifted (c : Card) : Bool := c.liftEn && decide (c.kind = 0) && fmtLift c.fmt && !c.upper
/-- Blocks of the lift table and its bytes (R172). -/
def Card.liftBlocks (c : Card) : Nat := if c.lax = 0 then c.rows * cdiv c.cols 32 else cdiv c.rows 32 * c.cols
def Card.liftNo (c : Card) (r k : Nat) : Nat := if c.lax = 0 then r * cdiv c.cols 32 + k / 32 else (r / 32) * c.cols + k
/-- First byte and length of the lift table. -/
def Card.liftRange (c : Card) : Option (Nat × Nat) := if c.lifted then some (c.liftBase, cdiv c.liftBlocks 2) else none

/-- Displacement span of dimensions 1 to 4: lowest and highest byte offset. -/
def Card.span (c : Card) : Int × Int :=
  [1, 2, 3, 4].foldl (fun (a : Int × Int) k =>
    let d : Int := if c.ext k > 1 then c.stride k * ((c.ext k : Int) - 1) else 0
    (a.1 + min 0 d, a.2 + max 0 d)) (0, 0)

/-- Footprint: lowest and highest addressed byte (R165). -/
def Card.foot (c : Card) : Int × Int :=
  let (a, b) := c.span
  let B : Int := c.base
  let n0 : Int := (c.ext 0 : Int) - 1
  if c.planar then
    let row : Int := (n0 / 256) * 32 + (n0 % 256) / 8
    let lowP : Int := if c.upper then fmtBits c.fmt - 2 else 0
    (B + a + lowP * 4096, B + b + ((fmtBits c.fmt : Int) - 1) * 4096 + row)
  else if c.packed then (B + a, B + b + (((c.ext 0 * fmtBits c.fmt : Nat) : Int) - 1) / 8)
  else
    let w : Int := (c.width / 8 : Nat)
    let d : Int := match c.d0mode with | 0 => w * n0 | 2 => -(w * n0) | _ => 0
    (B + a + min 0 d, B + b + max 0 d + w - 1)

/-- Footprint as first byte and length, for overlap tests after the card has passed R165. -/
def Card.footRange (c : Card) : Nat × Nat := let (l, h) := c.foot; (l.toNat, (h - l + 1).toNat)
/-- Data and lift ranges that an instruction reads or writes through the card. -/
def Card.ranges (c : Card) : List (Nat × Nat) := c.footRange :: c.liftRange.toList

/-! ### Issue checks -/

/-- A fault found at issue: its code and information words. -/
structure IFault where
  code : BitVec 8
  info0 : BitVec 64 := 0
  info1 : BitVec 64 := 0
  deriving DecidableEq, Repr

/-- The first fault of a list of checks (R136). -/
def firstFault : List (Option IFault) → Option IFault
  | [] => none
  | some f :: _ => some f
  | none :: r => firstFault r

/-- INFO0 of a card fault (R184). -/
def cardInfo (c : Card) (dim reason : Nat) : BitVec 64 := BitVec.ofNat 64 (c.reg % 32 + dim * 32 + reason * 256)
def word64 (i : Int) : BitVec 64 := BitVec.ofInt 64 i

/-- FLT_FORMAT_CODE reason 0x01: a malformed card field (R164; DEDUCED, log 33). -/
def checkForm (mover : Bool) (c : Card) : Option IFault :=
  let bad (dim v : Nat) : Option IFault := some ⟨0x04, cardInfo c dim 0x01, BitVec.ofNat 64 v⟩
  if fmtReserved c.fmt then bad 7 c.fmt
  else if c.ndim = 0 ∨ c.ndim > 5 then bad 7 c.ndim
  else if c.kind = 3 then bad 7 c.kind
  else if c.d0mode = 3 then bad 0 c.d0mode
  else if c.f 0 63 1 ≠ 0 then bad 7 (c.f 0 63 1)
  else if c.f 1 15 1 ≠ 0 then bad 7 (c.f 1 15 1)
  else if c.f 1 54 10 ≠ 0 then bad 7 (c.f 1 54 10)
  else
    match [1, 2, 3, 4].find? (fun k => decide (c.ndim ≤ k) &&
        (decide (c.ext k ≠ 1) || decide (c.f 2 (48 + 4 * (k - 1)) 4 ≠ 0) || decide (c.f 3 (16 * (k - 1)) 16 ≠ 0))) with
    | some k => bad k (if c.ext k ≠ 1 then c.ext k - 1
        else if c.f 2 (48 + 4 * (k - 1)) 4 ≠ 0 then c.f 2 (48 + 4 * (k - 1)) 4 else c.f 3 (16 * (k - 1)) 16)
    | none =>
      if c.kind = 0 then
        if c.f 1 8 2 ≠ 3 * c.f 1 7 1 then bad 7 (c.f 1 0 10)
        else if c.packed && (!fmtSub c.fmt || !mover) then bad 7 1
        else none
      else if c.fmt ≠ 0 then bad 7 c.fmt
      else if c.expa < -256 ∨ c.expa > 256 then bad 7 (c.f 1 0 10)
      else if c.packed then bad 7 1
      else none

/-- FLT_FORMAT_CODE reason 0x02: a KIND or FORMAT that the place refuses (R184; DEDUCED, log 33). -/
def checkPlace (c : Card) (kind : Nat) (okFmt : Nat → Bool) : Option IFault :=
  if c.kind ≠ kind then some ⟨0x04, cardInfo c 7 0x02, BitVec.ofNat 64 c.kind⟩
  else if kind = 0 && !okFmt c.fmt then some ⟨0x04, cardInfo c 7 0x02, BitVec.ofNat 64 c.fmt⟩
  else none

/-- Access width W (R166). -/
def accessWidth (c : Card) (r : Region) : Nat :=
  if c.kind = 2 then 64
  else
    match r with
    | .slate _ =>
      if c.kind = 1 then 4
      else if c.planar then 32
      else if c.packed then 1
      else Nat.max 1 (fmtBits c.fmt / 8)
    | _ => 32

/-- A card whose FORMAT, NDIM, KIND or D0MODE is reserved describes no footprint; its fault is FLT_FORMAT_CODE, in that
check's place (DEDUCED, log 33). -/
def describable (c : Card) : Bool :=
  !fmtReserved c.fmt && decide (1 ≤ c.ndim ∧ c.ndim ≤ 5) && decide (c.kind ≠ 3) && decide (c.d0mode ≠ 3)

/-- FLT_ALIGN, reasons 0x12, 0x10, 0x11, 0x13 in that order (R165, R166, R184). `remote` uses another seat's row of W (DEDUCED, log 33). -/
def checkAlignAt (mc : MapCtx) (remote : Bool) (c : Card) : Option IFault :=
  if !describable c then none
  else
    let (lo, hi) := c.foot
    let r := regionOf mc lo hi
    if r = .bad then some ⟨0x0E, cardInfo c 7 0x12, word64 lo⟩
    else
      let W := accessWidth c (if remote then .dram else r)
      if c.base % W ≠ 0 then some ⟨0x0E, cardInfo c 7 0x10, BitVec.ofNat 64 c.base⟩
      else
        match [1, 2, 3, 4].find? (fun k => decide (c.ext k > 1) && decide (c.stride k % (W : Int) ≠ 0)) with
        | some k => some ⟨0x0E, cardInfo c k 0x11, word64 (c.stride k)⟩
        | none =>
          if c.lifted && decide (c.liftBase % 32 ≠ 0) then some ⟨0x0E, cardInfo c 7 0x13, BitVec.ofNat 64 c.liftBase⟩ else none

/-- FLT_ALIGN for memory of this module. -/
def checkAlign (mc : MapCtx) (c : Card) : Option IFault := checkAlignAt mc false c

/-- FLT_STRIDE reasons 0x20 and 0x21 (R168, R170, R173). `wr`: a write card other than a scatter-add destination. -/
def checkStride (wr : Bool) (c : Card) : Option IFault :=
  if !describable c then none
  else if wr && c.ext 0 > 1 && c.d0mode = 1 then some ⟨0x0F, cardInfo c 0 0x20, 0⟩
  else
    match (if wr then [1, 2, 3, 4].find? (fun k => decide (c.ext k > 1) && decide (c.stride k = 0)) else none) with
    | some k => some ⟨0x0F, cardInfo c k 0x20, 0⟩
    | none => if decide (c.kind = 0) && fmtSub c.fmt && c.d0mode ≠ 0 then some ⟨0x0F, cardInfo c 0 0x21, BitVec.ofNat 64 c.d0mode⟩ else none

/-- FLT_PLANE_READ for a card that is only read: UPPER on anything but an INT4 planar card (R72). -/
def checkPlaneRead (c : Card) : Option IFault := if c.upper && !(c.planar && c.fmt = 7) then some ⟨0x08, 0, 0⟩ else none
/-- FLT_PLANE_READ for a write card (R171). -/
def checkPlaneWrite (c : Card) : Option IFault := if c.upper then some ⟨0x08, 0, 0⟩ else none

/-- Insertion of a dimension by magnitude, for the alias loop; among equal magnitudes the dimension that comes first stays first
(DEDUCED, log 96). -/
def insDim (d : Nat × Nat × Nat) : List (Nat × Nat × Nat) → List (Nat × Nat × Nat)
  | [] => [d]
  | e :: r => if d.1 ≤ e.1 then d :: e :: r else e :: insDim d r

/-- The loop of R175 over (coefficient, extent, dimension): the dimension and span at which it faults. -/
def aliasLoop : Nat → List (Nat × Nat × Nat) → Option (Nat × Nat)
  | _, [] => none
  | sp, (k, e, d) :: r => if k < sp then some (d, sp) else aliasLoop (sp + k * (e - 1)) r

/-- The kept dimensions of a write card in bits (R175). -/
def aliasDims (c : Card) : List (Nat × Nat × Nat) :=
  let base := ([4, 3, 2, 1].filter (fun k => decide (c.ext k > 1))).foldl
    (fun l k => insDim (8 * (c.stride k).natAbs, c.ext k, k) l) []
  let l := if c.ext 0 > 1 then insDim (c.width, c.ext 0, 0) base else base
  if c.planar then insDim (32768, fmtBits c.fmt, 7) l else l

/-- FLT_ALIAS_WRITE reasons 0x30 and 0x31 (R175, R177). -/
def checkAlias (mc : MapCtx) (c : Card) : Option IFault :=
  if !describable c then none
  else
    match aliasLoop c.width (aliasDims c) with
    | some (d, sp) => some ⟨0x10, cardInfo c d 0x30, BitVec.ofNat 64 sp⟩
    | none =>
      match c.liftRange with
      | some (b, n) =>
        let (l, m) := c.footRange
        if rangesMeet mc b n l m then some ⟨0x10, cardInfo c 7 0x31, BitVec.ofNat 64 b⟩ else none
      | none => none

/-- FLT_SLATE_RANGE: an engine other than the Mover and the link engine takes only cards in its own Slate (R165). -/
def checkOwn (mc : MapCtx) (t : Nat) (c : Card) : Option IFault :=
  if !describable c then none
  else
    let (lo, hi) := c.foot
    if regionOf mc lo hi = .slate t then none else some ⟨0x0C, 0, 0⟩

/-- The checks of one kind over several cards, in order. -/
def eachCard (f : Card → Option IFault) (l : List Card) : Option IFault := firstFault (l.map f)

/-! ### Slate operands (R139) -/

/-- Slate offset of an operand of `n` bytes: X + immediate modulo 2^64, low bits ignored; `none` past 6 MiB. -/
def slateOff (n : Nat) (x : BitVec 64) : Option Nat :=
  let a := x.toNat / n * n
  if a + n ≤ slateSize then some a else none

/-! ### Elements -/

/-- What a reader sees: the byte at a canonical address. -/
abbrev View := Nat → Byte

/-- Bytes of a range as seen through a view, module-local addresses (DEDUCED, log 87). -/
def vbytes (mc : MapCtx) (vw : View) (a n : Nat) : List Byte := (upto a n).map (fun k => vw (canon mc k))

/-- `w` bits from bit address `b` (8 bits a byte, little-endian). -/
def vbits (mc : MapCtx) (vw : View) (b w : Nat) : Nat :=
  let lo := b / 8
  let n := (b + w + 7) / 8 - lo
  nfld (leNat (vbytes mc vw lo n)) (b % 8) w

/-- A five-dimensional index. -/
structure Ix where
  i0 : Nat := 0
  i1 : Nat := 0
  i2 : Nat := 0
  i3 : Nat := 0
  i4 : Nat := 0
  deriving DecidableEq, Repr

/-- Index of the k-th element in card order, dimension 0 fastest (R163). -/
def Card.ix (c : Card) (k : Nat) : Ix :=
  let k1 := k / c.ext 0
  let k2 := k1 / c.ext 1
  let k3 := k2 / c.ext 2
  { i0 := k % c.ext 0, i1 := k1 % c.ext 1, i2 := k2 % c.ext 2, i3 := k3 % c.ext 3, i4 := k3 / c.ext 3 }

/-- Row and column of the k-th element. -/
def Card.rc (c : Card) (k : Nat) : Nat × Nat := (k / c.cols, k % c.cols)
/-- Place of element (r, k) in card order. -/
def Card.at_ (c : Card) (r k : Nat) : Nat := r * c.cols + k

/-- Module-local byte of element 0 of the row of dimension 0 that holds index `i`. -/
def Card.rowByte (c : Card) (i : Ix) : Nat :=
  ((c.base : Int) + i.i1 * c.stride 1 + i.i2 * c.stride 2 + i.i3 * c.stride 3 + i.i4 * c.stride 4).toNat

/-- Bit address of an element, or of its bit in plane `p` of a planar card (R168, R170). -/
def Card.bitAddr (c : Card) (i : Ix) (p : Nat) : Nat :=
  let b := c.rowByte i
  if c.planar then 8 * (b + 4096 * p) + i.i0
  else if c.packed then 8 * b + fmtBits c.fmt * i.i0
  else
    match c.d0mode with
    | 0 => 8 * b + c.width * i.i0
    | 2 => 8 * b - c.width * i.i0
    | _ => 8 * b

/-- Planes that a reader of the card takes (R72, R168). -/
def Card.planes (c : Card) : List Nat :=
  if !c.planar then [0] else if c.upper then [fmtBits c.fmt - 2, fmtBits c.fmt - 1] else List.range (fmtBits c.fmt)

/-- The bytes that `n` columns from `k` of row `r` occupy, for each plane. -/
def Card.rowRuns (c : Card) (r k n : Nat) : List (Nat × Nat) :=
  if n = 0 then []
  else
    c.planes.map (fun p =>
      let x := c.bitAddr (c.ix (c.at_ r k)) p
      let y := c.bitAddr (c.ix (c.at_ r (k + n - 1))) p
      (Nat.min x y / 8, (Nat.max x y + c.width - 1) / 8 - Nat.min x y / 8 + 1))

/-- The bytes of the lift table that hold the nibbles of `m` rows from `r` and `n` columns from `k`. -/
def Card.liftRuns (c : Card) (r m k n : Nat) : List (Nat × Nat) :=
  if !c.lifted ∨ m = 0 ∨ n = 0 then []
  else
    (if c.lax = 0 then upto r m else (upto (r / 32) ((r + m - 1) / 32 - r / 32 + 1)).map (32 * ·)).map (fun i =>
      (c.liftBase + c.liftNo i k / 2, c.liftNo i (k + n - 1) / 2 - c.liftNo i k / 2 + 1))

/-- The bytes that `m` rows from `r` and `n` columns from `k` occupy, lifts included: what an access through the card reaches, without
the gaps of its footprint. -/
def Card.reach (c : Card) (r m k n : Nat) : List (Nat × Nat) := (upto r m).flatMap (fun i => c.rowRuns i k n) ++ c.liftRuns r m k n
/-- The bytes that the whole card occupies. -/
def Card.runs (c : Card) : List (Nat × Nat) := c.reach 0 c.rows 0 c.cols

/-- The stored code of an element: upper planes only for an UPPER card (R72). -/
def readCode (mc : MapCtx) (vw : View) (c : Card) (i : Ix) : Nat :=
  if c.planar then
    let b := fmtBits c.fmt
    if c.upper then vbits mc vw (c.bitAddr i (b - 2)) 1 + 2 * vbits mc vw (c.bitAddr i (b - 1)) 1
    else (List.range b).foldl (fun a p => a + 2 ^ p * vbits mc vw (c.bitAddr i p) 1) 0
  else vbits mc vw (c.bitAddr i 0) (if c.kind = 0 then fmtBits c.fmt else c.width)

/-- The lift of element (r, k), 0 where the card has no table (R30, R172). -/
def readLift (mc : MapCtx) (vw : View) (c : Card) (r k : Nat) : Nat :=
  if c.lifted then let n := c.liftNo r k; vbits mc vw (8 * c.liftBase + 4 * n) 4 else 0

/-- Element value before its exponent, with its lift: the matrix engine's operand (R55, R56). -/
def readLifted (mc : MapCtx) (vw : View) (c : Card) (r k : Nat) : FVal :=
  (decodeElem c.eff (readCode mc vw c (c.ix (c.at_ r k)))).scale (readLift mc vw c r k)

/-- True value of element (r, k): x * 2^(E + L) (R30, R32). -/
def readTrue (mc : MapCtx) (vw : View) (c : Card) (r k : Nat) : FVal := (readLifted mc vw c r k).scale c.exp

/-- The bytes of image k of a KIND 1 or 2 card, as a number. -/
def readImage (mc : MapCtx) (vw : View) (c : Card) (k : Nat) : Nat := vbits mc vw (c.bitAddr (c.ix k) 0) c.width

/-- Pending writes of `w` bits at a bit address. -/
def putBits (mc : MapCtx) (b w v : Nat) : List PW :=
  let lo := b / 8
  let n := (b + w + 7) / 8 - lo
  let s := b % 8
  (List.range n).map (fun k =>
    let m := nfld ((2 ^ w - 1) <<< s) (8 * k) 8
    { addr := canon mc (lo + k), mask := BitVec.ofNat 8 m, val := BitVec.ofNat 8 (nfld ((v % 2 ^ w) <<< s) (8 * k) 8) })

/-- Pending writes of whole bytes at a module-local address. -/
def putBytes (mc : MapCtx) (a : Nat) (l : List Byte) : List PW :=
  (l.zip (upto a l.length)).map (fun (v, k) => { addr := canon mc k, mask := 0xFF, val := v })

/-- Pending writes of an element's code (R168, R169, R170). -/
def writeCode (mc : MapCtx) (c : Card) (i : Ix) (v : Nat) : List PW :=
  if c.planar then (List.range (fmtBits c.fmt)).flatMap (fun p => putBits mc (c.bitAddr i p) 1 (nfld v p 1))
  else putBits mc (c.bitAddr i 0) (if c.kind = 0 then fmtBits c.fmt else c.width) v

/-- Pending write of the lift nibble of the block that holds (r, k). -/
def writeLift (mc : MapCtx) (c : Card) (r k l : Nat) : List PW :=
  if c.lifted then putBits mc (8 * c.liftBase + 4 * c.liftNo r k) 4 l else []

/-- A view with pending writes laid over it, in order. -/
def overlay (vw : View) (ws : List PW) : View := fun a =>
  ws.foldl (fun b w => if w.addr = a then (b &&& ~~~w.mask) ||| (w.val &&& w.mask) else b) (vw a)

end Sys2Proof.Machine
end

