-- ==== Sys2Proof/Machine/Regs.lean ====
section
/-! DEFINITION. The register space outside the tile pages (R395): each register's access codes (R5 to R8) and reset
value, byte-partial writes (R421), reads, and the tallies (R379). -/
namespace Sys2Proof.Machine

def mgtBlk : Nat := 0xFF8000000000
def hstBlk : Nat := 0xFF8000200000
def lnkBlk : Nat := 0xFF8000400000
def rosBlk : Nat := 0xFF8000600000
def ckpBlk : Nat := 0xFF8000800000
def clsBlk : Nat := 0xFF8000A00000
def talBlk : Nat := 0xFF8000C00000

/-- Access of a register by masks: plain RW or RWS bits, W1C bits, WO command bits; the others are RO. -/
structure RegSpec where
  rw : Nat := 0
  w1c : Nat := 0
  wo : Nat := 0
  reset : Nat := 0
  deriving DecidableEq, Repr

/-- Bits lo to lo + w - 1. -/
def bmask (lo w : Nat) : Nat := (2 ^ w - 1) * 2 ^ lo

/-- Offset `o` lies in `n` entries of `stride` bytes from `base`, at entry offset `k`. -/
def entryAt (o base stride n k : Nat) : Bool := decide (base ≤ o) && decide ((o - base) / stride < n) && decide ((o - base) % stride = k)

/-- MGT block (R367, R407, R420). -/
def mgtSpec (o : Nat) : Option RegSpec :=
  if o = 0 then some { reset := 0xB13280 }
  else if o = 0x8 ∨ o = 0x10 then some {}
  else if entryAt o 0x100 8 16 0 then some {}
  else if o = 0x800 then some { rw := bmask 0 40, reset := 0x2710 + 2 ^ 24 + 7 * 2 ^ 32 + 3 * 2 ^ 36 }
  else if o = 0x808 then some { rw := bmask 0 17, wo := bmask 17 1, reset := 0x3E8 }
  else if o = 0x810 then some { wo := bmask 16 9 }
  else if o = 0x818 then some {}
  else if o = 0x820 then some { wo := bmask 0 13 }
  else if o = 0x828 then some { w1c := bmask 16 1 }
  else if entryAt o 0x830 8 9 0 then some { wo := bmask 17 1 }
  else if o = 0x900 then some { rw := bmask 0 10 + bmask 16 13, reset := 0x2D0 + 0x1DB0 * 2 ^ 16 }
  else if o = 0x908 then some { w1c := bmask 40 2 }
  else if o = 0x910 then some { rw := bmask 24 8, w1c := bmask 32 1, reset := 0x5F * 2 ^ 24 }
  else if o = 0x918 then some { w1c := bmask 34 1 }
  else none

/-- HST block (R407). -/
def hstSpec (o : Nat) : Option RegSpec :=
  if o = 0 then some { rw := 1 }
  else if o = 8 then some {}
  else if entryAt o 0x1000 64 513 0 ∨ entryAt o 0x1000 64 513 0x20 ∨ entryAt o 0x1000 64 513 0x30 then some { rw := bmask 6 58 }
  else if entryAt o 0x1000 64 513 8 then some { rw := bmask 0 5, reset := 4 }
  else if entryAt o 0x1000 64 513 16 then some { rw := bmask 0 12 }
  else if entryAt o 0x1000 64 513 24 ∨ entryAt o 0x1000 64 513 0x28 then some {}
  else if entryAt o 0x1000 64 513 0x38 then some { rw := bmask 0 18, reset := 6 }
  else none

/-- LNK block (R237). -/
def lnkSpec (o : Nat) : Option RegSpec :=
  if entryAt o 0 64 36 0 then some { rw := bmask 0 4 }
  else if entryAt o 0 64 36 8 then some { w1c := bmask 2 3 }
  else if entryAt o 0 64 36 16 then some {}
  else if entryAt o 0x1000 8 2048 0 then some { rw := bmask 0 11 + bmask 12 2 }
  else if entryAt o 0x5000 8 2048 0 then some { rw := bmask 0 30, reset := 0xFFFFFF }
  else if o = 0x9000 then some { rw := bmask 0 7, reset := 63 }
  else if o = 0x9008 then some { w1c := bmask 1 1 }
  else if o = 0x9010 then some { rw := bmask 0 32, reset := 100 }
  else if o = 0x9018 then some { rw := bmask 0 32, reset := 0x1C9C380 }
  else if o = 0x9020 then some { rw := bmask 0 22 }
  else if entryAt o 0x9100 8 16 0 then some { rw := bmask 0 7, reset := 8 }
  else none

/-- CLS block (R378). -/
def clsSpec (o : Nat) : Option RegSpec :=
  if entryAt o 0 8 8 0 then some { rw := 1, w1c := 2 }
  else if entryAt o 0x100 32 16 0 then some { rw := bmask 0 16, reset := 0xC8 }
  else if entryAt o 0x100 32 16 8 then some { rw := bmask 12 36 }
  else if entryAt o 0x100 32 16 16 then some { w1c := bmask 16 1 }
  else if entryAt o 0x1000 8 512 0 then some { rw := bmask 0 20 }
  else if entryAt o 0x2000 32 512 0 then some { rw := bmask 0 50 }
  else if entryAt o 0x2000 32 512 8 ∨ entryAt o 0x2000 32 512 16 ∨ entryAt o 0x2000 32 512 24 then some {}
  else none

/-- TAL block (R383, R385, R390). -/
def talSpec (o : Nat) : Option RegSpec :=
  if o = 0 then some { rw := bmask 0 64 }
  else if o = 8 then some { rw := bmask 0 16 + bmask 17 1, wo := bmask 16 1 + bmask 18 1 }
  else if o = 0x10 then some { w1c := bmask 19 1 + bmask 21 1 }
  else if o = 0x18 then some {}
  else if entryAt o 0x100 8 9 0 then some {}
  else if entryAt o 0x1000 64 512 0 then some { rw := bmask 12 52 }
  else if entryAt o 0x1000 64 512 8 then some { rw := bmask 0 8, reset := 0x8A }
  else if entryAt o 0x1000 64 512 16 ∨ entryAt o 0x1000 64 512 32 then some {}
  else if entryAt o 0x1000 64 512 24 then some { rw := bmask 0 25 }
  else none

/-- ROS block (R326). -/
def rosSpec (o : Nat) : Option RegSpec :=
  if o = 0 then some { rw := 1 }
  else if o = 8 then some { w1c := 2 }
  else if entryAt o 0x100 64 8 0 then some { rw := bmask 0 33 }
  else if entryAt o 0x100 64 8 8 ∨ entryAt o 0x100 64 8 16 ∨ entryAt o 0x100 64 8 24 then some { rw := bmask 12 36 }
  else if entryAt o 0x100 64 8 32 then some { rw := bmask 0 64, reset := 4096 }
  else if entryAt o 0x1000 32 512 0 then some { rw := bmask 0 64 }
  else if entryAt o 0x1000 32 512 8 then some { rw := bmask 0 16, reset := 0x100 }
  else if entryAt o 0x1000 32 512 16 then some {}
  else if entryAt o 0x5000 32 512 0 then some { rw := bmask 12 52 }
  else if entryAt o 0x5000 32 512 8 then some { rw := bmask 0 6, reset := 10 }
  else if entryAt o 0x5000 32 512 16 then some {}
  else if entryAt o 0x5000 32 512 24 then some { rw := bmask 0 25 }
  else none

/-- CKP block (R347). -/
def ckpSpec (o : Nat) : Option RegSpec :=
  if o = 0 then some { rw := bmask 0 12 }
  else if o = 8 then some { w1c := bmask 35 3 }
  else if o = 0x10 then some { rw := bmask 12 47 }
  else if o = 0x18 then some { rw := bmask 0 32 }
  else if o = 0x20 then some { rw := bmask 0 32, reset := 0x3E8 }
  else if o = 0x28 then some {}
  else none

/-- The register at a module-local address, none where there is none. -/
def regSpec (a : Nat) : Option RegSpec :=
  if a % 8 ≠ 0 then none
  else if a < mgtBlk then none
  else
    let o := (a - mgtBlk) % 0x200000
    match (a - mgtBlk) / 0x200000 with
    | 0 => mgtSpec o
    | 1 => hstSpec o
    | 2 => lnkSpec o
    | 3 => rosSpec o
    | 4 => ckpSpec o
    | 5 => clsSpec o
    | 6 => talSpec o
    | _ => none

/-- Reset value of the register at an address; MGT_SERIAL is fused (R407; DESIGN CHOICE, log 3). -/
def regReset (a : Nat) : BitVec 64 :=
  if a = mgtBlk + 0x10 then Config.serial
  else match regSpec a with | some r => BitVec.ofNat 64 r.reset | none => 0

/-- Stored value of a register. -/
def rget (s : State) (a : Nat) : BitVec 64 := tget (regReset a) s.regs a
/-- The state with a register's stored value replaced (a hardware or firmware update). -/
def rset (s : State) (a : Nat) (v : BitVec 64) : State := { s with regs := tset (regReset a) s.regs a v }
/-- Update of one field. -/
def rfld (s : State) (a lo w x : Nat) : State := rset s a (setFld (rget s a) lo w x)
def rflag (s : State) (a i : Nat) (b : Bool) : State := rset s a (setFlag (rget s a) i b)

/-- The 64-bit mask of the bytes a write covers (R421). -/
def beMask (be : BitVec 8) : BitVec 64 :=
  (List.range 8).foldl (fun m k => if flag be k then m ||| BitVec.ofNat 64 (0xFF * 2 ^ (8 * k)) else m) 0

/-- A register value after a software write of `v` under the access codes (R5 to R7, R421). WO bits are not stored. -/
def regMerge (sp : RegSpec) (old : BitVec 64) (be : BitVec 8) (v : BitVec 64) : BitVec 64 :=
  let m := beMask be
  let rw := BitVec.ofNat 64 sp.rw &&& m
  let w1 := BitVec.ofNat 64 sp.w1c &&& m
  ((old &&& ~~~rw) ||| (v &&& rw)) &&& ~~~(w1 &&& v)

/-- The command bits that a write sets. -/
def regCmd (sp : RegSpec) (be : BitVec 8) (v : BitVec 64) : BitVec 64 := v &&& BitVec.ofNat 64 sp.wo &&& beMask be

/-! ### Tallies (R379) -/

/-- An event tally after `n` more events: COUNT wraps into WRAP; whether it wrapped. -/
def tallyAdd (v : BitVec 64) (n : Nat) : BitVec 64 × Bool :=
  let c := fld v 0 48 + n
  (BitVec.ofNat 64 (c % 2 ^ 48 + ((fld v 48 16 + c / 2 ^ 48) % 2 ^ 16) * 2 ^ 48), decide (c ≥ 2 ^ 48))

/-- A sticky counter of `w` bits after `n` more: whether it has just reached its largest value. -/
def stickAdd (w old n : Nat) : Nat × Bool :=
  let r := satAdd w old n
  (r, decide (r = 2 ^ w - 1) && decide (old ≠ 2 ^ w - 1))

end Sys2Proof.Machine
end

