-- ==== Sys2Proof/Machine/Ops.lean ====
section
/-! DEFINITION. The named operations every meaning is built from: tiles and their registers, memory with its dirty bits,
poison and Hall cache, races, Bells, events, tallies, and recording a tile fault. -/
namespace Sys2Proof.Machine

/-- The tile `t`. -/
def State.tile (s : State) (t : Nat) : Tile := tget {} s.tiles t
/-- The state with tile `t` replaced. -/
def State.setTile (s : State) (t : Nat) (T : Tile) : State := { s with tiles := tset {} s.tiles t T }
/-- Update of one tile. -/
def State.onTile (s : State) (t : Nat) (f : Tile → Tile) : State := s.setTile t (f (s.tile t))

/-- X register; X0 reads zero (R106). -/
def Tile.xr (T : Tile) (i : Nat) : BitVec 64 := if i = 0 then 0 else tget 0 T.x i
/-- Write of an X register; X0 discards it (R106). -/
def Tile.setX (T : Tile) (i : Nat) (v : BitVec 64) : Tile := if i = 0 then T else { T with x := tset 0 T.x i v }
def Tile.vr (T : Tile) (i : Nat) : BitVec 4096 := tget 0 T.v i
def Tile.setV (T : Tile) (i : Nat) (v : BitVec 4096) : Tile := { T with v := tset 0 T.v i v }
def Tile.prd (T : Tile) (i : Nat) : BitVec 256 := tget 0 T.p i
def Tile.setP (T : Tile) (i : Nat) (v : BitVec 256) : Tile := { T with p := tset 0 T.p i v }
def Tile.dr (T : Tile) (i : Nat) : BitVec 256 := tget 0 T.d i
def Tile.setD (T : Tile) (i : Nat) (v : BitVec 256) : Tile := { T with d := tset 0 T.d i v }
def Tile.queue (T : Tile) (q : Nat) : List QInstr := tget [] T.queues q
def Tile.setQueue (T : Tile) (q : Nat) (l : List QInstr) : Tile := { T with queues := tset [] T.queues q l }
def Tile.startedQ (T : Tile) (q : Nat) : List Started := tget [] T.started q
def Tile.setStarted (T : Tile) (q : Nat) (l : List Started) : Tile := { T with started := tset [] T.started q l }
def Tile.stage (T : Tile) (n : Nat) : Stage := tget {} T.stages n
def Tile.setStage (T : Tile) (n : Nat) (e : Stage) : Tile := { T with stages := tset {} T.stages n e }
/-- A Row Abacus entry (R88). -/
def Tile.row (T : Tile) (i : Nat) : RowEntry := tget {} T.rows i

/-- The die, half and Classroom of a tile (R10). -/
def dieOf (t : Nat) : Nat := t / 96
def halfOf (t : Nat) : Nat := (t % 96) / 48
def classroomOf (t : Nat) : Nat := dieOf t * 2 + halfOf t

/-- SPLIT of each die (R368). -/
def splitMask (s : State) : BitVec 8 :=
  (List.range 8).foldl (fun m d => if flag (rget s (clsBlk + 8 * d)) 0 then m ||| BitVec.ofNat 8 (2 ^ d) else m) 0

/-- The Classroom that governs a tile: the even one of its die where the die is joined (R368). -/
def roomOf (s : State) (t : Nat) : Nat := if flag (splitMask s) (dieOf t) then classroomOf t else dieOf t * 2
/-- The tile's Classroom is restoring an incoming context: no tile of it continues before every one has been restored (R373). -/
def switchHolds (s : State) (t : Nat) : Bool :=
  match tget none s.rooms.switch (roomOf s t) with
  | some w => w.restoring && !w.back
  | none => false

/-- What the address checks depend on now. -/
def mapCtx (s : State) : MapCtx :=
  let b := rget s (ckpBlk + 0x10)
  { split := splitMask s,
    ward := if flag b 58 then some (fld b 12 36 * 4096, fld (rget s (ckpBlk + 0x18)) 0 32 * 4096) else none }

/-- Bit d of MGT_QUIET.DIE or MODULE, or die d in reset: its stacks and Slate answer with error (R12, R354). -/
def dieQuiet (s : State) (d : Nat) : Bool := flag (rget s (mgtBlk + 0x810)) d || flag (rget s (mgtBlk + 0x810)) 8
def moduleQuiet (s : State) : Bool := flag (rget s (mgtBlk + 0x810)) 8
def dieDead (s : State) (d : Nat) : Bool := dieQuiet s d || decide (s.sys.dieReset = some d)
/-- The tile is in the Quiet State by itself or by a scope that contains it (R354). -/
def tileQuiet (s : State) (t : Nat) : Bool := (s.tile t).quiet || dieQuiet s (dieOf t)

/-! ### Memory -/

/-- A byte of memory; unlisted bytes read 0 (DESIGN CHOICE, log 1). -/
def memGet (m : Mem) (a : Nat) : Byte := tget 0 m.cells a

/-- Reserved stacked DRAM and Cupboard, by canonical address (R189). -/
def resvByte (a : Nat) : Bool :=
  if niBase ≤ a ∧ a < niBase + dramEnd then decide ((a - niBase) % dramStack ≥ 0x0013FC000000)
  else decide (cupResv ≤ a ∧ a < cupEnd)

/-- Protection word size of a canonical address (R207). -/
def protSize (a : Nat) : Nat := if a < cupBase then 32 else if a < cupEnd then 64 else 8

/-- Dirty bits exist for unreserved stacked DRAM and Cupboard (R195; DEDUCED, log 29). -/
def tracksDirty (a : Nat) : Bool := decide (niBase ≤ a ∧ a < cupEnd) && !resvByte a

/-- One byte write with its sheet's dirty bit (R195; DEDUCED, log 29). -/
def memPut (m : Mem) (w : PW) : Mem :=
  { m with
    cells := tset 0 m.cells w.addr ((memGet m w.addr &&& ~~~w.mask) ||| (w.val &&& w.mask)),
    dirty := if tracksDirty w.addr then tset false m.dirty (w.addr / 4096) true else m.dirty }

/-- The writes cover every byte of the protection word of `n` bytes at `a` (DEDUCED, log 32). -/
def coversWord (ws : List PW) (a n : Nat) : Bool :=
  (upto a n).all (fun b => ws.any (fun w => decide (w.addr = b ∧ w.mask = 0xFF)))

/-- All writes of one access: bytes, dirty bits, and poison cleared where a whole word is covered (R207; DEDUCED, log 32). -/
def memWrite (m : Mem) (ws : List PW) : Mem :=
  let m' := ws.foldl memPut m
  { m' with poison := m'.poison.filter (fun e => !coversWord ws e.1 e.2) }

/-- Size of the protection word in which an access finds an uncorrectable error of a class: 8 bytes in a Hall line (R207, R208). -/
def wordSize (cls a : Nat) : Nat := if cls = 4 then 8 else protSize a

/-- Poisons the protection word of `n` bytes that holds a canonical address; a larger poisoned word there stays (R207; DEDUCED, log 32). -/
def memPoison (m : Mem) (a n : Nat) : Mem := { m with poison := tset 0 m.poison (a / n * n) (Nat.max n (tget 0 m.poison (a / n * n))) }

def State.write (s : State) (ws : List PW) : State := { s with m := memWrite s.m ws }

/-- `s` with the dirty bits of `t`: an armed partner area is reserved, and writes to it set none (R195, R327; DEDUCED, log 29). -/
def State.withDirty (s t : State) : State := { s with m := { s.m with dirty := t.m.dirty } }

/-- Bytes at canonical addresses that become zero: a Slate cleared by a tile reset, a lost store (R132). -/
def memClear (m : Mem) (lo hi : Nat) : Mem :=
  { m with cells := tclear m.cells lo hi, poison := tclear m.poison lo hi, dirty := tclear m.dirty (lo / 4096) (hi / 4096) }

/-- The pieces of a range with the address that names each: (named address, canonical address, length). -/
def namedPieces (mc : MapCtx) (a n : Nat) : List (Nat × Nat × Nat) :=
  (pieces mc a n).foldl (fun l p => l ++ [((match l.getLast? with | some q => q.1 + q.2.2 | none => a), p.1, p.2)]) []

/-- First byte of a range that lies in a poisoned protection word, by the address that names it (R207). -/
def poisonIn (s : State) (a n : Nat) : Option Nat :=
  (namedPieces (mapCtx s) a n).findSome? (fun p =>
    (s.m.poison.find? (fun e => overlaps e.1 e.2 p.2.1 p.2.2)).map (fun e => p.1 + (e.1 - p.2.1)))

/-- The compute die whose stacks or Slate hold a canonical address. -/
def homeDie (a : Nat) : Option Nat :=
  if niBase ≤ a ∧ a < niBase + dramEnd then some ((a - niBase) / dramDie)
  else if slateBase ≤ a ∧ a < slateBase + 768 * slateWin then some ((a - slateBase) / slateWin / 96)
  else none

/-- The error that a read (or write) of a range meets: a target die in reset or quiet (0x06), a poisoned word (0x05; DEDUCED, log 32). -/
def accessError (s : State) (rd : Bool) (a n : Nat) : Option ExecFault :=
  let ps := namedPieces (mapCtx s) a n
  match ps.find? (fun p => match homeDie p.2.1 with | some d => dieDead s d | none => false) with
  | some p => some ⟨0x43, BitVec.ofNat 64 p.1, 0x06⟩
  | none =>
    if rd then
      match poisonIn s a n with
      | some p => some ⟨0x43, BitVec.ofNat 64 p, 0x05⟩
      | none => none
    else none

/-- First error over several ranges. -/
def rangesError (s : State) (rd : Bool) (l : List (Nat × Nat)) : Option ExecFault :=
  (l.filterMap (fun r => accessError s rd r.1 r.2)).head?

/-! ### Hall cache (R192) -/

/-- Index of `x`-way victim: a way of `ways` that the set does not use, or the least recently used line among them (DEDUCED, log 30). -/
def hallPlace (ways : List Nat) (set : List HLine) : Nat :=
  match ways.find? (fun w => !set.any (fun l => decide (l.way = w))) with
  | some w => w
  | none =>
    match (set.reverse.find? (fun l => ways.contains l.way)) with
    | some l => l.way
    | none => 0

/-- One access to a 256-byte line at its home: a hit moves the line to the front; a miss allocates in `ways` unless the
access is on the no-allocate list (DEDUCED, log 30). -/
def hallTouch (h : Tab (List HLine)) (die line : Nat) (wr alloc : Bool) (ways : List Nat) : Tab (List HLine) :=
  let k := die * 16384 + line % 16384
  let set := tget [] h k
  match set.find? (fun l => decide (l.line = line)) with
  | some l => tset [] h k ({ l with modified := l.modified || wr } :: set.filter (fun x => decide (x.line ≠ line)))
  | none =>
    if alloc then
      let w := hallPlace ways set
      tset [] h k ({ line, way := w, modified := wr } :: set.filter (fun x => decide (x.way ≠ w)))
    else h

/-- The Hall ways of a requester on tile `t`: its Classroom's, or all on a joined die. -/
def waysOf (s : State) (t : Nat) (die : Nat) : List Nat :=
  if flag (splitMask s) die then upto (8 * halfOf t) 8 else List.range 16

/-- The lines of stacked DRAM that a range reaches, by die. -/
def hallLines (mc : MapCtx) (a n : Nat) : List (Nat × Nat) :=
  (pieces mc a n).flatMap (fun p =>
    if niBase ≤ p.1 ∧ p.1 < niBase + dramEnd then
      (upto (p.1 / 256) ((p.1 + p.2 - 1) / 256 - p.1 / 256 + 1)).map (fun l => ((p.1 - niBase) / dramDie, l))
    else [])

/-- Cache effect of an access to a range by a requester (DEDUCED, log 30). -/
def State.touch (s : State) (t : Nat) (wr alloc : Bool) (r : Nat × Nat) : State :=
  { s with m := { s.m with hall := (hallLines (mapCtx s) r.1 r.2).foldl (fun h (d, l) => hallTouch h d l wr alloc (waysOf s t d)) s.m.hall } }
def State.touches (s : State) (t : Nat) (wr : Bool) (l : List (Nat × Nat)) : State := l.foldl (fun s r => s.touch t wr true r) s

/-- The die and the line of a byte of stacked DRAM. -/
def lineOf (a : Nat) : Option (Nat × Nat) :=
  if niBase ≤ a ∧ a < niBase + dramEnd then some ((a - niBase) / dramDie, a / 256) else none

/-- The Hall ways of the Classroom that a byte of stacked DRAM belongs to (R188, R192). -/
def homeWays (s : State) (a : Nat) : List Nat :=
  if flag (splitMask s) ((a - niBase) / dramDie) then upto (8 * ((a - niBase) % dramDie / dramStack / 2)) 8 else List.range 16

/-- The Hall ways of tile `t`, or of an agent that is none at a byte. -/
def agentWays (s : State) (t : Option Nat) (d a : Nat) : List Nat :=
  match t with
  | some t => waysOf s t d
  | none => homeWays s a

/-- Cache effect of a write of one byte. -/
def touchByte (s : State) (t : Option Nat) (h : Tab (List HLine)) (w : PW) : Tab (List HLine) :=
  match lineOf w.addr with
  | some (d, l) => hallTouch h d l true true (agentWays s t d w.addr)
  | none => h

/-- Cache effect of writes by tile `t`, or by an agent that is none (R192; DEDUCED, log 30). -/
def State.touchWrites (s : State) (t : Option Nat) (ws : List PW) : State :=
  { s with m := { s.m with hall := ws.foldl (touchByte s t) s.m.hall } }

/-- An access by an agent that is no tile, from the fabric or by firmware, allocates in the ways of the half that owns the stack (R188,
R192; DEDUCED, log 30). -/
def State.touchHome (s : State) (wr : Bool) (r : Nat × Nat) : State :=
  { s with m := { s.m with hall := (hallLines (mapCtx s) r.1 r.2).foldl (fun h (d, l) => hallTouch h d l wr true (homeWays s (256 * l))) s.m.hall } }

/-! ### Races (R114, R183) -/

/-- Index of a free choice for word `a / 8` against the writer at (t, q, seq; DEDUCED, log 28). -/
def raceIx (s : State) (t q seq a : Nat) : Nat := (((s.free * 1024 + t) * 8 + q) * 2 ^ 40 + seq) * 2 ^ 48 + a / 8

/-- What a stage copy under way has still to make equal: the bytes of UP from LOW, sheet by sheet in no order that a reader knows (R198). -/
def copyWrites (s : State) (e : Stage) : List PW :=
  let mc := mapCtx s
  (List.range ((e.sheets.toNat + 1) * 4096)).map (fun k =>
    { addr := canon mc (e.up.toNat + k), mask := 0xFF, val := memGet s.m (canon mc (e.low.toNat + k)) })

/-- Writes in flight: (tile, queue, issue order, bytes). Queue 5 holds posted STs and queue 7 stage copies; a running route plan's local
entries stand under tile 1022 and the context (R265). -/
def inflight (s : State) : List (Nat × Nat × Nat × List PW) :=
  s.tiles.flatMap (fun (t, T) =>
    (T.started.flatMap (fun (q, l) => l.map (fun st => (t, q, st.i.seq, st.writes)))) ++
    T.access.filterMap (fun a => match a with | .st sq _ _ ws _ => some (t, 5, sq, ws) | _ => none) ++
    T.stages.filterMap (fun (n, e) => if e.state = 1 && e.active then some (t, 7, n, copyWrites s e) else none)) ++
  s.jobs.filterMap (fun (c, j) => (j.bind (·.change)).map (fun x => (1022, 6, c, x.writes.map (·.1))))

/-- What queue `q` of tile `t` reads: memory, with its own queue's writes in flight visible in order for the in-order
queues (0 to 2) and for LD after ST (5), and every other write in flight seen or not by a free choice for each aligned
8-byte word, where its sheet's dirty bit is set already (R114, R142, R195; DEDUCED, log 19; DEDUCED, log 28). -/
def viewOf (s : State) (t q : Nat) : View :=
  let fl := (inflight s).filter (fun e => !e.2.2.2.isEmpty)
  fun a =>
    fl.foldl (fun b (t', q', sq, ws) =>
      ws.foldl (fun b w =>
        if w.addr = a then
          (if (t' = t ∧ q' = q ∧ q ≠ 3 ∧ q ≠ 4) ∨
              ((!tracksDirty a || tget false s.m.dirty (a / 4096)) && Config.freeBit (raceIx s t' q' sq a)) then (b &&& ~~~w.mask) ||| (w.val &&& w.mask) else b)
        else b) b) (memGet s.m a)

/-- Memory as an agent outside the tiles reads it. -/
def viewOut (s : State) : View := viewOf s 1023 7

/-- The next free value is a fresh one (DESIGN CHOICE, log 4). -/
def State.fresh (s : State) : State := { s with free := s.free + 1 }

/-- The bits that a list of writes names at a byte. -/
def maskAt (ws : List PW) (a : Nat) : Byte := ws.foldl (fun m v => if v.addr = a then m ||| v.mask else m) 0

/-- A write in flight without the bits that landing writes name, where `lost` says that it lost; none of it is left where
it has no other bit (R169). -/
def PW.yield (ws : List PW) (lost : Bool) (w : PW) : Option PW :=
  let m := if lost then w.mask &&& ~~~(maskAt ws w.addr) else w.mask
  if m = 0 then none else some { w with mask := m }

/-- When writes land, a write still in flight elsewhere to the same bits may be the one that lost (R114, R183): by a free
choice for each 8-byte word the other instruction gives up those bits. Writes of other bits of the word all take effect (R169).
Queues 0 to 2 keep their own order (DEDUCED, log 28). -/
def raceDrop (s : State) (t q : Nat) (ws : List PW) : State :=
  { s with
    tiles := s.tiles.map (fun (t', T) =>
      (t', { T with started := T.started.map (fun (q', l) =>
        (q', l.map (fun st => if t' = t ∧ q' = q ∧ q < 3 then st
          else { st with writes := st.writes.filterMap (fun w => w.yield ws (Config.freeBit (raceIx s t' q' st.i.seq w.addr))) }))) })),
    jobs := s.jobs.map (fun (c, j) => (c, j.map (fun j =>
      { j with change := j.change.map (fun x =>
          { x with writes := x.writes.filterMap (fun w => (w.1.yield ws (Config.freeBit (raceIx s 1022 6 c w.1.addr))).map (·, w.2)) }) }))) }

/-- The writes of an instruction that has started set the dirty bits of their sheets now or when they land, by a free choice
for each sheet (R195; DEDUCED, log 29). -/
def State.accept (s : State) (ws : List PW) : State :=
  if ws.isEmpty then s else { s with
    m := { s.m with dirty := ws.foldl (fun d w =>
      if tracksDirty w.addr && Config.freeBit (raceIx s 1021 6 0 (8 * (w.addr / 4096))) then tset false d (w.addr / 4096) true else d) s.m.dirty },
    free := s.free + 1 }

/-- Writes in flight of a tile's own in-order queue, or its posted STs, that a read of it sees have set their sheets' dirty bits
before (R195). -/
def State.seen (s : State) (t q : Nat) (rs : List (Nat × Nat)) : State :=
  let own := ((inflight s).filter (fun e => decide (e.1 = t ∧ e.2.1 = q ∧ q ≠ 3 ∧ q ≠ 4))).flatMap (·.2.2.2)
  let ps := rs.flatMap (fun r => pieces (mapCtx s) r.1 r.2)
  let ws := own.filter (fun w => tracksDirty w.addr && ps.any (fun p => decide (p.1 ≤ w.addr ∧ w.addr < p.1 + p.2)))
  { s with m := { s.m with dirty := ws.foldl (fun d w => tset false d (w.addr / 4096) true) s.m.dirty } }

/-! ### Bells (R115 to R117) -/

def bellGet (s : State) (b : BitVec 19) : BitVec 32 := tget 0 s.bells b.toNat
/-- A Bell takes a value; the Bell store of a die in reset answers with an error and takes none (R12; DEDUCED, log 32). -/
def bellSet (s : State) (b : BitVec 19) (v : BitVec 32) : State :=
  if s.sys.dieReset = some (b.toNat / 65536) then s else { s with bells := tset 0 s.bells b.toNat v }
def bellAdd (s : State) (b : BitVec 19) (n : Nat) : State := bellSet s b (bellGet s b + BitVec.ofNat 32 n)
/-- R116. -/
def bellMet (s : State) (b : BitVec 19) (v : BitVec 32) : Bool := decide ((bellGet s b - v).toNat < 2 ^ 31)
/-- The Bell lies in a range of `count` Bells from `base`, clipped at 65,536 (R115, R133). -/
def inBellRange (base count : Nat) (b : BitVec 19) : Bool := decide (base ≤ fld b 0 16 ∧ fld b 0 16 < base + count)
def tileBell (T : Tile) (b : BitVec 19) : Bool := inBellRange T.bellBase.toNat T.bellCount.toNat b

/-! ### Host memory, rings and events (R396, R398, R400) -/

def hostGet (h : HostSide) (a : Nat) : Byte := tget 0 h.mem a
def hostPut (h : HostSide) (a : Nat) (l : List Byte) : HostSide :=
  { h with mem := (l.zip (upto a l.length)).foldl (fun m (v, k) => tset 0 m k v) h.mem }
def hostBytes (h : HostSide) (a n : Nat) : List Byte := (upto a n).map (hostGet h)

/-- Registers of queue set q. -/
def qreg (q k : Nat) : Nat := hstBlk + 0x1000 + 64 * q + k
/-- An MSI-X vector of function `fn` is signalled (R400; DEDUCED, log 84). -/
def signal (s : State) (fn vec : Nat) : State := { s with host := { s.host with msix := s.host.msix ++ [(fn, vec)] } }
def qEnabled (s : State) (q : Nat) : Bool := flag (rget s (qreg q 8)) 4

/-- An event record into the ring of queue set `q` (R398; DEDUCED, log 48). -/
def ringEvent (s : State) (q : Nat) (e : EvRec) : State :=
  if !qEnabled s q then s
  else
    let c := rget s (qreg q 0x38)
    let size := 2 ^ fld c 0 4
    let prod := fld c 18 14
    if (prod + 1) % size = fld c 4 14 % size then
      let s := rset s (qreg q 0x38) (setFld c 32 32 (satAdd 32 (fld c 32 32) 1))
      { s with host := { s.host with lost := tset false s.host.lost q true } }
    else
      let lap := tget false s.host.evLap q
      let lost := tget false s.host.lost q
      let w0 := e.code.toNat + (if lap then 0 else 2 ^ 16) + (if lost then 2 ^ 17 else 0)
      let bytes := leBytes 8 w0 ++ leBytes 8 e.time.toNat ++ leBytes 8 e.w2.toNat ++ leBytes 8 e.w3.toNat
      let np := (prod + 1) % size
      let s := rset s (qreg q 0x38) (setFld c 18 14 np)
      let h := hostPut s.host (fld (rget s (qreg q 0x30)) 6 58 * 64 + 32 * prod) bytes
      signal { s with host := { h with lost := tset false h.lost q false, evLap := tset false h.evLap q (if np = 0 then !lap else lap) } } q 0

/-- An event is raised: to the owning contexts' rings and the PF's, or to the PF's and to out-of-band management; the
last 1024 events of each die, and under 8 of the I/O dies, are kept for the Report Card (R360, R398). While the module is quiet no Prefect core runs, and an event
reaches out-of-band management only (R364; DEDUCED, log 48). -/
def raise (s : State) (code w2 w3 : Nat) (ctxs : List Nat) (die : Option Nat) : State :=
  let e : EvRec := ⟨BitVec.ofNat 16 code, s.now, BitVec.ofNat 64 w2, BitVec.ofNat 64 w3⟩
  let s := if moduleQuiet s then s else ringEvent (ctxs.foldl (fun s n => ringEvent s (n + 1) e) s) 0 e
  let s := if ctxs.isEmpty || moduleQuiet s then { s with host := { s.host with oob := s.host.oob ++ [e] } } else s
  let d := die.getD 8
  let l := tget [] s.host.last d ++ [e]
  { s with host := { s.host with last := tset [] s.host.last d (l.drop (l.length - 1024)) } }

/-- A tally of the TAL block after `n` more (R379, R383): an event tally, or a counter that sticks. -/
def countTal (s : State) (o n : Nat) : State :=
  if n = 0 then s
  else
    let a := talBlk + o
    if o < 0x130 then
      let (v, wrap) := tallyAdd (rget s a) n
      let s := rset s a v
      if wrap then raise s 0x0023 a 0 [] none else s
    else
      let (v, stick) := stickAdd 32 (fld (rget s a) 0 32) n
      let s := rset s a (BitVec.ofNat 64 v)
      if stick then raise s 0x0012 a 0 [] none else s

/-- An event about a tile. Words 2 and 3 carry the tile in [33:24], the context in [48:40] as for a tile fault (DEDUCED, log 36). -/
def raiseTile (s : State) (t code lo w3 : Nat) : State :=
  let T := s.tile t
  raise s code (lo % 2 ^ 21 + t * 2 ^ 24 + T.ctx.toNat * 2 ^ 40) w3 [T.ctx.toNat] (some (dieOf t))

/-! ### Faults (R122 to R126) -/

/-- The fault record with one more fault: the first in issue order is recorded, the later ones count in MORE (R124). -/
def recordFault (r : FaultRec) (f : FaultRec) : FaultRec :=
  let more := BitVec.ofNat 8 (satAdd 8 r.more.toNat 1)
  if !r.valid then f
  else if f.seq < r.seq then { f with more := more }
  else { r with more := more }

/-- TILE_FAULT as a register (R133). -/
def faultWord (r : FaultRec) : BitVec 64 :=
  BitVec.ofNat 64 (r.code.toNat + r.atExec.toNat * 2 ^ 8 + r.queue.toNat * 2 ^ 9 + r.valid.toNat * 2 ^ 12 + r.more.toNat * 2 ^ 13)

/-- Recording of a fault, and the notification of R126 (event 0x0001; DEDUCED, log 36). -/
def tileFault (s : State) (t : Nat) (f : FaultRec) : State :=
  let s := s.onTile t (fun T => { T with fault := recordFault T.fault f })
  raiseTile s t 0x0001 (faultWord (s.tile t).fault).toNat (s.tile t).fault.info0.toNat

/-- A fault at issue (R122): the instruction leaves no effect, issue stops, the queues drain. -/
def issueFault (s : State) (t : Nat) (f : IFault) : State :=
  let T := s.tile t
  let s := s.setTile t { T with run := false, halt := if T.halt = .hold then .hold else .drain, bwait := none }
  tileFault s t { code := f.code, atExec := false, queue := 5, valid := true, pc := T.pc.truncate 48, info0 := f.info0, info1 := f.info1, seq := T.seq }

/-- A fault at execution (R123): no queue starts a new instruction and issue stops; it does not go on after a preemption
(R129, R130). -/
def execFault (s : State) (t q : Nat) (pc : BitVec 64) (seq : Nat) (f : ExecFault) : State :=
  let s := s.onTile t (fun T => { T with run := false, wasRun := false, halt := .hold })
  tileFault s t { code := f.code, atExec := true, queue := BitVec.ofNat 3 q, valid := true, pc := pc.truncate 48, info0 := f.info0, info1 := f.info1, seq := seq }

end Sys2Proof.Machine
end

