-- ==== Sys2Proof/Machine/Jobs.lean ====
section
/-! DEFINITION. Access to a context's job: the copied Timetable (R238), its tensor classes and state regions (R239, R240),
and the write-card checks of R201 and R240. -/
namespace Sys2Proof.Machine

/-- This module's physical number, its seat, and whether it holds one (LNK_SELF, R237). -/
def lnkSelf : Nat := lnkBlk + 0x9020
def selfPm (s : State) : BitVec 11 := BitVec.ofNat 11 (fld (rget s lnkSelf) 0 11)
def selfSeat (s : State) : BitVec 10 := BitVec.ofNat 10 (fld (rget s lnkSelf) 11 10)
def seated (s : State) : Bool := flag (rget s lnkSelf) 21

def jobOf (s : State) (ctx : Nat) : Option Job := tget none s.jobs ctx
def setJob (s : State) (ctx : Nat) (j : Option Job) : State := { s with jobs := tset none s.jobs ctx j }
/-- Update of a context's job, if it has one. -/
def onJob (s : State) (ctx : Nat) (f : Job → Job) : State :=
  match jobOf s ctx with
  | some j => setJob s ctx (some (f j))
  | none => s

/-- Field of 64-bit word `k` of a byte block (DEDUCED, log 87). -/
def wfld (l : List Byte) (k lo w : Nat) : Nat := nfld (leNat ((l.drop (8 * k)).take 8)) lo w
/-- The i-th entry of `n` bytes of a table. -/
def entryOf (l : List Byte) (n i : Nat) : List Byte := (l.drop (n * i)).take n

def Job.gateList (j : Job) : Nat := wfld j.tt 0 30 12
def Job.gateTiles (j : Job) : Nat := wfld j.tt 0 42 10
def Job.stages (j : Job) : Nat := wfld j.tt 0 8 11
def Job.replicas (j : Job) : Nat := wfld j.tt 0 19 11
def Job.restartPc (j : Job) : Nat := wfld j.tt 1 0 48
def Job.mbCeil (j : Job) : Nat := wfld j.tt 2 0 24
def Job.page (j : Job) : Nat := 16 * 2 ^ wfld j.tt 2 24 2
def Job.shEn (j : Job) : Bool := wfld j.tt 2 27 1 = 1
def Job.shCtx (j : Job) : Nat := wfld j.tt 2 28 9
def Job.pipeBell (j : Job) : Nat := wfld j.tt 2 37 16
def Job.pipeCount (j : Job) : Nat := wfld j.tt 2 53 8
def Job.deadline (j : Job) : Nat := wfld j.tt 3 0 48
/-- Numerics block (R53), words 8 to 15 of the Timetable. -/
def Job.seed (j : Job) : Nat := wfld j.tt 8 0 64
def Job.lsInit (j : Job) : Int := sgn 8 (wfld j.tt 9 0 8)
def Job.lsMin (j : Job) : Int := sgn 8 (wfld j.tt 9 8 8)
def Job.lsMax (j : Job) : Int := sgn 8 (wfld j.tt 9 16 8)
def Job.lsStreak (j : Job) : Nat := wfld j.tt 9 24 16
def Job.histBase (j : Job) : Int := sgn 8 (wfld j.tt 9 40 8)
def Job.kvSr (j : Job) : Bool := wfld j.tt 9 48 1 = 1
/-- Clip-share threshold of a format (R53). -/
def Job.threshold (j : Job) (f : Nat) : Nat := wfld j.tt (10 + f / 4) (16 * (f % 4)) 16

/-- The run in which an instruction that captures `step` issues: 0 where that is not NEXT (R251, R252, R255; DEDUCED, log 45). -/
def Job.runFor (j : Job) (step : BitVec 32) : Nat := if step.toNat = j.next then j.run else 0

/-- How the run has ended in which an instruction for NEXT issued, if it has; one that issued before NEXT was its step belongs to the
first run (R251, R252, R254, R255; DEDUCED, log 45). -/
def Job.ended (j : Job) (i : QInstr) : Option Nat :=
  let r := Nat.max i.attempt 1
  if r < j.run then some (tget 4 j.ends r) else none

/-- Tensor class entries (R239). -/
def Job.classList (j : Job) : List (List Byte) := (List.range (j.classes.length / 16)).map (entryOf j.classes 16)
def clsTid (e : List Byte) : Nat := wfld e 0 0 30
def clsClass (e : List Byte) : Nat := wfld e 0 30 4
def clsFmt (e : List Byte) : Nat := wfld e 0 34 4
def clsE (e : List Byte) : Int := sgn 8 (wfld e 0 38 8)
def clsFixed (e : List Byte) : Bool := wfld e 0 46 1 = 1
def clsObserve (e : List Byte) : Bool := wfld e 0 47 1 = 1
/-- Histogram base of a tensor (R53, R239). -/
def Job.histBaseOf (j : Job) (e : List Byte) : Int := if wfld e 0 56 1 = 1 then sgn 8 (wfld e 0 48 8) else j.histBase

/-- State regions as (first byte, length) (R240). -/
def Job.regionList (j : Job) : List (Nat × Nat) :=
  (List.range (j.regions.length / 16)).map (fun i => let e := entryOf j.regions 16 i; (wfld e 0 12 36 * 4096, wfld e 1 0 32 * 4096))

/-- A route plan entry (R260). -/
structure PlanEntry where
  src : Nat
  dst : Nat
  len : Nat
  srcRank : Nat
  dstRank : Nat
  deriving DecidableEq, Repr

def planEntry (e : List Byte) : PlanEntry :=
  { src := wfld e 0 12 36 * 4096, dst := wfld e 1 12 36 * 4096, len := wfld e 2 0 32 * 4096, srcRank := wfld e 2 32 10, dstRank := wfld e 2 42 10 }
/-- The entries of a route plan. -/
def planEntries (plan : List Byte) : List PlanEntry := (List.range (wfld plan 0 8 17)).map (fun i => planEntry ((plan.drop (32 + 32 * i)).take 32))
/-- Destination ranges of a route plan at one rank. -/
def planDests (plan : List Byte) (rank : Nat) : List (Nat × Nat) :=
  ((planEntries plan).filter (fun e => decide (e.dstRank = rank))).map (fun e => (e.dst, e.len))

/-- This seat's rank in a class list. -/
def rankIn (s : State) (cl : Nat) : Nat := match tget none s.fab.lists cl with | some c => c.rank | none => 0

/-- FLT_STATE_WRITE (R240, R267): the region that a write range of a job tile meets. In the generation layout, sheets that
are destinations of LEARN_PLAN are free. -/
def stateWrite (s : State) (ctx : Nat) (stateOp : Bool) (ws : List (Nat × Nat)) : Option IFault :=
  match jobOf s ctx with
  | none => none
  | some j =>
    if stateOp then none
    else
      let mc := mapCtx s
      let dests := if j.layout then planDests j.learnPlan (rankIn s j.gateList) else []
      let hit (r : Nat × Nat) : Bool :=
        ws.any (fun w =>
          if dests.isEmpty then rangesMeet mc w.1 w.2 r.1 r.2
          else
            -- a sheet of the region that the write meets and that no destination holds
            (List.range (r.2 / 4096)).any (fun k =>
              let a := r.1 + 4096 * k
              rangesMeet mc w.1 w.2 a 4096 && !dests.any (fun d => rangesMeet mc a 4096 d.1 d.2)))
      match (j.regionList.zip (List.range 64)).find? (fun r => hit r.1) with
      | some (_, i) => some ⟨0x15, BitVec.ofNat 64 i, 0⟩
      | none => none

/-- FLT_STAGE_WRITE (R201): the entry whose UP or LOW range a write range meets. -/
def stageWrite (s : State) (T : Tile) (ws : List (Nat × Nat)) : Option IFault :=
  let mc := mapCtx s
  match T.stages.find? (fun e => decide (e.2.state ≠ 0) && ws.any (fun w =>
      rangesMeet mc w.1 w.2 e.2.up.toNat ((e.2.sheets.toNat + 1) * 4096) ||
      rangesMeet mc w.1 w.2 e.2.low.toNat ((e.2.sheets.toNat + 1) * 4096))) with
  | some (n, _) => some ⟨0x14, BitVec.ofNat 64 n, 0⟩
  | none => none

/-- The write-card checks that end an instruction's check order (R136). -/
def writeChecks (s : State) (T : Tile) (stateOp : Bool) (ws : List (Nat × Nat)) : Option IFault :=
  firstFault [stageWrite s T ws, stateWrite s T.ctx.toNat stateOp ws]

/-! ### Step counts (R49, R50) -/

/-- Key of a step of a context, and of a tensor of that step. -/
def stepKey (ctx step : Nat) : Nat := ctx * 2 ^ 32 + step % 2 ^ 32
def statKey (ctx step tid : Nat) : Nat := stepKey ctx step * 2 ^ 30 + tid % 2 ^ 30

/-- The larger of two optional exponents. -/
def maxExp : Option Int → Option Int → Option Int
  | none, b => b
  | a, none => a
  | some x, some y => some (max x y)

/-- The class entry of a tensor of a context's job. -/
def entryFor (s : State) (ctx tid : Nat) : Option (List Byte) :=
  (jobOf s ctx).bind (fun j => j.classList.find? (fun e => decide (clsTid e = tid)))

/-- A histogram of the tensor is kept although no drill card says so: its class entry has OBSERVE (R50, R239; DEDUCED, log 37). -/
def observed (s : State) (ctx tid : Nat) : Bool := match entryFor s ctx tid with | some e => clsObserve e | none => false

/-- Histogram base of a tensor (R53, R239); the numerics block's default where the context has no job (DEDUCED, log 37). -/
def baseFor (s : State) (ctx tid : Nat) : Int :=
  match jobOf s ctx with
  | some j => (match entryFor s ctx tid with | some e => j.histBaseOf e | none => j.histBase)
  | none => -44

/-- Bin of a value before narrowing at tensor exponent E (R50). -/
def histBin (base E : Int) : FVal → Nat
  | .fin _ m e =>
    if m = 0 then 0
    else
      let r := topBit m e - E
      if r < base then 1 else if r > base + 59 then 62 else (r - base + 2).toNat
  | _ => 63

/-- Bins with more values in them, each staying at its largest value; whether one has just reached it (R50). -/
def histAdd (base E : Int) (h : Tab Nat) (vals : List FVal) : Tab Nat × Bool :=
  vals.foldl (fun (h, k) v =>
    let b := histBin base E v
    let (n, k') := stickAdd 32 (tget 0 h b) 1
    (tset 0 h b n, k || k')) (h, false)

/-- Narrowings of one tensor at a captured step are counted: EVT_COUNT_STICK once per tensor per step at a 32-bit counter's or
bin's largest value (R49, R50; DEDUCED, log 37), under the format and the exponent of the last narrowing (R52; DEDUCED, log 94). -/
def countNarrow (s : State) (t : Nat) (step : BitVec 32) (tid fmt : Nat) (E : Int) (vals : List FVal) (c : NCount) (hist : Bool) : State :=
  let ctx := (s.tile t).ctx.toNat
  let k := statKey ctx step.toNat tid
  let st := tget {} s.counts.stats k
  let (cl, k1) := stickAdd 32 st.clip c.clip
  let (va, k2) := stickAdd 32 st.vanish c.vanish
  let (nf, k3) := stickAdd 32 st.nonf c.nonf
  let (h, k4) := if hist then histAdd (baseFor s ctx tid) E st.hist vals else (st.hist, false)
  let stick := (k1 || k2 || k3 || k4) && !st.stuck
  let st' : TStat :=
    { narrowed := satAdd 64 st.narrowed vals.length, clip := cl, vanish := va, nonf := nf, fmt := fmt, exp := E,
      amax := maxExp st.amax (amaxOf vals), stuck := st.stuck || stick, hist := h }
  let s := { s with counts := { s.counts with stats := tset {} s.counts.stats k st' } }
  if stick then raiseTile s t 0x0012 0 tid else s

end Sys2Proof.Machine
end

