-- ==== Sys2Proof/Machine/Issue.lean ====
section
/-! DEFINITION. Issue (R107 to R109, R134 to R137): when an instruction word issues, the checks every word goes through,
and the placing of an engine instruction at the tail of its queue. -/
namespace Sys2Proof.Machine

/-- The scalar control unit of tile `t` issues: it runs, no preemption or reset holds it, and neither the tile nor its
die is quiet or in reset (R107, R128, R354; DEDUCED, log 6; DESIGN CHOICE, log 63). -/
def canIssue (s : State) (t : Nat) : Bool :=
  let T := s.tile t
  T.run && decide (T.pre = .idle) && !T.resetting && !T.quiet && !dieDead s (dieOf t) && !s.sys.modReset && !switchHolds s t

/-- Issue stalls while a source register other than X0 waits for the data of an LD (R106, R142). -/
def ldPending (T : Tile) (srcs : List Nat) : Bool :=
  T.access.any (fun a => match a with | .ld _ _ rd .. => decide (rd ≠ 0) && srcs.contains rd.toNat | _ => false)

/-- FLT_FETCH for the word at `pc`: not aligned, outside the map or in the management range, or a fetch that completes
with error, which R126 and R145 name so where R190 names FLT_MEM_ERROR (DEDUCED, log 7; DEDUCED, log 17). -/
def fetchFault (s : State) (pc : BitVec 64) : Option IFault :=
  if pc.toNat % 8 ≠ 0 ∨ !mapped (mapCtx s) pc.toNat 8 ∨ (accessError s true pc.toNat 8).isSome then some ⟨0x02, 0, 0⟩ else none

/-- The state in which the fetch of an instruction of one or two words has been made. -/
def fetched (s : State) (t : Nat) (pc : BitVec 64) (ext : Bool) : State :=
  s.touch t false true (pc.toNat, if ext then 16 else 8)

/-- TILE_PC past the instruction (R134). -/
def Tile.advance (T : Tile) (ext : Bool) : Tile := { T with pc := T.pc + (if ext then 16 else 8) }

/-- An instruction has issued: the issue order moves on and the last 32 issued are kept (R360). -/
def Tile.issued (T : Tile) (pc w0 w1 : BitVec 64) : Tile :=
  { T with seq := T.seq + 1, bwait := none, last32 := ((pc, w0, w1) :: T.last32).take 32 }

/-- Issue of one instruction: fetch, FLT_ILLEGAL, then the instruction's own checks and effect, which `body` gives on the
state with TILE_PC past it. On a fault the instruction leaves no effect (R122; DEDUCED, log 6). -/
def issueWord (s : State) (t : Nat) (ext : Bool) (w0 w1 : BitVec 64) (legal : Bool) (body : State → Except IFault State) : State :=
  let pc := (s.tile t).pc
  match firstFault [fetchFault s pc, if ext then fetchFault s (pc + 8) else none] with
  | some f => issueFault s t f
  | none =>
    let s := fetched s t pc ext
    if !legal then issueFault s t ⟨0x01, w0, if ext then w1 else 0⟩
    else
      match body (s.onTile t (·.advance ext)) with
      | .error f => issueFault s t f
      | .ok s' => s'.onTile t (·.issued pc w0 w1)

/-- Issue of a scalar instruction; it stalls while the tile does not issue, a BWAIT holds it, or a source waits for an LD (DEDUCED, log 21). -/
def issueScalar (s : State) (t : Nat) (ext : Bool) (w0 w1 : BitVec 64) (srcs : List Nat) (legal : Bool)
    (body : State → Except IFault State) : State :=
  let T := s.tile t
  if !canIssue s t || T.bwait.isSome || ldPending T srcs then s else issueWord s t ext w0 w1 legal body

/-- FLT_BELL_RANGE for a Bell and the value reported in INFO1 (R115, R133, R137). -/
def bellFault (T : Tile) (b : BitVec 19) (target : BitVec 32) : Option IFault :=
  if tileBell T b then none else some ⟨0x12, b.setWidth 64, target.setWidth 64⟩

/-- The wait of a synchronisation extension, with its target read at issue (R137). -/
def syncWait (x : Sync) (T : Tile) : Option (BitVec 19 × BitVec 32) :=
  if x.ext && x.wen then some (x.wbell, (T.xr x.wx.toNat).setWidth 32) else none
/-- The ring of a synchronisation extension. -/
def syncRing (x : Sync) : Option (BitVec 19 × BitVec 8) := if x.ext && decide (x.rinc ≠ 0) then some (x.rbell, x.rinc) else none
/-- X registers that the extension reads. -/
def syncSrcs (x : Sync) : List Nat := if x.ext && x.wen then [x.wx.toNat] else []

/-- The Bell checks of an engine instruction: its wait, its ring unless it names a Bell at another seat, its operand. -/
def syncFault (T : Tile) (x : Sync) (remote : Bool) (bells : List (BitVec 19)) : Option IFault :=
  firstFault ([(syncWait x T).bind (fun w => bellFault T w.1 w.2),
    if remote then none else (syncRing x).bind (fun r => bellFault T r.1 0)] ++ bells.map (fun b => bellFault T b 0))

/-- Mover tags in use: queued and started Mover instructions (R106, R154). -/
def moverTags (T : Tile) : Nat := (T.queue 3).length + (T.startedQ 3).length

/-- The head of a queue waits on one of its job's pipeline Bells (R247). -/
def pipeWait (s : State) (T : Tile) (i : QInstr) : Bool :=
  match i.wait, jobOf s T.ctx.toNat with
  | some (b, v), some j => inBellRange j.pipeBell j.pipeCount b && !bellMet s b v
  | _, _ => false

/-- The time from which the new head of a queue has been held by a pipeline Bell (DEDUCED, log 45). -/
def noteHead (s : State) (t q : Nat) : State :=
  s.onTile t (fun T =>
    let w := match (T.queue q).head? with | some i => if pipeWait s T i then some s.now else none | none => none
    { T with waits := tset none T.waits q w })

/-- Issue of an engine instruction into queue `q` (R107, R108): `body` makes its operand checks and captures its operands;
it may also change the tile (the issued view of R422; DEDUCED, log 6). One whose record cannot be read retires without an effect (DEDUCED,
log 12). -/
def issueEngine (s : State) (t q : Nat) (w0 : BitVec 64) (x : Sync) (srcs : List Nat) (legal : Bool) (remote : Bool)
    (bells : List (BitVec 19)) (body : State → Tile → Except IFault (EngineOp × Tile)) : State :=
  let T := s.tile t
  if decide ((T.queue q).length ≥ 32) || (decide (q = 3) && decide (moverTags T ≥ 4096)) then s
  else
    issueScalar s t x.ext w0 x.w1 (srcs ++ syncSrcs x) legal (fun s' =>
      let T := s'.tile t
      match syncFault T x remote bells with
      | some f => .error f
      | none =>
        match body s' T with
        | .error f =>
          if f.code = 0x43 then .ok (execFault s' t q (T.pc - (if x.ext then 16 else 8)) T.seq ⟨f.code, f.info0, f.info1⟩) else .error f
        | .ok (op, T') =>
          let i : QInstr :=
            { seq := T.seq, pc := T.pc - (if x.ext then 16 else 8), w0 := w0, w1 := if x.ext then x.w1 else 0,
              wait := syncWait x T, ring := syncRing x, op := op,
              attempt := match jobOf s' T.ctx.toNat with | some j => j.runFor T.step | none => 0 }
          let u := s'.setTile t (T'.setQueue q (T'.queue q ++ [i]))
          .ok (if (T'.queue q).isEmpty then noteHead u t q else u))

/-- The first fault of a list of checks, or the value. -/
def checked {α : Type} (l : List (Option IFault)) (v : α) : Except IFault α :=
  match firstFault l with | some f => .error f | none => .ok v

/-- The bytes of a Slate operand of the own tile at X + immediate, with its offset; FLT_SLATE_RANGE past 6 MiB (R139; DEDUCED, log 12). -/
def slateRead (s : State) (t n : Nat) (x : BitVec 64) : Except IFault (Nat × List Byte) :=
  match slateOff n x with
  | none => .error ⟨0x0C, 0, 0⟩
  | some o => .ok (slateOf t + o, vbytes (mapCtx s) (viewOf s t 5) (slateOf t + o) n)

/-- FLT_MEM_ERROR for a record that lies in a poisoned Slate word: at execution, as R126 has it (R207; DEDUCED, log 12). -/
def recordFaultAt (s : State) (a n : Nat) : Option IFault :=
  (accessError s true a n).map (fun e => ⟨e.code, e.info0, e.info1⟩)

/-- The tensor card of D register `d` as captured at issue (R108). -/
def cardOf (T : Tile) (d : Nat) : Card :=
  let w := T.dr (d % 32)
  { reg := d % 32, w := w, liftBase := fld (T.dr (fld w (64 + 10) 5)) 0 48 }

end Sys2Proof.Machine
end

