-- ==== Sys2Proof/Machine/Stage.lean ====
section
/-! DEFINITION. Stage entries (R197 to R204) and the tile register page apart from the TILE_ registers' host writes
(R75, R98, R105, R133, R185, R209). -/
namespace Sys2Proof.Machine

/-! ### Memory agents -/

/-- A write that its home answers: none to the stacks or a Slate of a die in reset or quiet (R12, R354). -/
def taken (s : State) (w : PW) : Bool := match homeDie w.addr with | some d => !dieDead s d | none => true

/-- Writes that land from queue `q` of tile `t` (7: an agent that is no tile queue): the writes in flight they race with
lose or stand by free choices (R114, R183), then memory takes them (DEDUCED, log 28). -/
def State.land (s : State) (t q : Nat) (ws : List PW) : State :=
  let ws := ws.filter (taken s)
  if ws.isEmpty then s else ((raceDrop s t q ws).fresh).write ws

/-- An access that looks up in the Hall cache but never allocates (R192; DEDUCED, log 30). -/
def State.pass (s : State) (wr : Bool) (r : Nat × Nat) : State := s.touch 0 wr false r

/-- Base of the register page of tile `t` (R395). -/
def pageBase (t : Nat) : Nat := 0xFF0000000000 + t * 0x200000

/-- MOV_LATE counts one start under outcome 3 (R199, R209). -/
def countLate (s : State) (t : Nat) : State :=
  let (v, wrap) := tallyAdd (s.tile t).eng.late 1
  let s := s.onTile t (fun T => { T with eng := { T.eng with late := v } })
  if wrap then raiseTile s t 0x0023 0 (pageBase t + 0x630) else s

/-! ### Stage copies -/

def Stage.len (e : Stage) : Nat := (e.sheets.toNat + 1) * 4096
def Stage.upRange (e : Stage) : Nat × Nat := (e.up.toNat, e.len)
def Stage.lowRange (e : Stage) : Nat × Nat := (e.low.toNat, e.len)

/-- The reason for which GO of entry `n` is rejected with `sheets` (R197), 0 where it is accepted. -/
def stageErr (s : State) (t n : Nat) (e : Stage) : Nat :=
  let mc := mapCtx s
  let reg (r : Nat × Nat) : Region := regionOf mc r.1 (r.1 + r.2 - 1 : Nat)
  let meets (a b : Nat × Nat) : Bool := rangesMeet mc a.1 a.2 b.1 b.2
  let u := reg e.upRange
  let l := reg e.lowRange
  if e.state ≠ 0 then 4
  else if u = .bad ∨ l = .bad then 1
  else if !(decide (u = .slate t ∧ (l = .dram ∨ l = .cupb)) || decide (u = .dram ∧ l = .cupb)) then 2
  else if meets e.upRange e.lowRange ||
      (s.tile t).stages.any (fun (m, o) => decide (m ≠ n) && decide (o.state ≠ 0) &&
        [e.upRange, e.lowRange].any (fun a => [o.upRange, o.lowRange].any (meets a))) then 3
  else 0

/-- The stage engine takes waiting copies in entry order while fewer than four are under way (R198). -/
def stageFill (l : Tab Stage) : Tab Stage :=
  (l.foldl (fun (x : Nat × Tab Stage) e =>
    if 0 < x.1 ∧ e.2.state = 1 ∧ !e.2.active then (x.1 - 1, x.2 ++ [(e.1, { e.2 with active := true })]) else (x.1, x.2 ++ [e]))
    (4 - (l.filter (fun e => decide (e.2.state = 1) && e.2.active)).length, [])).2

/-- A write of MOV_STGn_CTL (R202, R209): WAS_LATE cleared by 1, DISARM first, then GO; SHEETS is taken while idle, and
GO uses the SHEETS and SITOUT of its own write (DEDUCED, log 31). -/
def stageCtl (s : State) (t n : Nat) (clearLate go disarm : Bool) (sheets : BitVec 16) (sitout : Bool) : State :=
  let e := (s.tile t).stage n
  let e := if clearLate then { e with wasLate := false } else e
  let wasIdle := decide (e.state = 0)
  let e := if disarm then (if e.state = 1 then { e with disarm := true } else { e with state := 0 }) else e
  let e := { e with sitout := sitout, sheets := if wasIdle || (go && decide (e.state = 0)) then sheets else e.sheets }
  let e :=
    if go then
      match stageErr s t n e with
      | 0 => { e with state := 1, wasLate := false, err := 0, active := false, disarm := false, told := false }
      | r => { e with err := BitVec.ofNat 4 r }
    else e
  s.onTile t (fun T => let T := T.setStage n e; { T with stages := stageFill T.stages })

/-- The first `k` sheets of entry `n` are copied from LOW to UP, without allocation in the Hall cache (R192, R198; DEDUCED, log 31). -/
def stageCopy (s : State) (t n k : Nat) : State :=
  let e := (s.tile t).stage n
  let mc := mapCtx s
  let ws := putBytes mc e.up.toNat (vbytes mc (viewOut s) e.low.toNat (4096 * k))
  ((s.pass false (e.low.toNat, 4096 * k)).pass true (e.up.toNat, 4096 * k)).land t 7 ws

/-- First sheet of which the read of LOW, or the write of UP to a die in reset, completes with error (R12, R198). -/
def stageBad (s : State) (e : Stage) : Option Nat :=
  (List.range (e.sheets.toNat + 1)).find? (fun k => (accessError s true (e.low.toNat + 4096 * k) 4096).isSome ||
    (accessError s false (e.up.toNat + 4096 * k) 4096).isSome)

/-- The copy of entry `n` ends in state `st`; a DISARM that waited makes it idle (R202), and the next copy begins (R198). -/
def stageEnd (s : State) (t n : Nat) (st : BitVec 2) : State :=
  s.onTile t (fun T =>
    let e := T.stage n
    let T := T.setStage n { e with state := if e.disarm then 0 else st, active := false, disarm := false }
    { T with stages := stageFill T.stages })

/-- A copy fails at sheet `k`: the sheets before it are copied (R198, R202). -/
def stageFail (s : State) (t n k : Nat) : State := stageEnd (stageCopy s t n k) t n 3

/-- WAS_LATE and EVT_TIER_LATE, once for a copy, whatever clears WAS_LATE meanwhile (R200; DEDUCED, log 31). -/
def stageLate (s : State) (t n : Nat) : State :=
  if ((s.tile t).stage n).told then s
  else raiseTile (s.onTile t (fun T => T.setStage n { T.stage n with wasLate := true, told := true })) t 0x0024 n 0

/-- The address of LOW whose byte stands for a byte of UP. -/
def lowFor (mc : MapCtx) (es : List (Nat × Stage)) (a : Nat) : Option Nat :=
  es.findSome? (fun e => (List.range (e.2.sheets.toNat + 1)).findSome? (fun k =>
    if canon mc (e.2.up.toNat + 4096 * k) = a / 4096 * 4096 then some (e.2.low.toNat + 4096 * k + a % 4096) else none))

/-- A view in which the bytes of UP are those of LOW. -/
def stageView (mc : MapCtx) (es : List (Nat × Stage)) (vw : View) : View := fun a =>
  match lowFor mc es a with
  | some b => vw (canon mc b)
  | none => vw a

/-- A read range with its parts in UP named by their addresses in LOW. -/
def stageRanges (mc : MapCtx) (es : List (Nat × Stage)) (r : Nat × Nat) : List (Nat × Nat) :=
  if es.isEmpty then [r]
  else
    (List.range ((r.1 + r.2 - 1) / 4096 - r.1 / 4096 + 1)).map (fun k =>
      let a := Nat.max r.1 ((r.1 / 4096 + k) * 4096)
      let e := Nat.min (r.1 + r.2) ((r.1 / 4096 + k + 1) * 4096)
      match lowFor mc es (canon mc a) with
      | some b => (b, e - a)
      | none => (a, e - a))

/-- Stage entries take a change only while their die is alive and their tile is not being reset. -/
def stageLive (s : State) (t : Nat) : Bool := !dieDead s (dieOf t) && !(s.tile t).resetting && !(s.tile t).quiet

def execStageGo (t : TileNo) (n : Fin 64) (sheets : BitVec 16) (sitout disarm : Bool) (s : State) :
    Host.Outcome State Fault Refusal :=
  .next (stageCtl s t n false true disarm sheets sitout)

/-- A DISARM writes the SITOUT and SHEETS that the entry holds. -/
def execStageDisarm (t : TileNo) (n : Fin 64) (s : State) : Host.Outcome State Fault Refusal :=
  let e := (s.tile t).stage n
  .next (stageCtl s t n false false true e.sheets e.sitout)

/-- The copy of an entry finishes, if it is one of the four under way (R198). A sheet of LOW that reads with error fails it there
(DEDUCED, log 31). -/
def execStageCopyDone (t : TileNo) (n : Fin 64) (s : State) : Host.Outcome State Fault Refusal :=
  let e := (s.tile t).stage n
  if e.state ≠ 1 ∨ !e.active ∨ !stageLive s t then .next s
  else
    match stageBad s e with
    | some k => .next (stageFail s t n k)
    | none => .next (stageEnd (stageCopy s t n (e.sheets.toNat + 1)) t n 2)

/-- A copy reads an uncorrectable word in `sheet`: that word is poisoned in place (R207); which one, the spec's command
does not say, so it is a free choice (DEDUCED, log 31). -/
def execStageCopyFail (t : TileNo) (n : Fin 64) (sheet : Nat) (s : State) : Host.Outcome State Fault Refusal :=
  let e := (s.tile t).stage n
  if e.state ≠ 1 ∨ !e.active ∨ !stageLive s t ∨ sheet > e.sheets.toNat then .next s
  else
    let s' := stageFail s t n sheet
    let a := canon (mapCtx s) (e.low.toNat + 4096 * sheet) + (Config.freeWord s.free).toNat % 4096
    let m := memPoison s'.m a (protSize a)
    .next { s' with m := m, free := s'.free + 1 }

/-- Module time reaches the deadline of a copying entry (R200). -/
def execStageDeadline (t : TileNo) (n : Fin 64) (s : State) : Host.Outcome State Fault Refusal :=
  let e := (s.tile t).stage n
  if e.state = 1 ∧ e.dl.toNat ≤ s.now.toNat ∧ stageLive s t then .next (stageLate s t n) else .next s

/-! ### The register page as read (R75, R98, R105, R133, R185, R209) -/

/-- Bits of a register from (position, value) pairs. -/
def packBits (l : List (Nat × Nat)) : BitVec 64 := BitVec.ofNat 64 (l.foldl (fun a e => a + e.2 * 2 ^ e.1) 0)

/-- The Abacus slot that an instruction uses, for ABA_STATUS.BUSY and the interlocks; an ATT counts as the MMUL that R149 makes
it for R65 (DEDUCED, log 89). -/
def opSlot : EngineOp → Option Nat
  | .mmul sl .. => some sl
  | .ladd sl .. => some sl
  | .att sl .. => some sl
  | .drill _ card .. => let w0 := leNat (card.take 8); if nfld w0 0 3 = 0 ∨ nfld w0 0 3 = 4 then some (nfld w0 3 2) else none
  | _ => none

/-- Instructions of a queue that are issued and not complete. -/
def inQueue (T : Tile) (q : Nat) : List QInstr := (T.startedQ q).map (·.i) ++ T.queue q

def slots : List Nat := [0, 1, 2, 3]

/-- ABA_STATUS; in fused mode only slot 0 is live. -/
def abaStatus (T : Tile) : BitVec 64 :=
  let live := if T.aba.fused then [0] else slots
  let busy := (inQueue T 0 ++ inQueue T 1).filterMap (fun i => opSlot i.op)
  let base (n : Nat) := n * 8192
  packBits ((0, T.aba.fused.toNat) :: (live.flatMap (fun n =>
    [(4 + n, (busy.contains n).toNat), (8 + n, (flag T.aba.ovf n).toNat), (12 + n, (decide (tget 0 T.aba.chain n > 2 ^ 32)).toNat),
     (16 + n, (decide (trange T.aba.marks (base n) (if T.aba.fused then 32768 else base n + 8192) ≠ [])).toNat)])))

/-- TILE_CTX as it reads (R133). -/
def tileCtx (s : State) (t : Nat) : BitVec 64 := packBits [(0, (s.tile t).ctx.toNat), (12, classroomOf t)]

def tileStatus (s : State) (t : Nat) : BitVec 64 :=
  let T := s.tile t
  let started := [0, 1, 2, 3, 4].any (fun q => !(T.startedQ q).isEmpty)
  packBits ([(0, T.run.toNat), (1, T.stopped.toNat), (2, (!started).toNat), (3, T.saved.toNat), (4, T.preFail.toNat),
    (5, (tileQuiet s t).toNat), (16, moverTags T)] ++ [0, 1, 2, 3, 4].map (fun q => (6 + q, (!(T.queue q).isEmpty).toNat)))

def isMove : EngineOp → Bool
  | .move .. => true
  | _ => false
/-- Started MOVEs being advanced: the first 16 (R183). -/
def moveActive (T : Tile) : Nat := Nat.min 16 ((T.startedQ 3).filter (fun x => isMove x.i.op)).length

/-- A started DRILL whose output carries lifts along LIFT_AXIS 1: it may be holding rows (R79). -/
def drillHolds : EngineOp → Bool
  | .drill _ card ext _ cout _ _ cm cv cw _ _ =>
    decide (wfld card 0 56 1 = 1 ∧ wfld card 0 0 3 ≠ 3) &&
      (if wfld card 0 32 8 = 0x10 then cm.lifted || (decide (wfld ext 4 24 4 = 0) && cv.lifted) || cw.lifted else cout.lifted)
  | _ => false
/-- The MOVE is a bit copy (R180). -/
def isBitCopy (mode : Nat) (a b : Card) : Bool :=
  if a.kind ≠ 0 ∨ b.kind ≠ 0 then true
  else decide (mode ≠ 2) && decide (a.eff = b.fmt ∧ a.exp = b.exp) && (a.lifted == b.lifted) &&
    (if mode = 1 ∧ a.lifted ∧ b.lifted then decide (a.lax ≠ b.lax) else decide (a.lax = b.lax))

/-- A started MOVE that forms lifts along LAX 1 (R180, R185). -/
def moveHolds : EngineOp → Bool
  | .move mode a b => b.lifted && decide (b.lax = 1) && !isBitCopy mode a b
  | _ => false
/-- A hold is in progress on the engine of queue `q`: at this time or not, by a free choice, while an instruction that holds rows
is started (R79, R185; DEDUCED, log 31). -/
def holding (s : State) (t q : Nat) (holds : EngineOp → Bool) : Bool :=
  ((s.tile t).startedQ q).any (fun x => holds x.i.op) && Config.freeBit (raceIx s t 7 q s.now.toNat)

/-- A register of the page of tile `t`, none where the offset holds none (DEDUCED, log 17; DEDUCED, log 31). -/
def pageRead (s : State) (t o : Nat) : Option (BitVec 64) :=
  let T := s.tile t
  let a := T.aba
  let e := T.eng
  match o with
  | 0x0000 => some (tileStatus s t)
  | 0x0008 => some (packBits [(16, T.preLimit.toNat)])
  | 0x0010 => some (BitVec.ofNat 64 (fld T.pc 3 45 * 8))
  | 0x0018 => some (T.step.setWidth 64)
  | 0x0020 => some T.seed
  | 0x0028 => some (tileCtx s t)
  | 0x0030 => some (packBits [(0, T.bellBase.toNat), (16, T.bellCount.toNat)])
  | 0x0038 => some (T.waitLimit.setWidth 64)
  | 0x0040 => some (T.saveBase.setWidth 64)
  | 0x0048 => some (faultWord T.fault)
  | 0x0050 => some (T.fault.pc.setWidth 64)
  | 0x0058 => some T.fault.info0
  | 0x0060 => some T.fault.info1
  | 0x0400 => some (abaStatus T)
  | 0x0500 => some (packBits [(0, (!(inQueue T 1).isEmpty).toNat), (1, (holding s t 1 drillHolds).toNat), (8, e.rowOvf.toNat), (9, e.readInf.toNat)])
  | 0x0508 => some (packBits [(0, e.drlCode.toNat), (8, e.drlRow.toNat)])
  | 0x0510 => some e.drlElem
  | 0x0580 => some (packBits [(0, (!(inQueue T 2).isEmpty).toNat), (1, e.nanSeen.toNat), (2, e.negP.toNat)])
  | 0x0600 => some (packBits [(0, (!(T.startedQ 3).isEmpty).toNat), (1, moveActive T), (8, e.clipSeen.toNat),
      (9, e.nonfSeen.toNat), (10, e.outInf.toNat), (11, (holding s t 3 moveHolds).toNat)])
  | 0x0608 => some e.converted
  | 0x0610 => some (e.clip.setWidth 64)
  | 0x0618 => some (e.vanish.setWidth 64)
  | 0x0620 => some (e.nonf.setWidth 64)
  | 0x0628 => some (e.outInfN.setWidth 64)
  | 0x0630 => some e.late
  | o =>
    if o % 8 ≠ 0 then none
    else if 0x0408 ≤ o ∧ o ≤ 0x0420 then
      let n := (o - 0x0408) / 8
      some (if a.fused ∧ n ≠ 0 then 0 else BitVec.ofNat 64 (tget 0 a.chain n))
    else if 0x0428 ≤ o ∧ o ≤ 0x0440 then
      let n := (o - 0x0428) / 8
      some (if a.fused ∧ n ≠ 0 then 0 else packBits [(0, unsgn 10 (tget 0 a.anchor n)), (10, (tget false a.valid n).toNat)])
    else if 0x0800 ≤ o ∧ o < 0x1000 then
      let g := T.stage ((o - 0x0800) / 32)
      match (o - 0x0800) % 32 / 8 with
      | 0 => some (g.up.setWidth 64)
      | 1 => some (g.low.setWidth 64)
      | 2 => some g.dl
      | _ => some (packBits [(0, g.state.toNat), (2, g.wasLate.toNat), (3, g.sitout.toNat), (8, g.err.toNat), (16, g.sheets.toNat)])
    else none

/-- TILE_ registers, which a tile program never writes (R133, R143). -/
def isTileReg (o : Nat) : Bool := decide (o ≤ 0x0060 ∧ o % 8 = 0)

/-- The value `old` with the bytes of `v` that a write covers (R421). -/
def mergeBytes (old : BitVec 64) (be : BitVec 8) (v : BitVec 64) : BitVec 64 := (old &&& ~~~(beMask be)) ||| (v &&& beMask be)

/-- A write, under the access codes, to a register of the page that is no TILE_ register. A 1 clears an OVF bit in fused mode too
(DESIGN CHOICE, log 93). -/
def pageWrite (s : State) (t o : Nat) (be : BitVec 8) (v0 : BitVec 64) : State :=
  let v := v0 &&& beMask be
  let c (i : Nat) (b : Bool) : Bool := b && !flag v i
  match o with
  | 0x0400 => s.onTile t (fun T => { T with aba := { T.aba with ovf := T.aba.ovf &&& ~~~((v >>> 8).setWidth 4) } })
  | 0x0500 => s.onTile t (fun T => { T with eng := { T.eng with rowOvf := c 8 T.eng.rowOvf, readInf := c 9 T.eng.readInf } })
  | 0x0580 => s.onTile t (fun T => { T with eng := { T.eng with nanSeen := c 1 T.eng.nanSeen, negP := c 2 T.eng.negP } })
  | 0x0600 => s.onTile t (fun T => { T with eng := { T.eng with clipSeen := c 8 T.eng.clipSeen, nonfSeen := c 9 T.eng.nonfSeen, outInf := c 10 T.eng.outInf } })
  | o =>
    if 0x0800 ≤ o ∧ o < 0x1000 ∧ o % 8 = 0 then
      let n := (o - 0x0800) / 32
      let g := (s.tile t).stage n
      match (o - 0x0800) % 32 / 8 with
      | 0 => if g.state ≠ 0 then s else s.onTile t (·.setStage n { g with up := BitVec.ofNat 48 (fld (mergeBytes (g.up.setWidth 64) be v0) 12 36 * 4096) })
      | 1 => if g.state ≠ 0 then s else s.onTile t (·.setStage n { g with low := BitVec.ofNat 48 (fld (mergeBytes (g.low.setWidth 64) be v0) 12 36 * 4096) })
      | 2 => s.onTile t (·.setStage n { g with dl := mergeBytes g.dl be v0 })
      | _ =>
        let m := mergeBytes (packBits [(3, g.sitout.toNat), (16, g.sheets.toNat)]) be v0
        stageCtl s t n (flag v 2) (flag v 4) (flag v 5) (BitVec.ofNat 16 (fld m 16 16)) (flag m 3)
    else s

end Sys2Proof.Machine
end

