-- ==== Sys2Proof/Machine/Matrix.lean ====
section
/-! DEFINITION. The matrix queue's own instructions MMUL, LADD and ABMODE (R54 to R72, R146 to R148, R422): their issue
with its checks and the issued view, and what each does when it starts. -/
namespace Sys2Proof.Machine

/-- What starting an instruction gives: the state after its effects on the tile, the bytes it writes when it completes
and the fault it raises then (DEDUCED, log 15). -/
structure Effect where
  s : State
  writes : List PW := []
  fail : Option ExecFault := none

/-! ### Slots -/

/-- Rows and columns of a slot (R59). -/
def slotShape (fused : Bool) : Nat × Nat := if fused then (128, 256) else (64, 128)
/-- Key of cell `i` of a slot in the Abacus tables. -/
def cellKey (slot i : Nat) : Nat := slot * 8192 + i
/-- Keys of the cells of a slot: [lo, hi). -/
def slotLo (slot : Nat) : Nat := cellKey slot 0
def slotHi (fused : Bool) (slot : Nat) : Nat := if fused then 32768 else cellKey (slot + 1) 0

/-- FLT_SLOT_GEOM for a slot named against the issued mode (R60, R422). -/
def slotFault (T : Tile) (slot : Nat) : Option IFault := if T.aba.iFused ∧ slot ≠ 0 then some ⟨0x06, 0, 0⟩ else none

/-- FLT_ANCHOR against the issued view (R62, R133). -/
def anchorFault (T : Tile) (slot : Nat) (anchor : Int) : Option IFault :=
  let a := T.aba
  if tget false a.iValid slot ∧ tget 0 a.iAnchor slot ≠ anchor then
    some ⟨0x05, BitVec.ofNat 64 (slot + unsgn 10 (tget 0 a.iAnchor slot) * 2 ^ 16 + unsgn 10 anchor * 2 ^ 32), 0⟩
  else none

/-- The issued view after a chain has been started on, or continued in, a slot (R422). -/
def Tile.viewChain (T : Tile) (slot : Nat) (acc : Bool) (anchor : Int) : Tile :=
  if acc && tget false T.aba.iValid slot then T
  else { T with aba := { T.aba with iValid := tset false T.aba.iValid slot true, iAnchor := tset 0 T.aba.iAnchor slot anchor } }
/-- The issued view after an ATT (R149). -/
def Tile.viewDrop (T : Tile) (slot : Nat) : Tile := { T with aba := { T.aba with iValid := tset false T.aba.iValid slot false } }
/-- The issued view after an ABMODE. -/
def Tile.viewMode (T : Tile) (fused : Bool) : Tile := { T with aba := { T.aba with iFused := fused, iValid := [] } }
/-- The issued view set to the Abacus itself (reset, RESTORE, FLUSH). -/
def Tile.viewSync (T : Tile) : Tile :=
  { T with aba := { T.aba with iFused := T.aba.fused, iValid := T.aba.valid, iAnchor := T.aba.anchor } }

/-! ### Card checks of the engines that work in the own Slate -/

/-- FLT_ALIGN, FLT_STRIDE, FLT_PLANE_READ where `plane` asks for it here, FLT_ALIAS_WRITE of the write cards, then
FLT_SLATE_RANGE, over cards with their write flags (R146, R165, R72). -/
def ownCards (s : State) (t : Nat) (plane : Bool) (l : List (Card × Bool)) : Option IFault :=
  let mc := mapCtx s
  firstFault [eachCard (checkAlign mc) (l.map (·.1)), firstFault (l.map (fun c => checkStride c.2 c.1)),
    if plane then firstFault (l.map (fun c => if c.2 then checkPlaneWrite c.1 else checkPlaneRead c.1)) else none,
    eachCard (checkAlias mc) ((l.filter (·.2)).map (·.1)), eachCard (checkOwn mc t) (l.map (·.1))]

/-- FLT_FORMAT_CODE of a card: malformed, then refused by the place. -/
def formAt (c : Card) (kind : Nat) (ok : Nat → Bool) : Option IFault := firstFault [checkForm false c, checkPlace c kind ok]

/-! ### MMUL -/

/-- FLT_K_BLOCK (R63, R146, R172); LAX is looked at where lifts are read (R30; DEDUCED, log 33). Where the two reduction extents differ, the last element is the shorter one's (DEDUCED, log 8). -/
def kBlockFault (a b : Card) (k0 k : Nat) : Option IFault :=
  let e := Nat.min a.cols b.rows
  if k0 % 32 ≠ 0 ∨ k > 2048 ∨ (k % 32 ≠ 0 ∧ k0 + k ≠ e) ∨ k0 + k > e ∨ (a.lifted ∧ a.lax ≠ 0) ∨ (b.lifted ∧ b.lax ≠ 1) then
    some ⟨0x07, 0, 0⟩
  else none

/-- The checks of MMUL, in order (R146). -/
def mmulFault (s : State) (t : Nat) (T : Tile) (f : MmulForm) : Option IFault :=
  let a := cardOf T f.da.toNat
  let b := cardOf T f.db.toNat
  let sl := f.slot.toNat
  let (m, n) := slotShape T.aba.iFused
  firstFault [ownCards s t false [(a, false), (b, false)], formAt a 0 (fun x => decide (x ≤ 9)), formAt b 0 (fun x => decide (x ≤ 9)),
    slotFault T sl, if a.rows ≠ m ∨ b.cols ≠ n then some ⟨0x06, 0, 0⟩ else none,
    kBlockFault a b (T.xr f.kx.toNat).toNat f.kn.toNat,
    checkPlaneRead a, checkPlaneRead b, if f.acc then anchorFault T sl (a.exp + b.exp) else none]

def issueMmul (t : Nat) (f : MmulForm) (s : State) : State :=
  issueEngine s t 0 f.w0 f.sync [f.kx.toNat] (legalMmul f) false [] (fun s T =>
    let a := cardOf T f.da.toNat
    let b := cardOf T f.db.toNat
    let sl := f.slot.toNat
    match mmulFault s t T f with
    | some e => .error e
    | none => .ok (.mmul sl f.acc a b (T.xr f.kx.toNat).toNat f.kn.toNat, T.viewChain sl f.acc (a.exp + b.exp)))

/-- A cell with its mark and whether it has left the guard range in this instruction. -/
structure Cell where
  c : BitVec 160
  mark : Bool
  out : Bool := false
  deriving DecidableEq, Repr

/-- The guard range of R57, in units of 2^-64. -/
def inGuard (v : Int) : Bool := decide (-(2 ^ 158 : Int) ≤ v ∧ v < 2 ^ 158)

/-- Addition of `n` units of 2^-64 to a cell modulo 2^160; the sum so reduced is checked against the guard range (R57, R67, R70). -/
def Cell.add (x : Cell) (n : Int) : Cell :=
  let c := BitVec.ofInt 160 (x.c.toInt + n)
  if inGuard c.toInt then { x with c := c } else { c := c, mark := true, out := true }

/-- Units of 2^-64 in an exact value. -/
def units : FVal → Int
  | .fin neg m e => let v : Int := if 0 ≤ e + 64 then (m : Int) * 2 ^ (e + 64).toNat else (m : Int) / 2 ^ (-(e + 64)).toNat
                    if neg then -v else v
  | _ => 0

/-- One product enters a cell (R61, R66). -/
def Cell.mac (x : Cell) (a b : FVal) : Cell :=
  match a.mul b with
  | .fin n m e => (match a, b with | .fin .., .fin .. => x.add (units (.fin n m e)) | _, _ => { x with mark := true })
  | _ => { x with mark := true }

/-- The cells of a slot as the instruction finds them: zero where it starts a chain. -/
def slotCells (A : Abacus) (slot n : Nat) (fresh : Bool) : List Cell :=
  (List.range n).map (fun i =>
    if fresh then { c := 0, mark := false } else { c := tget 0 A.cells (cellKey slot i), mark := tget false A.marks (cellKey slot i) })

/-- A table with the entries of [lo, hi) replaced by a list of values in order. -/
def putRange {α : Type} [DecidableEq α] (d : α) (tb : Tab α) (lo hi : Nat) (l : List α) : Tab α :=
  tb.filter (fun e => decide (e.1 < lo)) ++ (((upto lo (hi - lo)).zip l).filter (fun e => decide (e.2 ≠ d))) ++
    tb.filter (fun e => decide (hi ≤ e.1))

/-- The Abacus with new cells in a slot, the chain counted, OVF set where a cell overflowed. -/
def storeCells (A : Abacus) (slot : Nat) (l : List Cell) (anchor : Int) (fresh : Bool) (count : Nat) : Abacus :=
  let lo := slotLo slot
  let hi := slotHi A.fused slot
  { A with
    cells := putRange 0 A.cells lo hi (l.map (·.c)), marks := putRange false A.marks lo hi (l.map (·.mark)),
    anchor := if fresh then tset 0 A.anchor slot anchor else A.anchor, valid := tset false A.valid slot true,
    chain := tset 0 A.chain slot (satAdd 40 (if fresh then 0 else tget 0 A.chain slot) count),
    ovf := if l.any (·.out) then A.ovf ||| BitVec.ofNat 4 (2 ^ slot) else A.ovf }

/-- EVT_ABA_OVERFLOW, once per instruction, with the slot and the lowest overflowed cell (R67). -/
def overflowEvent (s : State) (t slot : Nat) (l : List Cell) : State :=
  match l.findIdx? (·.out) with
  | some i => raiseTile s t 0x0020 slot i
  | none => s

/-- The product of two operand blocks enters the cells, k strictly in sequence (R61, R64). -/
def macBlock (rowsA colsB : List (List FVal)) (cells : List Cell) : List Cell :=
  ((rowsA.flatMap (fun r => colsB.map (fun c => (r, c)))).zip cells).map (fun (p, x) =>
    (p.1.zip p.2).foldl (fun x ab => x.mac ab.1 ab.2) x)

def startMmul (s : State) (t : Nat) (vw : View) (slot : Nat) (acc : Bool) (a b : Card) (k0 k : Nat) : Effect :=
  let mc := mapCtx s
  let A := (s.tile t).aba
  let (m, n) := slotShape A.fused
  let fresh := !acc || !tget false A.valid slot
  let rowsA := (List.range m).map (fun i => (upto k0 k).map (fun e => readLifted mc vw a i e))
  let colsB := (List.range n).map (fun j => (upto k0 k).map (fun e => readLifted mc vw b e j))
  let l := macBlock rowsA colsB (slotCells A slot (m * n) fresh)
  let s := s.onTile t (fun T => { T with aba := storeCells A slot l (a.exp + b.exp) fresh k })
  { s := overflowEvent s t slot l }

/-! ### LADD -/

/-- The checks of LADD, in order (R147). -/
def laddFault (s : State) (t : Nat) (T : Tile) (f : LaddForm) : Option IFault :=
  let c := cardOf T f.dc.toNat
  let (m, n) := slotShape T.aba.iFused
  firstFault [ownCards s t true [(c, false)], formAt c 1 (fun _ => true), slotFault T f.slot.toNat,
    if c.size ≠ m * n then some ⟨0x06, 0, 0⟩ else none, anchorFault T f.slot.toNat c.expa]

def issueLadd (t : Nat) (f : LaddForm) (s : State) : State :=
  issueEngine s t 0 f.w0 f.sync [f.nx.toNat] (legalLadd f) false [] (fun s T =>
    let c := cardOf T f.dc.toNat
    let sl := f.slot.toNat
    match laddFault s t T f with
    | some e => .error e
    | none => .ok (.ladd sl c (T.xr f.nx.toNat).toNat, T.viewChain sl true c.expa))

/-- The image of a marked cell (R69). -/
def markedImage : Nat := 2 ^ 159

/-- One long image enters a cell (R70). -/
def Cell.ladd (x : Cell) (img : Nat) : Cell :=
  if img = markedImage then { x with mark := true } else x.add (sgn 160 img)

def startLadd (s : State) (t : Nat) (vw : View) (slot : Nat) (c : Card) (n : Nat) : Effect :=
  let mc := mapCtx s
  let A := (s.tile t).aba
  let fresh := !tget false A.valid slot
  let l := ((slotCells A slot c.size fresh).zip ((List.range c.size).map (readImage mc vw c))).map (fun (x, i) => x.ladd i)
  let s := s.onTile t (fun T => { T with aba := storeCells A slot l c.expa fresh n })
  { s := overflowEvent s t slot l }

/-! ### ABMODE -/

def issueAbmode (t : Nat) (f : AbmodeForm) (s : State) : State :=
  issueEngine s t 0 f.w0 f.sync [] (legalAbmode f) false [] (fun _ T => .ok (.abmode f.fused, T.viewMode f.fused))

/-- Mode, and every cell, mark, anchor and chain counter cleared; OVF unchanged (R60, R148). -/
def startAbmode (s : State) (t : Nat) (fused : Bool) : Effect :=
  { s := s.onTile t (fun T => { T with aba := { T.aba with fused := fused, cells := [], marks := [], anchor := [], valid := [], chain := [] } }) }

def execMmul (t : TileNo) (f : MmulForm) (s : State) : Host.Outcome State Fault Refusal := .next (issueMmul t f s)
def execLadd (t : TileNo) (f : LaddForm) (s : State) : Host.Outcome State Fault Refusal := .next (issueLadd t f s)
def execAbmode (t : TileNo) (f : AbmodeForm) (s : State) : Host.Outcome State Fault Refusal := .next (issueAbmode t f s)

end Sys2Proof.Machine
end

