-- ==== Sys2Proof/Machine/Drill.lean ====
section
/-! DEFINITION. The Drill Chain (R76 to R97, R150, R250, R423, R424): the drill card and its checks, the eight stages, the
Row Abacus, the fused optimiser step (R46, R47, R94 to R96), scatter. -/
namespace Sys2Proof.Machine

/-! ### The drill card (R82) -/

/-- A drill card by fields. -/
structure DCard where
  src : Nat
  slot : Nat
  inC : Nat
  outC : Nat
  op2C : Nat
  auxC : Nat
  state : Bool
  rmode : Nat
  fn : Nat
  ttEn : Bool
  ttAxis : Bool
  rowfEn : Bool
  rowfKind : Nat
  add2 : Nat
  cmp : Nat
  tapMax : Bool
  tapSum : Nat
  pick : Bool
  rowClr : Bool
  hist : Bool
  liftAxis : Nat
  scatter : Bool
  raw32 : Bool
  rowBase : Nat
  steerCard : Nat
  steerLayer : Nat
  tid : Nat
  ttBase : Nat
  ext : Nat
  c0 : D32
  c1 : D32
  invN : D32
  eps : D32
  elemBase : Nat
  elemRow : Nat
  deriving DecidableEq, Repr

def wbit (l : List Byte) (k i : Nat) : Bool := wfld l k i 1 = 1
def wd32 (l : List Byte) (k lo : Nat) : D32 := BitVec.ofNat 32 (wfld l k lo 32)

def parseDrill (l : List Byte) : DCard :=
  { src := wfld l 0 0 3, slot := wfld l 0 3 2, inC := wfld l 0 5 5, outC := wfld l 0 10 5, op2C := wfld l 0 15 5,
    auxC := wfld l 0 20 5, state := wbit l 0 25, rmode := wfld l 0 26 2, fn := wfld l 0 32 8, ttEn := wbit l 0 40,
    ttAxis := wbit l 0 41, rowfEn := wbit l 0 42, rowfKind := wfld l 0 43 1, add2 := wfld l 0 44 3, cmp := wfld l 0 47 3,
    tapMax := wbit l 0 50, tapSum := wfld l 0 51 2, pick := wbit l 0 53, rowClr := wbit l 0 54, hist := wbit l 0 55,
    liftAxis := wfld l 0 56 1, scatter := wbit l 0 57, raw32 := wbit l 0 58, rowBase := wfld l 1 0 8,
    steerCard := wfld l 1 8 9, steerLayer := wfld l 1 17 8, tid := wfld l 1 32 30, ttBase := wfld l 2 0 23 / 4 * 4,
    ext := wfld l 2 23 23 / 64 * 64, c0 := wd32 l 3 0, c1 := wd32 l 3 32, invN := wd32 l 4 0, eps := wd32 l 4 32,
    elemBase := wfld l 5 0 64, elemRow := wfld l 6 0 40 }

def fnOpt : Nat := 0x10
def fnLogp : Nat := 0x11
def fnLse : Nat := 0x12
def fnReserved (f : Nat) : Bool := !(decide (f ≤ 0x09) || decide (0x10 ≤ f ∧ f ≤ 0x12))

/-- The operation uses Row Abacus entries (R84; DEDUCED, log 11). -/
def DCard.usesRows (d : DCard) : Bool := d.tapMax || decide (d.tapSum ≠ 0) || d.pick || d.rowfEn || decide (d.src = 2 ∨ d.src = 3)

/-- Rows and columns of the operation (R84). -/
def drillShape (d : DCard) (fused : Bool) (cin cout : Card) : Nat × Nat :=
  match d.src with
  | 1 => (cin.rows, cin.cols)
  | 2 => (cout.size, 1)
  | 3 => (cin.size, 1)
  | _ => slotShape fused

/-- INFO0 of FLT_DRILL_CARD: word, lowest bit of the field, extension (R133). -/
def drillBad (word bit : Nat) (ext : Bool) : Option IFault :=
  some ⟨0x09, BitVec.ofNat 64 (word + bit * 8 + ext.toNat * 512), 0⟩

/-- First non-zero reserved field of a block, from (word, lowest bit, width). -/
def reservedField (l : List Byte) (ext : Bool) (fs : List (Nat × Nat × Nat)) : Option IFault :=
  match fs.find? (fun (w, b, n) => decide (wfld l w b n ≠ 0)) with
  | some (w, b, _) => drillBad w b ext
  | none => none

/-- An LR_M that R46 accepts: positive, normal, finite FP16. -/
def lrOk (h : Nat) : Bool := decide (0x0400 ≤ h ∧ h < 0x7C00)

/-- FLT_DRILL_CARD (R82, R94), in the order in which R82 lists its conditions. Where a condition spans two fields INFO0 names the one
whose code makes the demand (DEDUCED, log 95). -/
def drillCardFault (l ext : List Byte) (fused : Bool) (cin cout : Card) : Option IFault :=
  let d := parseDrill l
  let (rows, cols) := drillShape d fused cin cout
  firstFault [
    if d.src > 4 then drillBad 0 0 false else none,
    if d.rmode > 1 then drillBad 0 26 false else none,
    if fnReserved d.fn then drillBad 0 32 false else none,
    if d.add2 > 4 then drillBad 0 44 false else none,
    if d.cmp > 4 then drillBad 0 47 false else none,
    reservedField l false [(0, 28, 4), (0, 59, 5), (1, 25, 7), (1, 62, 2), (2, 46, 18), (6, 40, 24), (7, 0, 64)],
    if (d.fn = fnLogp ∨ d.fn = fnLse) ∧ ¬(d.src = 2 ∧ d.raw32) then drillBad 0 32 false else none,
    if d.raw32 ∧ d.src ≠ 2 then drillBad 0 58 false else none,
    if d.raw32 ∧ d.fn = 0 ∧ cout.kind ≠ 2 then drillBad 0 10 false else none,
    if d.raw32 ∧ d.fn ≠ 0 ∧ ¬(cout.kind = 0 ∧ cout.fmt = 11) then drillBad 0 10 false else none,
    if d.fn = fnOpt ∧ d.src ≠ 0 ∧ d.src ≠ 1 then drillBad 0 0 false else none,
    if d.ttEn ∧ d.ttBase + 4 * (if d.ttAxis then rows else cols) > slateSize then drillBad 2 0 false else none,
    if d.fn = fnOpt ∧ d.ext + 64 > slateSize then drillBad 2 23 false else none,
    if d.fn = fnOpt then firstFault [
      reservedField ext true [(4, 28, 4), (5, 5, 3), (5, 13, 3), (5, 21, 43), (6, 30, 2), (6, 62, 2), (7, 0, 64)],
      if wfld ext 4 24 4 > 1 then drillBad 4 24 true else none,
      if !lrOk (wfld ext 4 0 16) then drillBad 4 0 true else none] else none]

/-- Format codes an engine operand may name outside the uses of R28. -/
def storeFmt (f : Nat) : Bool := decide (f ≤ 9)

/-- The cards an operation names: card, written, KIND of its place, accepted formats (R28, R95, R184). -/
def drillCards (d : DCard) (algo : Nat) (cin cout op2 aux cm cv cw : Card) : List (Card × Bool × Nat × (Nat → Bool)) :=
  (if d.src = 1 then [(cin, false, 0, fun f => storeFmt f || decide (f = 11))] else if d.src = 3 then [(cin, false, 2, fun _ => true)] else []) ++
  (if d.fn ≠ fnOpt ∧ d.src ≠ 3 then
    [(cout, true, if d.src = 4 then 1 else if d.raw32 ∧ d.fn = 0 then 2 else 0, fun f => if d.raw32 then decide (f = 11) else storeFmt f)] else []) ++
  (if 1 ≤ d.add2 ∧ d.add2 ≤ 3 then [(op2, false, 0, storeFmt)] else []) ++
  (if d.pick ∨ d.scatter then [(aux, false, 0, fun f => decide (f = 11))] else []) ++
  (if d.fn = fnOpt then [(cm, true, 0, storeFmt)] ++ (if algo = 0 then [(cv, true, 0, storeFmt)] else []) ++ [(cw, true, 0, storeFmt)] else [])

/-- Card extents of R423 (DEDUCED, log 9). -/
def drillExtents (d : DCard) (algo rows cols : Nat) (cout op2 aux cm cv cw : Card) : Bool :=
  let same (c : Card) : Bool := decide (c.rows = rows ∧ c.cols = cols)
  (if d.fn = fnOpt then same cm && same cw && (decide (algo ≠ 0) || same cv)
   else match d.src with
    | 4 => decide (cout.size = rows * cols)
    | 0 | 1 => decide (cout.cols = cols) && (d.scatter || decide (cout.rows = rows))
    | _ => true) &&
  (match d.add2 with
    | 1 => same op2
    | 2 => decide (op2.rows = rows ∧ op2.cols = 1)
    | 3 => decide (op2.rows = 1 ∧ op2.cols = cols)
    | _ => true) &&
  (!(d.pick || d.scatter) || decide (aux.size ≥ rows))

/-- Bytes of the optimiser extension, where FN = OPT and it lies in Slate. -/
def drillExt (s : State) (t : Nat) (d : DCard) : List Byte :=
  if d.fn = fnOpt ∧ d.ext + 64 ≤ slateSize then vbytes (mapCtx s) (viewOf s t 5) (slateOf t + d.ext) 64 else []

/-- What DRILL captures at issue: the drill card `l`, the optimiser extension, the cards its fields name, TILE_STEP and TILE_SEED
(R108, R140, R150). -/
def drillOp (s : State) (t : Nat) (T : Tile) (l : List Byte) : EngineOp :=
  let d := parseDrill l
  let ext := drillExt s t d
  .drill T.aba.iFused l ext (cardOf T d.inC) (cardOf T d.outC) (cardOf T d.op2C) (cardOf T d.auxC) (cardOf T (wfld ext 5 0 5))
    (cardOf T (wfld ext 5 8 5)) (cardOf T (wfld ext 5 16 5)) T.step T.seed

/-- The checks of DRILL with the drill card `l` at Slate address `a`, in order (R150). -/
def drillFault (s : State) (t : Nat) (T : Tile) (a : Nat) (l : List Byte) : Option IFault :=
  let d := parseDrill l
  let ext := drillExt s t d
  let algo := wfld ext 4 24 4
  let fused := T.aba.iFused
  let cin := cardOf T d.inC
  let cout := cardOf T d.outC
  let op2 := cardOf T d.op2C
  let aux := cardOf T d.auxC
  let cm := cardOf T (wfld ext 5 0 5)
  let cv := cardOf T (wfld ext 5 8 5)
  let cw := cardOf T (wfld ext 5 16 5)
  let cards := drillCards d algo cin cout op2 aux cm cv cw
  let (rows, cols) := drillShape d fused cin cout
  firstFault [
    recordFaultAt s a 64,
    if ext.isEmpty then none else recordFaultAt s (slateOf t + d.ext) 64,
    drillCardFault l ext fused cin cout,
    ownCards s t false (cards.map (fun c => (c.1, c.2.1))),
    firstFault (cards.map (fun c => formAt c.1 c.2.2.1 c.2.2.2)),
    firstFault (cards.map (fun c => if c.2.1 then checkPlaneWrite c.1 else checkPlaneRead c.1)),
    if d.src = 0 ∨ d.src = 4 then slotFault T d.slot else none,
    if drillExtents d algo rows cols cout op2 aux cm cv cw then none else some ⟨0x06, 0, 0⟩,
    if d.usesRows && decide (d.rowBase + rows > 256) then some ⟨0x0A, 0, 0⟩ else none,
    if d.add2 = 4 ∧ (tget [] s.counts.steer d.steerCard).isEmpty then some ⟨0x0B, 0, 0⟩ else none,
    writeChecks s T d.state ((cards.filter (fun c => c.2.1)).flatMap (fun c => c.1.ranges))]

/-- Issue of DRILL (R150). -/
def issueDrill (t : Nat) (f : DrillForm) (s : State) : State :=
  issueEngine s t 1 f.w0 f.sync [f.xs.toNat] (legalDrill f) false [] (fun s T =>
    match slateRead s t 64 (T.xr f.xs.toNat + f.imm.setWidth 64) with
    | .error e => .error e
    | .ok (a, l) =>
      match drillFault s t T a l with
      | some e => .error e
      | none => .ok (drillOp s t T l, T))

/-! ### The Row Abacus (R88 to R93) -/

/-- Exact SUM of an entry. -/
def RowEntry.value (e : RowEntry) : FVal := ofInt e.sum.toInt (-192)

/-- ROWF of an entry (R93). -/
def rowfOf (e : RowEntry) (kind : Nat) (invN eps : D32) : D32 :=
  if e.mark then d32NaN
  else if kind = 0 then rcpD32 e.value
  else rsqrtD32 ((e.value.mul (d32Val invN)).add (d32Val eps))

def inRowGuard (x : BitVec 384) : Bool := decide (-(2 ^ 382 : Int) ≤ x.toInt ∧ x.toInt < 2 ^ 382)

/-- Units of 2^-192, RNE, of an exact value. -/
def rowUnits (neg : Bool) (m : Nat) (e : Int) : Int := let q := rneTo m e (-192); if neg then -(q : Int) else q

/-- The addend of a tap in units of 2^-192; none where the element marks the entry (R89). An EXP addend is added at any size;
from 2^128 up the table's row and the text's bound differ (DEDUCED, log 16). -/
def tapAddend (kind : Nat) (x : D32) : Option Int :=
  match kind with
  | 1 => (match expVal x with | .fin n m e => some (rowUnits n m e) | _ => none)
  | 2 => (match d32Val x with | .fin n m e => some (rowUnits n m e) | _ => none)
  | _ => (match d32Val x with
      | .fin _ m e => if magGe m e 79 then none else some (rowUnits false (m * m) (2 * e))
      | _ => none)

/-- SUM plus an addend; marked where it leaves the guard range. A sum that 384 bits cannot hold is held at their end (R89; DEDUCED, log 16). -/
def RowEntry.addSum (e : RowEntry) (n : Int) : RowEntry :=
  let v := e.sum.toInt + n
  let x : BitVec 384 := BitVec.ofInt 384 (Max.max (-(2 ^ 383)) (Min.min v (2 ^ 383 - 1)))
  { e with sum := x, mark := e.mark || !inRowGuard x }

/-- One TAP_SUM update (R89). -/
def RowEntry.tapSum (e : RowEntry) (kind : Nat) (x : D32) : RowEntry :=
  let e := { e with count := satAdd 40 e.count 1 }
  if e.mark then e
  else
    match tapAddend kind x with
    | none => { e with mark := true }
    | some n => e.addSum n

/-- The larger of two D32 values by R90: NaN above every number, +0 above -0. Of two NaN words the first, the entry's own, stays
(DEDUCED, log 95). -/
def tapLarger (a b : D32) : D32 := if isNaN a then a else if isNaN b then b else if d32Key a ≥ d32Key b then a else b

def RowEntry.tapMax (e : RowEntry) (x : D32) : RowEntry := { e with max := if e.maxv then tapLarger e.max x else x, maxv := true }
def RowEntry.capture (e : RowEntry) (x : D32) : RowEntry :=
  if e.pickv then { e with dup := true } else { e with pick := x, pickv := true }

/-- Every field of an entry in the layout of a row image, as a number of 512 bits: a save carries a marked entry's SUM too (R88). -/
def rowWords (e : RowEntry) : Nat :=
  e.sum.toNat + e.max.toNat * 2 ^ 384 + e.pick.toNat * 2 ^ 416 + e.count * 2 ^ 448 +
    (e.maxv.toNat + 2 * e.pickv.toNat + 4 * e.dup.toNat + 8 * e.mark.toNat) * 2 ^ 488

/-- Bytes of a row image as a number of 512 bits: the SUM of a marked entry reads 0 (R91). -/
def rowImage (e : RowEntry) : Nat := rowWords (if e.mark then { e with sum := 0 } else e)

/-- The entry that a row image describes. -/
def rowOfImage (n : Nat) : RowEntry :=
  { sum := BitVec.ofNat 384 n, max := BitVec.ofNat 32 (nfld n 384 32), pick := BitVec.ofNat 32 (nfld n 416 32), count := nfld n 448 40,
    maxv := nfld n 488 1 = 1, pickv := nfld n 489 1 = 1, dup := nfld n 490 1 = 1, mark := nfld n 491 1 = 1 }

/-- A join of an image into an entry (R92; DEDUCED, log 16). -/
def joinRow (e i : RowEntry) : RowEntry :=
  let x := e.sum + i.sum
  { sum := x, mark := e.mark || i.mark || !inRowGuard x, count := satAdd 40 e.count i.count, maxv := e.maxv || i.maxv,
    max := if e.maxv ∧ i.maxv then tapLarger e.max i.max else if e.maxv then e.max else if i.maxv then i.max else 0,
    pickv := e.pickv || i.pickv, dup := e.dup || i.dup || (e.pickv && i.pickv), pick := if i.pickv && !e.pickv then i.pick else e.pick }

/-- The entries of an operation after an update. ROW_OVF sets where a tap took a SUM out of the guard range, or where a joined SUM lies
outside it (R89, R92; DEDUCED, log 16). -/
def Tile.setRows (T : Tile) (base : Nat) (joined : Bool) (old new : List RowEntry) : Tile :=
  let ovf := (old.zip new).any (fun (o, n) => !inRowGuard n.sum && (joined || !(o.mark && decide (n.sum = o.sum))))
  { T with rows := (new.zip (upto base new.length)).foldl (fun tb (e, k) => tset {} tb k e) T.rows,
           eng := { T.eng with rowOvf := T.eng.rowOvf || ovf } }

/-- LOGP and LSE of an entry (R93). -/
def rowLog (fn : Nat) (e : RowEntry) : D32 :=
  if e.mark ∨ e.dup ∨ (fn = fnLogp ∧ !e.pickv) then d32NaN
  else
    match e.value with
    | .fin false m x => if m = 0 then d32NaN else if fn = fnLogp then logpD32 (d32Val e.pick) m x else lseD32 m x
    | _ => d32NaN

/-! ### Stages -/

/-- A finite value that rounded to an infinity (READ_INF). -/
def becameInf (v : FVal) (d : D32) : Bool := (match v with | .fin .. => true | _ => false) && (match d32Val d with | .inf _ => true | _ => false)

/-- A widening into D32 with its READ_INF flag (R32, R80). -/
def widen (v : FVal) : D32 × Bool := let d := toD32 v; (d, becameInf v d)

/-- One stage-4 function (R87). -/
def fnApply (fn : Nat) (rowf : D32) (x : D32) : D32 :=
  if isNaN x then d32NaN
  else
    match fn with
    | 0x01 => toD32 (expVal x)
    | 0x02 => toD32 ((expVal x).mul (d32Val rowf))
    | 0x03 => lnD32 x
    | 0x04 => sigmoidD32 x
    | 0x05 => siluD32 x
    | 0x06 => geluD32 x
    | 0x07 => rcpD32 (d32Val x)
    | 0x08 => rsqrtD32 (d32Val x)
    | 0x09 => d32Mul x x
    | _ => x

/-- Stage 5 (R424). -/
def cmpApply (k : Nat) (c0 c1 x : D32) : D32 :=
  match k with
  | 1 => d32Max x c0
  | 2 => d32Min x c0
  | 3 => if isNaN c1 then d32NaN else d32Min (d32Max x c0) c1
  | 4 => if (d32Val c0).lt (d32Val x) then x else c1
  | _ => x

/-- FP16 value times 2^e. -/
def fp16Scaled (h e : Nat) : FVal := (decodeElem 0 h).scale (sgn 8 e)

/-- A Times Table factor (R85). -/
def ttFactor (mc : MapCtx) (vw : View) (t : Nat) (d : DCard) (c : Nat) : FVal :=
  let w := leNat (vbytes mc vw (slateOf t + d.ttBase + 4 * c) 4)
  fp16Scaled (nfld w 0 16) (nfld w 16 8)

/-- Value of column `j` in a segment of a steering card (R320), none where the segment is 0 or j ≥ 256. -/
def steerValue (card : List Byte) (layer lo elo j : Nat) : Option FVal :=
  let w := leNat ((card.drop (4 * layer)).take 4)
  let seg := nfld w lo 5
  if seg = 0 ∨ j ≥ 256 then none
  else some (fp16Scaled (leNat ((card.drop (1024 + 512 * (seg - 1) + 2 * j)).take 2)) (nfld w elo 8))

/-- Stage 1 of one element, with READ_INF (R80, R93, R32). -/
def stage1 (mc : MapCtx) (vw : View) (T : Tile) (d : DCard) (cin : Card) (cols i j : Nat) : D32 × Bool :=
  match d.src with
  | 0 =>
    let k := cellKey d.slot (i * cols + j)
    if tget false T.aba.marks k then (d32NaN, false)
    else widen (ofInt (tget 0 T.aba.cells k).toInt (tget 0 T.aba.anchor d.slot - 64))
  | 1 => widen (readTrue mc vw cin i j)
  | _ =>
    let e := T.row (d.rowBase + i)
    if d.fn = fnLogp ∨ d.fn = fnLse then (rowLog d.fn e, false)
    else if e.mark then (d32NaN, false)
    else widen e.value

/-- Stages 2 and 3 of one element. -/
def stage23 (mc : MapCtx) (vw : View) (t : Nat) (d : DCard) (op2 : Card) (steer : List Byte) (rowf : D32) (i j : Nat)
    (x : D32 × Bool) : D32 × Bool :=
  let y := x.1
  let y := if d.rowfEn ∧ d.fn ≠ 0x02 then d32Mul y rowf else y
  let y := if d.ttEn then toD32 ((d32Val y).mul (ttFactor mc vw t d (if d.ttAxis then i else j))) else y
  let y := if d.add2 = 4 then (match steerValue steer d.steerLayer 5 18 j with | some v => toD32 ((d32Val y).mul v) | none => y) else y
  let o : Option (D32 × Bool) :=
    match d.add2 with
    | 1 => some (widen (readTrue mc vw op2 i j))
    | 2 => some (widen (readTrue mc vw op2 i 0))
    | 3 => some (widen (readTrue mc vw op2 0 j))
    | 4 => some (match steerValue steer d.steerLayer 0 10 j with | some v => widen v | none => (0, false))
    | _ => none
  match o with
  | some (v, r) => (d32Add y v, x.2 || r)
  | none => (y, x.2)

/-- The taps of one row of values into its entry (R89, R90). -/
def tapRow (d : DCard) (aux : Int) (e : RowEntry) (xs : List D32) : RowEntry :=
  (xs.zip (List.range xs.length)).foldl (fun e (x, j) =>
    let e := if d.tapMax then e.tapMax x else e
    let e := if d.tapSum ≠ 0 then e.tapSum d.tapSum x else e
    if d.pick ∧ aux = (j : Int) then e.capture x else e) e

/-- Blocks of 32 elements along the lift axis, as the block's (row, column) numbers. -/
def blockOf (axis i j : Nat) : Nat × Nat := if axis = 0 then (i, j / 32) else (i / 32, j)
/-- Values of the block that holds (i, j). -/
def blockVals (axis : Nat) (rows : List (List FVal)) (i j : Nat) : List FVal :=
  if axis = 0 then ((rows.getD i []).drop (j / 32 * 32)).take 32
  else ((rows.drop (i / 32 * 32)).take 32).filterMap (fun r => r[j]?)

/-- Elements (row, column) of a shape in row-major order. -/
def elems (rows cols : Nat) : List (Nat × Nat) := (List.range rows).flatMap (fun i => (List.range cols).map (fun j => (i, j)))

/-- One narrowed element: its row and column, its lift, its code, the counts, and its value. -/
structure Narrowed where
  i : Nat
  j : Nat
  lift : Nat
  code : Nat
  n : NCount
  v : FVal

/-- Stage 7 over a matrix of values (R34, R37, R42): `draw` gives the draw of an element where the mode is SR. -/
def narrowAll (c : Card) (axis : Nat) (vals : List (List FVal)) (sr : Bool) (draw : Nat → Nat → Nat) : List Narrowed :=
  (vals.zip (List.range vals.length)).flatMap (fun (r, i) =>
    (r.zip (List.range r.length)).map (fun (v, j) =>
      let l := if c.lifted then liftFor c.fmt c.exp (blockVals axis vals i j) else 0
      let (code, n) := narrow c.fmt (if sr then .sr (draw i j) else .rne) (c.exp + l) v
      { i := i, j := j, lift := l, code := code, n := n, v := v }))

def NCount.plus (a b : NCount) : NCount := { clip := a.clip + b.clip, vanish := a.vanish + b.vanish, nonf := a.nonf + b.nonf }
def sumCounts (l : List Narrowed) : NCount := l.foldl (fun a x => a.plus x.n) {}

/-- Pending writes of narrowed elements, element (i, j) going to row and column `place i j`. A lift formed along the operation's
axis is written to the nibble that holds that place in the card's own table; the last write to a nibble stands (DEDUCED, log 88). -/
def narrowedWrites (mc : MapCtx) (c : Card) (place : Nat → Nat → Nat × Nat) (l : List Narrowed) : List PW :=
  l.flatMap (fun x => let (r, k) := place x.i x.j; writeCode mc c (c.ix (c.at_ r k)) x.code) ++
  l.flatMap (fun x => let (r, k) := place x.i x.j; writeLift mc c r k x.lift)

/-- `n` words that a RAW32 readout writes are counted as narrowed, `bad` of them as non-finite (R250; DEDUCED, log 37). -/
def countRaw (s : State) (t : Nat) (step : BitVec 32) (tid n bad : Nat) : State :=
  countNarrow s t step tid 11 0 (List.replicate n (.fin false 0 0)) { nonf := bad } false

/-- The index vector of PICK and SCATTER: INT32 (R28). -/
def auxVec (mc : MapCtx) (vw : View) (aux : Card) (rows : Nat) : List Int :=
  (List.range rows).map (fun i => sgn 32 (readCode mc vw aux (aux.ix i)))

/-- The first offending row of a scatter vector and its DRL_FAULT code (R97). -/
def scatterFault (v : List Int) (rows : Nat) : Option (Nat × Nat) :=
  (List.range v.length).findSome? (fun i =>
    let x := v.getD i 0
    if x < 0 ∨ x ≥ rows then some (i, 3) else if (v.take i).contains x then some (i, 2) else none)

/-! ### The fused optimiser step (R46, R47, R94 to R96) -/

/-- First and second moment and update term of an element (R95). -/
def optTerms (ext : List Byte) (ls : Int) (x m v w : D32) : D32 × D32 × D32 :=
  let g := toD32 (((d32Val x).scale (-ls)).mul (d32Val (wd32 ext 4 32)))
  let b1 := wd32 ext 0 0
  let wd := wd32 ext 3 32
  if wfld ext 4 24 4 = 0 then
    let m1 := d32Fma b1 m (d32Mul (wd32 ext 1 0) g)
    let v1 := d32Fma (wd32 ext 0 32) v (d32Mul (d32Mul (wd32 ext 1 32) g) g)
    let d := d32Add (d32Mul (sqrtD32 v1) (wd32 ext 2 32)) (wd32 ext 3 0)
    (m1, v1, d32Fma wd w (d32Mul (d32Mul m1 (wd32 ext 2 0)) (rcpD32 (d32Val d))))
  else
    let m1 := d32Fma b1 m g
    (m1, v, d32Fma wd w m1)

/-- Steps 2 and 3 of R46: the update term and the exact new weight, none where u or t is non-finite (R47). -/
def weightSum (ext : List Byte) (w : FVal) (u : D32) : Option (FVal × FVal) :=
  match d32Val (toD32 ((decodeElem 0 (wfld ext 4 0 16)).mul (d32Val u))) with
  | .fin n m e =>
    let q := topBit m e - 10
    let r := if m = 0 then 0 else rneTo m e q
    let d : FVal := .fin (!n) r ((if m = 0 then e else q) + sgn 8 (wfld ext 4 16 8))
    if nonFinite u then none
    else match w.add d with
      | .fin n' m' e' => some (d, if m' = 0 then .fin false 0 0 else .fin n' m' e')
      | v => some (d, v)
  | _ => none

/-- The update lies below 2^-12 ulp of the destination at the binade of the sum (R47). -/
def stalls (f : Nat) (scaleE : Int) (d sum : FVal) : Bool :=
  match d, sum with
  | .fin _ dm de, .fin _ m e =>
    let u : Int := if fmtInt f then 0
      else let (_, mb, bias) := fmtFloat f; if m = 0 then 1 - bias - mb else floatUnit mb bias m (e - scaleE)
    decide (dm = 0) || decide (topBit dm (de - scaleE) < u - 12)
  | _, _ => false

/-- Largest row-major index for which an element is held: its lift block's along a row, or the last of its 32 rows. It is written once
that element has passed (R79, R96). -/
def blockLast (lifted : Bool) (axis rows cols i j : Nat) : Nat :=
  if !lifted then i * cols + j
  else if axis = 0 then i * cols + Nat.min (cols - 1) (j / 32 * 32 + 31)
  else Nat.min (rows - 1) (i / 32 * 32 + 31) * cols + (cols - 1)

/-! ### Start -/

/-- Logical index of an output element (R83). -/
def elemIx (d : DCard) (i j : Nat) : Nat := (d.elemBase + i * d.elemRow + j) % 2 ^ 64

def addStalls (s : State) (k total stalled : Nat) : State :=
  { s with counts := { s.counts with updTotal := tset 0 s.counts.updTotal k (satAdd 64 (tget 0 s.counts.updTotal k) total),
                                     updStall := tset 0 s.counts.updStall k (satAdd 64 (tget 0 s.counts.updStall k) stalled) } }

/-- The optimiser step over a matrix of gradients; S is 0 where the tile's context has no job (DEDUCED, log 9; DESIGN CHOICE, log 88). The
outputs of an element are written together, so a card whose lifts are held holds the others too (R96); READ_INF and the taps take
the whole operation, a faulting group and later ones included (DEDUCED, log 95). -/
def runOpt (s : State) (t : Nat) (vw : View) (d : DCard) (ext : List Byte) (cm cv cw : Card) (xs : List (List D32))
    (step : BitVec 32) (seed : BitVec 64) : Effect :=
  let mc := mapCtx s
  let ctx := (s.tile t).ctx.toNat
  let ls : Int := match jobOf s ctx with | some j => j.ls | none => 0
  let algo := wfld ext 4 24 4
  let rows := xs.length
  let cols := (xs.headD []).length
  let el := (xs.zip (List.range rows)).map (fun (r, i) => (r.zip (List.range cols)).map (fun (x, j) =>
    let w := readTrue mc vw cw i j
    let (m, r1) := widen (readTrue mc vw cm i j)
    let (v, r2) := if algo = 0 then widen (readTrue mc vw cv i j) else (0, false)
    let (wd, r3) := widen w
    let (m1, v1, u) := optTerms ext ls x m v wd
    (m1, v1, weightSum ext w u, r1 || r2 || r3)))
  let inf := el.any (fun r => r.any (fun x => x.2.2.2))
  let bad := (elems rows cols).find? (fun (i, j) => (((el.getD i []).getD j (0, 0, none, false)).2.2.1).isNone)
  let limit := match bad with | some (i, j) => (i * cols + j) / 64 * 64 | none => rows * cols
  let lifted := cm.lifted || cw.lifted || (decide (algo = 0) && cv.lifted)
  let out (c : Card) (vals : List (List FVal)) (tid : Nat) : List Narrowed :=
    (narrowAll c d.liftAxis vals true (fun i j => srDraw seed step tid (elemIx d i j))).filter
      (fun x => decide (blockLast lifted d.liftAxis rows cols x.i x.j < limit))
  let ms := out cm (el.map (·.map (fun x => d32Val x.1))) (wfld ext 6 0 30)
  let vs := if algo = 0 then out cv (el.map (·.map (fun x => d32Val x.2.1))) (wfld ext 6 32 30) else []
  let sums := el.map (·.map (fun x => match x.2.2.1 with | some (_, q) => q | none => .fin false 0 0))
  let ws := out cw sums d.tid
  let st := ws.filter (fun x => match ((el.getD x.i []).getD x.j (0, 0, none, false)).2.2.1 with
    | some (dl, q) => stalls cw.fmt (cw.exp + x.lift) dl q | none => false)
  let s := s.onTile t (fun T => { T with eng := { T.eng with readInf := T.eng.readInf || inf } })
  let cnt (s : State) (c : Card) (tid : Nat) (l : List Narrowed) (h : Bool) : State :=
    if l.isEmpty then s else countNarrow s t step tid c.fmt c.exp (l.map (·.v)) (sumCounts l) h
  let s := cnt s cm (wfld ext 6 0 30) ms (observed s ctx (wfld ext 6 0 30))
  let s := cnt s cv (wfld ext 6 32 30) vs (observed s ctx (wfld ext 6 32 30))
  let s := cnt s cw d.tid ws (d.hist || observed s ctx d.tid)
  let s := addStalls s (stepKey ctx step.toNat) ws.length st.length
  { s := s, writes := narrowedWrites mc cm Prod.mk ms ++ narrowedWrites mc cv Prod.mk vs ++ narrowedWrites mc cw Prod.mk ws,
    fail := bad.map (fun (i, j) => ⟨0x40, BitVec.ofNat 64 (1 + i % 65536 * 256), BitVec.ofNat 64 (elemIx d i j)⟩) }

/-- The scatter fault of an operation, where SCATTER is set (R97); `rows` bounds the indices. -/
def scatterEffect (s : State) (t : Nat) (d : DCard) (aux : List Int) (rows : Nat) : Option ExecFault :=
  (if d.scatter then scatterFault aux rows else none).map (fun (i, code) =>
    ⟨if code = 2 then 0x41 else 0x42, BitVec.ofNat 64 (code + i % 65536 * 256), (s.tile t).eng.drlElem⟩)

/-- Output row of operation row `i`. -/
def scatterTo (d : DCard) (aux : List Int) (i : Nat) : Nat := if d.scatter then (aux.getD i 0).toNat else i

/-- RAW32 words or row images, one for each row of the operation and in column 0 of its output row. -/
def rawOut (s : State) (t : Nat) (d : DCard) (cout : Card) (aux : List Int) (ws : List Nat) : Effect :=
  match scatterEffect s t d aux cout.rows with
  | some f => { s := s, fail := some f }
  | none => { s := s, writes := (ws.zip (List.range ws.length)).flatMap (fun (w, i) =>
      writeCode (mapCtx s) cout (cout.ix (if d.scatter then cout.at_ (scatterTo d aux i) 0 else i)) w) }

/-- The long images of SRC 4: cell (i, j) is written in cell-index order, or with SCATTER to column j of row AUX[i], where the
card has that column (R81, R97; DEDUCED, log 9). -/
def cellsOut (s : State) (t : Nat) (d : DCard) (cout : Card) (aux : List Int) (rows cols : Nat) : Effect :=
  let A := (s.tile t).aba
  let image (k : Nat) : Nat := if tget false A.marks (cellKey d.slot k) then markedImage else (tget 0 A.cells (cellKey d.slot k)).toNat
  match scatterEffect s t d aux cout.rows with
  | some f => { s := s, fail := some f }
  | none => { s := s, writes := (elems rows cols).flatMap (fun (i, j) =>
      let k := i * cols + j
      if d.scatter then (if j < cout.cols then writeCode (mapCtx s) cout (cout.ix (cout.at_ (scatterTo d aux i) j)) (image k) else [])
      else writeCode (mapCtx s) cout (cout.ix k) (image k)) }

/-- The output is narrowed by SR: learned state always, KV pages where KV_SR says so, the rest where the card does (R38;
DEDUCED, log 88). -/
def drillSr (s : State) (ctx : Nat) (d : DCard) : Bool :=
  d.state ||
  match jobOf s ctx, entryFor s ctx d.tid with
  | some j, some e => if clsClass e = 6 then j.kvSr else decide (d.rmode = 1)
  | _, _ => decide (d.rmode = 1)

/-- Stages 7 and 8 of a matrix of values leaving stage 6. With SCATTER the draw of an element still has the logical index of its
operation row, and lift blocks are formed from the operation's rows (DEDUCED, log 88). -/
def writeOut (s : State) (t : Nat) (d : DCard) (cout : Card) (aux : List Int) (ys : List (List D32)) (step : BitVec 32)
    (seed : BitVec 64) : Effect :=
  let mc := mapCtx s
  if d.raw32 then
    rawOut (countRaw s t step d.tid ys.flatten.length (ys.flatten.filter nonFinite).length) t d cout aux (ys.map (fun r => (r.headD 0).toNat))
  else
    -- with SRC 2 the elements of OUT_CARD in row-major order are the operation's rows (R84)
    let vals := if d.src = 2 then (List.range cout.rows).map (fun r => ((ys.drop (r * cout.cols)).take cout.cols).map (fun y => d32Val (y.headD 0)))
      else ys.map (·.map d32Val)
    let ix (i j : Nat) : Nat := if d.src = 2 then elemIx d (i * cout.cols + j) 0 else elemIx d i j
    let place (i j : Nat) : Nat × Nat :=
      if !d.scatter then (i, j)
      else if d.src = 2 then (scatterTo d aux (i * cout.cols + j), 0) else (scatterTo d aux i, j)
    let l := narrowAll cout d.liftAxis vals (drillSr s (s.tile t).ctx.toNat d) (fun i j => srDraw seed step d.tid (ix i j))
    let s := countNarrow s t step d.tid cout.fmt cout.exp (l.map (·.v)) (sumCounts l) (d.hist || observed s (s.tile t).ctx.toNat d.tid)
    match scatterEffect s t d aux cout.rows with
    | some f => { s := s, fail := some f }
    | none => { s := s, writes := narrowedWrites mc cout place l }

/-- The taps of an optimiser step: the spec gives its update no value that leaves stage 5, so the values tapped are free (DESIGN CHOICE, log 10). -/
def optTaps (s : State) (t : Nat) (d : DCard) (cleared : List RowEntry) (av : List Int) (cols : Nat) : State :=
  let x (i j : Nat) : D32 := (Config.freeWord (s.free + i * cols + j)).setWidth 32
  let new := (cleared.zip (List.range cleared.length)).map (fun (e, i) => tapRow d (av.getD i (-1)) e ((List.range cols).map (x i)))
  let s := s.onTile t (fun T => T.setRows d.rowBase false cleared new)
  { s with free := s.free + cleared.length * cols }

/-- What a DRILL does when it starts: the Row Abacus, the counters and the status bits at once, its Slate writes pending (DEDUCED, log 9; DEDUCED, log 11; DEDUCED, log 15)
(DEDUCED, log 37). -/
def startDrill (s : State) (t : Nat) (vw : View) (fused : Bool) (card ext : List Byte) (cin cout op2 aux cm cv cw : Card)
    (step : BitVec 32) (seed : BitVec 64) : Effect :=
  let mc := mapCtx s
  let d := parseDrill card
  let T := s.tile t
  let (rows, cols) := drillShape d fused cin cout
  if d.src = 4 then cellsOut s t d cout (if d.scatter then auxVec mc vw aux rows else []) rows cols
  else
    let old := (List.range rows).map (fun i => T.row (d.rowBase + i))
    let cleared := if d.rowClr && d.usesRows then old.map (fun _ => ({} : RowEntry)) else old
    if d.src = 3 then
      let new := (cleared.zip (List.range rows)).map (fun (e, i) => joinRow e (rowOfImage (readImage mc vw cin i)))
      { s := s.onTile t (fun T => T.setRows d.rowBase true cleared new) }
    else if d.src = 2 ∧ d.raw32 ∧ d.fn = 0 then
      rawOut (countRaw (s.onTile t (fun T => T.setRows d.rowBase false cleared cleared)) t step d.tid rows 0) t d cout
        (if d.scatter then auxVec mc vw aux rows else []) (old.map rowImage)
    else
      let rowf (i : Nat) : D32 := if d.rowfEn then rowfOf (old.getD i {}) d.rowfKind d.invN d.eps else 0x3F800000
      let steer := tget [] s.counts.steer d.steerCard
      let av := if d.pick || d.scatter then auxVec mc vw aux rows else []
      let raw := d.src = 2 ∧ d.raw32
      let xs := (List.range rows).map (fun i => (List.range cols).map (fun j =>
        let x := stage1 mc vw T d cin cols i j
        if raw then x else stage23 mc vw t d op2 steer (rowf i) i j x))
      let inf := xs.any (fun r => r.any (·.2))
      let s := s.onTile t (fun T => { T with eng := { T.eng with readInf := T.eng.readInf || inf } })
      if d.fn = fnOpt then
        let s := if d.usesRows then optTaps s t d cleared av cols else s
        runOpt s t vw d ext cm cv cw (xs.map (·.map (·.1))) step seed
      else
        let ys := (xs.zip (List.range rows)).map (fun (r, i) => r.map (fun x =>
          let y := if d.fn = fnLogp ∨ d.fn = fnLse then x.1 else fnApply d.fn (rowf i) x.1
          if raw then y else cmpApply d.cmp d.c0 d.c1 y))
        let new := if raw then cleared else (cleared.zip (ys.zip (List.range rows))).map (fun (e, r, i) => tapRow d (av.getD i (-1)) e r)
        let s := if d.usesRows then s.onTile t (fun T => T.setRows d.rowBase false cleared new) else s
        writeOut s t d cout av ys step seed

def execDrill (t : TileNo) (f : DrillForm) (s : State) : Host.Outcome State Fault Refusal := .next (issueDrill t f s)

end Sys2Proof.Machine
end

