-- ==== Sys2Proof/Machine/Rod.lean ====
section
/-! DEFINITION. The Rod Engine (R99 to R104, R151 to R153, R426): lanes and predicates, the lane operations, permutes,
reductions, Slate gathers and scatters, and the sampling primitives. -/
namespace Sys2Proof.Machine

/-! ### Lanes -/

/-- Lane `j` of `w` bits of a V register. -/
def lane (w : Nat) (v : BitVec 4096) (j : Nat) : Nat := fld v (w * j) w
/-- A V register from its lanes of `w` bits, lane 0 first. -/
def packLanes (w : Nat) (l : List Nat) : BitVec 4096 := BitVec.ofNat 4096 (l.foldr (fun x a => x % 2 ^ w + a * 2 ^ w) 0)
def laneBits (f : RodForm) : Nat := if f.w32 then 32 else 16
def laneCount (f : RodForm) : Nat := if f.w32 then 128 else 256
/-- Lane `j` is governed active (R100). -/
def active (T : Tile) (f : RodForm) (j : Nat) : Bool := !f.pen || flag (T.prd f.pr.toNat) j

/-- Value of a floating lane, and the lane of a floating result: RNE, canonical NaN (R99). -/
def laneVal (w x : Nat) : FVal := if w = 32 then d32Val (BitVec.ofNat 32 x) else decodeElem 0 x
def laneOf (w : Nat) (v : FVal) : Nat := if w = 32 then (toD32 v).toNat else toFP16 v
def laneNaN (w : Nat) : Nat := if w = 32 then 0x7FC00000 else 0x7E00
def isNaNV : FVal → Bool
  | .nan => true
  | _ => false
def isZeroV : FVal → Bool
  | .fin _ m _ => decide (m = 0)
  | _ => false
def signV : FVal → Bool
  | .fin n .. => n
  | .inf n => n
  | .nan => false

/-- Value of an integer lane, signed for TY 1. -/
def laneInt (w ty x : Nat) : Int := if ty = 1 then sgn w x else (x % 2 ^ w : Nat)
/-- An integer result: saturated or modulo the lane width (R99). -/
def laneIntOf (w ty : Nat) (sat : Bool) (i : Int) : Nat :=
  if !sat then unsgn w i
  else if ty = 1 then unsgn w (max (-(2 ^ (w - 1) : Nat)) (min ((2 ^ (w - 1) : Nat) - 1) i))
  else unsgn w (max 0 (min ((2 ^ w : Nat) - 1) i))

/-- The larger (or smaller) of two floating lanes. Which zero of +0 and -0 is taken, the spec does not state: `free` (DESIGN CHOICE, log 13). -/
def laneMax (w : Nat) (big free : Bool) (a b : Nat) : Nat :=
  let x := laneVal w a
  let y := laneVal w b
  if isNaNV x || isNaNV y then laneNaN w
  else if isZeroV x && isZeroV y then (if free then a else b)
  else if (if big then y.lt x else x.lt y) then a else b

/-- V[VD] with lane j replaced where the lane is active. -/
def mapLanes (T : Tile) (f : RodForm) (w n : Nat) (g : Nat → Nat) : Tile :=
  let d := T.vr f.vd.toNat
  T.setV f.vd.toNat (packLanes w ((List.range n).map (fun j => if active T f j then g j else lane w d j)))

/-- A two-operand lane operation. -/
def lanes2 (T : Tile) (f : RodForm) (g : Nat → Nat → Nat → Nat) : Tile :=
  let w := laneBits f
  let a := T.vr f.va.toNat
  let b := T.vr f.vb.toNat
  mapLanes T f w (laneCount f) (fun j => g j (lane w a j) (lane w b j))

/-- Arithmetic lane operation by type: floating or integer. -/
def arith (T : Tile) (f : RodForm) (gf : FVal → FVal → FVal) (gi : Int → Int → Int) : Tile :=
  let w := laneBits f
  let ty := f.ty.toNat
  lanes2 T f (fun _ a b =>
    if ty = 0 then laneOf w (gf (laneVal w a) (laneVal w b)) else laneIntOf w ty f.sat (gi (laneInt w ty a) (laneInt w ty b)))

/-- Lane minimum or maximum. -/
def minMax (T : Tile) (f : RodForm) (big : Bool) (fr : Nat → Bool) : Tile :=
  let w := laneBits f
  let ty := f.ty.toNat
  lanes2 T f (fun j a b =>
    if ty = 0 then laneMax w big (fr j) a b
    else if (decide (laneInt w ty b < laneInt w ty a)) = big then a else b)

/-- A VCMP condition (R151). -/
def laneCond (fn : Nat) (lt eq nan : Bool) : Bool :=
  match fn with
  | 0 => eq && !nan
  | 1 => !eq || nan
  | 2 => lt && !nan
  | 3 => (lt || eq) && !nan
  | 4 => !lt && !eq && !nan
  | _ => !lt && !nan

def vcmp (T : Tile) (f : RodForm) : Tile :=
  let w := laneBits f
  let ty := f.ty.toNat
  let a := T.vr f.va.toNat
  let b := T.vr f.vb.toNat
  let c (j : Nat) : Bool :=
    let x := lane w a j
    let y := lane w b j
    if ty = 0 then
      let u := laneVal w x
      let v := laneVal w y
      laneCond f.fn.toNat (u.lt v) (u.eq v) (isNaNV u || isNaNV v)
    else laneCond f.fn.toNat (decide (laneInt w ty x < laneInt w ty y)) (decide (x = y)) false
  let old := T.prd (f.vd.toNat % 8)
  T.setP (f.vd.toNat % 8) ((List.range (laneCount f)).foldl (fun p j => if active T f j then setFlag p j (c j) else p) old)

/-- Shift of a lane by VB modulo the lane width; VSHR is arithmetic for TY 1. -/
def shiftLane (w ty : Nat) (left : Bool) (a b : Nat) : Nat :=
  let k := b % w
  if left then (a <<< k) % 2 ^ w
  else if ty = 1 then unsgn w (sgn w a / (2 ^ k : Nat)) else a >>> k

/-- The source lane of a permute; a lane number that the lane width does not have gives a free value (DESIGN CHOICE, log 13). -/
def permLane (w n : Nat) (v : BitVec 4096) (i : Nat) (fw : Nat → BitVec 64) : Nat := if i < n then lane w v i else (fw i).toNat % 2 ^ w

/-! ### Reductions (R101) -/

/-- One level of the sum tree over lanes that take part. -/
def treeLevel (add : Nat → Nat → Nat) (h : Nat) (l : List (Option Nat)) : List (Option Nat) :=
  (List.range h).map (fun j =>
    match (l.getD j none), (l.getD (j + h) none) with
    | some a, some b => some (add a b)
    | some a, none => some a
    | none, b => b)

/-- Sum by the fixed tree of 8 levels. -/
def treeSum (add : Nat → Nat → Nat) (l : List (Option Nat)) : Option Nat :=
  ([128, 64, 32, 16, 8, 4, 2, 1].foldl (fun l h => treeLevel add h l) l).headD none

/-- A floating result: a NaN is the canonical one (R99). -/
def canonNaN (w ty x : Nat) : Nat := if ty = 0 ∧ isNaNV (laneVal w x) then laneNaN w else x

/-- VRED; with no active lane, and for an index over a NaN, the spec states no value: free (DESIGN CHOICE, log 13). -/
def vred (T : Tile) (f : RodForm) (fr : Nat → Bool) (fw : Nat → BitVec 64) : Tile :=
  let w := laneBits f
  let ty := f.ty.toNat
  let a := T.vr f.va.toNat
  let l : List (Option Nat) := (List.range 256).map (fun j => if j < laneCount f ∧ active T f j then some (lane w a j) else none)
  let on := (l.zip (List.range 256)).filterMap (fun (x, j) => x.map (fun x => (x, j)))
  let free := (fw 0).toNat % 2 ^ w
  let big := f.fn = 1 ∨ f.fn = 3
  let less (x y : Nat) : Bool := if ty = 0 then (laneVal w x).lt (laneVal w y) else decide (laneInt w ty x < laneInt w ty y)
  let r : Nat :=
    match f.fn.toNat with
    | 0 => (treeSum (fun x y => if ty = 0 then laneOf w ((laneVal w x).add (laneVal w y)) else (x + y) % 2 ^ w) l).elim free (canonNaN w ty)
    | 1 | 2 =>
      (match on with
       | [] => free
       | (x, _) :: r => r.foldl (fun m (y, j) =>
          if ty = 0 then laneMax w big (fr j) m y else if less m y = big then y else m) (canonNaN w ty x))
    | _ =>
      (match on with
       | [] => free
       | x :: r =>
          if ty = 0 ∧ on.any (fun e => isNaNV (laneVal w e.1)) then free
          else (r.foldl (fun m y => if (if big then less m.1 y.1 else less y.1 m.1) then y else m) x).2 % 2 ^ w)
  T.setV f.vd.toNat (packLanes w [r])

/-! ### Predicates, conversions, broadcast -/

def pset (T : Tile) (f : RodForm) (x : BitVec 64) : Tile :=
  let a := T.prd (f.va.toNat % 8)
  let b := T.prd (f.vb.toNat % 8)
  let v : BitVec 256 :=
    match f.fn.toNat with
    | 0 => ~~~(0 : BitVec 256)
    | 1 => 0
    | 2 => a &&& b
    | 3 => a ||| b
    | 4 => ~~~a
    | _ => BitVec.ofNat 256 (2 ^ Nat.min x.toNat (laneCount f) - 1)
  T.setP (f.vd.toNat % 8) v

def vcvt (T : Tile) (f : RodForm) : Tile :=
  let a := T.vr f.va.toNat
  if f.fn = 0 then mapLanes T f 32 128 (fun j => laneOf 32 (laneVal 16 (lane 16 a j)))
  else mapLanes T f 16 256 (fun j => if j < 128 then laneOf 16 (laneVal 32 (lane 32 a j)) else 0)

/-! ### Slate (R102) -/

/-- Slate offset of lane `j` of a gather or scatter. -/
def laneOff (T : Tile) (f : RodForm) (x : BitVec 64) (j : Nat) : Nat :=
  let w := laneBits f
  (x.toNat + f.imm.toNat + lane w (T.vr f.vb.toNat) j * (w / 8)) % 2 ^ 64
/-- Every active lane's element lies in Slate. -/
def indexOk (T : Tile) (f : RodForm) (x : BitVec 64) : Bool :=
  (List.range (laneCount f)).all (fun j => !active T f j || decide (laneOff T f x j + laneBits f / 8 ≤ slateSize))

/-- VLD and VST offset: [8:0] ignored (R139). -/
def vOff (f : RodForm) (x : BitVec 64) : Option Nat := slateOff 512 (x + f.imm.setWidth 64)

/-! ### TOPK (R103, R152) -/

/-- Order of values: sign and magnitude, the two zeros equal. -/
def key16 (x : Nat) : Int := if x < 0x8000 then x else -((x - 0x8000 : Nat) : Int)
def nan16 (x : Nat) : Bool := decide (x % 0x8000 > 0x7C00)
/-- a stands before b: larger value, or an equal value with the lower index. -/
def topBefore (a b : Nat × Nat) : Bool := decide (key16 a.1 > key16 b.1) || (decide (key16 a.1 = key16 b.1) && decide (a.2 < b.2))
def topInsert (x : Nat × Nat) : List (Nat × Nat) → List (Nat × Nat)
  | [] => [x]
  | y :: r => if topBefore x y then x :: y :: r else y :: topInsert x r

def topk (T : Tile) (f : RodForm) (x : BitVec 64) : Tile :=
  let k := f.imm.toNat % 512
  let vc := f.vc.toNat
  let old : List (Nat × Nat) :=
    if flag f.fn 0 then List.replicate k (0xFC00, 0xFFFFFFFF)
    else (List.range k).map (fun j => (lane 16 (T.vr f.vd.toNat) j, if j < 128 then lane 32 (T.vr vc) j else lane 32 (T.vr (vc + 1)) (j - 128)))
  let seg := (List.range 256).map (fun j => (lane 16 (T.vr f.va.toNat) j, (x.toNat + j) % 2 ^ 32))
  let l := ((seg.filter (fun e => !nan16 e.1)).foldl (fun l e => (topInsert e l).take k) (old.foldl (fun l e => topInsert e l) [])).take k
  let full := l ++ List.replicate (256 - l.length) (0xFC00, 0xFFFFFFFF)
  let T := { T with eng := { T.eng with nanSeen := T.eng.nanSeen || seg.any (fun e => nan16 e.1) } }
  ((T.setV f.vd.toNat (packLanes 16 (full.map (·.1)))).setV vc (packLanes 32 ((full.take 128).map (·.2)))).setV (vc + 1)
    (packLanes 32 ((full.drop 128).map (·.2)))

/-! ### BISECT and SAMPLE (R104, R153) -/

/-- Exact mass of a probability in units of 2^-24; an infinite one has no stated mass: free (DESIGN CHOICE, log 13). -/
def mass16 (p : Nat) (free : BitVec 64) : Nat :=
  if nan16 p ∨ (p ≥ 0x8000 ∧ p ≠ 0x8000) then 0
  else match decodeElem 0 p with
    | .fin _ m e => if 0 ≤ e + 24 then m * 2 ^ (e + 24).toNat else m / 2 ^ (-(e + 24)).toNat
    | _ => free.toNat
/-- NEG_P: a negative or NaN probability. -/
def negP16 (p : Nat) : Bool := nan16 p || decide (p > 0x8000)

/-- 64-bit field of the nucleus state at 32-bit lane `k`. -/
def nuc64 (v : BitVec 4096) (k : Nat) : Nat := fld v (32 * k) 64
def setNuc64 (v : BitVec 4096) (k x : Nat) : BitVec 4096 := setFld v (32 * k) 64 x
def nuc32 (v : BitVec 4096) (k : Nat) : Nat := fld v (32 * k) 32
def setNuc32 (v : BitVec 4096) (k x : Nat) : BitVec 4096 := setFld v (32 * k) 32 x

/-- The comparison of R104: ABOVE / TOTAL ≥ TOP_P, exactly; free for a TOP_P that is no value of (0, 1] (DESIGN CHOICE, log 13). -/
def nucHolds (v : BitVec 4096) (free : Bool) : Bool :=
  match decodeElem 0 (nuc32 v 5 % 65536) with
  | .fin false m e => if m = 0 then free
      else decide (nuc64 v 2 * 2 ^ 24 ≥ (if 0 ≤ e + 24 then m * 2 ^ (e + 24).toNat else 0) * nuc64 v 0)
  | _ => free

/-- LAST of a pass: the bit under test kept or cleared, the next lower bit set; at the end ABOVE is the mass of the keys at or above
the final tau, which is `kept`, the mass of the candidate last kept, where the last one fails, and the total where none was kept
(R104, R153; DEDUCED, log 14). -/
def nucLast (v : BitVec 4096) (kept : Nat) (holds : Bool) : BitVec 4096 :=
  let tau := nuc32 v 4
  let b := nfld tau 16 4
  let c := nfld tau 0 15
  let c := if holds then c else c - (if nfld c b 1 = 1 then 2 ^ b else 0)
  if b = 0 then setNuc32 (if holds then v else setNuc64 v 2 (if c = 0 then nuc64 v 0 else kept)) 4 (c + 2 ^ 20)
  else setNuc32 v 4 (c ||| 2 ^ (b - 1) + (b - 1) * 2 ^ 16)

/-- The tile after the LAST of a pass on the nucleus state `v` of V register `vd` (DEDUCED, log 14). -/
def Tile.nucEnd (T : Tile) (vd : Nat) (v : BitVec 4096) (free : Bool) : Tile :=
  let holds := nucHolds v free
  let T := { T with nuc := if holds then tset 0 T.nuc vd (nuc64 v 2) else T.nuc }
  T.setV vd (nucLast v (tget 0 T.nuc vd) holds)

/-- BISECT. The first pass has neither TAU [20] nor a bit under test; the pass of bit 0 has that too, and is told by bit 0 of its candidate
(R153; DEDUCED, log 14). -/
def bisect (T : Tile) (f : RodForm) (fr : Nat → Bool) (fw : Nat → BitVec 64) : Tile :=
  let v := T.vr f.vd.toNat
  let ps := (List.range 256).map (fun j => lane 16 (T.vr f.va.toNat) j)
  let ms := (ps.zip (List.range 256)).map (fun (p, j) => mass16 p (fw j))
  let tot := ms.foldl (· + ·) 0
  let T := { T with eng := { T.eng with negP := T.eng.negP || ps.any negP16 } }
  let first := flag f.fn 0
  if nfld (nuc32 v 4) 20 1 = 1 then
    T.setV f.vd.toNat (setNuc64 v 0 ((if first then 0 else nuc64 v 0) + tot))
  else
    let v := if first then setNuc32 (setNuc64 (setNuc64 v 0 0) 2 0) 9 0 else v
    let v := if first ∧ nfld (nuc32 v 4) 16 5 = 0 ∧ nfld (nuc32 v 4) 0 1 = 0 then setNuc32 v 4 (0x4000 + 14 * 2 ^ 16) else v
    let tau := nfld (nuc32 v 4) 0 15
    let above := ((ps.zip ms).filter (fun e => decide (e.1 % 0x8000 ≥ tau) && !negP16 e.1)).foldl (fun a e => a + e.2) 0
    let v := setNuc32 (setNuc64 (setNuc64 v 0 (nuc64 v 0 + tot)) 2 (nuc64 v 2 + above)) 9 (nuc32 v 9 + 256)
    if flag f.fn 1 then T.nucEnd f.vd.toNat v (fr 0) else T.setV f.vd.toNat v

def sample (T : Tile) (f : RodForm) (x seed : BitVec 64) (fw : Nat → BitVec 64) : Tile :=
  let v := T.vr f.vd.toNat
  let v := if flag f.fn 0 then setNuc32 (setNuc32 (setNuc64 v 6 0) 9 0) 8 0xFFFFFFFF else v
  let ps := (List.range 256).map (fun j => lane 16 (T.vr f.va.toNat) j)
  let u := sampleDraw seed (x.setWidth 32) (BitVec.ofNat 32 (f.imm.toNat % 256)) ((x >>> 32).setWidth 32)
  let tau := nfld (nuc32 v 4) 0 15
  let v := (ps.zip (List.range 256)).foldl (fun v (p, j) =>
    if decide (p % 0x8000 ≥ tau) && !negP16 p then
      let run := (nuc64 v 6 + mass16 p (fw j)) % 2 ^ 64
      let v := setNuc64 v 6 run
      if nuc32 v 8 = 0xFFFFFFFF ∧ nuc64 v 2 ≠ 0 ∧ run * 2 ^ 24 > u * nuc64 v 2 then setNuc32 v 8 (nuc32 v 9 + j) else v
    else v) v
  { T with eng := { T.eng with negP := T.eng.negP || ps.any negP16 } }.setV f.vd.toNat (setNuc32 v 9 (nuc32 v 9 + 256))

/-! ### Start -/

/-- What a Rod instruction does when it starts. V and P registers take their values at once (they are only read by later
Rod instructions); Slate writes are pending (DESIGN CHOICE, log 13; DEDUCED, log 15). -/
def startRod (s : State) (t : Nat) (vw : View) (opc : Nat) (f : RodForm) (x seed : BitVec 64) : Effect :=
  let T := s.tile t
  let mc := mapCtx s
  let fr (j : Nat) : Bool := Config.freeBit (s.free * 1024 + j)
  let fw (j : Nat) : BitVec 64 := Config.freeWord (s.free * 1024 + j)
  let w := laneBits f
  let n := laneCount f
  let va := T.vr f.va.toNat
  let vb := T.vr f.vb.toNat
  let vc := T.vr f.vc.toNat
  let put (T' : Tile) : Effect := { s := (s.setTile t T').fresh }
  match opc with
  | 0x60 => put (arith T f (fun a b => a.add b) (fun a b => a + b))
  | 0x61 => put (arith T f (fun a b => a.add b.neg) (fun a b => a - b))
  | 0x62 => put (arith T f (fun a b => a.mul b) (fun a b => a * b))
  | 0x63 => put (lanes2 T f (fun j a b => laneOf w (((laneVal w a).mul (laneVal w b)).add (laneVal w (lane w vc j)))))
  | 0x64 => put (minMax T f false fr)
  | 0x65 => put (minMax T f true fr)
  | 0x66 => put (vcmp T f)
  | 0x67 => put (T.setV f.vd.toNat (packLanes w ((List.range n).map (fun j => if flag (T.prd f.pr.toNat) j then lane w va j else lane w vb j))))
  | 0x68 => put (lanes2 T f (fun _ a b => a &&& b))
  | 0x69 => put (lanes2 T f (fun _ a b => a ||| b))
  | 0x6A => put (lanes2 T f (fun _ a b => a ^^^ b))
  | 0x6B => put (lanes2 T f (fun _ a b => shiftLane w f.ty.toNat true a b))
  | 0x6C => put (lanes2 T f (fun _ a b => shiftLane w f.ty.toNat false a b))
  | 0x6D => put (mapLanes T f w n (fun j => permLane w n va (lane w vb j % 256) fw))
  | 0x6E => put (mapLanes T f w n (fun j => permLane w n (if nfld (lane w vb j) 8 1 = 1 then vc else va) (lane w vb j % 256) fw))
  | 0x6F => put (vred T f fr fw)
  | 0x70 => (match vOff f x with
      | some o => put (T.setV f.vd.toNat (BitVec.ofNat 4096 (leNat (vbytes mc vw (slateOf t + o) 512))))
      | none => put T)
  | 0x71 => (match vOff f x with
      | some o => { s := s, writes := putBytes mc (slateOf t + o) (leBytes 512 va.toNat) }
      | none => { s := s })
  | 0x72 => put (mapLanes T f w n (fun j => leNat (vbytes mc vw (slateOf t + laneOff T f x j) (w / 8))))
  | 0x73 => { s := s, writes := (List.range n).flatMap (fun j =>
      if active T f j then putBytes mc (slateOf t + laneOff T f x j) (leBytes (w / 8) (lane w va j)) else []) }
  | 0x74 => put (mapLanes T f w n (fun _ => x.toNat % 2 ^ w))
  | 0x75 => put (pset T f x)
  | 0x76 => put (topk T f x)
  | 0x77 => put (bisect T f fr fw)
  | 0x78 => put (sample T f x seed fw)
  | _ => put (vcvt T f)

/-! ### Issue -/

/-- V registers and predicates that an instruction writes. -/
def rodWritesV (opc : Nat) (f : RodForm) : List Nat :=
  if opc = 0x66 ∨ opc = 0x71 ∨ opc = 0x73 ∨ opc = 0x75 then []
  else if opc = 0x76 then [f.vd.toNat, f.vc.toNat, f.vc.toNat + 1] else [f.vd.toNat]
def rodWritesP (opc : Nat) (f : RodForm) : List Nat := if opc = 0x66 ∨ opc = 0x75 then [f.vd.toNat % 8] else []

/-- An earlier Rod instruction that is not retired writes the index register or the predicate of a gather or scatter. -/
def indexPending (T : Tile) (f : RodForm) : Bool :=
  (inQueue T 2).any (fun i => match i.op with
    | .rod o g .. => (rodWritesV o g).contains f.vb.toNat || (f.pen && (rodWritesP o g).contains f.pr.toNat)
    | _ => false)

/-- FLT_SLATE_RANGE of a Rod instruction with its index register as it stands (R151; DEDUCED, log 18). -/
def rodRange (T : Tile) (opc : Nat) (f : RodForm) (x : BitVec 64) : Option IFault :=
  if (opc = 0x70 ∨ opc = 0x71) ∧ (vOff f x).isNone then some ⟨0x0C, 0, 0⟩
  else if (opc = 0x72 ∨ opc = 0x73) ∧ !indexOk T f x then some ⟨0x0C, 0, 0⟩
  else none

/-- FLT_ROD_K of TOPK (R152): the segment that started the list is the last TOPK with FN bit 0 that named the same VD; where there
was none any k stands (DEDUCED, log 14). -/
def topkFault (T : Tile) (opc : Nat) (f : RodForm) : Option IFault :=
  let k := f.imm.toNat % 512
  let k0 := tget 0 T.topkK f.vd.toNat
  if opc = 0x76 ∧ (k = 0 ∨ k > 256 ∨ (!flag f.fn 0 ∧ k0 ≠ 0 ∧ k0 ≠ k)) then some ⟨0x0D, 0, 0⟩ else none

/-- The checks of a Rod instruction at issue: a gather or scatter whose index register or predicate is still to be written makes
its range check when it starts (R151). -/
def rodFault (T : Tile) (opc : Nat) (f : RodForm) : Option IFault :=
  firstFault [if (opc = 0x72 ∨ opc = 0x73) ∧ indexPending T f then none else rodRange T opc f (T.xr f.xs.toNat), topkFault T opc f]

/-- Issue of a Rod instruction into queue 2. -/
def issueRod (t opc : Nat) (legal : RodForm → Bool) (f : RodForm) (s : State) : State :=
  issueEngine s t 2 (f.w0 (BitVec.ofNat 8 opc)) f.sync [f.xs.toNat] (legal f) false [] (fun _ T =>
    let x := T.xr f.xs.toNat
    match rodFault T opc f with
    | some e => .error e
    | none => .ok (.rod opc f x T.seed,
        if opc = 0x76 ∧ flag f.fn 0 then { T with topkK := tset 0 T.topkK f.vd.toNat (f.imm.toNat % 512) } else T))

def execVadd (t : TileNo) (f : RodForm) (s : State) : Host.Outcome State Fault Refusal := .next (issueRod t 0x60 legalVarith f s)
def execVsub (t : TileNo) (f : RodForm) (s : State) : Host.Outcome State Fault Refusal := .next (issueRod t 0x61 legalVarith f s)
def execVmul (t : TileNo) (f : RodForm) (s : State) : Host.Outcome State Fault Refusal := .next (issueRod t 0x62 legalVarith f s)
def execVfma (t : TileNo) (f : RodForm) (s : State) : Host.Outcome State Fault Refusal := .next (issueRod t 0x63 legalVfma f s)
def execVmin (t : TileNo) (f : RodForm) (s : State) : Host.Outcome State Fault Refusal := .next (issueRod t 0x64 legalVminmax f s)
def execVmax (t : TileNo) (f : RodForm) (s : State) : Host.Outcome State Fault Refusal := .next (issueRod t 0x65 legalVminmax f s)
def execVcmp (t : TileNo) (f : RodForm) (s : State) : Host.Outcome State Fault Refusal := .next (issueRod t 0x66 legalVcmp f s)
def execVsel (t : TileNo) (f : RodForm) (s : State) : Host.Outcome State Fault Refusal := .next (issueRod t 0x67 legalVsel f s)
def execVand (t : TileNo) (f : RodForm) (s : State) : Host.Outcome State Fault Refusal := .next (issueRod t 0x68 legalVbit f s)
def execVor (t : TileNo) (f : RodForm) (s : State) : Host.Outcome State Fault Refusal := .next (issueRod t 0x69 legalVbit f s)
def execVxor (t : TileNo) (f : RodForm) (s : State) : Host.Outcome State Fault Refusal := .next (issueRod t 0x6A legalVbit f s)
def execVshl (t : TileNo) (f : RodForm) (s : State) : Host.Outcome State Fault Refusal := .next (issueRod t 0x6B legalVbit f s)
def execVshr (t : TileNo) (f : RodForm) (s : State) : Host.Outcome State Fault Refusal := .next (issueRod t 0x6C legalVbit f s)
def execVperm (t : TileNo) (f : RodForm) (s : State) : Host.Outcome State Fault Refusal := .next (issueRod t 0x6D legalVperm f s)
def execVperm2 (t : TileNo) (f : RodForm) (s : State) : Host.Outcome State Fault Refusal := .next (issueRod t 0x6E legalVperm2 f s)
def execVred (t : TileNo) (f : RodForm) (s : State) : Host.Outcome State Fault Refusal := .next (issueRod t 0x6F legalVred f s)
def execVld (t : TileNo) (f : RodForm) (s : State) : Host.Outcome State Fault Refusal := .next (issueRod t 0x70 legalVld f s)
def execVst (t : TileNo) (f : RodForm) (s : State) : Host.Outcome State Fault Refusal := .next (issueRod t 0x71 legalVst f s)
def execVgather (t : TileNo) (f : RodForm) (s : State) : Host.Outcome State Fault Refusal := .next (issueRod t 0x72 legalVgather f s)
def execVscatter (t : TileNo) (f : RodForm) (s : State) : Host.Outcome State Fault Refusal := .next (issueRod t 0x73 legalVscatter f s)
def execVbcast (t : TileNo) (f : RodForm) (s : State) : Host.Outcome State Fault Refusal := .next (issueRod t 0x74 legalVbcast f s)
def execPset (t : TileNo) (f : RodForm) (s : State) : Host.Outcome State Fault Refusal := .next (issueRod t 0x75 legalPset f s)
def execTopk (t : TileNo) (f : RodForm) (s : State) : Host.Outcome State Fault Refusal := .next (issueRod t 0x76 legalTopk f s)
def execBisect (t : TileNo) (f : RodForm) (s : State) : Host.Outcome State Fault Refusal := .next (issueRod t 0x77 legalBisect f s)
def execSample (t : TileNo) (f : RodForm) (s : State) : Host.Outcome State Fault Refusal := .next (issueRod t 0x78 legalSample f s)
def execVcvt (t : TileNo) (f : RodForm) (s : State) : Host.Outcome State Fault Refusal := .next (issueRod t 0x79 legalVcvt f s)

end Sys2Proof.Machine
end

