-- ==== Sys2Proof/Machine/Mover.lean ====
section
/-! DEFINITION. The Mover queue: MOVE in its three modes with its conversions and counters (R36, R154, R178 to R185) and the
packer (R155, R245, R246). -/
namespace Sys2Proof.Machine

/-! ### Counters (R185) -/

/-- What a MOVE counts: values converted, clipped, vanished, non-finite inputs, outbound overflows. -/
structure MovCount where
  conv : Nat := 0
  clip : Nat := 0
  vanish : Nat := 0
  nonf : Nat := 0
  outInf : Nat := 0
  deriving DecidableEq, Repr

def MovCount.plus (a b : MovCount) : MovCount :=
  { conv := a.conv + b.conv, clip := a.clip + b.clip, vanish := a.vanish + b.vanish, nonf := a.nonf + b.nonf, outInf := a.outInf + b.outInf }
def MovCount.ofN (n : NCount) : MovCount := { conv := 1, clip := n.clip, vanish := n.vanish, nonf := n.nonf }

/-- The counters and status bits after a MOVE, with EVT_TALLY_WRAP and one EVT_MOV_COUNT_STICK for each counter that has
just reached its largest value (DEDUCED, log 34). -/
def countMove (s : State) (t : Nat) (c : MovCount) : State :=
  let e := (s.tile t).eng
  let (cv, wrap) := tallyAdd e.converted c.conv
  let (cl, k1) := stickAdd 32 e.clip.toNat c.clip
  let (va, k2) := stickAdd 32 e.vanish.toNat c.vanish
  let (nf, k3) := stickAdd 32 e.nonf.toNat c.nonf
  let (oi, k4) := stickAdd 32 e.outInfN.toNat c.outInf
  let s := s.onTile t (fun T => { T with eng := { T.eng with
    converted := cv, clip := BitVec.ofNat 32 cl, vanish := BitVec.ofNat 32 va, nonf := BitVec.ofNat 32 nf, outInfN := BitVec.ofNat 32 oi,
    clipSeen := e.clipSeen || decide (c.clip > 0), nonfSeen := e.nonfSeen || decide (c.nonf > 0), outInf := e.outInf || decide (c.outInf > 0) } })
  let s := if wrap then raiseTile s t 0x0023 0 (pageBase t + 0x608) else s
  ([(k1, 0x610), (k2, 0x618), (k3, 0x620), (k4, 0x628)].filter (·.1)).foldl (fun s k => raiseTile s t 0x0022 0 (pageBase t + k.2)) s

/-! ### Pairing of cards (R179 to R181) -/

def hostFmt (f : Nat) : Bool := decide (f = 10 ∨ f = 11)
/-- FP16 and the 8-bit formats: what the exchange network takes. -/
def turnFmt (f : Nat) : Bool := decide (f = 0 ∨ f = 1 ∨ f = 2 ∨ f = 6)

/-- A FORMAT or KIND that the MOVE refuses: reason 0x02 on the card that is refused by itself, else on DD (DEDUCED, log 33). -/
def pairFault (mode : Nat) (a b : Card) : Option IFault :=
  let bad (c : Card) (v : Nat) : Option IFault := some ⟨0x04, cardInfo c 7 0x02, BitVec.ofNat 64 v⟩
  if a.kind ≠ 0 ∨ b.kind ≠ 0 then
    (if mode ≠ 0 then (if a.kind ≠ 0 then bad a a.kind else bad b b.kind) else if a.kind ≠ b.kind then bad b b.kind else none)
  else if mode = 1 ∧ !turnFmt a.fmt then bad a a.fmt
  else if mode = 1 ∧ !turnFmt b.fmt then bad b b.fmt
  else if mode = 2 ∧ b.fmt ≠ 0 ∧ b.fmt ≠ 6 then bad b b.fmt
  else if (hostFmt a.fmt || hostFmt b.fmt) && !isBitCopy mode a b && decide ((if hostFmt a.fmt then b.fmt else a.fmt) ≠ 0) then bad b b.fmt
  else none

/-- The extent that dimension k of DD must have (R179). -/
def wantExt (mode : Nat) (a : Card) (k : Nat) : Nat := if mode = 1 ∧ k < 2 then a.ext (1 - k) else a.ext k

/-- FLT_STRIDE reason 0x22 (DEDUCED, log 33). -/
def extentFault (mode : Nat) (a b : Card) : Option IFault :=
  match [0, 1, 2, 3, 4].find? (fun k => decide (b.ext k ≠ wantExt mode a k)) with
  | some k => some ⟨0x0F, cardInfo b k 0x22, BitVec.ofNat 64 (b.ext k)⟩
  | none => none

/-- FLT_ALIAS_WRITE reason 0x32: the two footprints share a byte (R178). -/
def overlapFault (mc : MapCtx) (a b : Card) : Option IFault :=
  let (x, n) := a.footRange
  let (y, m) := b.footRange
  if rangesMeet mc x n y m then some ⟨0x10, cardInfo b 7 0x32, BitVec.ofNat 64 y⟩ else none

/-- The checks of MOVE, in order (R154, R184). -/
def moveFault (s : State) (T : Tile) (f : MoveForm) : Option IFault :=
  let mc := mapCtx s
  let mode := f.mode.toNat
  let a := cardOf T f.ds.toNat
  let b := cardOf T f.dd.toNat
  firstFault [checkForm true a, checkForm true b, pairFault mode a b, checkAlign mc a, checkAlign mc b, checkStride false a,
    checkStride (decide (mode ≠ 2)) b, extentFault mode a b, checkPlaneRead a, checkPlaneWrite b,
    if mode = 2 then none else checkAlias mc b, overlapFault mc a b, writeChecks s T false b.ranges]

def issueMove (t : Nat) (f : MoveForm) (s : State) : State :=
  issueEngine s t 3 f.w0 f.sync [] (legalMove f) false [] (fun s T =>
    match moveFault s T f with
    | some e => .error e
    | none => .ok (.move f.mode.toNat (cardOf T f.ds.toNat) (cardOf T f.dd.toNat), T))

/-! ### Start -/

/-- Index of the destination of a source element. -/
def turnIx (mode : Nat) (i : Ix) : Ix := if mode = 1 then { i with i0 := i.i1, i1 := i.i0 } else i
/-- Row and column of an index in the engine view of a card (R163). -/
def ixRow (c : Card) (i : Ix) : Nat := i.i1 + c.ext 1 * (i.i2 + c.ext 2 * (i.i3 + c.ext 3 * i.i4))

/-- A host-format conversion (R36): the code and what it counts (DEDUCED, log 34). -/
def hostConvert (src dst : Card) (v : FVal) : Nat × MovCount :=
  if hostFmt src.fmt then let (c, n) := narrow 0 .rne dst.exp v; (c, MovCount.ofN n)
  else
    let c := if dst.fmt = 11 then (toD32 v).toNat else toBF16 v
    match v with
    | .fin .. => (c, { conv := 1, outInf := (match decodeElem dst.fmt c with | .inf _ => 1 | _ => 0) })
    | _ => (c, { conv := 1, nonf := 1 })

/-- Source elements of a MOVE with their destinations, in DS index order. -/
def moveElems (mode : Nat) (a : Card) : List (Nat × Ix) := (List.range a.size).map (fun k => (k, turnIx mode (a.ix k)))

/-- True value of source element k; a host format is its own value (R36). -/
def moveVal (mc : MapCtx) (vw : View) (a : Card) (k : Nat) : FVal :=
  if hostFmt a.fmt then decodeElem a.fmt (readCode mc vw a (a.ix k)) else readTrue mc vw a (k / a.cols) (k % a.cols)

/-- Scatter-add, one element after another (R181; DEDUCED, log 34). -/
def scatterAdd (mc : MapCtx) (vw : View) (a b : Card) : List PW × MovCount :=
  (moveElems 2 a).foldl (fun (ws, n) (k, j) =>
    let v := moveVal mc vw a k
    let d := (decodeElem b.fmt (readCode mc (overlay vw ws) b j)).scale b.exp
    let (c, m) := narrow b.fmt .rne b.exp (if b.fmt = 0 then d32Val (d32Add (toD32 d) (toD32 v)) else d.add v)
    (ws ++ writeCode mc b j c, n.plus (MovCount.ofN m))) ([], {})

/-- Values of a card's matrix in its engine view, from (index, value) pairs in the card's order. -/
def asRows (c : Card) (l : List FVal) : List (List FVal) := (List.range c.rows).map (fun r => (l.drop (r * c.cols)).take c.cols)

/-- The k-th source element that reaches the d-th destination element. -/
def turnBack (mode : Nat) (a b : Card) (d : Nat) : Nat :=
  let i := turnIx mode (b.ix d)
  a.at_ (ixRow a i) i.i0

/-- What a MOVE writes, and its counts (R180; DEDUCED, log 34). -/
def moveWrites (mc : MapCtx) (vw : View) (mode : Nat) (a b : Card) : List PW × MovCount :=
  if mode = 2 then scatterAdd mc vw a b
  else if isBitCopy mode a b then
    ((moveElems mode a).flatMap (fun (k, j) => writeCode mc b j (readCode mc vw a (a.ix k))) ++
      (if b.lifted then (moveElems mode a).flatMap (fun (k, j) => writeLift mc b (ixRow b j) j.i0 (readLift mc vw a (k / a.cols) (k % a.cols))) else []), {})
  else if hostFmt a.fmt || hostFmt b.fmt then
    (moveElems mode a).foldl (fun (ws, n) (k, j) =>
      let (c, m) := hostConvert a b (moveVal mc vw a k)
      (ws ++ writeCode mc b j c, n.plus m)) ([], {})
  else
    let l := narrowAll b b.lax (asRows b ((List.range b.size).map (fun d => moveVal mc vw a (turnBack mode a b d)))) false (fun _ _ => 0)
    (narrowedWrites mc b Prod.mk l, l.foldl (fun n x => n.plus (MovCount.ofN x.n)) {})

/-- The progress unit of the k-th source element: 4096 destination bytes in DS index order (R183), for a transpose eight blocks of
512 bytes (R182; DEDUCED, log 25). -/
def moveUnit (mode : Nat) (a b : Card) (k : Nat) : Nat :=
  let bits := if b.kind = 0 then fmtBits b.fmt else b.width
  if mode = 1 then
    let i := a.ix k
    let w := if bits = 16 then 16 else 32
    (((i.i2 + a.ext 2 * (i.i3 + a.ext 3 * i.i4)) * cdiv (a.ext 1) 16 + i.i1 / 16) * cdiv (a.ext 0) w + i.i0 / w) / 8
  else k * bits / 32768

/-- The bits that the elements of the first `n` units write, with their blocks' lifts. -/
def unitBits (mc : MapCtx) (mode : Nat) (a b : Card) (n : Nat) : List PW :=
  ((moveElems mode a).filter (fun e => decide (moveUnit mode a b e.1 < n))).flatMap (fun (_, j) =>
    writeCode mc b j 0 ++ writeLift mc b (ixRow b j) j.i0 0)

def startMove (s : State) (t : Nat) (vw : View) (mode : Nat) (a b : Card) : Effect :=
  let (ws, n) := moveWrites (mapCtx s) vw mode a b
  { s := countMove s t n, writes := ws }

/-! ### PACK -/

/-- The input list and the output list of a packer descriptor, as Slate offset and length. -/
def packLists (d : List Byte) : (Nat × Nat) × (Nat × Nat) :=
  ((wfld d 0 0 23 / 16 * 16, 16 * wfld d 0 24 24), (wfld d 1 0 23 / 16 * 16, 16 + 16 * wfld d 1 24 24))

/-- FLT_SLATE_RANGE for a list of the descriptor (R246). -/
def packRange (d : List Byte) : Option IFault :=
  let (i, o) := packLists d
  if i.1 + i.2 > slateSize ∨ o.1 + o.2 > slateSize then some ⟨0x0C, 0, 0⟩ else none

def issuePack (t : Nat) (f : PackForm) (s : State) : State :=
  issueEngine s t 3 f.w0 f.sync [f.xs.toNat, f.xr.toNat] (legalPack f) false [] (fun s T =>
    match slateRead s t 64 (T.xr f.xs.toNat), slateOff 8 (T.xr f.xr.toNat) with
    | .ok (a, d), some r =>
      (match firstFault [recordFaultAt s a 64, packRange d] with
       | some e => .error e
       | none => .ok (.pack d r, T))
    | .error e, _ => .error e
    | _, none => .error ⟨0x0C, 0, 0⟩)

/-- An emitted piece (R245). -/
structure Piece where
  id : Nat
  pos : Nat
  len : Nat
  mb : Nat
  carry : Bool
  last : Bool
  deriving DecidableEq, Repr

/-- Progress of the packer: micro-batch, tokens used in it, pieces in reverse, entries placed in full, status. -/
structure PackState where
  m : Nat := 0
  used : Nat := 0
  out : List Piece := []
  full : Nat := 0
  st : Nat := 0
  deriving DecidableEq, Repr

/-- Placement of one entry (the inner loop of R245). -/
def packEntry (c p cap mbMax id : Nat) : Nat → Nat → Nat → PackState → PackState
  | 0, _, _, s => s
  | fuel + 1, pos, rest, s =>
    if rest = 0 then { s with full := s.full + 1 }
    else
      let room := c - s.used
      let take := if rest ≤ room then rest else room / p * p
      if take = 0 then packEntry c p cap mbMax id fuel pos rest { s with m := s.m + 1, used := 0 }
      else if s.out.length = cap ∨ s.m ≥ mbMax then { s with st := 0x0120 }
      else packEntry c p cap mbMax id fuel (pos + take) (rest - take)
        { s with out := { id := id, pos := pos, len := take, mb := s.m, carry := decide (pos > 0), last := decide (take = rest) } :: s.out,
                 used := s.used + take }

/-- The entries in input order; a status stops the list. -/
def packAll (c p cap mbMax : Nat) : List (List Byte) → PackState → PackState
  | [], s => s
  | e :: r, s =>
    let len := wfld e 0 32 24
    let start := wfld e 1 0 24
    if len = 0 ∨ start % p ≠ 0 ∨ c < p then { s with st := 0x0121 }
    else
      let s' := packEntry c p cap mbMax (wfld e 0 0 32) (2 * len + 4) start len s
      if s'.st ≠ 0 then s' else packAll c p cap mbMax r s'

def pieceBytes (x : Piece) : List Byte :=
  leBytes 8 (x.id + x.pos * 2 ^ 32) ++ leBytes 8 (x.len % 2 ^ 24 + x.mb * 2 ^ 24 + x.carry.toNat * 2 ^ 40 + x.last.toNat * 2 ^ 41)

/-- PACK: pieces, header and result word (R245). A tile whose context has no job has no MB_CEIL: C is 0 (DEDUCED, log 35). -/
def startPack (s : State) (t : Nat) (vw : View) (d : List Byte) (res : Nat) : Effect :=
  let mc := mapCtx s
  let (ceil, p) := match jobOf s (s.tile t).ctx.toNat with | some j => (j.mbCeil, j.page) | none => (0, 16)
  let c0 := wfld d 2 0 24
  let c := if c0 = 0 then ceil else Nat.min c0 ceil / p * p
  let (i, o) := packLists d
  let es := (List.range (wfld d 0 24 24)).map (fun k => vbytes mc vw (slateOf t + i.1 + 16 * k) 16)
  let r := packAll c p (wfld d 1 24 24) (wfld d 2 24 16) es {}
  let head := leBytes 8 (r.out.length + (r.m + (if r.used > 0 then 1 else 0)) % 65536 * 2 ^ 32) ++ leBytes 8 0
  { s := s, writes := putBytes mc (slateOf t + o.1) (head ++ r.out.reverse.flatMap pieceBytes) ++
      putBytes mc (slateOf t + res) (leBytes 8 (r.st + r.full % 2 ^ 24 * 2 ^ 16)) }

def execMove (t : TileNo) (f : MoveForm) (s : State) : Host.Outcome State Fault Refusal := .next (issueMove t f s)
def execPack (t : TileNo) (f : PackForm) (s : State) : Host.Outcome State Fault Refusal := .next (issuePack t f s)

end Sys2Proof.Machine
end

