-- ==== Sys2Proof/Machine/Attention.lean ====
section
/-! DEFINITION. ATT (R149, R281 to R296): the attention card and the page list, the checks at issue, the exact scores,
softmax sums and weighted values, normalisation, row statistics, and the weights of RECOMPUTE. -/
namespace Sys2Proof.Machine

/-! ### The card and the pages -/

/-- The attention card by fields (R281). -/
structure ACard where
  mode : Nat
  causal : Bool
  bits : Nat
  rowClr : Bool
  outSr : Bool
  dq : Nat
  dout : Nat
  dstat : Nat
  dh : Nat
  h : Nat
  kfmt : Nat
  vfmt : Nat
  npages : Nat
  page : Nat
  rowBase : Nat
  plist : Nat
  ros : Nat
  scale : D32
  ao : Int
  qpos : Nat
  kpos0 : Nat
  outTid : Nat
  statTid : Nat
  elemBase : Nat
  elemRow : Nat
  deriving DecidableEq, Repr

def parseAtt (l : List Byte) : ACard :=
  { mode := wfld l 0 0 2, causal := wbit l 0 2, bits := if wbit l 0 3 then 4 else 11, rowClr := wbit l 0 4, outSr := wbit l 0 5,
    dq := wfld l 0 6 5, dout := wfld l 0 11 5, dstat := wfld l 0 16 5, dh := 64 * 2 ^ wfld l 0 21 2, h := wfld l 0 23 8,
    kfmt := wfld l 0 31 4, vfmt := wfld l 0 35 4, npages := wfld l 0 39 7, page := 16 * 2 ^ wfld l 0 46 2,
    rowBase := wfld l 0 48 8, plist := wfld l 1 0 23 / 64 * 64, ros := wfld l 1 23 17, scale := wd32 l 2 0,
    ao := sgn 10 (wfld l 2 32 10), qpos := wfld l 3 0 32, kpos0 := wfld l 3 32 32, outTid := wfld l 4 0 30, statTid := wfld l 4 32 30,
    elemBase := wfld l 5 0 64, elemRow := wfld l 6 0 40 }

/-- Row r of DQ belongs to the token at this position. -/
def ACard.pos (c : ACard) (r : Nat) : Nat := c.qpos + r / c.h

/-- A page-list entry (R282). -/
structure Page where
  sheet : Nat
  tokens : Nat
  ktag : Nat
  vtag : Nat
  ek : Int
  ev : Int
  deriving DecidableEq, Repr

def parsePage (n : Nat) : Page :=
  { sheet := nfld n 0 11, tokens := nfld n 11 8, ktag := nfld n 19 4, vtag := nfld n 23 4, ek := sgn 8 (nfld n 27 8), ev := sgn 8 (nfld n 35 8) }

/-- The entries of a page list. -/
def pageList (plist : List Byte) : List Page := (List.range (plist.length / 8)).map (fun i => parsePage (wfld plist i 0 64))

/-- The pages that an ATT reads: FINISH reads none (R290). -/
def readPages (mode : Nat) (plist : List Byte) : List Page := if mode = 2 then [] else pageList plist

/-- Sheets of a key or value block (R283). -/
def blockSheets (fmt tokens dh : Nat) : Nat := if fmtSub fmt then fmtBits fmt else cdiv (tokens * dh * (fmtBits fmt / 8)) 4096
/-- Sheets of a page of `p` tokens. -/
def pageSheets (g : Page) (p dh : Nat) : Nat :=
  blockSheets g.ktag p dh + blockSheets g.vtag p dh + (if fmtLift g.ktag || fmtLift g.vtag then 1 else 0)

/-! ### Checks at issue (R149, R291) -/

/-- INFO0 of FLT_ATT_CARD. -/
def attBad (word bit i1 : Nat) : Option IFault := some ⟨0x16, BitVec.ofNat 64 (word + bit * 8), BitVec.ofNat 64 i1⟩

/-- FLT_ATT_CARD of the card (R281). -/
def attCardFault (l : List Byte) : Option IFault :=
  let c := parseAtt l
  firstFault [
    if wfld l 0 21 2 = 3 then attBad 0 21 0 else none,
    if c.h = 0 ∨ c.h > 128 then attBad 0 23 0 else none,
    if wfld l 0 39 7 > 64 then attBad 0 39 0 else none,
    if wfld l 0 56 8 ≠ 0 then attBad 0 56 0 else none,
    if wfld l 1 40 24 ≠ 0 then attBad 1 40 0 else none,
    if c.ao < -256 ∨ c.ao > 254 then attBad 2 32 0 else none,
    if wfld l 2 42 22 ≠ 0 then attBad 2 42 0 else none,
    if wfld l 4 30 2 ≠ 0 then attBad 4 30 0 else none,
    if wfld l 4 62 2 ≠ 0 then attBad 4 62 0 else none,
    if wfld l 6 40 24 ≠ 0 then attBad 6 40 0 else none]

/-- FLT_ATT_CARD of the page list: TOKENS outside 1 to P, a non-zero reserved field. -/
def attPagesFault (c : ACard) (plist : List Byte) : Option IFault :=
  firstFault ((List.range c.npages).map (fun i =>
    let n := wfld plist i 0 64
    let g := parsePage n
    if g.tokens = 0 ∨ g.tokens > c.page then attBad 0 11 (0x100 + i)
    else if nfld n 43 21 ≠ 0 then attBad 0 43 (0x100 + i) else none))

/-- FLT_SLATE_RANGE for the pages. -/
def attRange (c : ACard) (gs : List Page) : Option IFault :=
  if gs.any (fun g => decide (g.sheet + pageSheets g c.page c.dh > slateSize / 4096)) then some ⟨0x0C, 0, 0⟩ else none

def keyFmt (f : Nat) : Bool := decide (f ≤ 7)
def valFmt (f : Nat) : Bool := decide (f ≤ 2 ∨ f = 6)
/-- A page tag is accepted under a declared format (R284; DEDUCED, log 55). -/
def tagOk (tag fmt : Nat) : Bool := decide (tag = fmt) || (!fmtReserved tag && decide (fmtBits tag < fmtBits fmt))

/-- FLT_FORMAT_CODE of a declared format outside its list: reason 0x02 and no D register (R184, R284; DEDUCED, log 33). -/
def declaredFault (c : ACard) : Option IFault :=
  let bad (v : Nat) : Option IFault := some ⟨0x04, BitVec.ofNat 64 (7 * 32 + 2 * 256), BitVec.ofNat 64 v⟩
  if !keyFmt c.kfmt then bad c.kfmt else if !valFmt c.vfmt then bad c.vfmt else none

/-- FLT_FORMAT_PAIR (R284). -/
def pairTagFault (c : ACard) (gs : List Page) : Option IFault :=
  firstFault ((gs.zip (List.range gs.length)).map (fun (g, i) =>
    if !tagOk g.ktag c.kfmt then some ⟨0x11, BitVec.ofNat 64 (i + g.ktag * 256 + c.kfmt * 4096), 0⟩
    else if !tagOk g.vtag c.vfmt then some ⟨0x11, BitVec.ofNat 64 (i + 64 + g.vtag * 256 + c.vfmt * 4096), 0⟩ else none))

/-- FLT_SLOT_GEOM of R291. -/
def attGeom (c : ACard) (fused : Bool) (q : Card) : Option IFault :=
  let (m, n) := slotShape fused
  if q.rows > m ∨ c.dh > n ∨ q.cols ≠ c.dh ∨ q.rows % c.h ≠ 0 then some ⟨0x06, 0, 0⟩ else none

/-- The page list lies in Slate; one of no entries has no place. -/
def ACard.listOk (c : ACard) : Bool := decide (c.npages = 0) || decide (c.plist + 8 * c.npages ≤ slateSize)

/-- The page list of an attention card as issue reads it, empty where it does not lie in Slate (R149). -/
def attPages (s : State) (t : Nat) (c : ACard) : List Byte :=
  if c.listOk then vbytes (mapCtx s) (viewOf s t 5) (slateOf t + c.plist) (8 * c.npages) else []

/-- What ATT captures at issue: the attention card `l` at Slate address `a`, its page list, its cards, TILE_STEP and TILE_SEED
(R108, R140, R149). -/
def attOp (s : State) (t : Nat) (T : Tile) (slot a : Nat) (l : List Byte) : EngineOp :=
  let c := parseAtt l
  .att slot T.aba.iFused (a - slateOf t) l (attPages s t c) (cardOf T c.dq) (cardOf T c.dout) (cardOf T c.dstat) T.step T.seed

/-- The checks of ATT, in order (R149, R291). DOUT and DSTAT are no write cards of R174; an UPPER one is refused as a card that is
written (R72; DEDUCED, log 55). -/
def attFault (s : State) (t : Nat) (T : Tile) (sl a : Nat) (l : List Byte) : Option IFault :=
  let mc := mapCtx s
  let c := parseAtt l
  let gs := pageList (attPages s t c)
  let q := cardOf T c.dq
  let o := cardOf T c.dout
  let st := cardOf T c.dstat
  let cards := [q, o, st]
  firstFault [
    slotFault T sl, recordFaultAt s a 64, attCardFault l,
    if c.listOk then attPagesFault c (attPages s t c) else none,
    if c.listOk then none else some ⟨0x0C, 0, 0⟩,
    if c.listOk ∧ c.npages > 0 then recordFaultAt s (slateOf t + c.plist) (8 * c.npages) else none,
    attRange c gs,
    eachCard (checkAlign mc) cards, eachCard (checkStride false) cards,
    checkPlaneRead q, checkPlaneWrite o, checkPlaneWrite st, eachCard (checkOwn mc t) cards,
    formAt q 0 storeFmt, formAt o (if c.mode = 1 then 1 else 0) storeFmt, formAt st 0 (fun x => decide (x = 0)),
    declaredFault c,
    attGeom c T.aba.iFused q, pairTagFault c gs,
    if c.rowBase + q.rows > 256 then some ⟨0x0A, 0, 0⟩ else none,
    if c.mode = 2 ∧ !(tget false T.aba.iValid sl && decide (tget 0 T.aba.iAnchor sl = c.ao)) then
      some ⟨0x05, BitVec.ofNat 64 (sl + unsgn 10 (tget 0 T.aba.iAnchor sl) * 2 ^ 16 + unsgn 10 c.ao * 2 ^ 32), 0⟩ else none]

/-- Issue of ATT. -/
def issueAtt (t : Nat) (f : AttForm) (s : State) : State :=
  issueEngine s t 0 f.w0 f.sync [f.ax.toNat] (legalAtt f) false [] (fun s T =>
    match slateRead s t 64 (T.xr f.ax.toNat) with
    | .error e => .error e
    | .ok (a, l) =>
      match attFault s t T f.slot.toNat a l with
      | some e => .error e
      | none => .ok (attOp s t T f.slot.toNat a l, T.viewDrop f.slot.toNat))

/-! ### Page elements (R283) -/

/-- First byte of the value block and of the lift sheet of a page. -/
def vBlock (g : Page) (p dh : Nat) : Nat := (g.sheet + blockSheets g.ktag p dh) * 4096
def liftSheet (g : Page) (p dh : Nat) : Nat := (g.sheet + blockSheets g.ktag p dh + blockSheets g.vtag p dh) * 4096

/-- Stored code of element `n` of a block. -/
def blockCode (mc : MapCtx) (vw : View) (a fmt n : Nat) : Nat :=
  if fmtSub fmt then (List.range (fmtBits fmt)).foldl (fun x p => x + 2 ^ p * vbits mc vw (8 * (a + 4096 * p) + n) 1) 0
  else vbits mc vw (8 * a + fmtBits fmt * n) (fmtBits fmt)

/-- Element (t, d) of the keys or values of a page, lift included, exponent not. -/
def pageElem (mc : MapCtx) (vw : View) (base a lifts fmt dh tok d : Nat) : FVal :=
  let l := if fmtLift fmt then vbits mc vw (8 * (base + lifts) + 4 * (tok * dh / 32 + d / 32)) 4 else 0
  (decodeElem fmt (blockCode mc vw (base + a) fmt (tok * dh + d))).scale l
def keyElem (mc : MapCtx) (vw : View) (t : Nat) (g : Page) (p dh tok d : Nat) : FVal :=
  pageElem mc vw (slateOf t) (g.sheet * 4096) (liftSheet g p dh) g.ktag dh tok d
def valElem (mc : MapCtx) (vw : View) (t : Nat) (g : Page) (p dh tok d : Nat) : FVal :=
  pageElem mc vw (slateOf t) (vBlock g p dh) (liftSheet g p dh + 2048) g.vtag dh tok d

/-! ### Scores and sums (R286, R287) -/

/-- Exact sum of products; none where an element is not finite. -/
def dotExact (q k : List FVal) : Option FVal :=
  (q.zip k).foldl (fun acc (a, b) =>
    match acc, a, b with
    | some s, .fin .., .fin .. => some (s.add (a.mul b))
    | _, _, _ => none) (some (.fin false 0 0))

/-- s of R286 with READ_INF. -/
def score (qe : Int) (g : Page) (scale : D32) (q k : List FVal) : D32 × Bool :=
  match dotExact q k with
  | none => (d32NaN, false)
  | some v => let (c, r) := widen (match v.scale (qe + g.ek) with | .fin _ 0 _ => .fin false 0 0 | x => x); (d32Mul c scale, r)

/-- What a row's entry and its cells become; `all` says that every cell of the slot's row is marked (R286). -/
structure AttRow where
  e : RowEntry
  cells : List Cell
  inf : Bool := false
  all : Bool := false
  deriving DecidableEq, Repr

/-- One key slot for one row (R286). `vs` are the value elements of the slot (DEDUCED, log 55). -/
def attStep (c : ACard) (g : Page) (masked : Bool) (s : D32) (vs : List FVal) (x : AttRow) : AttRow :=
  let e := { x.e with count := satAdd 40 x.e.count 1 }
  if masked ∨ s = 0xFF800000 then { x with e := e }
  else if nonFinite s then { x with e := { e with mark := true }, cells := x.cells.map (fun y => { y with mark := true }), all := true }
  else
    match expSplit (d32Mul s d32Lambda) with
    | .zero => { x with e := e.tapMax s, cells := (x.cells.zip vs).map (fun (y, v) => match v with | .fin .. => y | _ => { y with mark := true }) }
    | .pair n fm fe =>
      let (n', gi) := expPair c.bits n fm fe
      let ge : Int := n' - (c.bits - 1)
      let e := if e.mark then e else e.addSum (rowUnits false gi ge)
      let cells := (x.cells.zip vs).map (fun (y, v) =>
        match v with
        | .fin neg m ve =>
          let q := rneTo (gi * m) (ge + ve + g.ev - c.ao) (-64)
          y.add (if neg then -(q : Int) else q)
        | _ => { y with mark := true })
      { x with e := e.tapMax s, cells := cells }
    | _ => { x with e := { e.tapMax s with mark := true }, cells := x.cells.map (fun y => { y with mark := true }) }

/-- A key slot is masked for a row (R282, R286). -/
def maskedAt (c : ACard) (g : Page) (i tok r : Nat) : Bool :=
  decide (tok ≥ g.tokens) || (c.causal && decide (c.kpos0 + i * c.page + tok > c.pos r))

/-- Every key slot of every page, in page-list order: the page, its number, the token. -/
def keySlots (c : ACard) (gs : List Page) : List (Page × Nat × Nat) :=
  (gs.zip (List.range gs.length)).flatMap (fun (g, i) => (List.range c.page).map (fun tok => (g, i, tok)))

/-- Scores of a row against every key slot, masked or not: the mask comes after the exact sum and its rounding (R286). -/
def rowScores (mc : MapCtx) (vw : View) (t : Nat) (c : ACard) (q : Card) (gs : List Page) (r : Nat) : List (D32 × Bool) :=
  let qs := (List.range c.dh).map (fun d => readLifted mc vw q r d)
  (keySlots c gs).map (fun (g, _, tok) =>
    score q.exp g c.scale qs ((List.range c.dh).map (fun d => keyElem mc vw t g c.page c.dh tok d)))

/-- All key slots for one row. -/
def attRow (mc : MapCtx) (vw : View) (t : Nat) (c : ACard) (q : Card) (gs : List Page) (r : Nat) (x : AttRow) : AttRow :=
  ((keySlots c gs).zip (rowScores mc vw t c q gs r)).foldl (fun x ((g, i, tok), s, inf) =>
    let m := maskedAt c g i tok r
    let y := attStep c g m s (if m then [] else (List.range c.dh).map (fun d => valElem mc vw t g c.page c.dh tok d)) x
    { y with inf := y.inf || inf }) x

/-! ### Normalisation and statistics (R288, R289) -/

/-- The D32 read of a cell (R80). -/
def readCell (anchor : Int) (x : Cell) : D32 × Bool := if x.mark then (d32NaN, false) else widen (ofInt x.c.toInt (anchor - 64))

/-- One normalised row before narrowing. -/
def normRow (ao : Int) (x : AttRow) : List FVal :=
  if x.e.mark then x.cells.map (fun _ => .nan)
  else if x.e.sum = 0 then x.cells.map (fun _ => .fin false 0 0)
  else let k := rcpD32 x.e.value; x.cells.map (fun y => d32Val (d32Mul (readCell ao y).1 k))

/-- M and Q of a row with their counts (R49, R288). M of an empty or a marked row, and Q, are counted as no narrowing (DEDUCED, log 94). A
negative S has no logarithm: free (DEDUCED, log 55). -/
def statWords (e : RowEntry) (md0 md1 : RMode) (free : BitVec 64) : Nat × Nat × NCount :=
  if e.mark then (0x7E00, 0, {})
  else if e.sum = 0 then (0xFC00, 0, {})
  else
    let (m, n) := narrow 0 md0 0 (d32Val e.max)
    match e.value, d32Val (d32Mul (toD32 (decodeElem 0 m)) d32Lambda) with
    | .fin false sm se, .fin tn tm te =>
      let q := qOffset md1 sm se tn tm te + 2048
      if q < 0 then (m, 0, { n with clip := n.clip + 1 })
      else if q > 65535 then (m, 65535, { n with clip := n.clip + 1 })
      else (m, q.toNat, n)
    | _, _ => (m, free.toNat % 65536, n)

/-- The RESULT byte and the rest of word 7 (R281). -/
def resultWrites (mc : MapCtx) (t off v : Nat) : List PW := putBytes mc (slateOf t + off + 56) (leBytes 8 v)

/-- KV_SR of the tile's job (R38). -/
def kvSrOf (s : State) (t : Nat) : Bool := match jobOf s (s.tile t).ctx.toNat with | some j => j.kvSr | none => false

/-- Output and statistics of FINAL and FINISH, with their counts. -/
def attFinish (s : State) (t : Nat) (c : ACard) (o st : Card) (rows : List AttRow) (step : BitVec 32) (seed : BitVec 64) : State × List PW :=
  let mc := mapCtx s
  let idx (i j : Nat) : Nat := (c.elemBase + i * c.elemRow + j) % 2 ^ 64
  let vals := (rows.take o.rows).map (fun x => (normRow c.ao x).take o.cols)
  let l := narrowAll o o.lax vals c.outSr (fun i j => srDraw seed step c.outTid (idx i j))
  let seen (s : State) (tid : Nat) : Bool := observed s (s.tile t).ctx.toNat tid
  let s := countNarrow s t step c.outTid o.fmt o.exp (l.map (·.v)) (sumCounts l) (seen s c.outTid)
  let sr := kvSrOf s t
  let md (i j : Nat) : RMode := if sr then .sr (srDraw seed step c.statTid (idx i j)) else .rne
  let ws := (rows.zip (List.range rows.length)).map (fun (x, i) => (i, x.e, statWords x.e (md i 0) (md i 1) (Config.freeWord (s.free * 1024 + i))))
  let s := countNarrow s t step c.statTid 0 0 (ws.map (fun x => d32Val x.2.1.max)) (ws.foldl (fun a x => a.plus x.2.2.2.2) {}) (seen s c.statTid)
  (s.fresh, narrowedWrites mc o Prod.mk l ++ ws.flatMap (fun (i, _, m, q, _) =>
    if i < st.rows then
      (if 0 < st.cols then writeCode mc st (st.ix (st.at_ i 0)) m else []) ++ (if 1 < st.cols then writeCode mc st (st.ix (st.at_ i 1)) q else [])
    else []))

/-! ### RECOMPUTE (R295) -/

/-- The weight of a key slot for a row with statistics M and Q. -/
def recWeight (m q : Nat) (masked : Bool) (s : D32) : FVal :=
  if m = 0xFC00 then .fin false 0 0
  else
    match decodeElem 0 m with
    | .nan => .nan
    | mv =>
      if masked then .fin false 0 0
      else
        let l := toD32 ((d32Val (toD32 (mv.mul (d32Val d32Lambda)))).add (ofInt ((q : Int) - 2048) (-11)))
        match expSplit (d32Add (d32Mul s d32Lambda) (toD32 (d32Val l).neg)) with
        | .zero => .fin false 0 0
        | .inf => .inf false
        | .nan => .nan
        | .pair n fm fe => let (n', g) := expPair 24 n fm fe; .fin false g (n' - 23)

/-! ### Start -/

/-- A cell whose contents the spec does not state. -/
def freeCell (s : State) (i : Nat) : Cell :=
  { c := (Config.freeWord (s.free * 2 ^ 20 + 3 * i)).setWidth 160 ||| ((Config.freeWord (s.free * 2 ^ 20 + 3 * i + 1)).setWidth 160 <<< 64) |||
      ((Config.freeWord (s.free * 2 ^ 20 + 3 * i + 2)).setWidth 160 <<< 128),
    mark := Config.freeBit (s.free * 2 ^ 20 + i) }

/-- The slot as ATT leaves it: its cells, anchor AO, not valid, a chain counter whose value the spec does not state (R149; DEDUCED, log 55). -/
def attLeave (s : State) (t slot : Nat) (ao : Int) (l : List Cell) : State :=
  let s' := s.onTile t (fun T =>
    let A := storeCells T.aba slot l ao true 0
    { T with aba := { A with valid := tset false A.valid slot false,
                             chain := tset 0 A.chain slot ((Config.freeWord (s.free * 1024)).toNat % 2 ^ 40) } })
  overflowEvent s'.fresh t slot l

/-- Row r of the slot for an ATT that computes: zero cells, or the slot's own cells for FINISH. -/
def attRows (T : Tile) (c : ACard) (slot rows cols : Nat) : List AttRow :=
  (List.range rows).map (fun r =>
    { e := if c.rowClr ∧ c.mode ≠ 2 then {} else T.row (c.rowBase + r),
      cells := (List.range c.dh).map (fun d =>
        if c.mode = 2 then let k := cellKey slot (r * cols + d); { c := tget 0 T.aba.cells k, mark := tget false T.aba.marks k }
        else { c := 0, mark := false }) })

def setReadInf (s : State) (t : Nat) (b : Bool) : State := s.onTile t (fun T => { T with eng := { T.eng with readInf := T.eng.readInf || b } })

/-- The ATT retires at once with a RESULT and no other effect than an invalid slot (R296). -/
def startAttOut (s : State) (t slot off res : Nat) : Effect :=
  { s := s.onTile t (fun T => { T with aba := { T.aba with valid := tset false T.aba.valid slot false } }), writes := resultWrites (mapCtx s) t off res }

def startAtt (s : State) (t : Nat) (vw : View) (slot : Nat) (fused : Bool) (off : Nat) (card plist : List Byte) (q o st : Card)
    (step : BitVec 32) (seed : BitVec 64) : Effect :=
  let mc := mapCtx s
  let c := parseAtt card
  let gs := readPages c.mode plist
  let T := s.tile t
  let (m, n) := slotShape fused
  let done := resultWrites mc t off 1
  if c.mode = 3 then
    let rs := (List.range q.rows).map (fun r => rowScores mc vw t c q gs r)
    let vals := (rs.zip (List.range q.rows)).map (fun (l, r) =>
      let sm := readCode mc vw st (st.ix (st.at_ r 0))
      let sq := readCode mc vw st (st.ix (st.at_ r 1))
      ((keySlots c gs).zip l).map (fun ((g, i, tok), (x : D32 × Bool)) => recWeight sm sq (maskedAt c g i tok r) x.1))
    let l := narrowAll o o.lax ((vals.take o.rows).map (·.take o.cols)) false (fun _ _ => 0)
    let s := setReadInf s t (rs.any (fun r => r.any (·.2)))
    let s := countNarrow s t step c.outTid o.fmt o.exp (l.map (·.v)) (sumCounts l) (observed s (s.tile t).ctx.toNat c.outTid)
    { s := attLeave s t slot c.ao ((List.range (m * n)).map (freeCell s)), writes := narrowedWrites mc o Prod.mk l ++ done }
  else
    let rows := (attRows T c slot q.rows n).zip (List.range q.rows) |>.map (fun (x, r) => attRow mc vw t c q gs r x)
    let inf := rows.any (fun x => x.inf || (decide (c.mode ≠ 1) && x.cells.any (fun y => (readCell c.ao y).2)))
    let all := (List.range (m * n)).map (fun i =>
      let x := rows.getD (i / n) { e := {}, cells := [] }
      if i / n < rows.length ∧ i % n < c.dh then x.cells.getD (i % n) { c := 0, mark := false }
      else if c.mode = 2 then { c := tget 0 T.aba.cells (cellKey slot i), mark := tget false T.aba.marks (cellKey slot i) }
      else { c := 0, mark := x.all })
    let s := setReadInf s t inf
    let s := if c.mode = 2 then s else s.onTile t (fun T => T.setRows c.rowBase false ((List.range rows.length).map (fun r => if c.rowClr then {} else T.row (c.rowBase + r))) (rows.map (·.e)))
    if c.mode = 1 then
      { s := attLeave s t slot c.ao all,
        writes := ((all.zip (List.range all.length)).take o.size).flatMap (fun (x, i) => writeCode mc o (o.ix i) (if x.mark then markedImage else x.c.toNat)) ++ done }
    else
      let (s, ws) := attFinish s t c o st rows step seed
      { s := attLeave s t slot c.ao all, writes := ws ++ done }

/-- Slate ranges of the pages that an ATT reads. -/
def attPageRanges (t : Nat) (card plist : List Byte) : List (Nat × Nat) :=
  let c := parseAtt card
  (readPages c.mode plist).map (fun g => (slateOf t + g.sheet * 4096, pageSheets g c.page c.dh * 4096))

/-- Bytes of the first `n` elements of a block at byte `a`. -/
def blockRuns (a fmt n : Nat) : List (Nat × Nat) :=
  if n = 0 then []
  else if fmtSub fmt then (List.range (fmtBits fmt)).map (fun p => (a + 4096 * p, cdiv n 8)) else [(a, n * (fmtBits fmt / 8))]

/-- Bytes of the first `n` elements of a block with its lift nibbles at byte `l`. -/
def liftedRuns (a l fmt n : Nat) : List (Nat × Nat) :=
  blockRuns a fmt n ++ (if fmtLift fmt ∧ n ≠ 0 then [(l, cdiv (n / 32) 2)] else [])

/-- The bytes of the pages that an ATT reads: the keys of every token, and except for RECOMPUTE the values of those that TOKENS admits
(R282, R283, R286, R295). -/
def attPageRuns (t : Nat) (card plist : List Byte) : List (Nat × Nat) :=
  let c := parseAtt card
  (readPages c.mode plist).flatMap (fun g =>
    liftedRuns (slateOf t + g.sheet * 4096) (slateOf t + liftSheet g c.page c.dh) g.ktag (c.page * c.dh) ++
      (if c.mode = 3 then [] else liftedRuns (slateOf t + vBlock g c.page c.dh) (slateOf t + liftSheet g c.page c.dh + 2048) g.vtag (g.tokens * c.dh)))

def execAtt (t : TileNo) (f : AttForm) (s : State) : Host.Outcome State Fault Refusal := .next (issueAtt t f s)

end Sys2Proof.Machine
end

