-- ==== Sys2Proof/Machine/Links.lean ====
section
/-! DEFINITION. The fabric's own operations: the LNK registers, choosing a port (R222), virtual channels and credits (R217
to R219), sending and returning flits (R214, R223), and naming seats (R221). -/
namespace Sys2Proof.Machine

/-! ### Registers (R237) -/

def seatReg (i : Nat) : Nat := lnkBlk + 0x1000 + 8 * i
def seatPm (s : State) (i : Nat) : BitVec 11 := BitVec.ofNat 11 (fld (rget s (seatReg i)) 0 11)
/-- STATE of a seat-map entry: 0 ABSENT, 1 ACTIVE, 2 HOLD, 3 RETURN. -/
def seatState (s : State) (i : Nat) : Nat := fld (rget s (seatReg i)) 12 2
def routeReg (p : Nat) : Nat := lnkBlk + 0x5000 + 8 * p
def portCfg (p : Nat) : Nat := lnkBlk + 64 * p
def portStatus (p : Nat) : Nat := lnkBlk + 64 * p + 8
def portNbr (p : Nat) : Nat := lnkBlk + 64 * p + 16
/-- STATE of a port: 0 DOWN, 1 TRAINING, 2 UP, 3 ACTIVE. -/
def portState (s : State) (p : Nat) : Nat := fld (rget s (portStatus p)) 0 2
def isTwin (s : State) (p : Nat) : Bool := flag (rget s (portCfg p)) 2

def portAt (s : State) (p : Nat) : Port := tget {} s.fab.ports p
def setPort (s : State) (p : Nat) (P : Port) : State := { s with fab := { s.fab with ports := tset {} s.fab.ports p P } }
def listAt (s : State) (cl : Nat) : Option ClassList := tget none s.fab.lists cl
def setList (s : State) (cl : Nat) (c : Option ClassList) : State := { s with fab := { s.fab with lists := tset none s.fab.lists cl c } }

/-! ### Virtual channels (R217 to R219) -/

/-- The even VC of the data pair of a tile's Classroom. -/
def dataVc (s : State) (t : Nat) : BitVec 4 := BitVec.ofNat 4 (2 + 2 * fld (rget s (lnkBlk + 0x9100 + 8 * roomOf s t)) 0 3)
/-- Flits a receive buffer holds for a VC (R218). -/
def vcDepth (vc : Nat) : Nat := if vc = 0 then 16 else if vc = 1 then 128 else 96

/-- A flit without what only its way to this module and through it gives it. -/
def bareFlit (f : Flit) : Flit := { f with num := 0, badEnd := false, inp := none, ports := 0 }

/-- A flit leaves by a port: it takes a credit of its VC and the next flit number, and is kept until it is acknowledged
(R215, R218). -/
def Port.transmit (P : Port) (f : Flit) : Port :=
  { P with sent := P.sent ++ [(P.next, bareFlit f)], line := P.line ++ [(P.next, bareFlit f)], next := P.next + 1, used := tset 0 P.used f.vc.toNat (tget 0 P.used f.vc.toNat + 1) }

/-- A credit of the VC is at hand and no earlier flit of the VC waits for one. -/
def Port.free (P : Port) (vc : Nat) : Bool := decide (tget 0 P.used vc < vcDepth vc) && !P.held.any (fun g => decide (g.vc.toNat = vc))

/-- The credit of a place in the receive buffer of a VC goes back to the neighbour (R218). -/
def Port.credit (P : Port) (vc : Nat) : Port := { P with returned := tset 0 P.returned vc (tget 0 P.returned vc + 1) }

/-- A flit leaves the receive buffer in which it stood, if any (R218). -/
def leaveBuffer (s : State) (f : Flit) : State :=
  match f.inp with
  | some (p, vc) => setPort s p.toNat ((portAt s p.toNat).credit vc.toNat)
  | none => s

/-- A flit at an egress port: sent, or held for a credit in the buffer in which it stands; a quiet module's ports send IDLE only (R218,
R354). -/
def portSend (s : State) (p : Nat) (f : Flit) : State :=
  let P := portAt s p
  if P.free f.vc.toNat && !moduleQuiet s then leaveBuffer (setPort s p (P.transmit f)) f
  else setPort s p { P with held := P.held ++ [f] }

/-- A flit for this module goes to its local delivery buffer. -/
def localSend (s : State) (f : Flit) : State :=
  let s := leaveBuffer s f
  { s with fab := { s.fab with localq := s.fab.localq ++ [bareFlit f] } }

/-! ### Routing (R211, R222, R223) -/

/-- Alternatives of a route entry that are live: 62 is local delivery; a port must be ACTIVE. -/
def liveAlts (s : State) (r : BitVec 64) : List (Nat × Nat) :=
  ((List.range 4).map (fun a => (a, fld r (6 * a) 6))).filter (fun x => decide (x.2 = 62) || (decide (x.2 < 36) && decide (portState s x.2 = 3)))

/-- Over how many of `v` live alternatives a flit is spread: a route plan's PORTS at its source, else every one or the first by SPREAD
(R222, R264; DEDUCED, log 52). -/
def spreadOver (r : BitVec 64) (f : Flit) (v : Nat) : Nat := if f.ports ≠ 0 then Nat.min f.ports.toNat v else if flag r 28 then v else 1

/-- The alternative that a flit takes. -/
def pickAlt (s : State) (f : Flit) : Option (Nat × Nat) :=
  let r := rget s (routeReg f.dstPm.toNat)
  if !flag r 29 then none
  else
    let l := liveAlts s r
    l[(f.srcPm.toNat + f.tag.toNat) % spreadOver r f l.length]?

/-- What a twin port carries: partner-memory traffic, ROLL, HELLO and TIME (R211). -/
def twinMay (f : Flit) : Bool := f.partner || decide (f.ty = 0xA ∨ f.ty = 8 ∨ f.ty = 9)

/-- A flit that a port takes off its link: its number is passed (R215). -/
def Port.pass (P : Port) : Port := { P with got := P.got + 1, ask := false }
/-- One that leaves the receive buffer at once: its credit is returned (R215, R218; DEDUCED, log 38). -/
def Port.accept (P : Port) (f : Flit) : Port := P.pass.credit f.vc.toNat

/-- TYPE 0xC to 0xF. -/
def reservedType (f : Flit) : Bool := decide (12 ≤ f.ty.toNat)

/-- A flit at a port goes on to `k`. A flit with another number than the next is one that follows a flit to be replayed, or a duplicate, and
is discarded, since it comes again in its order; so is one that a bad-end codeword closes, whose replay the hop asks for that found the error
(R215). One whose HCRC fails or whose TYPE is reserved is discarded and its replay requested; one whose reserved TYPE persists after the
replay is counted (R214; DEDUCED, log 38). -/
def takeFlit (s : State) (p : Nat) (f : Flit) (k : State → State) : State :=
  let P := portAt s p
  if f.num ≠ P.got then s
  else if f.badEnd then setPort s p (P.accept f)
  else if f.hcrcOk && !reservedType f then k (setPort s p P.pass)
  else if f.hcrcOk && P.ask then setPort s p { P.accept f with reserved := P.reserved + 1 }
  else setPort s p { P with ask := true }

/-- A flit that ends at this module leaves its port's receive buffer. -/
def consume (s : State) (p : Nat) (f : Flit) : State := setPort s p ((portAt s p).credit f.vc.toNat)

/-- Next end-to-end tag for a destination (R214); a message kept under the same tag, 65,536 tags old, is none that can be returned any
more (R223). -/
def takeTag (s : State) (pm : BitVec 11) : BitVec 16 × State :=
  let t := tget 0 s.fab.tagNext pm.toNat
  (t, { s with fab := { s.fab with tagNext := tset 0 s.fab.tagNext pm.toNat (t + 1),
                                   kept := s.fab.kept.filter (fun g => decide (g.ty = 2 ∨ g.dstPm ≠ pm ∨ g.tag ≠ t)) } })

/-- One flit leaves this module by its route entry, or the reason for which it is returned. -/
def routeTry (s : State) (f : Flit) : Except (BitVec 8) State :=
  match pickAlt s f with
  | none => .error 0x21
  | some (a, p) =>
    if p = 62 then .ok (localSend s f)
    else if isTwin s p && !twinMay f then .error 0x21
    else
      let dl := flag (rget s (routeReg f.dstPm.toNat)) (24 + a)
      .ok (portSend s p (if dl && decide (2 ≤ f.vc.toNat) then { f with vc := f.vc ||| 1 } else f))

/-- ARG of a header, by TYPE (R214). -/
def flitArg (f : Flit) : BitVec 40 :=
  match f.body with
  | .bytes a .. => a.setWidth 40
  | .readReq a .. => a.setWidth 40
  | .ringB b n _ => b.setWidth 40 ||| (n.setWidth 40 <<< 19)
  | .coll l q c _ => l.setWidth 40 ||| (q.setWidth 40 <<< 12) ||| (c.setWidth 40 <<< 28)
  | .barrier l g r => l.setWidth 40 ||| (g.setWidth 40 <<< 12) ||| (if r then 0x10000000 else 0)
  | _ => 0

/-- A RETURN flit for `f` (R223). -/
def returnOf (s : State) (f : Flit) (reason : BitVec 8) : Flit × State :=
  let (t, s) := takeTag s f.srcPm
  ({ ty := 7, vc := 1, dstPm := f.srcPm, srcPm := selfPm s, dstSeat := f.srcSeat, srcSeat := selfSeat s, tag := t, len := 16, partner := f.partner,
     body := .returned f.ty f.vc f.dstPm f.dstSeat f.hops f.len f.tag (flitArg f) reason }, s)

/-- A flit is routed, or returned to its source; a RETURN that cannot be routed is dropped. -/
def routeOut (s : State) (f : Flit) : State :=
  match routeTry s f with
  | .ok s => s
  | .error r =>
    let s := leaveBuffer s f
    if f.ty = 7 then s
    else
      let (g, s) := returnOf s f r
      if f.srcPm = selfPm s then localSend s g else match routeTry s g with | .ok s => s | .error _ => s

/-! ### Flits of this module -/

/-- A flit to the physical module `pm` expected to hold `seat`. -/
def mkFlit (s : State) (ty vc : BitVec 4) (pm : BitVec 11) (seat : BitVec 10) (tag : BitVec 16) (len : Nat) (b : FlitBody) : Flit :=
  { ty := ty, vc := vc, dstPm := pm, srcPm := selfPm s, dstSeat := seat, srcSeat := selfSeat s, tag := tag, len := BitVec.ofNat 8 len, body := b }

/-- A message to a seat under the seat map's module, with its tag. -/
def seatFlit (s : State) (ty vc : BitVec 4) (seat : BitVec 10) (len : Nat) (b : FlitBody) : Flit × State :=
  let pm := seatPm s seat.toNat
  let (t, s) := takeTag s pm
  (mkFlit s ty vc pm seat t len b, s)

/-- A message to a seat leaves; a seat in HOLD keeps it until the entry becomes
ACTIVE; a seat ABSENT or in RETURN gives it back with class 0x20 (R221). -/
def emitSeat (s : State) (f : Flit) : State :=
  match seatState s f.dstSeat.toNat with
  | 1 => routeOut s f
  | 2 => { s with fab := { s.fab with parked := s.fab.parked ++ [f] } }
  | _ => let (g, s) := returnOf s f 0x20; localSend s g

/-- A flit that no instruction and no collective holds stays at hand for a return (R223). -/
def keepFlit (s : State) (f : Flit) : State := { s with fab := { s.fab with kept := s.fab.kept ++ [f] } }

/-- A message to a seat that no PUT, GET or RRING names. -/
def sendSeat (s : State) (ty vc : BitVec 4) (seat : BitVec 10) (len : Nat) (b : FlitBody) : State :=
  let (f, s) := seatFlit s ty vc seat len b
  emitSeat s f

/-- A message that stays at hand for a return, spread over `ports` of the ports that its route entry gives (R264; DEDUCED, log 52). -/
def sendSpread (s : State) (ports : BitVec 6) (ty vc : BitVec 4) (seat : BitVec 10) (len : Nat) (b : FlitBody) : State :=
  let (f, s) := seatFlit s ty vc seat len b
  emitSeat (keepFlit s { f with ports := ports }) { f with ports := ports }
/-- A message that stays at hand for a return. -/
def sendKept (s : State) (ty vc : BitVec 4) (seat : BitVec 10) (len : Nat) (b : FlitBody) : State := sendSpread s 0 ty vc seat len b

/-- A flit waits for seat-map entry `i`: partner traffic for the buddy's, other flits for their seat's. -/
def waitsFor (s : State) (i : Nat) (f : Flit) : Bool :=
  if f.partner then decide (i = fld (rget s ckpBlk) 0 11) else decide (f.dstSeat.toNat = i)

/-- A message that is sent again under another module and tag is at hand for a return under those. -/
def renewKept (s : State) (f g : Flit) : State :=
  let new (l : List Flit) : List Flit := l.map (fun x => if x = f then g else x)
  { s with fab := { s.fab with kept := new s.fab.kept, landed := new s.fab.landed,
                               colls := s.fab.colls.map (fun e => (e.1, e.2.map (fun c => { c with held := new c.held }))) } }

/-- Messages that waited for a seat leave once its entry is ACTIVE, translated anew (R223); READ_DATA keeps the tag of its
request. -/
def unparkFlits (s : State) (seat : Nat) : State :=
  let (go, stay) := s.fab.parked.partition (waitsFor s seat)
  go.foldl (fun s f =>
    let (t, s) := if f.ty = 2 then (f.tag, s) else takeTag s (seatPm s seat)
    let g := { f with dstPm := seatPm s seat, tag := t }
    routeOut (renewKept s f g) g)
    { s with fab := { s.fab with parked := stay } }

/-- The seat that a link instruction names. -/
def opSeat : EngineOp → Option Nat
  | .put seat .. => some seat
  | .get seat .. => some seat
  | .rring seat .. => some seat
  | _ => none

/-- Flits under new tags for a module, in order. -/
def retag (s : State) (pm : BitVec 11) (l : List Flit) : List Flit × State :=
  l.foldl (fun (l, s) f => let (t, s) := takeTag s pm; (l ++ [{ f with dstPm := pm, tag := t }], s)) ([], s)

/-- The k-th started link instruction of a tile sends its flits again: WRITE and READ_REQ are idempotent, and no flit after
a returned one has been applied (R216, R223; DEDUCED, log 40). A quiet tile sends nothing (R354). -/
def resend (s : State) (t k : Nat) : State :=
  if tileQuiet s t then s else
  match ((s.tile t).startedQ 4)[k]? with
  | none => s
  | some x =>
    match opSeat x.i.op with
    | none => s
    | some seat =>
      let pm := seatPm s seat
      let (fs, s) := retag s pm x.held
      let x' := { x with pm := pm, tags := fs.map (·.tag), held := fs, got := [], parked := false }
      fs.foldl routeOut (s.onTile t (fun T => T.setStarted 4 ((T.startedQ 4).set k x')))

/-- Started link instructions of the module that wait for a seat, as (tile, place). -/
def parkedAt (s : State) (seat : Nat) : List (Nat × Nat) :=
  s.tiles.flatMap (fun (t, T) => (((T.startedQ 4).zip (List.range (T.startedQ 4).length)).filter
    (fun (x, _) => x.parked && decide (opSeat x.i.op = some seat))).map (fun (_, k) => (t, k)))

/-- A seat-map entry that has become ACTIVE lets go what waits for it (R221, R223). -/
def unpark (s : State) (seat : Nat) : State :=
  if seatState s seat ≠ 1 then s else unparkFlits ((parkedAt s seat).foldl (fun s x => resend s x.1 x.2) s) seat

/-- Runs of consecutive bytes with the bits written of each byte: at most 239 in the first flit of a transfer, whose payload byte 0 holds bits
[47:40] of the address, and 240 in each other (R214). -/
def addRun (l : List (Nat × List (Byte × Byte))) (w : PW) : List (Nat × List (Byte × Byte)) :=
  match l with
  | (a, bs) :: r =>
    if w.addr + 1 = a + bs.length then
      (match bs with
       | (m, v) :: bs' => (a, (m ||| w.mask, (v &&& ~~~w.mask) ||| (w.val &&& w.mask)) :: bs') :: r
       | [] => (w.addr, [(w.mask, w.val)]) :: l)
    else if w.addr = a + bs.length ∧ bs.length < (if r.isEmpty then 239 else 240) then (a, (w.mask, w.val) :: bs) :: r
    else (w.addr, [(w.mask, w.val)]) :: l
  | [] => [(w.addr, [(w.mask, w.val)])]

/-- Runs in order: address, masks, values. -/
def runsOf (ws : List PW) : List (Nat × List Byte × List Byte) :=
  ((ws.foldl addRun []).reverse).map (fun (a, bs) => (a, bs.reverse.map (·.1), bs.reverse.map (·.2)))

/-- LEN of the k-th flit of a transfer of `n` data bytes (R214). -/
def flitLen (k n : Nat) : Nat := if k = 0 then n + 1 else n

/-- The mask list of a WRITE flit: empty where every bit is written. -/
def maskOf (m : List Byte) : List Byte := if m.all (fun b => decide (b = 0xFF)) then [] else m

end Sys2Proof.Machine
end

