-- ==== Sys2Proof/Machine/Coll.lean ====
section
/-! DEFINITION. Collectives (R158, R228 to R233): what each member sends, how contributions are joined, and what a member
writes. What one member sends another in one phase travels in pieces of 240 bytes (R214; assumption log 41). -/
namespace Sys2Proof.Machine

/-- OPs that sum: all-reduce, reduce-scatter, expert combine. -/
def sumOp (op : Nat) : Bool := decide (op = 0 ∨ op = 1 ∨ op = 5)

/-- First element and length of chunk `i` of `count` elements over `p` members (R228). -/
def chunkOf (p count i : Nat) : Nat × Nat :=
  let c := count / p
  (c * i, if i + 1 = p then count - c * (p - 1) else c)

/-! ### Elements on the wire -/

/-- Bytes of one element of a message: a D32 (rounded sums), a whole image (exact sums), or the stored code and its lift
(copies). -/
def collUnit (op : Nat) (exact : Bool) (c : Card) : Nat :=
  if sumOp op && !exact then 4 else if sumOp op then (if c.kind = 1 then 20 else 64) else (c.width + 7) / 8 * (if c.planar then fmtBits c.fmt else 1) + 1

def collRead (mc : MapCtx) (vw : View) (op : Nat) (exact : Bool) (c : Card) (k : Nat) : List Byte :=
  if sumOp op && !exact then leBytes 4 (toD32 (readTrue mc vw c (k / c.cols) (k % c.cols))).toNat
  else if sumOp op then leBytes (collUnit op exact c) (readImage mc vw c k)
  else leBytes (collUnit op exact c - 1) (readCode mc vw c (c.ix k)) ++ leBytes 1 (readLift mc vw c (k / c.cols) (k % c.cols))

/-- Elements [lo, lo + n) of a card that exist. -/
def collElems (mc : MapCtx) (vw : View) (op : Nat) (exact : Bool) (c : Card) (lo n : Nat) : List Byte :=
  ((upto lo n).filter (fun k => decide (k < c.size))).flatMap (collRead mc vw op exact c)

/-- The i-th unit of a byte list. -/
def unitAt (l : List Byte) (n i : Nat) : List Byte := (l.drop (n * i)).take n

/-- The sum of one element over the contributions, in the order given (R229, R230). -/
def joinUnits (exact : Bool) (kind : Nat) : List (List Byte) → List Byte
  | [] => []
  | u :: r =>
    if !exact then leBytes 4 (r.foldl (fun a v => d32Add a (BitVec.ofNat 32 (leNat v))) (BitVec.ofNat 32 (leNat u))).toNat
    else if kind = 1 then
      let x : Cell := (u :: r).foldl (fun x v => x.ladd (leNat v)) { c := 0, mark := false }
      leBytes 20 (if x.mark then markedImage else x.c.toNat)
    else leBytes 64 (rowImage (r.foldl (fun e v => joinRow e (rowOfImage (leNat v))) (rowOfImage (leNat u))))

/-- The element-wise sum of contributions of `n` elements each. -/
def joinAll (exact : Bool) (kind unit n : Nat) (parts : List (List Byte)) : List Byte :=
  (List.range n).flatMap (fun i => joinUnits exact kind (parts.map (fun p => unitAt p unit i)))

/-! ### Long images on a link (R229) -/

/-- An image that travels in 12 bytes: bits [15:0] zero and bits [159:111] all equal. -/
def compactImage (x : Nat) : Bool := decide (x % 2 ^ 16 = 0) && (decide (x / 2 ^ 111 = 0) || decide (x / 2 ^ 111 = 2 ^ 49 - 1))

/-- A block of images: its map and then each image, compact or full. -/
def packBlock (l : List Nat) : List Byte :=
  leBytes 2 ((l.zip (List.range 16)).foldl (fun a (x, i) => if compactImage x then a else a + 2 ^ i) 0) ++
    l.flatMap (fun x => if compactImage x then leBytes 12 (x / 2 ^ 16) else leBytes 20 x)

/-- Long images, 20 bytes each, as they travel: blocks of 16. -/
def packLong (l : List Byte) : List Byte :=
  let xs := (List.range (l.length / 20)).map (fun i => leNat (unitAt l 20 i))
  (List.range ((xs.length + 15) / 16)).flatMap (fun b => packBlock ((xs.drop (16 * b)).take 16))

/-- The image that 12 bytes stand for: bit 111 fills the bits above. -/
def fullImage (c : Nat) : Nat := c * 2 ^ 16 + (if c.testBit 95 then (2 ^ 48 - 1) * 2 ^ 112 else 0)

/-- At most `n` images back, from image `j` of the transfer on under the map in force, and the bytes after them. -/
def unpackLong : Nat → Nat → Nat → List Byte → List Byte × List Byte
  | 0, _, _, l => ([], l)
  | n + 1, j, m, l =>
    if l.isEmpty then ([], [])
    else
      let (m, l) := if j % 16 = 0 then (leNat (l.take 2), l.drop 2) else (m, l)
      let w := if m.testBit (j % 16) then 20 else 12
      let u := l.take w
      let (r, l) := unpackLong n (j + 1) m (l.drop w)
      ((if w = 20 then u else leBytes 20 (fullImage (leNat u))) ++ r, l)

/-- The rows of a combine back, each after its 8-byte head. -/
def unpackRows (cols : Nat) : Nat → List Byte → List Byte
  | 0, _ => []
  | n + 1, l =>
    if l.isEmpty then []
    else
      let (r, rest) := unpackLong cols 0 0 (l.drop 8)
      l.take 8 ++ r ++ unpackRows cols n rest

/-- A collective whose data are long images. -/
def longColl (op : Nat) (exact : Bool) (c : Card) : Bool := sumOp op && exact && decide (c.kind = 1)

/-- What one member gives another as it travels. -/
def toWire (op : Nat) (exact : Bool) (c : Card) (l : List Byte) : List Byte :=
  if !longColl op exact c then l
  else if op = 5 then
    let n := 8 + 20 * c.cols
    (List.range (l.length / n)).flatMap (fun i => let u := unitAt l n i; u.take 8 ++ packLong (u.drop 8))
  else packLong l

/-- What the receiver restores from it: every image exactly. -/
def fromWire (op : Nat) (exact : Bool) (c : Card) (l : List Byte) : List Byte :=
  if !longColl op exact c then l
  else if op = 5 then unpackRows c.cols l.length l
  else (unpackLong l.length 0 0 l).1

/-- A transfer in payloads of 240 bytes, at least one (R214). -/
def payloads (l : List Byte) : List (List Byte) :=
  (List.range (Nat.max 1 ((l.length + 239) / 240))).map (fun i => (l.drop (240 * i)).take 240)

/-! ### Writing the result -/

/-- Free bits, as many as an image has, for an element whose copied value the spec does not state. -/
def freeCode (s : State) (k : Nat) : Nat :=
  (List.range 8).foldl (fun a j => a * 2 ^ 64 + (Config.freeWord (s.free * 2 ^ 80 + 8 * k + j)).toNat) 0

/-- Free elements and lifts over a card whose contents the spec leaves partial (R127, R232, R234; DEDUCED, log 43). -/
def freeOver (s : State) (c : Card) : List PW :=
  (List.range c.size).flatMap (fun k => writeCode (mapCtx s) c (c.ix k) (freeCode s k) ++
    writeLift (mapCtx s) c (k / c.cols) (k % c.cols) (freeCode s (c.size + k)))

/-- Source and destination store the same kind of element, so that bits can be copied. -/
def sameForm (a b : Card) : Bool := decide (a.kind = b.kind) && (decide (a.kind ≠ 0) || decide (a.eff = b.fmt))

/-- Copied elements `l` laid into the card from element `lo`. -/
def putCopies (s : State) (a b : Card) (unit lo : Nat) (l : List Byte) : List PW :=
  let mc := mapCtx s
  let n := l.length / unit
  ((List.range n).filter (fun i => decide (lo + i < b.size))).flatMap (fun i =>
    let u := unitAt l unit i
    let k := lo + i
    writeCode mc b (b.ix k) (if sameForm a b then leNat (u.take (unit - 1)) else freeCode s k) ++
      writeLift mc b (k / b.cols) (k % b.cols) (leNat (u.drop (unit - 1))))

/-- Images laid into the card from element `lo`. -/
def putImages (s : State) (b : Card) (unit lo : Nat) (l : List Byte) : List PW :=
  let mc := mapCtx s
  ((List.range (l.length / unit)).filter (fun i => decide (lo + i < b.size))).flatMap (fun i =>
    writeCode mc b (b.ix (lo + i)) (leNat (unitAt l unit i)))

/-- D32 sums narrowed into the card from its first element by RNE with lifts (R230, R42); the counts are those of the
elements in [clo, clo + cn), the member's own. -/
def putSums (s : State) (b : Card) (l : List Byte) (clo cn : Nat) : List PW × NCount :=
  let mc := mapCtx s
  let vals := ((List.range (Nat.min b.size (l.length / 4))).map (fun i => d32Val (BitVec.ofNat 32 (leNat (unitAt l 4 i)))))
  let x := narrowAll b b.lax (asRows b vals) false (fun _ _ => 0)
  (narrowedWrites mc b Prod.mk x, sumCounts (x.filter (fun y => let k := y.i * b.cols + y.j; decide (clo ≤ k ∧ k < clo + cn))))

/-- Counts of a rounded-mode collective (R230, R383). -/
def countColl (s : State) (n : NCount) : State :=
  countTal (countTal (countTal s 0x130 n.clip) 0x138 n.vanish) 0x140 n.nonf

/-! ### Expert dispatch and combine (R232) -/

def dispTable (x1 : BitVec 64) : Nat := fld x1 0 23
def recvList (x1 : BitVec 64) : Nat := fld x1 23 23

/-- Expert in a slot of a token row of the dispatch table; none for 0xFFFF. -/
def expertAt (mc : MapCtx) (vw : View) (t off row slot : Nat) : Option Nat :=
  let e := leNat (vbytes mc vw (slateOf t + off + 16 * row + 2 * slot) 2)
  if e = 0xFFFF then none else some e

/-- (token row, slot, expert) in order, over `n` rows. -/
def dispatchList (mc : MapCtx) (vw : View) (t off n : Nat) : List (Nat × Nat × Nat) :=
  (List.range n).flatMap (fun r => (List.range 8).filterMap (fun k => (expertAt mc vw t off r k).map (fun e => (r, k, e))))

/-- The elements of a row of a card. -/
def collRow (mc : MapCtx) (vw : View) (op : Nat) (exact : Bool) (c : Card) (r : Nat) : List Byte :=
  collElems mc vw op exact c (r * c.cols) c.cols

/-- What a sender gives rank `to` in a dispatch: token row, slot, expert and the row, 8 bytes before each row. -/
def dispatchPart (mc : MapCtx) (vw : View) (t off n per dst : Nat) (c : Card) : List Byte :=
  ((dispatchList mc vw t off n).filter (fun x => decide (x.2.2 / per = dst) && decide (x.1 < c.rows))).flatMap (fun (r, k, e) =>
    leBytes 4 r ++ leBytes 2 k ++ leBytes 2 e ++ collRow mc vw 4 false c r)

/-- Records of a dispatch or combine message: its 8-byte head and its row. -/
def recordsOf (l : List Byte) (n : Nat) : List (List Byte × List Byte) :=
  (List.range (l.length / (8 + n))).map (fun i => let u := unitAt l (8 + n) i; (u.take 8, u.drop 8))

/-- An 8-byte record of the receive list: token row, source rank, slot, expert. -/
def recvRecord (h : List Byte) (src : Nat) : Nat :=
  leNat (h.take 4) + (src % 1024) * 2 ^ 32 + (leNat ((h.drop 4).take 2) % 8) * 2 ^ 42 + leNat ((h.drop 6).take 2) * 2 ^ 45

/-- The receive list's header: rows received, rows dropped, ABORTED. -/
def recvHead (got dropped : Nat) (aborted : Bool) : Nat := got % 2 ^ 32 + (dropped % 2 ^ 31) * 2 ^ 32 + (if aborted then 2 ^ 63 else 0)

/-- What a member of a dispatch writes, from the parts in rank order; and the rows dropped. -/
def dispatchResult (s : State) (t : Nat) (x1 : BitVec 64) (a b : Card) (parts : List (List Byte)) : List PW × Nat :=
  let mc := mapCtx s
  let unit := collUnit 4 false a
  let all := (parts.zip (List.range parts.length)).flatMap (fun (p, src) => (recordsOf p (unit * a.cols)).map (fun r => (src, r)))
  let kept := all.take b.rows
  let off := slateOf t + recvList x1
  ((kept.zip (List.range kept.length)).flatMap (fun ((_, _, row), i) => putCopies s a b unit (i * b.cols) (row.take (unit * b.cols))) ++
    putBytes mc off (leBytes 8 (recvHead all.length (all.length - kept.length) false)) ++
    (kept.zip (List.range kept.length)).flatMap (fun ((src, h, _), i) => putBytes mc (off + 8 + 8 * i) (leBytes 8 (recvRecord h src))),
   all.length - kept.length)

/-- What rank `dst` is given back in a combine: for each of its rows held here, token row and slot and the row. -/
def combinePart (mc : MapCtx) (vw : View) (t off dst : Nat) (exact : Bool) (c : Card) : List Byte :=
  let n := leNat (vbytes mc vw (slateOf t + off) 4) - (leNat (vbytes mc vw (slateOf t + off + 4) 4)) % 2 ^ 31
  (List.range (Nat.min n c.rows)).flatMap (fun i =>
    let h := leNat (vbytes mc vw (slateOf t + off + 8 + 8 * i) 8)
    if nfld h 32 10 = dst then leBytes 4 (nfld h 0 32) ++ leBytes 4 (nfld h 42 3) ++ collRow mc vw 5 exact c i else [])

/-- The sums of a combine by token row, in slot order; a token that no row came back for is zero. -/
def combineSums (n cols unit : Nat) (exact : Bool) (kind : Nat) (parts : List (List Byte)) : List Byte :=
  let all := parts.flatMap (fun p => recordsOf p (unit * cols))
  (List.range n).flatMap (fun t =>
    let rows := (List.range 8).flatMap (fun k => (all.filter (fun x => decide (leNat (x.1.take 4) = t ∧ leNat (x.1.drop 4) = k))).map (·.2))
    if rows.isEmpty then leBytes (unit * cols) 0 else joinAll exact kind unit cols rows)

end Sys2Proof.Machine
end

