-- ==== Sys2Proof/Machine/Steps.lean ====
section
/-! DEFINITION. The numerics of a step (R31, R41 to R45, R49 to R52): a seat's counts and its verdict, the scale exponents and
the loss scale after each outcome, Step Reports, histograms and their report rings (R389, R390). -/
namespace Sys2Proof.Machine

/-! ### Counts of the attempt (R49, R51, R249) -/

/-- The counts of a context's step, by tensor. -/
def statsOf (s : State) (ctx step : Nat) : Tab TStat :=
  (trange s.counts.stats (statKey ctx step 0) (statKey ctx step 0 + 2 ^ 30)).map (fun e => (e.1 % 2 ^ 30, e.2))
def statAt (s : State) (ctx step tid : Nat) : TStat := tget {} s.counts.stats (statKey ctx step tid)

/-- The counts that the seat's gate point has made final (R249). -/
def Job.final (j : Job) : Tab TStat := j.gated.getD []

/-- The tensor's clip share is above the threshold of its format. -/
def overClip (j : Job) (st : TStat) : Bool :=
  decide (st.fmt ≤ 9) && decide (j.threshold st.fmt ≠ 0xFFFF) && decide (st.clip * 65536 > j.threshold st.fmt * st.narrowed)

/-- Tensors that raise EVT_CLIP_THRESH. -/
def clipTensors (l : Tab TStat) (j : Job) : List Nat := (l.filter (fun e => overClip j e.2)).map (·.1)

/-- The seat's verdict: 1 non-finite, 2 clip share, 0 pass. -/
def seatVerdict (l : Tab TStat) (j : Job) : Nat :=
  if j.classList.any (fun e => decide (clsClass e = 1 ∨ clsClass e = 2) && decide ((tget {} l (clsTid e)).nonf > 0)) then 1
  else if j.classList.any (fun e => decide (clsClass e = 1) && overClip j (tget {} l (clsTid e))) then 2 else 0

/-- An event about a job. -/
def raiseJob (s : State) (ctx code lo w3 : Nat) : State := raise s code (lo % 2 ^ 40 + ctx * 2 ^ 40) w3 [ctx] none

/-- The gate point of a seat: its counts are final, and each tensor over its threshold raises EVT_CLIP_THRESH. -/
def gatePoint (s : State) (ctx : Nat) : State :=
  match jobOf s ctx with
  | some j =>
    if j.gates = j.gateTiles then
      let l := statsOf s ctx j.next
      (clipTensors l j).foldl (fun s t => raiseJob s ctx 0x0013 t 0) (setJob s ctx (some { j with gated := some l }))
    else s
  | none => s

/-- Counts and staged histograms of `n` steps of a context from `step` are discarded. -/
def clearSteps (s : State) (ctx step n : Nat) : State :=
  { s with counts := { s.counts with stats := tclear s.counts.stats (statKey ctx step 0) (statKey ctx step 0 + n * 2 ^ 30),
                                     updTotal := tclear s.counts.updTotal (stepKey ctx step) (stepKey ctx step + n),
                                     updStall := tclear s.counts.updStall (stepKey ctx step) (stepKey ctx step + n) } }

/-- Those of an attempt that ends without a commit: every step's, since no later one has begun. -/
def clearCounts (s : State) (ctx : Nat) : State := clearSteps s ctx 0 (2 ^ 32)

/-! ### Scale exponents (R31, R41, R43) -/

/-- The exponent by R41 from a history, clamped to 8 bits; every slot empty keeps the old one. Whether it was clamped (DEDUCED, log 46). -/
def newExp (old : Int) (fmt : Nat) (slots : List (Option Int)) : Int × Bool :=
  match slots.foldl maxExp none with
  | none => (old, false)
  | some a =>
    let e := exponentFor fmt a
    let c := max (-128) (min 127 e)
    (c, decide (c ≠ e))

/-- The class belongs to the forward pass: neither a gradient nor a moment (DEDUCED, log 46). -/
def forwardClass (c : Nat) : Bool := decide (c ≠ 1 ∧ c ≠ 4)

/-- The other seats' largest amax exponent of a tensor. -/
def othersAmax (l : List (BitVec 30 × Int)) (tid : Nat) : Option Int :=
  ((l.filter (fun e => decide (e.1.toNat = tid))).map (fun e => some e.2)).foldl maxExp none

/-- One tensor's new state enters the job, with SCALE_CLAMP where its exponent was clamped (DEDUCED, log 46). -/
def putTensor (s : State) (ctx tid : Nat) (t : TensorSt) (clamp fwd : Bool) : State :=
  let s := onJob s ctx (fun j =>
    { j with tensors := tset {} j.tensors tid t, scaleClamp := j.scaleClamp || clamp, expCorr := j.expCorr || fwd })
  if clamp then raiseJob s ctx 0x0010 tid 0 else s

/-- A failed gate: each tensor that clipped on any seat takes its attempt's amax exponent as its correction; the exponents published
with the weight epoch stand (R43, R44; DEDUCED, log 46). -/
def failExps (s : State) (ctx : Nat) (j : Job) (amax : List (BitVec 30 × Int)) : State :=
  j.classList.foldl (fun s' e =>
    let tid := clsTid e
    let st := tget {} j.final tid
    let o := othersAmax amax tid
    if clsFixed e ∨ (st.clip = 0 ∧ o.isNone) then s'
    else
      let t := tget {} j.tensors tid
      let corr := maxExp st.amax o
      let (x, c) := newExp t.exp (clsFmt e) (corr :: t.hist)
      putTensor s' ctx tid { t with corr := corr, exp := x } c (forwardClass (clsClass e))) s

/-- A commit: each tensor's slot of the step enters its history (DEDUCED, log 46). -/
def commitExps (s : State) (ctx : Nat) (j : Job) (amax : List (BitVec 30 × Int)) : State :=
  j.classList.foldl (fun s' e =>
    let tid := clsTid e
    if clsFixed e then s'
    else
      let t := tget {} j.tensors tid
      let slot := maxExp t.corr (maxExp (statAt s ctx j.next tid).amax (othersAmax amax tid))
      let h := (slot :: t.hist).take 16
      let (x, c) := newExp t.exp (clsFmt e) h
      putTensor s' ctx tid { t with exp := x, hist := h, corr := none } c false) s

/-! ### The loss scale (R45) -/

/-- S and the streak after a failure, and LS_FLOOR. -/
def lossFail (j : Job) : Job × Bool :=
  if j.ls > j.lsMin then ({ j with ls := j.ls - 1, streak := 0 }, false) else ({ j with ls := j.lsMin, streak := 0 }, true)
/-- S and the streak after a commit, and LS_CEIL. -/
def lossCommit (j : Job) : Job × Bool :=
  if j.streak + 1 < j.lsStreak then ({ j with streak := j.streak + 1 }, false)
  else if j.ls < j.lsMax then ({ j with ls := j.ls + 1, streak := 0 }, false) else ({ j with ls := j.lsMax, streak := 0 }, true)

/-! ### Step Reports (R52) -/

/-- A share in units of 2^-16 (DEDUCED, log 49). -/
def share (n total : Nat) : Nat := if total = 0 then 0 else Nat.min (n * 65536 / total) 0xFFFF

/-- The three words of one format. -/
def formatEntry (l : List TStat) : List Byte :=
  let n := (l.map (·.narrowed)).foldl (satAdd 64) 0
  let c := (l.map (·.clip)).foldl (satAdd 32) 0
  let v := (l.map (·.vanish)).foldl (satAdd 32) 0
  let x := (l.map (·.nonf)).foldl (satAdd 32) 0
  leBytes 8 n ++ leBytes 4 c ++ leBytes 4 v ++ leBytes 4 x ++ leBytes 2 (share c n) ++ leBytes 2 (share v n)

/-- A Step Report, 320 bytes: `ls` is the S of the attempt, `j` the job after its rows applied (DEDUCED, log 49). -/
def stepReport (s : State) (ctx : Nat) (j : Job) (attempt outcome : Nat) (ls : Int) (expCorr floor ceil : Bool) : List Byte :=
  let st := statsOf s ctx j.next
  let loss := j.classList.any (fun e => decide (clsClass e = 2) && decide ((tget {} j.final (clsTid e)).nonf > 0))
  leBytes 8 (j.next % 2 ^ 32 + attempt * 2 ^ 32 + outcome * 2 ^ 36 + unsgn 8 ls * 2 ^ 40 + (selfSeat s).toNat * 2 ^ 48) ++
    leBytes 8 s.now.toNat ++
    leBytes 8 (j.streak % 2 ^ 16 + expCorr.toNat * 2 ^ 16 + floor.toNat * 2 ^ 17 + ceil.toNat * 2 ^ 18 + j.scaleClamp.toNat * 2 ^ 19 +
      loss.toNat * 2 ^ 20 + (clipTensors j.final j).length * 2 ^ 32) ++
    leBytes 8 (tget 0 s.counts.updTotal (stepKey ctx j.next)) ++ leBytes 8 (tget 0 s.counts.updStall (stepKey ctx j.next)) ++ leBytes 24 0 ++
    (List.range 10).flatMap (fun f => formatEntry ((st.filter (fun e => decide (e.2.fmt = f))).map (·.2))) ++ leBytes 16 0

/-- A histogram record, 288 bytes (DEDUCED, log 49). -/
def histRecord (s : State) (ctx step : Nat) (j : Job) (e : List Byte) : List Byte :=
  let st := statAt s ctx step (clsTid e)
  leBytes 8 (step % 2 ^ 32 + clsTid e * 2 ^ 32) ++ leBytes 8 (unsgn 8 (j.histBaseOf e) + st.fmt % 16 * 2 ^ 8 + unsgn 8 st.exp * 2 ^ 16) ++
    leBytes 8 ((st.hist.map (·.2)).foldl (· + ·) 0) ++ leBytes 8 0 ++ (List.range 64).flatMap (fun b => leBytes 4 (tget 0 st.hist b))

/-! ### Report rings (R389, R390, R400) -/

/-- Offset in the TAL block of word `k` of a context's report ring. -/
def sringOff (n k : Nat) : Nat := 0x1000 + 64 * n + k
def sringReg (n k : Nat) : Nat := talBlk + sringOff n k

/-- An interrupt of context n: its VF's vector, or the PF's while the VF has MSI-X disabled. -/
def ctxSignal (s : State) (n vfVec pfVec : Nat) : State := if tget false s.host.msixOn (n + 1) then signal s (n + 1) vfVec else signal s 0 (pfVec + n)

/-- One record of whole units into the report ring of a context; a dropped one counts in a counter that sticks (R379, R390; DEDUCED, log 48). -/
def putRecord (s : State) (n : Nat) (r : List Byte) : State :=
  let ctl := rget s (sringReg n 8)
  if !flag ctl 6 || moduleQuiet s then s
  else
    let units := r.length / 32
    let size := 2 ^ fld ctl 0 5
    let prod := fld (rget s (sringReg n 16)) 0 25
    let used := (prod + 2 ^ 25 - fld (rget s (sringReg n 24)) 0 25) % 2 ^ 25
    if used + units > size - 1 then
      let s := countTal s (sringOff n 32) 1
      if tget false s.host.srDrop n then s
      else raiseJob { s with host := { s.host with srDrop := tset false s.host.srDrop n true } } n 0x0082 0 0
    else
      let base := fld (rget s (sringReg n 0)) 12 52 * 4096
      let pos := tget 0 s.host.srPos n
      let h := (List.range units).foldl (fun h u => hostPut h (base + 32 * (1 + (pos + u) % (size - 1))) ((r.drop (32 * u)).take 32)) s.host
      let prod' := (prod + units) % 2 ^ 25
      let h := hostPut h base (leBytes 8 prod')
      let h := { h with srPos := tset 0 h.srPos n ((pos + units) % (size - 1)), srDrop := tset false h.srDrop n false }
      let s := rset { s with host := h } (sringReg n 16) (BitVec.ofNat 64 prod')
      if flag ctl 5 then ctxSignal s n 3 514 else s

/-- Histograms of the observed tensors of a committed step, in class-table order. -/
def putHists (s : State) (ctx step : Nat) (j : Job) : State :=
  if flag (rget s (sringReg ctx 8)) 7 then
    (j.classList.filter clsObserve).foldl (fun s' e => putRecord s' ctx (histRecord s ctx step j e)) s
  else s

end Sys2Proof.Machine
end

