-- ==== Sys2Proof/Machine/LinkOps.lean ====
section
/-! DEFINITION. The link queue (R156 to R159): the issue of PUT, GET, RRING, COLL, BARRIER, GATE, COMMIT and CHG with its
checks, and what each does when it starts (R119, R216, R221, R228, R248 to R253, R263). -/
namespace Sys2Proof.Machine

/-! ### Issue (R156) -/

/-- FLT_LINK_TARGET for a seat. -/
def seatFault (s : State) (seat : Nat) : Option IFault :=
  if seatState s seat = 0 then some ⟨0x13, BitVec.ofNat 64 seat, 0⟩ else none
/-- FLT_LINK_TARGET for a class list: not defined, or this seat no member. -/
def listFault (s : State) (cl : Nat) : Option IFault :=
  match listAt s cl with
  | some c => if c.members.contains (selfSeat s) then none else some ⟨0x13, BitVec.ofNat 64 cl, 1⟩
  | none => some ⟨0x13, BitVec.ofNat 64 cl, 1⟩
/-- FLT_SLATE_RANGE for `n` bytes of Slate from an offset (R139). -/
def rangeFault (off n : Nat) : Option IFault := if off + n > slateSize then some ⟨0x0C, 0, 0⟩ else none

/-- A card of KIND 0 that a transfer copies names neither BF16 nor FP32 (R28). -/
def copyPlace (c : Card) : Option IFault := if c.kind = 0 then checkPlace c 0 (fun x => decide (x < 10)) else none

/-- The checks of PUT, in order; DD is checked at the seat but for R240, which holds the instruction's write card (R174) against the
state regions, whose addresses every seat of the job shares. -/
def putChecks (s : State) (T : Tile) (f : LinkForm) : List (Option IFault) :=
  let a := cardOf T f.a.toNat
  let mc := mapCtx s
  [seatFault s (fld (T.xr f.c.toNat) 0 10), checkForm false a, copyPlace a, checkAlign mc a, checkStride false a, checkPlaneRead a,
    stateWrite s T.ctx.toNat false (cardOf T f.b.toNat).ranges]

def issuePut (t : Nat) (f : LinkForm) (s : State) : State :=
  let rrem := decide (lowFld f 39 1 = 1)
  issueEngine s t 4 (f.w0 0x90) f.sync [f.c.toNat] (legalPut f) rrem [] (fun s T =>
    let seat := fld (T.xr f.c.toNat) 0 10
    checked (putChecks s T f) (.put seat rrem (cardOf T f.a.toNat) (cardOf T f.b.toNat), T))

/-- The checks of GET, in order. -/
def getChecks (s : State) (T : Tile) (f : LinkForm) : List (Option IFault) :=
  let mc := mapCtx s
  let b := cardOf T f.b.toNat
  [seatFault s (fld (T.xr f.c.toNat) 0 10), checkForm false b, copyPlace b, checkAlign mc b, checkStride true b, checkPlaneWrite b, checkAlias mc b,
    writeChecks s T false b.ranges]

def issueGet (t : Nat) (f : LinkForm) (s : State) : State :=
  issueEngine s t 4 (f.w0 0x91) f.sync [f.c.toNat] (legalGet f) false [] (fun s T =>
    checked (getChecks s T f) (.get (fld (T.xr f.c.toNat) 0 10) (cardOf T f.a.toNat) (cardOf T f.b.toNat), T))

def issueRring (t : Nat) (f : LinkForm) (s : State) : State :=
  issueEngine s t 4 (f.w0 0x92) f.sync [f.c.toNat] (legalRring f) false [] (fun s T =>
    let seat := fld (T.xr f.c.toNat) 0 10
    checked [seatFault s seat] (.rring seat (BitVec.ofNat 19 (lowFld f 0 19)) (BitVec.ofNat 8 (lowFld f 19 8)), T))

/-- KIND and FORMAT that a collective takes (R28, R158, R229, R230). -/
def collPlace (op : Nat) (exact : Bool) (c : Card) : Option IFault :=
  if sumOp op && exact then (if c.kind = 0 then some ⟨0x04, cardInfo c 7 0x02, 0⟩ else none)
  else if sumOp op then checkPlace c 0 (fun x => decide (x = 0 ∨ x = 1 ∨ x = 2 ∨ x = 6))
  else copyPlace c

/-- DD of another KIND than DS. -/
def collKinds (a b : Card) : Option IFault := if a.kind ≠ b.kind then some ⟨0x04, cardInfo b 7 0x02, BitVec.ofNat 64 b.kind⟩ else none

/-- The checks of COLL, in order (R158, R228 to R232). FLT_SLATE_RANGE of OP 4 and 5 stands after FLT_LINK_TARGET, a place that the spec
does not give (DEDUCED, log 42). -/
def collChecks (s : State) (T : Tile) (f : LinkForm) : List (Option IFault) :=
  let op := lowFld f 37 3
  let exact := decide (lowFld f 36 1 = 1)
  let nx := lowFld f 31 5
  let mc := mapCtx s
  let a := cardOf T f.a.toNat
  let b := cardOf T f.b.toNat
  let x1 := T.xr (nx + 1)
  [listFault s (fld (T.xr f.c.toNat) 0 12),
    if op = 4 then rangeFault (dispTable x1) (16 * fld (T.xr nx) 0 32) else none,
    if op = 4 then rangeFault (recvList x1) (8 + 8 * b.rows) else if op = 5 then rangeFault (recvList x1) 8 else none,
    checkForm false a, checkForm false b, collPlace op exact a, collPlace op exact b, collKinds a b,
    checkAlign mc a, checkAlign mc b, checkStride false a, checkStride true b, checkPlaneRead a, checkPlaneWrite b, checkAlias mc b,
    writeChecks s T false b.ranges]

def issueColl (t : Nat) (f : LinkForm) (s : State) : State :=
  let op := lowFld f 37 3
  let nx := lowFld f 31 5
  issueEngine s t 4 (f.w0 0x93) f.sync ([f.c.toNat, nx] ++ if op = 4 ∨ op = 5 then [nx + 1] else []) (legalColl f) false [] (fun s T =>
    checked (collChecks s T f)
      (.coll (fld (T.xr f.c.toNat) 0 12) op (decide (lowFld f 36 1 = 1)) (cardOf T f.a.toNat) (cardOf T f.b.toNat) (T.xr nx)
        (if op = 4 ∨ op = 5 then T.xr (nx + 1) else 0), T))

/-- BARRIER: FLT_LINK_TARGET alone. Its Bell may lie on any die, as every Bell of the tile's range may (DEDUCED, log 90). -/
def issueBarrier (t : Nat) (f : LinkForm) (s : State) : State :=
  let bell := BitVec.ofNat 19 (lowFld f 0 19)
  issueEngine s t 4 (f.w0 0x94) f.sync [f.a.toNat] (legalBarrier f) false [bell] (fun s T =>
    let cl := fld (T.xr f.a.toNat) 0 12
    checked [listFault s cl] (.barrier cl bell, T))

/-- GATE and COMMIT: class list and result word. -/
def issueGate (t : Nat) (opc : BitVec 8) (mk : Nat → Nat → BitVec 32 → EngineOp) (f : LinkForm) (s : State) : State :=
  issueEngine s t 4 (f.w0 opc) f.sync [f.a.toNat, f.b.toNat] (legalGate f) false [] (fun s T =>
    let cl := fld (T.xr f.a.toNat) 0 12
    match listFault s cl, slateOff 8 (T.xr f.b.toNat) with
    | some e, _ => .error e
    | none, none => .error ⟨0x0C, 0, 0⟩
    | none, some r => .ok (mk cl r T.step, T))

def issueChg (t : Nat) (f : LinkForm) (s : State) : State :=
  issueEngine s t 4 (f.w0 0x97) f.sync [f.b.toNat] (legalChg f) false [] (fun _ T =>
    match slateOff 8 (T.xr f.b.toNat) with
    | none => .error ⟨0x0C, 0, 0⟩
    | some r => .ok (.chg (decide (lowFld f 0 1 = 1)) r T.step, T))

/-! ### Start -/

/-- What starting a link instruction gives: it waits in its queue, or it starts; `once` where it completes at once. -/
inductive LinkStart where
  | wait
  | go (s : State) (x : Started) (once : Bool)

/-- A fabric-global address (R187). -/
def globalAddr (seat a : Nat) : BitVec 64 := BitVec.ofNat 64 (seat % 1024 * 2 ^ 48 + a % 2 ^ 48)

/-- The instruction starts and completes at once with FLT_MEM_ERROR of a class (R221). -/
def linkError (s : State) (i : QInstr) (seat a cls : Nat) : LinkStart :=
  .go s { i := i, fail := some ⟨0x43, globalAddr seat a, BitVec.ofNat 64 cls⟩ } true

/-- STATE of the seat decides whether the instruction starts (R221). An entry that has become ABSENT since issue holds it
back (assumption log 42). -/
def withSeat (s : State) (i : QInstr) (seat a : Nat) (k : BitVec 11 → LinkStart) : LinkStart :=
  match seatState s seat with
  | 1 => k (seatPm s seat)
  | 3 => linkError s i seat a 0x20
  | _ => .wait

/-- Flits of a transfer in order, each with the next tag. -/
def tagFlits (s : State) (pm : BitVec 11) (mk : List (BitVec 16 → Flit)) : List Flit × State :=
  mk.foldl (fun (l, s) m => let (t, s) := takeTag s pm; (l ++ [m t], s)) ([], s)

def remoteCard (c : Card) (w : Bool) : RemoteCard := { w := c.w, liftBase := BitVec.ofNat 48 c.liftBase, write := w }

/-- What a PUT writes at the seat: the elements of DS in index order under DD's addresses (R157), as many as both cards have
(DESIGN CHOICE, log 91). Copied bits of another kind of element are not stated: free. -/
def putData (s : State) (vw : View) (a b : Card) : List PW :=
  let mc := mapCtx s
  let raw : MapCtx := { mc with raw := true }
  (List.range (Nat.min a.size b.size)).flatMap (fun k =>
    writeCode raw b (b.ix k) (if sameForm a b then readCode mc vw a (a.ix k) else freeCode s k) ++
      writeLift raw b (k / b.cols) (k % b.cols) (readLift mc vw a (k / a.cols) (k % a.cols)))

/-- PUT: its data as WRITE flits and an end flit. Where DD describes no byte, one empty WRITE shows it to the seat, which refuses it (R184). -/
def startPut (s : State) (t : Nat) (vw : View) (err : Option ExecFault) (i : QInstr) (seat : Nat) (rrem : Bool) (a b : Card) : LinkStart :=
  withSeat s i seat b.base (fun pm =>
    match err with
    | some f => .go s { i := i, fail := some f } false
    | none =>
      let seat' := BitVec.ofNat 10 seat
      let vc := dataVc s t
      let runs := match runsOf (putData s vw a b) with | [] => [(b.base, [], [])] | l => l
      let rc := some (remoteCard b true)
      let ws := (runs.zip (List.range runs.length)).map (fun ((ad, m, v), k) => fun tag => mkFlit s 0 vc pm seat' tag (flitLen k v.length) (.bytes (BitVec.ofNat 48 ad) v (maskOf m) rc))
      let last : BitVec 16 → Flit :=
        match (if rrem then i.ring else none) with
        | some (bell, inc) => fun tag => mkFlit s 3 vc pm seat' tag 0 (.ringB bell inc runs.length)
        | none => fun tag => mkFlit s 6 1 pm seat' tag 0 (.endB runs.length)
      let (fs, s) := tagFlits s.fresh pm (ws ++ [last])
      .go (fs.foldl routeOut s) { i := i, ready := false, pm := pm, tags := fs.map (·.tag), held := fs } false)

/-- Bytes at the seat that a GET reads: those of DS's elements, of an UPPER card the planes that it names (R72, R168), and of its lifts. A card
that describes none is still shown to the seat, which refuses it (R184). -/
def getRuns (s : State) (a : Card) : List (Nat × Nat) :=
  let raw : MapCtx := { mapCtx s with raw := true }
  let ws := (List.range a.size).flatMap (fun k =>
    a.planes.flatMap (fun p => putBits raw (a.bitAddr (a.ix k) p) a.width 0) ++ writeLift raw a (k / a.cols) (k % a.cols) 0)
  match (runsOf ws).map (fun (ad, _, v) => (ad, v.length)) with | [] => [(a.base, 0)] | l => l

def startGet (s : State) (t : Nat) (i : QInstr) (seat : Nat) (a : Card) : LinkStart :=
  withSeat s i seat a.base (fun pm =>
    let seat' := BitVec.ofNat 10 seat
    let vc := dataVc s t
    let runs := getRuns s a
    let mk := runs.map (fun (ad, n) => fun tag => mkFlit s 1 vc pm seat' tag 0 (.readReq (BitVec.ofNat 48 ad) n (some (remoteCard a false))))
    let (fs, s) := tagFlits s pm mk
    .go (fs.foldl routeOut s) { i := i, ready := false, pm := pm, tags := fs.map (·.tag), held := fs } false)

def startRring (s : State) (t : Nat) (i : QInstr) (seat : Nat) (bell : BitVec 19) (inc : BitVec 8) : LinkStart :=
  withSeat s i seat 0 (fun pm =>
    let (fs, s) := tagFlits s pm [fun tag => mkFlit s 3 (dataVc s t) pm (BitVec.ofNat 10 seat) tag 0 (.ringB bell inc 0)]
    .go (fs.foldl routeOut s) { i := i, ready := false, pm := pm, tags := fs.map (·.tag), held := fs } false)

/-- Key of a collective: class list and sequence. -/
def collKey (cl : Nat) (q : BitVec 16) : Nat := cl * 65536 + q.toNat
def collAt (s : State) (k : Nat) : Coll := match tget none s.fab.colls k with | some c => c | none => {}
def setColl (s : State) (k : Nat) (c : Option Coll) : State := { s with fab := { s.fab with colls := tset none s.fab.colls k c } }

/-- A COLL message to the member of rank `r`, with its chunk number; the collective keeps it in case it is returned. -/
def sendColl (s : State) (vc : BitVec 4) (l : ClassList) (cl : Nat) (q : BitVec 16) (r len ch : Nat) (m : CollBody) : State :=
  match l.members[r]? with
  | some seat =>
    let (f, s) := seatFlit s 4 vc seat len (.coll (BitVec.ofNat 12 cl) q (BitVec.ofNat 12 ch) m)
    let k := collKey cl q
    emitSeat (setColl s k (some { collAt s k with held := (collAt s k).held ++ [f] })) f
  | none => s

/-- Data to the member of rank `r`, in as many flits as they need (R214). -/
def sendData (s : State) (vc : BitVec 4) (l : ClassList) (cl : Nat) (q : BitVec 16) (r ch : Nat) (fin : Bool) (d : List Byte) : State :=
  let ps := payloads d
  (ps.zip (List.range ps.length)).foldl (fun s x => sendColl s vc l cl q r x.1.length ch (.chunk fin x.2 ps.length x.1)) s

/-- COLL takes the next sequence of its list and gives its parameters to rank 0 (R228; DESIGN CHOICE, log 41). -/
def startColl (s : State) (t : Nat) (err : Option ExecFault) (es : List (Nat × Stage)) (i : QInstr) (cl op : Nat) (exact : Bool) (a b : Card)
    (cnt : BitVec 64) : LinkStart :=
  match listAt s cl with
  | none => .wait
  | some l =>
    let k := collKey cl l.seq
    let s := setList s cl (some { l with seq := l.seq + 1 })
    let s := setColl s k (some { collAt s k with tile := some (t, i.seq) })
    let n := if op = 4 ∨ op = 5 then fld cnt 0 32 else cnt.toNat
    let s := sendColl s (dataVc s t) l cl l.seq 0 0 0 (.params op exact n a.expa b.expa)
    match err with
    | some f => .go s { i := i, fail := some f } false
    | none => .go s { i := i, ready := false, low := es } false

/-- BARRIER: this seat's arrival of its list's current generation; a second one waits for the release (R119). -/
def startBarrier (s : State) (i : QInstr) (cl : Nat) : LinkStart :=
  match listAt s cl with
  | none => .wait
  | some l =>
    if l.waiting then .wait
    else
      let s := setList s cl (some { l with waiting := true })
      match l.members[0]? with
      | some seat => .go (sendSeat s 5 0 seat 0 (.barrier (BitVec.ofNat 12 cl) l.gen false)) { i := i, ready := false } false
      | none => .wait

/-! ### Commit control (R159, R248, R249, R253, R263) -/

/-- A result word (R159). -/
def resultWord (s : State) (t res status outcome : Nat) (step : BitVec 32) : List PW :=
  putBytes (mapCtx s) (slateOf t + res) (leBytes 8 (status + outcome * 2 ^ 16 + step.toNat * 2 ^ 24))

/-- It completes at once with a status and an outcome. -/
def ctlOnce (s : State) (t : Nat) (i : QInstr) (res status outcome : Nat) (step : BitVec 32) : LinkStart :=
  .go s { i := i, writes := resultWord s t res status outcome step } true

/-- Every instruction issued before `seq` on the tile has completed. -/
def earlierDone (T : Tile) (seq : Nat) : Bool :=
  [0, 1, 2, 3, 4].all (fun q => (inQueue T q).all (fun i => decide (i.seq ≥ seq))) &&
  T.access.all (fun a => match a with | .ld q .. => decide (q ≥ seq) | .st q .. => decide (q ≥ seq) | .bring .. => true)

/-- The status with which a GATE or COMMIT contributes nothing, if any (R248, R256, R257). A tile whose context has no job has
no NEXT (DEDUCED, log 44). -/
def stepRefusal (j : Option Job) (step : BitVec 32) : Option Nat :=
  match j with
  | none => some 0x0110
  | some j => if j.layout then some 0x0115 else if j.stopped then some 0x0114 else if step.toNat ≠ j.next then some 0x0110 else none

/-- GATE for NEXT: of a run that has ended, it completes with that end; of an attempt whose outcome is known, with the outcome; else it
counts toward the gate point (R249, R251, R255; DEDUCED, log 45). -/
def startGate (s : State) (t : Nat) (i : QInstr) (res : Nat) (step : BitVec 32) (j : Job) : LinkStart :=
  match j.ended i with
  | some 3 => ctlOnce s t i res 0 0 step
  | some 4 => ctlOnce s t i res 0x0113 0 step
  | some 5 => ctlOnce s t i res 0x0114 0 step
  | some v => ctlOnce s t i res 0x0111 v step
  | none =>
    if j.outcome = some 0 then ctlOnce s t i res 0 0 step
    else
      let c := (s.tile t).ctx.toNat
      .go (gatePoint (setJob s c (some { j with gates := j.gates + 1 })) c) { i := i, ready := false } false

/-- COMMIT for NEXT: of an attempt that FLT_OPT_NONFINITE or an abort has ended, it completes with that end, the first once the restore is
complete; else it counts toward the seat's readiness (R253 to R256; DEDUCED, log 45). -/
def startCommit (s : State) (t : Nat) (i : QInstr) (res : Nat) (step : BitVec 32) (j : Job) : LinkStart :=
  match j.ended i with
  | some 3 => if j.rcv.restoring then .go s { i := i, ready := false } false else ctlOnce s t i res 0x0112 0 step
  | some 4 => ctlOnce s t i res 0x0113 0 step
  | some 5 => ctlOnce s t i res 0x0114 0 step
  | _ => .go (setJob s (s.tile t).ctx.toNat (some { j with commits := j.commits + 1 })) { i := i, ready := false } false

/-- GATE and COMMIT start after every earlier instruction of the tile has completed; with no job, in the generation layout, on a
stopped job and for a step that is not NEXT they contribute nothing. -/
def startCtl (s : State) (t : Nat) (i : QInstr) (res : Nat) (step : BitVec 32) (k : Job → LinkStart) : LinkStart :=
  if !earlierDone (s.tile t) i.seq then .wait
  else
    match jobOf s (s.tile t).ctx.toNat, stepRefusal (jobOf s (s.tile t).ctx.toNat) step with
    | some j, none => k j
    | _, some st => ctlOnce s t i res st 0 step
    | none, none => .wait

/-- A gate or a commit of the job is pending on this seat (R255). -/
def gatePending (j : Job) : Bool := decide (j.gates > 0 ∨ j.commits > 0)

/-- CHG: in force already, it completes at once; else it waits for its Changeover (R159, R263; DEDUCED, log 44). -/
def startChg (s : State) (t : Nat) (i : QInstr) (layout : Bool) (res : Nat) (step : BitVec 32) : LinkStart :=
  match jobOf s (s.tile t).ctx.toNat with
  | none => ctlOnce s.fresh t i res ((Config.freeWord s.free).toNat % 65536) 0 step
  | some j =>
    if j.layout = layout then ctlOnce s t i res 0 0 step
    else .go s { i := i, ready := false } false

/-- The start of a link instruction (DEDUCED, log 42). -/
def startLink (s : State) (t : Nat) (vw : View) (err : Option ExecFault) (es : List (Nat × Stage)) (i : QInstr) : LinkStart :=
  match i.op with
  | .put seat rrem a b => startPut s t vw err i seat rrem a b
  | .get seat a _ => startGet s t i seat a
  | .rring seat bell inc => startRring s t i seat bell inc
  | .coll cl op exact a b cnt _ => startColl s t err es i cl op exact a b cnt
  | .barrier cl _ => startBarrier s i cl
  | .gate _ res step => startCtl s t i res step (startGate s t i res step)
  | .commit _ res step => startCtl s t i res step (startCommit s t i res step)
  | .chg layout res step => startChg s t i layout res step
  | _ => .wait

def execPut (t : TileNo) (f : LinkForm) (s : State) : Host.Outcome State Fault Refusal := .next (issuePut t f s)
def execGet (t : TileNo) (f : LinkForm) (s : State) : Host.Outcome State Fault Refusal := .next (issueGet t f s)
def execRring (t : TileNo) (f : LinkForm) (s : State) : Host.Outcome State Fault Refusal := .next (issueRring t f s)
def execColl (t : TileNo) (f : LinkForm) (s : State) : Host.Outcome State Fault Refusal := .next (issueColl t f s)
def execBarrier (t : TileNo) (f : LinkForm) (s : State) : Host.Outcome State Fault Refusal := .next (issueBarrier t f s)
def execGate (t : TileNo) (f : LinkForm) (s : State) : Host.Outcome State Fault Refusal := .next (issueGate t 0x95 EngineOp.gate f s)
def execCommit (t : TileNo) (f : LinkForm) (s : State) : Host.Outcome State Fault Refusal := .next (issueGate t 0x96 EngineOp.commit f s)
def execChg (t : TileNo) (f : LinkForm) (s : State) : Host.Outcome State Fault Refusal := .next (issueChg t f s)

end Sys2Proof.Machine
end

