-- ==== Sys2Proof/Machine/Scalar.lean ====
section
/-! DEFINITION. The scalar instructions (R141 to R145, R115 to R118): arithmetic, LD and ST, the control-register
instructions, branches, HALT, STEP, the card instructions and the Bell instructions, and the end of a scalar access. -/
namespace Sys2Proof.Machine

/-- Write of X[rd] by an instruction: data of an earlier LD that names it is no longer taken (DEDUCED, log 20). -/
def Tile.putX (T : Tile) (rd : Nat) (v : BitVec 64) : Tile :=
  let T := T.setX rd v
  { T with access := T.access.map (fun a => match a with
      | .ld sq pc r ad dt fl => .ld sq pc (if r.toNat = rd then 0 else r) ad dt fl
      | a => a) }

/-- Format R: X[RD] <- op(X[RS1], X[RS2]). -/
def scalarR (t : Nat) (op : BitVec 8) (f : RForm) (g : BitVec 64 → BitVec 64 → BitVec 64) (s : State) : State :=
  issueScalar s t f.ext (f.w0 op) f.w1 [f.rs1.toNat, f.rs2.toNat] (legalR f)
    (fun s => .ok (s.onTile t (fun T => T.putX f.rd.toNat (g (T.xr f.rs1.toNat) (T.xr f.rs2.toNat)))))

/-- Format I: X[RD] <- op(X[RS1], sign-extended IMM). -/
def scalarI (t : Nat) (op : BitVec 8) (f : IForm) (legal : Bool) (g : BitVec 64 → BitVec 64 → BitVec 64) (s : State) : State :=
  issueScalar s t f.ext (f.w0 op) f.w1 [f.rs1.toNat] legal
    (fun s => .ok (s.onTile t (fun T => T.putX f.rd.toNat (g (T.xr f.rs1.toNat) (sext40 f.imm)))))

/-- A taken branch or jump: TILE_PC <- address of this instruction + 8 × offset, on a tile already past it (DEDUCED, log 17). -/
def Tile.jump (T : Tile) (off : BitVec 40) : Tile := { T with pc := T.pc - 8 + (sext40 off <<< 3) }

/-- Format B: a branch when the comparison holds (R145). -/
def scalarBr (t : Nat) (op : BitVec 8) (f : BForm) (c : BitVec 64 → BitVec 64 → Bool) (s : State) : State :=
  issueScalar s t f.ext (f.w0 op) f.w1 [f.rs1.toNat, f.rs2.toNat] (legalB f)
    (fun s => .ok (s.onTile t (fun T => if c (T.xr f.rs1.toNat) (T.xr f.rs2.toNat) then T.jump f.off else T)))

/-- Shift amount: bits [5:0]. -/
def shamt (b : BitVec 64) : Nat := b.toNat % 64

def execNop (t : TileNo) (f : RForm) (s : State) : Host.Outcome State Fault Refusal :=
  .next (issueScalar s t f.ext (f.w0 0x00) f.w1 [] (legalR0 f) (fun s => .ok s))

def execAdd (t : TileNo) (f : RForm) (s : State) : Host.Outcome State Fault Refusal :=
  .next (scalarR t 0x01 f (fun a b => a + b) s)

def execSub (t : TileNo) (f : RForm) (s : State) : Host.Outcome State Fault Refusal :=
  .next (scalarR t 0x02 f (fun a b => a - b) s)

def execAnd (t : TileNo) (f : RForm) (s : State) : Host.Outcome State Fault Refusal :=
  .next (scalarR t 0x03 f (fun a b => a &&& b) s)

def execOr (t : TileNo) (f : RForm) (s : State) : Host.Outcome State Fault Refusal :=
  .next (scalarR t 0x04 f (fun a b => a ||| b) s)

def execXor (t : TileNo) (f : RForm) (s : State) : Host.Outcome State Fault Refusal :=
  .next (scalarR t 0x05 f (fun a b => a ^^^ b) s)

def execShl (t : TileNo) (f : RForm) (s : State) : Host.Outcome State Fault Refusal :=
  .next (scalarR t 0x06 f (fun a b => a <<< shamt b) s)

def execShr (t : TileNo) (f : RForm) (s : State) : Host.Outcome State Fault Refusal :=
  .next (scalarR t 0x07 f (fun a b => a >>> shamt b) s)

def execSra (t : TileNo) (f : RForm) (s : State) : Host.Outcome State Fault Refusal :=
  .next (scalarR t 0x08 f (fun a b => a.sshiftRight (shamt b)) s)

def execMul (t : TileNo) (f : RForm) (s : State) : Host.Outcome State Fault Refusal :=
  .next (scalarR t 0x09 f (fun a b => a * b) s)

def execMin (t : TileNo) (f : RForm) (s : State) : Host.Outcome State Fault Refusal :=
  .next (scalarR t 0x0A f (fun a b => if a.slt b then a else b) s)

def execMax (t : TileNo) (f : RForm) (s : State) : Host.Outcome State Fault Refusal :=
  .next (scalarR t 0x0B f (fun a b => if a.slt b then b else a) s)

def execSlt (t : TileNo) (f : RForm) (s : State) : Host.Outcome State Fault Refusal :=
  .next (scalarR t 0x0C f (fun a b => if a.slt b then 1 else 0) s)

def execSltu (t : TileNo) (f : RForm) (s : State) : Host.Outcome State Fault Refusal :=
  .next (scalarR t 0x0D f (fun a b => if a.ult b then 1 else 0) s)

def execAddi (t : TileNo) (f : IForm) (s : State) : Host.Outcome State Fault Refusal :=
  .next (scalarI t 0x10 f (legalI f) (fun a i => a + i) s)

def execAndi (t : TileNo) (f : IForm) (s : State) : Host.Outcome State Fault Refusal :=
  .next (scalarI t 0x11 f (legalI f) (fun a i => a &&& i) s)

def execOri (t : TileNo) (f : IForm) (s : State) : Host.Outcome State Fault Refusal :=
  .next (scalarI t 0x12 f (legalI f) (fun a i => a ||| i) s)

def execXori (t : TileNo) (f : IForm) (s : State) : Host.Outcome State Fault Refusal :=
  .next (scalarI t 0x13 f (legalI f) (fun a i => a ^^^ i) s)

def execShli (t : TileNo) (f : IForm) (s : State) : Host.Outcome State Fault Refusal :=
  .next (scalarI t 0x14 f (legalShift f) (fun a i => a <<< shamt i) s)

def execShri (t : TileNo) (f : IForm) (s : State) : Host.Outcome State Fault Refusal :=
  .next (scalarI t 0x15 f (legalShift f) (fun a i => a >>> shamt i) s)

def execSrai (t : TileNo) (f : IForm) (s : State) : Host.Outcome State Fault Refusal :=
  .next (scalarI t 0x16 f (legalShift f) (fun a i => a.sshiftRight (shamt i)) s)

/-- LI: the sign-extended immediate, or word 1. -/
def execLi (t : TileNo) (f : IForm) (s : State) : Host.Outcome State Fault Refusal :=
  .next (issueScalar s t f.ext (f.w0 0x17) f.w1 [] (legalLi f)
    (fun s => .ok (s.onTile t (·.putX f.rd.toNat (if f.ext then f.w1 else sext40 f.imm)))))

/-- The module-local address of an LD or ST: bits [2:0] ignored (R142). -/
def scalarAddr (x : BitVec 64) (imm : BitVec 40) : Nat := (x + sext40 imm).toNat / 8 * 8

/-- The error of an LD or ST: an address outside the map or in the management range (class 0x07), a target that is in
reset (0x06), or a poisoned word read (0x05) (R142, R208). -/
def scalarError (s : State) (rd : Bool) (a : Nat) : Option ExecFault :=
  if !mapped (mapCtx s) a 8 then some ⟨0x43, BitVec.ofNat 64 (a % 2 ^ 48), 0x07⟩
  else (accessError s rd a 8).map (fun e => { e with info0 := BitVec.ofNat 64 a })

/-- LD: the data is what memory holds at issue, written to X[RD] when the access completes (DEDUCED, log 20). -/
def execLd (t : TileNo) (f : IForm) (s : State) : Host.Outcome State Fault Refusal :=
  .next (issueScalar s t f.ext (f.w0 0x18) f.w1 [f.rs1.toNat] (legalI f) (fun s =>
    let T := s.tile t
    let a := scalarAddr (T.xr f.rs1.toNat) f.imm
    let e := scalarError s true a
    let s := s.seen t 5 [(a, 8)]
    let d := if e.isSome then 0 else BitVec.ofNat 64 (leNat (vbytes (mapCtx s) (viewOf s t 5) a 8))
    let s := if e.isSome then s else s.touch t false true (a, 8)
    .ok (s.fresh.onTile t (fun T =>
      let T' := T.putX f.rd.toNat (T.xr f.rd.toNat)
      { T' with access := T'.access ++ [.ld T.seq (T.pc - 8) f.rd a d e] }))))

/-- ST: to the tile's own Slate window visible at once; elsewhere posted, visible when the access completes (DEDUCED, log 20). -/
def execSt (t : TileNo) (f : BForm) (s : State) : Host.Outcome State Fault Refusal :=
  .next (issueScalar s t f.ext (f.w0 0x19) f.w1 [f.rs1.toNat, f.rs2.toNat] (legalB f) (fun s =>
    let T := s.tile t
    let a := scalarAddr (T.xr f.rs1.toNat) f.off
    let e := scalarError s false a
    let ws := if e.isSome then [] else putBytes (mapCtx s) a (leBytes 8 (T.xr f.rs2.toNat).toNat)
    let s := if e.isSome then s else s.touch t true true (a, 8)
    if slateOf t ≤ a ∧ a < slateOf t + slateSize ∧ e.isNone then .ok (s.land t 5 ws)
    else .ok ((s.onTile t (fun T => { T with access := T.access ++ [.st T.seq (T.pc - 8) a ws e] })).accept ws)))

def execCrr (t : TileNo) (f : IForm) (s : State) : Host.Outcome State Fault Refusal :=
  .next (issueScalar s t f.ext (f.w0 0x1A) f.w1 [] (legalI1 f)
    (fun s => .ok (s.onTile t (·.putX f.rd.toNat ((pageRead s t (f.imm.toNat % 65536)).getD 0)))))

/-- CRW: FLT_PRIV for a TILE_ register or an offset that holds none (R143). -/
def execCrw (t : TileNo) (f : BForm) (s : State) : Host.Outcome State Fault Refusal :=
  .next (issueScalar s t f.ext (f.w0 0x1B) f.w1 [f.rs2.toNat] (legalCrw f) (fun s =>
    let o := f.off.toNat % 65536
    if isTileReg o || (pageRead s t o).isNone then .error ⟨0x03, 0, 0⟩
    else .ok (pageWrite s t o 0xFF ((s.tile t).xr f.rs2.toNat))))

def execBeq (t : TileNo) (f : BForm) (s : State) : Host.Outcome State Fault Refusal :=
  .next (scalarBr t 0x20 f (fun a b => a == b) s)

def execBne (t : TileNo) (f : BForm) (s : State) : Host.Outcome State Fault Refusal :=
  .next (scalarBr t 0x21 f (fun a b => a != b) s)

def execBlt (t : TileNo) (f : BForm) (s : State) : Host.Outcome State Fault Refusal :=
  .next (scalarBr t 0x22 f (fun a b => a.slt b) s)

def execBge (t : TileNo) (f : BForm) (s : State) : Host.Outcome State Fault Refusal :=
  .next (scalarBr t 0x23 f (fun a b => !a.slt b) s)

def execBltu (t : TileNo) (f : BForm) (s : State) : Host.Outcome State Fault Refusal :=
  .next (scalarBr t 0x24 f (fun a b => a.ult b) s)

def execBgeu (t : TileNo) (f : BForm) (s : State) : Host.Outcome State Fault Refusal :=
  .next (scalarBr t 0x25 f (fun a b => !a.ult b) s)

def execJmp (t : TileNo) (f : BForm) (s : State) : Host.Outcome State Fault Refusal :=
  .next (issueScalar s t f.ext (f.w0 0x26) f.w1 [] (legalJmp f) (fun s => .ok (s.onTile t (·.jump f.off))))

/-- JAL: X[RD] <- address of the next instruction. -/
def execJal (t : TileNo) (f : IForm) (s : State) : Host.Outcome State Fault Refusal :=
  .next (issueScalar s t f.ext (f.w0 0x27) f.w1 [] (legalI1 f)
    (fun s => .ok (s.onTile t (fun T => (T.putX f.rd.toNat T.pc).jump f.imm))))

def execJr (t : TileNo) (f : IForm) (s : State) : Host.Outcome State Fault Refusal :=
  .next (issueScalar s t f.ext (f.w0 0x28) f.w1 [f.rs1.toNat] (legalJr f)
    (fun s => .ok (s.onTile t (fun T => { T with pc := T.xr f.rs1.toNat + sext40 f.imm }))))

/-- Stop of issue as TILE_CTRL.STOP: the queues drain (R122, R133). -/
def Tile.stopIssue (T : Tile) : Tile := { T with run := false, halt := if T.halt = .hold then .hold else .drain, bwait := none }

def execHalt (t : TileNo) (f : RForm) (s : State) : Host.Outcome State Fault Refusal :=
  .next (issueScalar s t f.ext (f.w0 0x29) f.w1 [] (legalR0 f) (fun s => .ok (s.onTile t (·.stopIssue))))

def execStep (t : TileNo) (f : RForm) (s : State) : Host.Outcome State Fault Refusal :=
  .next (issueScalar s t f.ext (f.w0 0x2A) f.w1 [f.rs1.toNat] (legalStep f)
    (fun s => .ok (s.onTile t (fun T => { T with step := (T.xr f.rs1.toNat).setWidth 32 }))))

/-- DLD; a poisoned word of the 32 bytes is FLT_MEM_ERROR at execution, D[RD] unchanged (R207; DEDUCED, log 20). -/
def execDld (t : TileNo) (f : IForm) (s : State) : Host.Outcome State Fault Refusal :=
  .next (issueScalar s t f.ext (f.w0 0x2B) f.w1 [f.rs1.toNat] (legalI f) (fun s =>
    let T := s.tile t
    match slateRead s t 32 (T.xr f.rs1.toNat + sext40 f.imm) with
    | .error e => .error e
    | .ok (a, l) =>
      match accessError s true a 32 with
      | some e => .ok (execFault s t 5 (T.pc - 8) T.seq e)
      | none => .ok (s.fresh.onTile t (·.setD f.rd.toNat (BitVec.ofNat 256 (leNat l))))))

def execDst (t : TileNo) (f : BForm) (s : State) : Host.Outcome State Fault Refusal :=
  .next (issueScalar s t f.ext (f.w0 0x2C) f.w1 [f.rs1.toNat] (legalB f) (fun s =>
    let T := s.tile t
    match slateOff 32 (T.xr f.rs1.toNat + sext40 f.off) with
    | none => .error ⟨0x0C, 0, 0⟩
    | some o => .ok (s.land t 5 (putBytes (mapCtx s) (slateOf t + o) (leBytes 32 (T.dr f.rs2.toNat).toNat)))))

/-- DADD: the base field moves by X[RS1] modulo 2^48 (R144). -/
def execDadd (t : TileNo) (f : RForm) (s : State) : Host.Outcome State Fault Refusal :=
  .next (issueScalar s t f.ext (f.w0 0x2D) f.w1 [f.rs1.toNat] (legalDadd f) (fun s =>
    .ok (s.onTile t (fun T =>
      let d := T.dr f.rd.toNat
      T.setD f.rd.toNat (setFld d 0 48 (fld d 0 48 + (T.xr f.rs1.toNat).toNat))))))

/-- The Bell that the immediate of a Bell instruction names. -/
def immBell (f : IForm) : BitVec 19 := f.imm.setWidth 19

/-- BRING: applied once every earlier ST of the tile is visible (R142; DEDUCED, log 20). -/
def execBring (t : TileNo) (f : IForm) (s : State) : Host.Outcome State Fault Refusal :=
  .next (issueScalar s t f.ext (f.w0 0x30) f.w1 [] (legalBring f) (fun s =>
    let T := s.tile t
    let b := immBell f
    let n : BitVec 8 := (f.imm >>> 19).setWidth 8
    match bellFault T b 0 with
    | some e => .error e
    | none =>
      if T.access.any (fun a => match a with | .st .. => true | _ => false) then
        .ok (s.onTile t (fun T => { T with access := T.access ++ [.bring b n] }))
      else .ok (bellAdd s b n.toNat)))

/-- The time from which a BWAIT has been held by a pipeline Bell of its job (R247; DEDUCED, log 45). -/
def noteBwait (s : State) (T : Tile) (b : BitVec 19) : Tab (Option (BitVec 64)) :=
  match jobOf s T.ctx.toNat with
  | some j => if inBellRange j.pipeBell j.pipeCount b then tset none T.waits 5 (some ((tget none T.waits 5).getD s.now)) else T.waits
  | none => T.waits

/-- A BWAIT that a pipeline Bell held has passed: its delay is counted. -/
def passBwait (s : State) (t : Nat) : State :=
  let s := match tget none (s.tile t).waits 5 with
    | some w => countTal (countTal s 0x100 1) 0x108 (s.now.toNat - w.toNat)
    | none => s
  s.onTile t (fun T => { T with waits := tset none T.waits 5 none })

/-- BWAIT: issue stalls, TILE_PC unchanged, until the Bell has reached the target; the command is given again (R116,
R118, R145; DEDUCED, log 21). -/
def execBwait (t : TileNo) (f : IForm) (s : State) : Host.Outcome State Fault Refusal :=
  let T := s.tile t
  let b := immBell f
  let v : BitVec 32 := (T.xr f.rs1.toNat).setWidth 32
  if !canIssue s t || ldPending T [f.rs1.toNat] then .next s
  else if legalBell f && tileBell T b && !bellMet s b v && (fetchFault s T.pc).isNone then
    .next (s.onTile t (fun T => { T with bwait := some (b, v), waits := noteBwait s T b }))
  else
    .next (issueWord s t f.ext (f.w0 0x31) f.w1 (legalBell f) (fun s =>
      match bellFault (s.tile t) b v with
      | some e => .error e
      | none => .ok (passBwait s t)))

/-- BSET replaces the value (R117). -/
def execBset (t : TileNo) (f : IForm) (s : State) : Host.Outcome State Fault Refusal :=
  .next (issueScalar s t f.ext (f.w0 0x32) f.w1 [f.rs1.toNat] (legalBell f) (fun s =>
    let T := s.tile t
    match bellFault T (immBell f) 0 with
    | some e => .error e
    | none => .ok (bellSet s (immBell f) ((T.xr f.rs1.toNat).setWidth 32))))

/-! ### The end of a scalar access (R142) -/

/-- BRINGs that no ST precedes any more are applied (DEDUCED, log 20). -/
def releaseBrings : Nat → State → Nat → State
  | 0, s, _ => s
  | n + 1, s, t =>
    match (s.tile t).access.span (fun a => match a with | .ld .. => true | _ => false) with
    | (l, .bring b i :: r) => releaseBrings n (bellAdd (s.onTile t (fun T => { T with access := l ++ r })) b i.toNat) t
    | _ => s

/-- The oldest LD or ST of the tile completes: its data or its writes take effect, or it raises FLT_MEM_ERROR at
execution with QUEUE 5, leaving X[RD] unchanged or writing nothing. An uncorrectable word found by an LD is poisoned (DEDUCED, log 20). -/
def execScalarAccessComplete (t : TileNo) (e : Ending) (s : State) : Host.Outcome State Fault Refusal :=
  match (s.tile t).access with
  | .ld sq pc rd a d fl :: r =>
    let s := s.onTile t (fun T => { T with access := r })
    match fl, e with
    | some x, _ => .next (execFault s t 5 pc sq x)
    | none, .memError _ c => .next (execFault { s with m := if 1 ≤ c.toNat ∧ c.toNat ≤ 4 then memPoison s.m (canon (mapCtx s) a) (wordSize c.toNat (canon (mapCtx s) a)) else s.m }
        t 5 pc sq ⟨0x43, BitVec.ofNat 64 a, c.setWidth 64⟩)
    | none, .clean => .next (s.onTile t (·.setX rd.toNat d))
  | .st sq pc a ws fl :: r =>
    let s := s.onTile t (fun T => { T with access := r })
    let s' := match fl, e with
      | some x, _ => execFault s t 5 pc sq x
      | none, .memError _ c => execFault s t 5 pc sq ⟨0x43, BitVec.ofNat 64 a, c.setWidth 64⟩
      | none, .clean => if ws.all (taken s) then s.land t 5 ws else execFault s t 5 pc sq ⟨0x43, BitVec.ofNat 64 a, 0x06⟩
    .next (releaseBrings (r.length + 1) s' t)
  | _ => .next s

end Sys2Proof.Machine
end

