-- ==== Sys2Proof/Machine/Engine.lean ====
section
/-! DEFINITION. The engines' own events: an instruction starts (R65, R107, R110 to R112, R148, R149, R199, R200, R252), completes
(R113, R127, R138), or waits longer than TILE_WAIT_LIMIT (R118). -/
namespace Sys2Proof.Machine

/-- Queues of the tile start instructions: nothing holds the tile (R123, R128, R354). -/
def canStart (s : State) (t : Nat) : Bool :=
  let T := s.tile t
  decide (T.halt ≠ .hold) && decide (T.pre = .idle) && !T.resetting && !tileQuiet s t && !dieDead s (dieOf t) && !s.sys.modReset && !switchHolds s t

/-! ### Interlocks -/

def isAbmode : EngineOp → Bool
  | .abmode _ => true
  | _ => false
def isAtt : EngineOp → Bool
  | .att .. => true
  | _ => false
def isDrill : EngineOp → Bool
  | .drill .. => true
  | _ => false
/-- The instruction reads or writes cells of the Abacus. -/
def usesAbacus (o : EngineOp) : Bool := isAbmode o || (opSlot o).isSome

/-- An instruction issued earlier holds back one of the other kind (R65, R148, R149). -/
def holdsBack (old new : EngineOp) : Bool :=
  (isAbmode new && usesAbacus old) || (isAbmode old && usesAbacus new) || (isAtt new && isDrill old) || (isAtt old && isDrill new) ||
  (match opSlot old, opSlot new with
   | some a, some b => decide (a = b) && (isDrill old != isDrill new)
   | _, _ => false)

/-- Every interlock of an instruction is satisfied. -/
def interlocked (T : Tile) (i : QInstr) : Bool :=
  [0, 1].any (fun q => (inQueue T q).any (fun o => decide (o.seq < i.seq) && holdsBack o.op i.op))

/-! ### What an instruction reads -/

/-- The drill cards that an operation reads, its Times Table and, for OPT, the tensors it updates; `g` gives a card's ranges. -/
def drillReads (g : Card → List (Nat × Nat)) (t : Nat) (fused : Bool) (card ext : List Byte) (cin cout op2 aux cm cv cw : Card) : List (Nat × Nat) :=
  let d := parseDrill card
  let (rows, cols) := drillShape d fused cin cout
  ((drillCards d (wfld ext 4 24 4) cin cout op2 aux cm cv cw).filter (fun c => !c.2.1 || decide (d.fn = fnOpt))).flatMap (fun c => g c.1) ++
    (if d.ttEn then [(slateOf t + d.ttBase, 4 * (if d.ttAxis then rows else cols))] else [])

/-- Slate ranges that a Rod instruction reads. -/
def rodReads (T : Tile) (t opc : Nat) (f : RodForm) (x : BitVec 64) : List (Nat × Nat) :=
  if opc = 0x70 then (match vOff f x with | some o => [(slateOf t + o, 512)] | none => [])
  else if opc = 0x72 then
    ((List.range (laneCount f)).filter (active T f)).map (fun j => (slateOf t + laneOff T f x j, laneBits f / 8))
  else []

/-- Local memory that an instruction reads when it starts, where `g` gives the ranges of a card and `pages` those of an ATT's pages. -/
def readsBy (g : Card → List (Nat × Nat)) (pages : List Byte → List Byte → List (Nat × Nat)) (T : Tile) (t : Nat) : EngineOp → List (Nat × Nat)
  | .mmul _ _ a b _ _ => g a ++ g b
  | .ladd _ c _ => g c
  | .abmode _ => []
  | .att _ _ _ card plist q _ st _ _ => g q ++ (if (parseAtt card).mode = 3 then g st else []) ++ pages card plist
  | .drill fused card ext cin cout op2 aux cm cv cw _ _ => drillReads g t fused card ext cin cout op2 aux cm cv cw
  | .rod opc f x _ => rodReads T t opc f x
  | .move mode a b => g a ++ (if mode = 2 then g b else [])
  | .pack d _ => let i := (packLists d).1; if i.2 = 0 then [] else [(slateOf t + i.1, i.2)]
  | .put _ _ a _ => g a
  | .coll _ op _ a _ cnt x1 =>
    g a ++ (if op = 4 ∧ fld cnt 0 32 ≠ 0 then [(slateOf t + dispTable x1, 16 * fld cnt 0 32)] else [])
  | _ => []

/-- The footprints of what an instruction reads (R165, R199). -/
def readRanges (T : Tile) (t : Nat) (o : EngineOp) : List (Nat × Nat) := readsBy Card.ranges (attPageRanges t) T t o

/-- The bytes that its reads reach: of an MMUL's operands the part within its K range, of a strided card no gap (R63, R192, R207). -/
def readRuns (T : Tile) (t : Nat) : EngineOp → List (Nat × Nat)
  | .mmul _ _ a b k0 k => a.reach 0 a.rows k0 k ++ b.reach k0 k 0 b.cols
  | o => readsBy Card.runs (attPageRuns t) T t o

/-! ### Stage entries (R199, R200) -/

/-- Entries whose UP range the head of queue `q` reads: those that copy, and those that it has waited for and that have failed
since (R199; DEDUCED, log 31). -/
def stagesMet (s : State) (t q : Nat) (rs : List (Nat × Nat)) : List (Nat × Stage) :=
  (s.tile t).stages.filter (fun e =>
    (decide (e.2.state = 1) || (decide (e.2.state = 3) && (tget [] (s.tile t).met q).contains e.1)) &&
    rs.any (fun r => rangesMeet (mapCtx s) r.1 r.2 e.2.up.toNat e.2.len))

/-- The head of a queue waits for the entries that it has met (R199; DEDUCED, log 31). -/
def waitStages (s : State) (t q : Nat) (es : List (Nat × Stage)) : State :=
  s.onTile t (fun T => { T with met := tset [] T.met q (es.map (·.1)) })

/-- The deadline of a copying entry has passed (outcome 3). -/
def stagePast (s : State) (e : Stage) : Bool := decide (e.state = 1 ∧ e.dl.toNat ≤ s.now.toNat)

/-! ### The view of a start -/

/-- Bytes that cannot be read, of poisoned words and of dies in reset, are free (R207, R127; DEDUCED, log 19). -/
def errorView (s : State) (vw : View) : View := fun a =>
  if s.m.poison.any (fun e => decide (e.1 ≤ a ∧ a < e.1 + e.2)) || (match homeDie a with | some d => dieDead s d | none => false) then
    BitVec.ofNat 8 (fld (Config.freeWord (s.free * 2 ^ 48 + a / 8)) (8 * (a % 8)) 8)
  else vw a

/-- What an engine other than the link engine does when it starts. -/
def startOp (s : State) (t : Nat) (vw : View) : EngineOp → Effect
  | .mmul sl acc a b k0 k => startMmul s t vw sl acc a b k0 k
  | .ladd sl c n => startLadd s t vw sl c n
  | .abmode f => startAbmode s t f
  | .att sl fused off card plist q o st step seed => startAtt s t vw sl fused off card plist q o st step seed
  | .drill fused card ext cin cout op2 aux cm cv cw step seed => startDrill s t vw fused card ext cin cout op2 aux cm cv cw step seed
  | .rod opc f x seed => startRod s t vw opc f x seed
  | .move mode a b => startMove s t vw mode a b
  | .pack d res => startPack s t vw d res
  | _ => { s := s }

/-! ### The commit wait (R252) -/

/-- What R252 says of a DRILL with STATE = 1. -/
inductive StateGate where
  | run
  | wait (step : BitVec 32)
  | retire
  deriving DecidableEq, Repr

/-- The step that a DRILL with STATE = 1 captured. -/
def stateStep : EngineOp → Option (BitVec 32)
  | .drill _ card _ _ _ _ _ _ _ _ step _ => if (parseDrill card).state then some step else none
  | _ => none

def stateGate (s : State) (t : Nat) (i : QInstr) : StateGate :=
  match stateStep i.op, jobOf s (s.tile t).ctx.toNat with
  | some step, some j =>
    if j.layout || j.stopped || decide (step.toNat ≠ j.next) || (j.ended i).isSome then .retire
    else
      match j.outcome with
      | some 0 => if j.acked then .run else .wait step
      | some _ => .retire
      | none => .wait step
  | _, _ => .run

/-! ### INSTRUCTION_START -/

/-- A start that a pipeline Bell delayed is counted (R247; DEDUCED, log 45). -/
def countStrag (s : State) (t q : Nat) : State :=
  match tget none (s.tile t).waits q with
  | some w => countTal (countTal s 0x100 1) 0x108 (s.now.toNat - w.toNat)
  | none => s

/-- The instruction leaves its queue. -/
def takeHead (s : State) (t q : Nat) : State :=
  noteHead ((countStrag s t q).onTile t (fun T => { T.setQueue q (T.queue q).tail with met := tset [] T.met q [], headAt := s.now })) t q

/-- An instruction is started, and the homes accept its writes (R195). -/
def addStarted (s : State) (t q : Nat) (x : Started) : State := (s.onTile t (fun T => T.setStarted q (T.startedQ q ++ [x]))).accept x.writes

/-- A gather or scatter whose range could not be checked at issue fails its check now: it leaves no effect, and the fault is
the one its issue would have raised (R151; DEDUCED, log 18). -/
def lateRange (s : State) (t q : Nat) (i : QInstr) (f : IFault) : State :=
  let s := (takeHead s t q).onTile t (fun T => { T with run := false, halt := if T.halt = .hold then .hold else .drain, bwait := none })
  tileFault s t { code := f.code, queue := 5, valid := true, pc := i.pc.truncate 48, info0 := f.info0, info1 := f.info1, seq := i.seq }

/-- Start of an instruction of queues 0 to 3 on its view, with the stage entries it met (DEDUCED, log 19). -/
def beginOp (s : State) (t q : Nat) (i : QInstr) (es : List (Nat × Stage)) : State :=
  let mc := mapCtx s
  let late := es.filter (fun e => stagePast s e.2)
  let s := late.foldl (fun s e => stageLate s t e.1) s
  let s := if late.isEmpty then s else countLate s t
  let low := (readRuns (s.tile t) t i.op).flatMap (stageRanges mc es)
  let err := rangesError s true low
  let s := s.seen t q low
  let vw := errorView s (stageView mc es (viewOf s t q))
  let s := s.touches t false low
  let s := takeHead s t q
  let e := startOp s t vw i.op
  addStarted e.s.fresh t q { i := i, writes := e.writes, fail := match err with | some x => some x | none => e.fail }

/-- The Roster entry that an ATT names, if any. -/
def attEntry : EngineOp → Option Nat
  | .att _ _ _ card _ _ _ _ _ _ => let r := (parseAtt card).ros; if r = 0x1FFFF then none else some r
  | _ => none

/-- An ATT that sits out: RESULT 2 where a SITOUT entry's deadline has passed, 3 where its Roster entry is marked already
(R204, R296). ROS_ENTRY is the module-wide entry index (R301; DEDUCED, log 56). -/
def sitOut (s : State) (op : EngineOp) (es : List (Nat × Stage)) : Option Nat :=
  match attEntry op with
  | some r =>
    if tget false s.counts.sitOut r then some 3
    else if es.any (fun e => e.2.sitout && stagePast s e.2) then some 2 else none
  | none => none

/-- Start of an ATT that sits out: nothing but its RESULT, and what R200 says of a late entry (R204, R296; DEDUCED, log 56). -/
def beginSitOut (s : State) (t : Nat) (i : QInstr) (res : Nat) (es : List (Nat × Stage)) : State :=
  let s := if res = 2 then countLate ((es.filter (fun e => e.2.sitout && stagePast s e.2)).foldl (fun s e => stageLate s t e.1) s) t else s
  let s := takeHead s t 0
  match i.op with
  | .att sl _ off card _ _ _ _ _ _ =>
    let s := { s with counts := { s.counts with sitOut := tset false s.counts.sitOut (parseAtt card).ros true } }
    let e := startAttOut s t sl off res
    addStarted e.s t 0 { i := i, writes := e.writes }
  | _ => s

/-- A started instruction is taken away. -/
def dropStarted (s : State) (t q k : Nat) : State := s.onTile t (fun T => T.setStarted q ((T.startedQ q).eraseIdx k))

/-! ### INSTRUCTION_COMPLETE -/

/-- The words of a stopped instruction that it wrote, by a free choice for each 8-byte word (R127; DEDUCED, log 19). -/
def partialWrites (s : State) (ws : List PW) : List PW := ws.filter (fun w => Config.freeBit (s.free * 2 ^ 48 + w.addr / 8))

/-- The ring of an instruction that is not carried to another seat. -/
def localRing (i : QInstr) : Option (BitVec 19 × BitVec 8) :=
  match i.op with
  | .put _ true _ _ => none
  | _ => i.ring

/-- Ranges that an instruction's write cards name. -/
def writeRanges : EngineOp → List (Nat × Nat)
  | .move _ _ b => b.ranges
  | .get _ _ b => b.ranges
  | .coll _ _ _ _ b _ _ => b.ranges
  | .drill _ card _ _ cout _ _ cm cv cw _ _ =>
    if (parseDrill card).fn = fnOpt then cm.ranges ++ cv.ranges ++ cw.ranges else cout.ranges
  | _ => []

/-- Writes that meet a die that does not answer: class 0x06 at the address by which the write card names it (R12, R126). -/
def writeError (s : State) (x : Started) : Option ExecFault :=
  (x.writes.find? (fun w => !taken s w)).map (fun w =>
    (rangesError s false (writeRanges x.i.op)).getD ⟨0x43, BitVec.ofNat 64 w.addr, 0x06⟩)

/-- The Drill fault registers after a fault of the operation (R96 to R98). -/
def drillFaultRegs (e : EngineRegs) (f : ExecFault) : EngineRegs :=
  { e with drlCode := BitVec.ofNat 8 (fld f.info0 0 8), drlRow := BitVec.ofNat 16 (fld f.info0 8 16),
           drlElem := if f.code = 0x40 then f.info1 else e.drlElem }

/-- FLT_OPT_NONFINITE of a job tile makes the seat's commit fail (R253). -/
def noteOptFail (s : State) (t : Nat) (f : ExecFault) : State :=
  if f.code = 0x40 then onJob s (s.tile t).ctx.toNat (fun j => { j with optFail := true }) else s

/-- An instruction retires with a fault at execution (R123, R127; DEDUCED, log 19). -/
def retireFault (s : State) (t q : Nat) (x : Started) (f : ExecFault) : State :=
  let ws := if f.code = 0x43 then partialWrites s x.writes else x.writes
  let s := s.fresh.land t q ws
  let s := s.touchWrites (some t) (ws.filter (taken s))
  let s := if 0x40 ≤ f.code.toNat ∧ f.code.toNat ≤ 0x42 then s.onTile t (fun T => { T with eng := drillFaultRegs T.eng f }) else s
  execFault (noteOptFail s t f) t q x.i.pc x.i.seq f

/-- An instruction completes: its writes are visible, then its ring applies (R113, R138). -/
def retireClean (s : State) (t q : Nat) (x : Started) : State :=
  let s := s.land t q x.writes
  let s := s.touchWrites (some t) (x.writes.filter (taken s))
  match localRing x.i with
  | some (b, n) => bellAdd s b n.toNat
  | none => s

/-- Completion of the k-th started instruction of a queue (DEDUCED, log 19). -/
def retire (s : State) (t q k : Nat) (e : Ending) : State :=
  match (s.tile t).startedQ q |>.drop k |>.head? with
  | none => s
  | some x =>
    let s := dropStarted s t q k
    match x.fail, e with
    | some f, _ => retireFault s t q x f
    | none, .memError a c =>
      let m := if 1 ≤ c.toNat ∧ c.toNat ≤ 4 then (let b := canon (mapCtx s) (a.toNat % 2 ^ 48); memPoison s.m b (wordSize c.toNat b)) else s.m
      retireFault { s with m := m } t q x ⟨0x43, a.setWidth 64, c.setWidth 64⟩
    | none, .clean => match writeError s x with | some f => retireFault s t q x f | none => retireClean s t q x

/-- Start of a link instruction. -/
def beginLink (s : State) (t : Nat) (i : QInstr) (es : List (Nat × Stage)) : State :=
  let mc := mapCtx s
  let low := (readRuns (s.tile t) t i.op).flatMap (stageRanges mc es)
  match startLink s t (errorView s (stageView mc es (viewOf s t 4))) (rangesError s true low) es i with
  | .wait => s
  | .go s' x once =>
    let late := es.filter (fun e => stagePast s e.2)
    let s' := late.foldl (fun s e => stageLate s t e.1) s'
    let s' := if late.isEmpty then s' else countLate s' t
    let s' := takeHead (s'.touches t false low) t 4
    let s' := addStarted s' t 4 x
    if once then retire s' t 4 (((s'.tile t).startedQ 4).length - 1) .clean else s'

/-- INSTRUCTION_START: the head of the queue starts once its wait and its interlocks are satisfied; otherwise it waits. -/
def startHead (s : State) (t q : Nat) : State :=
  let T := s.tile t
  match (T.queue q).head? with
  | none => s
  | some i =>
    if !canStart s t || interlocked T i || !(match i.wait with | some (b, v) => bellMet s b v | none => true) then s
    else
      let rs := readRanges T t i.op
      let es := stagesMet s t q rs
      match sitOut s i.op es with
      | some r => beginSitOut s t i r es
      | none =>
        if es.any (fun e => decide (e.2.state = 1) && !stagePast s e.2) then waitStages s t q es
        else if q = 4 then beginLink s t i es
        else
          match i.op with
          | .rod opc f x _ => (match rodRange T opc f x with | some e => lateRange s t q i e | none => beginOp s t q i es)
          | _ =>
            match stateGate s t i with
            | .wait _ => s
            | .retire => addStarted (takeHead s t q) t q { i := i }
            | .run => beginOp (if (stateStep i.op).isSome then onJob s T.ctx.toNat (fun j => { j with stateStarted := true }) else s) t q i es

def execInstructionStart (t : TileNo) (q : Fin 5) (s : State) : Host.Outcome State Fault Refusal := .next (startHead s t q)

/-- How many MOVEs started before the k-th started Mover instruction (R183). -/
def movesBefore (T : Tile) (k : Nat) : Nat := (((T.startedQ 3).take k).filter (fun x => isMove x.i.op)).length

/-- The k-th started instruction of a queue is one that its engine advances: the oldest of an in-order queue, of the Mover no MOVE
beyond the first 16 (R110, R183); a PACK is not counted among them (DEDUCED, log 97). -/
def advances (T : Tile) (q k : Nat) (x : Started) : Bool :=
  if q < 3 then decide (k = 0) else if q = 3 ∧ isMove x.i.op then decide (movesBefore T k < 16) else true

/-- An engine's in-order queues retire their oldest started instruction; the Mover and the link engine any that they advance. A link
instruction completes once the other seats have decided it. Nothing progresses in the Quiet State (R354). -/
def execInstructionComplete (t : TileNo) (q : Fin 5) (k : Nat) (e : Ending) (s : State) : Host.Outcome State Fault Refusal :=
  match (s.tile t).startedQ q |>.drop k |>.head? with
  | some x =>
    if tileQuiet s t || dieDead s (dieOf t) || !advances (s.tile t) q k x || (!x.ready && decide (e = .clean)) then .next s
    else .next (retire s t q k e)
  | none => .next s

/-! ### FLT_BELL_TIMEOUT (R118, R252) -/

/-- What the head of a queue waits for: a Bell and its target, or the commit wait of R252 with its step. -/
def headWait (s : State) (t q : Nat) : Option (QInstr × ExecFault) :=
  match ((s.tile t).queue q).head? with
  | none => none
  | some i =>
    match i.wait with
    | some (b, v) =>
      if !bellMet s b v then some (i, ⟨0x44, b.setWidth 64, v.setWidth 64⟩)
      else (match stateGate s t i with | .wait n => some (i, ⟨0x44, 0x7FFFF, n.setWidth 64 ||| 0x8000000000000000⟩) | _ => none)
    | none => match stateGate s t i with | .wait n => some (i, ⟨0x44, 0x7FFFF, n.setWidth 64 ||| 0x8000000000000000⟩) | _ => none

/-- The fault of a timeout, whose Report Card record the Monitor core is to capture (R350). -/
def bellTimeout (s : State) (t q : Nat) (pc : BitVec 64) (seq : Nat) (f : ExecFault) : State :=
  execFault (s.onTile t (fun T => { T with bellLate := true })) t q pc seq f

/-- A wait has stayed unsatisfied for TILE_WAIT_LIMIT: the instruction stays where it is and the tile stops (DEDUCED, log 22). -/
def execFltBellTimeout (t : TileNo) (q : Fin 6) (s : State) : Host.Outcome State Fault Refusal :=
  let T := s.tile t
  if T.waitLimit = 0 ∨ !canStart s t then .next s
  else if q.val = 5 then
    match T.bwait with
    | some (b, v) => if T.run ∧ !bellMet s b v then .next (bellTimeout s t 5 T.pc T.seq ⟨0x44, b.setWidth 64, v.setWidth 64⟩) else .next s
    | none => .next s
  else
    match headWait s t q with
    | some (i, f) => .next (bellTimeout s t q i.pc i.seq f)
    | none => .next s

end Sys2Proof.Machine
end

