-- ==== Sys2Proof/Machine/Flits.lean ====
section
/-! DEFINITION. Flits at their destination (R214, R216, R223, R224): delivery and deduplication, remote memory accesses and
rings, the progress of PUT, GET and RRING, collectives (R228 to R234) and barriers (R119 to R121). -/
namespace Sys2Proof.Machine

/-! ### Arrival -/

/-- Key of a (source, tag) pair. -/
def pairKey (pm : BitVec 11) (tag : BitVec 16) : Nat := pm.toNat * 65536 + tag.toNat

/-- A flit of a deduplicated type has been applied already (R216). -/
def isDup (s : State) (f : Flit) : Bool := tget false s.fab.seen (pairKey f.srcPm f.tag)

/-- The pair is noted; tags 32,768 or more behind the newest are forgotten, those of WRITEs whose end flit has not come with them (R216;
DEDUCED, log 40). -/
def noteTag (s : State) (f : Flit) : State :=
  let src := f.srcPm.toNat
  let old := (tget none s.fab.newest src).getD f.tag
  let new := if reached 16 f.tag.toNat old.toNat then f.tag else old
  let seen := tset false s.fab.seen (pairKey f.srcPm f.tag) true
  let behind (t : BitVec 16) (k : Nat) : Bool := decide ((t.toNat + 65536 - k % 65536) % 65536 < 32768)
  { s with fab := { s.fab with
      seen := seen.filter (fun e => decide (e.1 / 65536 ≠ src) || behind new e.1),
      wrote := s.fab.wrote.filter (fun e => decide (e.1 / 65536 ≠ src) || !behind old e.1 || behind new e.1),
      newest := tset none s.fab.newest src (some new) } }

/-- Deduplicated application. -/
def once (s : State) (f : Flit) (k : State → State) : State := if isDup s f then s else k (noteTag s f)

/-- This module is a destination: neither quiet nor in reset (R354). -/
def fabricLive (s : State) : Bool := !moduleQuiet s && !s.sys.modReset

/-- A flit for another module is routed onward; one that has passed 15 modules is returned (R214, R223). -/
def forward (s : State) (f : Flit) : State :=
  if f.hops = 15 then
    let s := leaveBuffer s f
    (if f.ty = 7 then s else let (g, s) := returnOf s f 0x21; routeOut s g)
  else routeOut s { f with hops := f.hops + 1 }

/-- A flit that stands in the receive buffer of port `p` until it leaves the module or ends here (R218). -/
def standing (p : Nat) (f : Flit) : Flit := { f with inp := some (BitVec.ofNat 6 p, f.vc) }

/-- The port carries the flit: ACTIVE, or UP for VC0 (R225). -/
def portTakes (s : State) (p : Nat) (f : Flit) : Bool := decide (portState s p = 3) || (decide (portState s p = 2) && decide (f.vc = 0))

/-- The reason for which a flit is returned at its destination: it has passed 15 modules, or the module does not hold the seat
it names (R214, R223, R237). A RETURN is delivered (DEDUCED, log 40). -/
def returnHere (s : State) (f : Flit) : Option (BitVec 8) :=
  if f.ty = 7 then none
  else if f.hops = 15 then some 0x21
  else if seated s && decide (f.dstSeat = selfSeat s) then none else some 0x22

/-- The route entry of the flit names local delivery (R222). -/
def routedHere (s : State) (f : Flit) : Bool := match pickAlt s f with | some (_, 62) => true | _ => false

/-- Arrival of a flit of TYPE `ty` at `p`: a flit that the local delivery buffer holds, or one at a port, which its route entry
delivers here or sends on (R222, R223; DEDUCED, log 40). -/
def arrive (s : State) (p : BitVec 6) (ty : BitVec 4) (f : Flit) (k : State → State) : State :=
  if !fabricLive s || decide (f.ty ≠ ty) then s
  else
    let here (s : State) : State :=
      match returnHere s f with
      | some r =>
        let (g, s) := returnOf s f r
        if f.srcPm = selfPm s then localSend s g else routeOut s g
      | none => k s
    if p = 62 then
      (if s.fab.localq.contains f then here { s with fab := { s.fab with localq := s.fab.localq.erase f } } else s)
    else if p.toNat < 36 ∧ portTakes s p.toNat f then takeFlit s p.toNat f (fun s => if routedHere s f then here (consume s p.toNat f) else forward s (standing p.toNat f))
    else s

/-! ### Memory at this seat (R156, R184, R208) -/

/-- The checks of a card that another seat names here (R28, R164 to R178). -/
def remoteFault (s : State) (r : RemoteCard) : Option IFault :=
  let mc := mapCtx s
  let c : Card := { w := r.w, liftBase := r.liftBase.toNat }
  firstFault ([checkForm false c, copyPlace c, checkAlignAt mc true c, checkStride r.write c] ++
    (if r.write then [checkPlaneWrite c, checkAlias mc c] else [checkPlaneRead c]))

/-- The armed partner area, if its ward is the flit's source (R327). -/
def wardArea (s : State) (f : Flit) : Option (Nat × Nat) :=
  (mapCtx s).ward.bind (fun w => if fld (rget s (ckpBlk + 0x10)) 48 10 = f.srcSeat.toNat then some w else none)

/-- The address that a flit names: partner traffic counts from the start of the partner area. None where it is no memory of
this module, or is reserved (R190, R327). -/
def remoteAddr (s : State) (f : Flit) (a n : Nat) : Option Nat :=
  if f.partner then (wardArea s f).bind (fun (b, m) => if a + n ≤ m then some (b + a) else none)
  else if regionOf (mapCtx s) a ((a + n - 1 : Nat) : Int) ≠ .bad then some a else none

/-- The address of a remote access, or its error class. -/
def remoteAccess (s : State) (rd : Bool) (f : Flit) (card : Option RemoteCard) (a n : Nat) : Except (BitVec 8) Nat :=
  if (card.bind (remoteFault s)).isSome then .error 0x24
  else
    match remoteAddr s f a n with
    | some b => if (accessError s rd b n).isSome then .error 0x25 else .ok b
    | none => .error 0x25

/-- A reply to a request: DONE with an error class, 0 for none. -/
def doneReply (s : State) (f : Flit) (cls : BitVec 8) (addr : BitVec 48) : State :=
  let (t, s) := takeTag s f.srcPm
  let g := { mkFlit s 6 1 f.srcPm f.srcSeat t 0 (.done cls addr f.tag) with partner := f.partner }
  routeOut (keepFlit s g) g

/-- The Bell lies in the Bell range of a valid context on its die (R157, R370; DEDUCED, log 40). -/
def remoteBell (s : State) (b : BitVec 19) : Bool :=
  (List.range 512).any (fun n =>
    let c := rget s (clsBlk + 0x2000 + 32 * n)
    flag c 16 && (flag c (2 * (b.toNat / 65536)) || flag c (2 * (b.toNat / 65536) + 1)) && inBellRange (fld c 17 16) (fld c 33 17) b)

/-- A ring from another seat: discarded with EVT_REMOTE_RING_RANGE outside every range (R157). -/
def remoteRing (s : State) (b : BitVec 19) (n : BitVec 8) (src : BitVec 10) : State :=
  if remoteBell s b then bellAdd s b n.toNat else raise s 0x0025 b.toNat src.toNat [] (some (b.toNat / 65536))

/-! ### WRITE and the end of a transfer (R216) -/

/-- Keys of the `n` flits before an end flit. -/
def countedKeys (f : Flit) (n : Nat) : List Nat := (upto 1 n).map (fun k => pairKey f.srcPm (f.tag - BitVec.ofNat 16 k))

/-- The count of an end flit. -/
def endCount (f : Flit) : Nat :=
  match f.body with
  | .ringB _ _ n => n
  | .endB n => n
  | _ => 0

/-- An end flit whose counted flits have all arrived: its ring applies unless one of them met an error or its Bell's die does not answer
(R12, R354), and DONE goes to the source. A WRITE that comes again counts for no later transfer (R216). -/
def endTransfer (s : State) (f : Flit) : State :=
  let ks := countedKeys f (endCount f)
  let dead := match f.body with | .ringB b .. => if dieDead s (b.toNat / 65536) then some 0x25 else none | _ => none
  let bad := ks.findSome? (fun k => if tget 0 s.fab.wrote k ≥ 2 then some (tget 0 s.fab.wrote k - 2) else none)
  let s := { s with fab := { s.fab with
    wrote := s.fab.wrote.filter (fun e => !ks.contains e.1), seen := ks.foldl (fun t k => tset false t k true) s.fab.seen } }
  match (match bad with | some c => some c | none => dead) with
  | some c => doneReply s f (BitVec.ofNat 8 c) 0
  | none =>
    let s := match f.body with | .ringB b n _ => remoteRing s b n f.srcSeat | _ => s
    doneReply s f 0 0

/-- End flits whose counted flits are all visible take effect, in the order in which they arrived (DEDUCED, log 40). -/
def settle (s : State) : State :=
  s.fab.rings.foldl (fun s f =>
    if (countedKeys f (endCount f)).all (fun k => decide (tget 0 s.fab.wrote k ≠ 0)) then
      endTransfer { s with fab := { s.fab with rings := s.fab.rings.erase f } } f
    else s) s

/-- Bytes of a WRITE with their masks. -/
def flitWrites (s : State) (a : Nat) (data mask : List Byte) : List PW :=
  ((data.zip (if mask.isEmpty then data.map (fun _ => (0xFF : Byte)) else mask)).zip (upto a data.length)).map
    (fun ((v, m), k) => { addr := canon (mapCtx s) k, mask := m, val := v })

def writeArrive (s : State) (f : Flit) : State :=
  match f.body with
  | .bytes a data mask card =>
    let note (s : State) (v : Nat) : State :=
      if f.partner || isDup s f then s else settle { s with fab := { s.fab with wrote := tset 0 s.fab.wrote (pairKey f.srcPm f.tag) v } }
    match remoteAccess s false f card a.toNat data.length with
    | .ok b =>
      let u := (s.touchHome true (b, data.length)).land 1023 7 (flitWrites s b data mask)
      note (if f.partner then u.withDirty s else u) 1
    | .error c => if f.partner then doneReply s f c a else note s (2 + c.toNat)
  | _ => s

/-- A ring, or the end of a PUT without one, waits until every counted flit is visible. -/
def endArrive (s : State) (f : Flit) : State :=
  match f.body with
  | .ringB .. => once s f (fun s => settle { s with fab := { s.fab with rings := s.fab.rings ++ [f] } })
  | .endB _ => once s f (fun s => settle { s with fab := { s.fab with rings := s.fab.rings ++ [f] } })
  | _ => s

/-- READ_REQ: the bytes return under the request's tag, or DONE with the class of the error. -/
def readArrive (s : State) (f : Flit) : State :=
  match f.body with
  | .readReq a n card =>
    match remoteAccess s true f card a.toNat n with
    | .error c => doneReply s f c a
    | .ok b =>
      let data := vbytes (mapCtx s) (viewOut s) b n
      let s := (s.touchHome false (b, n)).fresh
      let g := { mkFlit s 2 1 f.srcPm f.srcSeat f.tag n (.bytes a data [] none) with partner := f.partner }
      routeOut (keepFlit s g) g
  | _ => s

/-! ### Replies at the source -/

/-- Started link instructions with their tile and place. -/
def linkStarted (s : State) : List (Nat × Nat × Started) :=
  s.tiles.flatMap (fun (t, T) => ((T.startedQ 4).zip (List.range (T.startedQ 4).length)).map (fun (x, k) => (t, k, x)))

/-- The instruction that waits for a reply to a flit it sent. -/
def waiterOf (s : State) (pm : BitVec 11) (tag : BitVec 16) : Option (Nat × Nat × Started) :=
  (linkStarted s).find? (fun e => !e.2.2.ready && decide (e.2.2.pm = pm) && e.2.2.tags.contains tag)

/-- A started link instruction moves on, and the homes accept the writes it has got (R195). -/
def setLink (s : State) (t k : Nat) (x : Started) : State :=
  if tileQuiet s t then s else (s.onTile t (fun T => T.setStarted 4 ((T.startedQ 4).set k x))).accept x.writes

/-- Bytes a GET has received, those it lacks free. -/
def gotView (s : State) (l : List PW) : View := fun a =>
  match l.find? (fun w => decide (w.addr = a)) with
  | some w => w.val
  | none => BitVec.ofNat 8 (fld (Config.freeWord (s.free * 2 ^ 48 + a / 8)) (8 * (a % 8)) 8)

/-- What a GET writes: the elements of the source card in index order under the local card's addresses (R157). -/
def getWrites (s : State) (x : Started) : List PW :=
  match x.i.op with
  | .get _ a b =>
    let mc := mapCtx s
    let raw : MapCtx := { mc with raw := true }
    let vw := gotView s x.got
    (List.range (Nat.min a.size b.size)).flatMap (fun k =>
      writeCode mc b (b.ix k) (if sameForm a b then readCode raw vw a (a.ix k) else freeCode s k) ++
        writeLift mc b (k / b.cols) (k % b.cols) (readLift raw vw a (k / a.cols) (k % a.cols)))
  | _ => []

/-- The instruction ends with FLT_MEM_ERROR of a class; INFO0 is a fabric-global address (R157). Of classes 0x20, 0x23 and 0x24 nothing is
written (R236). -/
def failLink (s : State) (t k : Nat) (x : Started) (a : BitVec 64) (cls : Nat) : State :=
  setLink s.fresh t k { x with ready := true, writes := if cls = 0x20 ∨ cls = 0x23 ∨ cls = 0x24 then [] else getWrites s x,
                                   fail := some ⟨0x43, a, BitVec.ofNat 64 cls⟩ }

/-- The fabric-global address that a failed transfer reports: its card's base where the reply names none. -/
def linkAddr (x : Started) (a : BitVec 48) : BitVec 64 :=
  match x.i.op with
  | .put seat _ _ b => globalAddr seat (if a = 0 then b.base else a.toNat)
  | .get seat b _ => globalAddr seat (if a = 0 then b.base else a.toNat)
  | .rring seat .. => globalAddr seat a.toNat
  | _ => a.setWidth 64

/-- READ_DATA for a GET: when its last bytes are in, its writes are known. -/
def dataArrive (s : State) (f : Flit) : State :=
  match f.body, waiterOf s f.srcPm f.tag with
  | .bytes a data _ _, some (t, k, x) =>
    let got := x.got ++ (data.zip (upto a.toNat data.length)).map (fun (v, k) => { addr := k, mask := 0xFF, val := v })
    let x := { x with got := got, tags := x.tags.erase f.tag }
    if x.tags.isEmpty then setLink s.fresh t k { x with ready := true, writes := getWrites s x } else setLink s t k x
  | _, _ => s

/-- The context a host command acts on: its VF's own, or the one a PF command names (R396). -/
def cmdCtx (c : HostCmd) : Nat := if c.q.val = 0 then c.ctx.toNat else c.q.val - 1

/-- Commands in progress that `sel` selects end with a status; what has ended stands in the list in the order of its end. -/
def endWhere (s : State) (sel : CmdRec → Bool) (status : BitVec 16) (result : BitVec 64) : State :=
  let hit (r : CmdRec) : Bool := r.status.isNone && sel r
  { s with host := { s.host with cmds := s.host.cmds.filter (fun r => !hit r) ++
      (s.host.cmds.filter hit).map (fun r => { r with status := some status, result := result }) } }

/-- Commands in progress of some opcodes and a context end with a status. -/
def endCmds (s : State) (ops : List (BitVec 16)) (ctx : Nat) (status : BitVec 16) (result : BitVec 64) : State :=
  endWhere s (fun r => ops.contains r.op && decide (cmdCtx r.c = ctx)) status result

/-- The buddy has refused partner traffic: a job whose creation landing it belonged to does not come about (R328, R333). -/
def partnerRefused (s : State) : State :=
  (s.jobs.filter (fun e => (e.2.map (·.rcv.creating)).getD false)).foldl (fun s e => endCmds (setJob s e.1 none) [1, 2] e.1 0x0150 0) s

/-- A transfer of a running route plan has been acknowledged by a seat (R264). -/
def planAcked (s : State) (seat : Nat) : State :=
  let waits (x : Change) : Bool := decide (tget 0 x.awaits seat ≠ 0)
  match s.jobs.find? (fun e => match e.2.bind (·.change) with | some x => waits x | none => false) with
  | some (c, _) => onJob s c (fun j => { j with change := j.change.map (fun x => { x with awaits := tset 0 x.awaits seat (tget 0 x.awaits seat - 1) }) })
  | none => s

/-- DONE: a PUT or RRING has been applied at its seat, or the access met an error (DEDUCED, log 40). -/
def doneArrive (s : State) (f : Flit) : State :=
  match f.body with
  | .done c a r =>
    once s f (fun s =>
      if f.partner then (if c = 0 then s else partnerRefused s)
      else
      match waiterOf s f.srcPm r with
      | some (t, k, x) => if c = 0 then setLink s t k { x with ready := true } else failLink s t k x (linkAddr x a) c.toNat
      | none => if c = 0 then planAcked s f.srcSeat.toNat else s)
  | .endB _ => endArrive s f
  | _ => s

/-! ### Collectives at the members (R228 to R234) -/

/-- Rank of a seat in a class list. -/
def rankOf (l : ClassList) (seat : BitVec 10) : Option Nat := l.members.findIdx? (· = seat)

/-- The issuing instruction of a collective on this module; that of a quiet tile has stopped and sends nothing more (R354). -/
def collInstr (s : State) (c : Coll) : Option (Nat × Nat × Started) :=
  c.tile.bind (fun (t, q) => (linkStarted s).find? (fun e => decide (e.1 = t ∧ e.2.2.i.seq = q) && !tileQuiet s e.1))

/-- A message of a collective to every member. -/
def collAll (s : State) (vc : BitVec 4) (l : ClassList) (cl : Nat) (q : BitVec 16) (len : Nat) (m : CollBody) : State :=
  (List.range l.members.length).foldl (fun s r => sendColl s vc l cl q r len 0 m) s

/-- Verdict of the meeting point on every member's parameters (R228); anchors count for exact sums. -/
def collVerdict (ps : List CollParams) : BitVec 8 :=
  match ps with
  | [] => 0
  | p :: r =>
    if r.any (fun x => decide (x.op ≠ p.op ∨ x.exact ≠ p.exact ∨ x.count ≠ p.count)) then 0x26
    else if p.exact && ps.any (fun x => decide (x.anchor ≠ p.anchor ∨ x.dst ≠ p.anchor)) then 0x27 else 0

/-- The VC on which the meeting point sends its verdict: of the Classroom whose COLL rank 0 has started, before that of the pair on which
the parameters came (R217; DEDUCED, log 41). -/
def verdictVc (s : State) (c : Coll) (vc : BitVec 4) : BitVec 4 := match c.tile with | some (t, _) => dataVc s t | none => vc &&& 14

/-- Rank 0 takes a member's parameters, and gives its verdict once it has every member's. -/
def collParams (s : State) (l : ClassList) (cl : Nat) (q : BitVec 16) (r : Nat) (p : CollParams) (vc : BitVec 4) : State :=
  let k := collKey cl q
  let c := collAt s k
  let vc := verdictVc s c vc
  let ps := tset none c.params r (some p)
  let s := setColl s k (some { c with params := ps })
  if ps.length = l.members.length ∧ c.verdict.isNone then collAll s vc l cl q 0 (.verdict (collVerdict (ps.filterMap (·.2)))) else s

/-- The collective is over on this module; its messages are kept for a return. -/
def collOver (s : State) (k : Nat) : State := setColl s k (some { held := (collAt s k).held })

/-- A collective ends with an error class. The failing address is not stated: free. DDs may be partial unless nothing was sent
(0x20, 0x23) or the parameters differ (0x26, 0x27); 0x29 sets ABORTED with free counts (R228, R232, R234, R236; DEDUCED, log 40). -/
def collFail (s : State) (k : Nat) (cls : Nat) : State :=
  match collInstr s (collAt s k) with
  | some (t, i, x) =>
    match x.i.op with
    | .coll _ op _ _ b _ x1 =>
      let part := if cls = 0x20 ∨ cls = 0x23 ∨ cls = 0x26 ∨ cls = 0x27 then [] else freeOver s b
      let head := recvHead (Config.freeWord (s.free * 2 ^ 48 + 2 ^ 47)).toNat (Config.freeWord (s.free * 2 ^ 48 + 2 ^ 47 + 1)).toNat true
      let abort := if cls = 0x29 ∧ op = 4 then putBytes (mapCtx s) (slateOf t + recvList x1) (leBytes 8 head) else []
      let addr := BitVec.ofNat 64 (fld (Config.freeWord (s.free * 2 ^ 48 + 2 ^ 47 + 2)) 0 58)
      let s' := setLink s t i { x with ready := true, writes := part, fail := some ⟨0x43, addr, BitVec.ofNat 64 cls⟩ }
      collOver ((s'.land t 4 abort).fresh) k
    | _ => s
  | none => collOver s k

/-- What a COLL reads: memory, with what it met copying taken from LOW (R199). -/
def collView (s : State) (t : Nat) (es : List (Nat × Stage)) : View := stageView (mapCtx s) es (viewOf s t 4)

/-- What this member gives rank `dst` (R228, R231 to R233). -/
def contribution (s : State) (t : Nat) (es : List (Nat × Stage)) (l : ClassList) (op : Nat) (exact : Bool) (a : Card) (cnt x1 : BitVec 64)
    (dst : Nat) : List Byte :=
  let mc := mapCtx s
  let vw := collView s t es
  let p := l.members.length
  match op with
  | 2 => collElems mc vw op exact a 0 cnt.toNat
  | 4 => dispatchPart mc vw t (dispTable x1) (fld cnt 0 32) l.experts dst a
  | 5 => combinePart mc vw t (recvList x1) dst exact a
  | 6 => collElems mc vw op exact a 0 cnt.toNat
  | _ => let (lo, n) := chunkOf p cnt.toNat dst; collElems mc vw op exact a lo n

/-- Ranks that a member gives a contribution to. -/
def givesTo (p op rank : Nat) : List Nat := if op = 6 then [(rank + 1) % p] else List.range p
/-- Ranks whose contributions a member needs. -/
def needsFrom (p op rank : Nat) : List Nat := if op = 6 then [(rank + p - 1) % p] else List.range p

/-- An expert number that no rank holds (R232). -/
def badExpert (s : State) (t : Nat) (es : List (Nat × Stage)) (l : ClassList) (x1 : BitVec 64) (n : Nat) : Bool :=
  (dispatchList (mapCtx s) (collView s t es) t (dispTable x1) n).any (fun e => decide (e.2.2 ≥ l.members.length * l.experts))

/-- The chunk number of what a member gives rank `dst`: the chunk of R228 that the data are (DEDUCED, log 41). -/
def chunkNo (op rank dst : Nat) : Nat := if op = 2 then rank else if op = 0 ∨ op = 1 ∨ op = 3 then dst else 0

/-- Contributions received, in rank order. -/
def partsOf (c : Tab (Option (List Byte))) (rs : List Nat) : Option (List (List Byte)) := rs.mapM (fun r => tget none c r)

/-- A piece of what rank `r` gives; with the last one the whole stands (R214; DESIGN CHOICE, log 41). -/
def Coll.take (c : Coll) (r : Nat) (fin : Bool) (no total : Nat) (d : List Byte) : Coll :=
  let key (n : Nat) := (n * 2048 + r) * 2 + (if fin then 1 else 0)
  let ps := tset none c.pieces (key no) (some d)
  match partsOf ps ((List.range total).map key) with
  | none => { c with pieces := ps }
  | some l =>
    let c := { c with pieces := (List.range total).foldl (fun t n => tset none t (key n) none) ps }
    if fin then { c with finals := tset none c.finals r (some l.flatten) } else { c with parts := tset none c.parts r (some l.flatten) }

/-- The result on this member from its contributions (and, for an all-reduce, the owners' chunks): its writes, its counts,
and the rows it dropped. -/
def collResult (s : State) (t : Nat) (l : ClassList) (op : Nat) (exact : Bool) (a b : Card) (cnt x1 : BitVec 64)
    (parts finals : List (List Byte)) : List PW × NCount × Nat :=
  let p := l.members.length
  let unit := collUnit op exact a
  let (lo, n) := chunkOf p cnt.toNat l.rank
  let sums (d : List Byte) (clo cn : Nat) : List PW × NCount × Nat :=
    if exact then (putImages s b unit 0 d, {}, 0) else let (w, c) := putSums s b d clo cn; (w, c, 0)
  match op with
  | 0 => sums finals.flatten lo n
  | 1 => sums (joinAll exact a.kind unit n parts) 0 n
  | 4 => let (w, d) := dispatchResult s t x1 a b parts; (w, {}, d)
  | 5 => sums (combineSums (fld cnt 0 32) a.cols unit exact a.kind parts) 0 (fld cnt 0 32 * a.cols)
  | _ => (putCopies s a b unit 0 parts.flatten, {}, 0)

/-- The collective moves on as far as what has arrived allows: the owner of a chunk of an all-reduce sends its sum, and a
member that has everything writes its result (DESIGN CHOICE, log 41). -/
def collMove (s : State) (l : ClassList) (cl : Nat) (q : BitVec 16) : State :=
  let k := collKey cl q
  let c := collAt s k
  match c.verdict, collInstr s c with
  | some 0, some (t, _, x) =>
    match x.i.op with
    | .coll _ op exact a _ cnt _ =>
      let p := l.members.length
      match partsOf c.parts (needsFrom p op l.rank) with
      | none => s
      | some parts =>
        if op = 0 ∧ !(tget none c.finals l.rank).isSome then
          let d := toWire op exact a (joinAll exact a.kind (collUnit op exact a) (chunkOf p cnt.toNat l.rank).2 (parts.map (fromWire op exact a)))
          let s := setColl s k (some { c with finals := tset none c.finals l.rank (some d) })
          ((List.range p).filter (fun r => decide (r ≠ l.rank))).foldl (fun s r => sendData s (dataVc s t) l cl q r l.rank true d) s
        else s
    | _ => s
  | _, _ => s

/-- Everything has arrived: the member's result becomes its writes (DESIGN CHOICE, log 41). -/
def collFinish (s : State) (l : ClassList) (cl : Nat) (q : BitVec 16) : State :=
  let k := collKey cl q
  let c := collAt s k
  match c.verdict, collInstr s c with
  | some 0, some (t, i, x) =>
    match x.i.op with
    | .coll _ op exact a b cnt x1 =>
      let p := l.members.length
      match partsOf c.parts (needsFrom p op l.rank), (if op = 0 then partsOf c.finals (List.range p) else some []) with
      | some parts, some finals =>
        let (ws, n, drop) := collResult s t l op exact a b cnt x1 (parts.map (fromWire op exact a)) (finals.map (fromWire op exact a))
        let s := setLink (countColl s n).fresh t i { x with ready := true, writes := ws }
        let s := if drop = 0 then s else raiseTile s t 0x0033 drop cl
        collOver s k
      | _, _ => s
    | _ => s
  | _, _ => s

/-- A member has its verdict: it sends its contributions, or the collective ends (DESIGN CHOICE, log 41). -/
def collGo (s : State) (l : ClassList) (cl : Nat) (q : BitVec 16) (cls : BitVec 8) : State :=
  let k := collKey cl q
  let c := collAt s k
  if cls ≠ 0 then collFail s k cls.toNat
  else
    match collInstr s c with
    | some (t, _, x) =>
      match x.i.op with
      | .coll _ op exact a _ cnt x1 =>
        let s := setColl s k (some { c with verdict := some 0 })
        let vc := dataVc s t
        if op = 4 ∧ badExpert s t x.low l x1 (fld cnt 0 32) then collAll s vc l cl q 0 (.verdict 0x29)
        else (givesTo l.members.length op l.rank).foldl (fun s' r =>
          sendData s' vc l cl q r (chunkNo op l.rank r) false (toWire op exact a (contribution s t x.low l op exact a cnt x1 r))) s.fresh
      | _ => s
    | none => s

/-- What has come of collectives that no tile here has started is no part of a list that has lost a member, or whose counters go back
(R228, R234, R335). -/
def dropUnstarted (s : State) (n : Nat) : State :=
  { s with fab := { s.fab with colls := s.fab.colls.filter (fun e => decide (e.1 / 65536 ≠ n) || (e.2.bind (·.tile)).isSome) } }

/-- A COLL flit at a member. -/
def collArrive (s : State) (f : Flit) : State :=
  match f.body with
  | .coll cl q _ m =>
    match listAt s cl.toNat with
    | none => s
    | some l =>
      match rankOf l f.srcSeat with
      | none => s
      | some r =>
        let k := collKey cl.toNat q
        once s f (fun s =>
          match m with
          | .params op exact count anchor dst =>
            if l.rank = 0 then collParams s l cl.toNat q r { op := op, exact := exact, count := count, anchor := anchor, dst := dst } f.vc else s
          | .verdict c => collFinish (collMove (collGo s l cl.toNat q c) l cl.toNat q) l cl.toNat q
          | .chunk fin no total d =>
            collFinish (collMove (setColl s k (some ((collAt s k).take r fin no total d))) l cl.toNat q) l cl.toNat q)
  | _ => s

/-! ### Barriers (R119 to R121) -/

/-- Started BARRIERs of a class list that wait for their release. -/
def barrierWaiters (s : State) (cl : Nat) : List (Nat × Nat × Started) :=
  (linkStarted s).filter (fun e => !e.2.2.ready && (match e.2.2.i.op with | .barrier c _ => decide (c = cl) | _ => false))

/-- The release at a member: generation and release Bell go up by 1, and the BARRIER completes. -/
def barrierRelease (s : State) (cl : Nat) (l : ClassList) : State :=
  if !l.waiting then s
  else
    let s := setList s cl (some { l with waiting := false, gen := l.gen + 1 })
    (barrierWaiters s cl).foldl (fun s (t, k, x) =>
      match x.i.op with
      | .barrier _ b => setLink (bellAdd s b 1) t k { x with ready := true }
      | _ => s) s

/-- An arrival at the meeting point: with the last one the release goes to every member. -/
def barrierMeet (s : State) (cl : Nat) (l : ClassList) (seat : BitVec 10) : State :=
  let a := if l.arrived.contains seat then l.arrived else l.arrived ++ [seat]
  if l.members.all (fun m => a.contains m) then
    l.members.foldl (fun s m => sendSeat s 5 0 m 0 (.barrier (BitVec.ofNat 12 cl) l.gen true)) (setList s cl (some { l with arrived := [] }))
  else setList s cl (some { l with arrived := a })

def barrierArrive (s : State) (f : Flit) : State :=
  match f.body with
  | .barrier cl _ rel =>
    match listAt s cl.toNat with
    | none => s
    | some l =>
      once s f (fun s =>
        if rel then barrierRelease s cl.toNat l
        else if l.rank = 0 ∧ l.members.contains f.srcSeat then barrierMeet s cl.toNat l f.srcSeat else s)
  | _ => s

/-- Collectives of a class list in progress. -/
def listColls (s : State) (n : Nat) : List Nat := (s.fab.colls.filter (fun e => decide (e.1 / 65536 = n) && (e.2.bind (·.tile)).isSome)).map (·.1)

/-- Pending BARRIERs of the list abort: no Bell, generations kept (R121). -/
def abortBarriers (s : State) (n : Nat) (gen : BitVec 16) : State :=
  (barrierWaiters s n).foldl (fun s (t, k, x) =>
    setLink s t k { x with ready := true, fail := some ⟨0x45, BitVec.ofNat 64 n, gen.setWidth 64⟩ }) s

/-! ### RETURN (R223) -/

/-- A returned message of a collective or a barrier goes again after HOLD, or ends what it belonged to. -/
def returnedGroup (s : State) (ty : BitVec 4) (seat : BitVec 10) (dstPm : BitVec 11) (tag : BitVec 16) (arg : BitVec 40) (reason : BitVec 8) : State :=
  let cl := fld arg 0 12
  let hold := decide (seatState s seat.toNat = 2)
  if ty = 4 then
    let k := collKey cl (BitVec.ofNat 16 (fld arg 12 16))
    if hold then
      match (collAt s k).held.find? (fun g => decide (g.dstPm = dstPm ∧ g.tag = tag)) with
      | some g => emitSeat s g
      | none => s
    else collFail s k reason.toNat
  else if hold then
    let (g, s) := seatFlit s 5 0 seat 0 (.barrier (BitVec.ofNat 12 cl) (BitVec.ofNat 16 (fld arg 12 16)) (flag arg 28))
    emitSeat s g
  else
    (barrierWaiters s cl).foldl (fun s (t, k, x) => failLink s t k x (globalAddr seat.toNat 0) reason.toNat) s

def returnArrive (s : State) (f : Flit) : State :=
  match f.body with
  | .returned ty _ dstPm seat _ _ tag arg reason =>
    let hold := decide (seatState s seat.toNat = 2)
    if f.partner then
      if seatState s (fld (rget s ckpBlk) 0 11) = 2 then
        { s with fab := { s.fab with parked := s.fab.parked ++ s.fab.landed.filter (fun g => decide (g.dstPm = dstPm ∧ g.tag = tag)) } }
      else partnerRefused s
    else if ty = 4 ∨ ty = 5 then returnedGroup s ty seat dstPm tag arg reason
    else
      match s.fab.kept.reverse.find? (fun g => decide (g.ty = ty ∧ g.dstPm = dstPm ∧ g.tag = tag)) with
      | some g => if hold then { s with fab := { s.fab with parked := s.fab.parked ++ [g] } } else s
      | none =>
      match (if ty = 2 then none else waiterOf s dstPm tag) with
      | some (t, k, x) =>
        if hold then setLink s t k { x with parked := true, tags := [] }
        else failLink s t k x (linkAddr x 0) reason.toNat
      | none => s
  | _ => s

/-- A seat-map entry is written; what waited for the seat leaves when it becomes ACTIVE (DEDUCED, log 86). -/
def writeSeat (s : State) (i : Nat) (v : BitVec 64) : State := unpark (rset s (seatReg i) v) i

/-- A WRITE; one for the partner area waits at its sender while a landing is applied (R331). -/
def execWriteFlit (p : BitVec 6) (f : Flit) (s : State) : Host.Outcome State Fault Refusal :=
  .next (if f.partner && s.ward.release.isSome && routedHere s f then s else arrive s p 0 f (fun s => writeArrive s f))
def execReadReqFlit (p : BitVec 6) (f : Flit) (s : State) : Host.Outcome State Fault Refusal := .next (arrive s p 1 f (fun s => readArrive s f))
def execReadDataFlit (p : BitVec 6) (f : Flit) (s : State) : Host.Outcome State Fault Refusal := .next (arrive s p 2 f (fun s => dataArrive s f))
def execRingFlit (p : BitVec 6) (f : Flit) (s : State) : Host.Outcome State Fault Refusal := .next (arrive s p 3 f (fun s => endArrive s f))
def execCollFlit (p : BitVec 6) (f : Flit) (s : State) : Host.Outcome State Fault Refusal := .next (arrive s p 4 f (fun s => collArrive s f))
def execBarrierFlit (p : BitVec 6) (f : Flit) (s : State) : Host.Outcome State Fault Refusal := .next (arrive s p 5 f (fun s => barrierArrive s f))
def execDoneFlit (p : BitVec 6) (f : Flit) (s : State) : Host.Outcome State Fault Refusal := .next (arrive s p 6 f (fun s => doneArrive s f))
def execReturnFlit (p : BitVec 6) (f : Flit) (s : State) : Host.Outcome State Fault Refusal := .next (arrive s p 7 f (fun s => returnArrive s f))

end Sys2Proof.Machine
end

