-- ==== Sys2Proof/Machine/Ports.lean ====
section
/-! DEFINITION. Ports (R211 to R226), the time exchange (R235), the seat hold limit (R221) and class lists (R227, R234). -/
namespace Sys2Proof.Machine

/-! ### Port states (R225, R226) -/

def setPortState (s : State) (p st : Nat) : State := rfld s (portStatus p) 0 2 st

/-- A port event: port number and one more value. -/
def portEvent (s : State) (code p v : Nat) : State := raise s code p v [] none

/-- Flits that belong to the link itself and are not routed. -/
def linkLocal (f : Flit) : Bool := decide (f.ty = 8 ∨ f.ty = 9 ∨ f.ty = 11)

/-- Flits in a port's transmit buffer, oldest first. -/
def Port.flits (P : Port) : List Flit := (P.sent.map (·.2) ++ P.held).filter (fun f => !linkLocal f)

/-- A port's receive buffer is gone: what stood in it and waits at another port takes no place there any more. -/
def clearBuffer (s : State) (p : Nat) : State :=
  { s with fab := { s.fab with ports := s.fab.ports.map (fun e => (e.1, { e.2 with held := e.2.held.map (fun f =>
      if (f.inp.map (·.1.toNat)) = some p then { f with inp := none } else f) })) } }

/-- A port goes DOWN: routing stops selecting it, and its flits are routed again or returned (DEDUCED, log 38). -/
def portDown (s : State) (p : Nat) : State :=
  let s := clearBuffer s p
  let l := (portAt s p).flits
  l.foldl routeOut (setPort (setPortState s p 0) p { line := (portAt s p).line, reserved := (portAt s p).reserved })

/-- Loss of a port that was UP or ACTIVE (R226). -/
def portLoss (s : State) (p : Nat) : State := portEvent (rflag (portDown s p) (portStatus p) 3 true) 0x0032 p 0

/-- Training starts on a DOWN port whose PHY is calibrated (R404); the neighbour is not known until its next HELLO. -/
def portTrain (s : State) (p : Nat) : State :=
  if portState s p = 0 && !tget false s.sys.phyBad p then rflag (setPortState s p 1) (portNbr p) 18 false else s

/-- LNK_PORTn_CFG as software writes it: LONG only while ENABLE is 0, ACTIVE ignored below UP; ENABLE starts training, and
without it the port is not kept trained (DEDUCED, log 38; DEDUCED, log 86). -/
def portCfgWrite (s : State) (p : Nat) (v : BitVec 64) : State :=
  let old := rget s (portCfg p)
  let v := BitVec.ofNat 64 (fld v 0 4)
  let v := if flag old 0 then setFlag v 1 (flag old 1) else v
  let v := if portState s p < 2 then setFlag v 3 (flag old 3) else v
  let up := decide (portState s p ≥ 2)
  let s := rset s (portCfg p) v
  if !flag v 0 then (if up then portLoss s p else portDown s p)
  else
    let s := portTrain s p
    if up then setPortState s p (if flag v 3 then 3 else 2) else s

/-- The neighbour that a HELLO names. -/
def helloNbr (pm : BitVec 11) (port : BitVec 6) (twin : Bool) : BitVec 64 :=
  packBits [(0, pm.toNat), (11, port.toNat), (17, twin.toNat), (18, 1)]

/-- A port takes part in its link: neither it nor its module is quiet or in reset. -/
def portLive (s : State) (p : Nat) : Bool := fabricLive s && !tget false s.sys.portReset p

/-- A HELLO (R225): the first one after training makes the port UP, one from another neighbour makes an ACTIVE port UP (DEDUCED, log 38). -/
def helloArrive (s : State) (p : Nat) (f : Flit) : State :=
  match f.body with
  | .hello pm port twin _ =>
    let st := portState s p
    let n := helloNbr pm port twin
    if st = 1 ∧ (portAt s p).trained then portEvent (setPortState (rset s (portNbr p) n) p 2) 0x0031 p n.toNat
    else if st ≥ 2 then
      if rget s (portNbr p) = n then s
      else portEvent (rflag (setPortState (rset s (portNbr p) n) p 2) (portStatus p) 2 true) 0x0031 p n.toNat
    else s
  | _ => s

/-- HELLO on VC0 with PM, port, fabric and module time; flits of the link itself carry no route. -/
def helloSend (s : State) (p : Nat) : State :=
  if portState s p ≥ 2 then
    portSend s p { ty := 8, srcPm := selfPm s, srcSeat := selfSeat s, len := 16, body := .hello (selfPm s) (BitVec.ofNat 6 p) (isTwin s p) s.now }
  else s

/-! ### Credits and acknowledgements (R215, R218, R220) -/

/-- Held flits that have a credit leave, in order. -/
def drainPort (s : State) (p : Nat) : State :=
  (portAt s p).held.foldl (fun s f => portSend s p f) (setPort s p { portAt s p with held := [] })

/-- A VC holds flits and no credits. -/
def Port.stalled (P : Port) (vc : Nat) : Bool := P.held.any (fun f => decide (f.vc.toNat = vc)) && decide (tget 0 P.used vc ≥ vcDepth vc)

/-- A credit of a VC returns and the oldest flits are acknowledged; STALL clears once no VC is held (DEDUCED, log 38). -/
def creditBack (s : State) (p vc acked : Nat) : State :=
  let P := portAt s p
  let s := drainPort (setPort s p { P with used := tset 0 P.used vc (tget 0 P.used vc - 1), sent := P.sent.drop acked }) p
  if (portAt s p).held.isEmpty then rflag s (portStatus p) 4 false else s

/-- Replay from the sender by number: the flits from `num` onward go on the link again, in order and under their numbers. -/
def replay (s : State) (p : Nat) (num : BitVec 12) : State :=
  let P := portAt s p
  setPort s p { P with line := P.line ++ P.sent.dropWhile (fun e => decide (e.1 ≠ num)) }

/-! ### Time (R235) -/

def timeCfg : Nat := lnkBlk + 0x9000
def timeStatus : Nat := lnkBlk + 0x9008

/-- No context runs on the module (DEDUCED, log 39). -/
def noneRuns (s : State) : Bool :=
  s.tiles.all (fun e => !e.2.run) && (List.range 16).all (fun c => !flag (rget s (clsBlk + 0x100 + 32 * c + 16)) 9)

/-- The estimate from an exchange's four timestamps, with a symmetric path: module and parent send at `t1` and `t3`, parent and module
receive at `t2` and `t4` (R235; DEDUCED, log 39). -/
def timeOffset (t1 t2 t3 t4 : BitVec 64) : Int := ((t2 - t1).toInt + (t3 - t4).toInt) / 2

/-- An offset estimate from the parent: lock, unlock, and the step of an unlocked module on which no context runs. The slewing
of module time changes its rate, not its count of ns (DEDUCED, log 39). -/
def timeEstimate (s : State) (off : Int) : State :=
  let st := rget s timeStatus
  let good := if off.natAbs ≤ 10 then s.fab.good + 1 else 0
  let held : Int := max (-32767) (min 32767 off)
  let st := setFld st 16 16 (unsgn 16 held)
  if flag st 0 then
    if off.natAbs > 100 then
      raise { rset s timeStatus (setFlag (setFlag st 0 false) 1 true) with fab := { s.fab with good := 0 } } 0x0034 (unsgn 16 held) 0 [] none
    else { rset s timeStatus st with fab := { s.fab with good := good } }
  else
    let s' := { rset s timeStatus (setFlag st 0 (decide (good ≥ 16))) with fab := { s.fab with good := good } }
    if noneRuns s then { s' with now := s.now + BitVec.ofInt 64 off } else s'

/-- A TIME flit: at the parent port it is the answer of an exchange, at any other port it is a child's and is answered with the times
at which it came and goes. -/
def timeArrive (s : State) (p : Nat) (f : Flit) : State :=
  match f.body with
  | .time t1 t2 t3 =>
    if portState s p < 2 then s
    else if fld (rget s timeCfg) 0 6 = p then (if flag (rget s timeCfg) 6 then timeEstimate s (timeOffset t1 t2 t3 s.now) else s)
    else portSend s p { ty := 9, srcPm := selfPm s, srcSeat := selfSeat s, body := .time t1 s.now s.now }
  | _ => s

/-- The exchange with the parent, every 10 µs. -/
def timeSend (s : State) : State :=
  let p := fld (rget s timeCfg) 0 6
  if flag (rget s timeCfg) 6 ∧ p < 36 ∧ portState s p ≥ 2 then
    portSend s p { ty := 9, srcPm := selfPm s, srcSeat := selfSeat s, body := .time s.now 0 0 }
  else s

/-! ### The hold limit (R221) -/

/-- The instruction at the head of the link queue that a seat in HOLD holds (DEDUCED, log 22). -/
def holdExpiry (s : State) (t : Nat) : State :=
  if rget s (lnkBlk + 0x9018) = 0 ∨ !canStart s t then s
  else
    match ((s.tile t).queue 4).head? with
    | none => s
    | some i =>
      match opSeat i.op with
      | some seat =>
        if decide (seatState s seat = 2) && (match i.wait with | some (b, v) => bellMet s b v | none => true) then
          let s := addStarted (takeHead s t 4) t 4 { i := i, fail := some ⟨0x43, linkAddr { i := i } 0, 0x23⟩ }
          retire s t 4 (((s.tile t).startedQ 4).length - 1) .clean
        else s
      | none => s

/-! ### Class lists (R227, R234, R121) -/

/-- Class lists in use. -/
def listsUsed (s : State) : Nat := (s.fab.lists.filter (fun e => e.2.isSome)).length

/-- The lowest number that no class list has. -/
def freeList (s : State) : Option Nat := (List.range 4096).find? (fun n => (listAt s n).isNone)

/-- Firmware creates a class list, under the number asked for or the lowest free one, or refuses with ST_NO_GROUP (DEDUCED, log 43). -/
def listCreate (s : State) (n : Option (BitVec 12)) (members : List (BitVec 10)) (rank experts : Nat) : State :=
  if listsUsed s ≥ 4096 then { s with reply := .status 0x0170 }
  else
    match (match n with | some k => some k.toNat | none => freeList s) with
    | some k => { setList s k (some { members := members, rank := rank, experts := experts }) with reply := .value (BitVec.ofNat 64 k) }
    | none => { s with reply := .status 0x0170 }

/-- The fabric's part of a member's removal: barriers abort, collectives end with class 0x28 (DEDUCED, log 43). -/
def listRemove (s : State) (n : Nat) (seat : BitVec 10) : State :=
  match listAt s n with
  | none => s
  | some l =>
    let ms := l.members.erase seat
    let rank := match ms.findIdx? (· = selfSeat s) with | some r => r | none => l.rank
    let s := abortBarriers s n l.gen
    let s := setList s n (some { l with members := ms, rank := rank, arrived := [], waiting := false })
    dropUnstarted ((listColls s n).foldl (fun s k => collFail s k 0x28) s) n

def execHelloFlit (p : PortNo) (f : Flit) (s : State) : Host.Outcome State Fault Refusal :=
  .next (if portLive s p && decide (f.ty = 8) then takeFlit s p f (fun s => helloArrive (consume s p f) p f) else s)
def execTimeFlit (p : PortNo) (f : Flit) (s : State) : Host.Outcome State Fault Refusal :=
  .next (if portLive s p && decide (f.ty = 9) then takeFlit s p f (fun s => timeArrive (consume s p f) p f) else s)
/-- An IDLE flit has no effect beyond its number and its credit (R214, R215, R218). -/
def execIdleFlit (p : PortNo) (f : Flit) (s : State) : Host.Outcome State Fault Refusal :=
  .next (if portLive s p && decide (f.ty = 11) then takeFlit s p f (fun s => consume s p f) else s)
/-- A flit that its route entry does not deliver here passes, and keeps its place in the receive buffer until it leaves; one of a reserved
TYPE is discarded, wherever it goes (R214, R218). -/
def execFlitForward (p : PortNo) (f : Flit) (s : State) : Host.Outcome State Fault Refusal :=
  .next (if portLive s p && portTakes s p f && (reservedType f || !routedHere s f) && !linkLocal f then
    takeFlit s p f (fun s => forward s (standing p f)) else s)
def execFlitReplay (p : PortNo) (num : BitVec 12) (s : State) : Host.Outcome State Fault Refusal :=
  .next (if portLive s p then replay s p num else s)
def execCreditReturn (p : PortNo) (vc : BitVec 4) (acked : Nat) (s : State) : Host.Outcome State Fault Refusal :=
  .next (if portLive s p && decide (portState s p ≥ 2) then creditBack s p vc.toNat acked else s)
def execHelloTimer (p : PortNo) (s : State) : Host.Outcome State Fault Refusal := .next (if portLive s p then helloSend s p else s)
/-- 8 consecutive HELLOs missed, or training lost. -/
def execHelloTimeout (p : PortNo) (s : State) : Host.Outcome State Fault Refusal := .next (if portState s p ≥ 2 then portLoss s p else s)
def execRetrainTimer (p : PortNo) (s : State) : Host.Outcome State Fault Refusal :=
  .next (if flag (rget s (portCfg p)) 0 && portLive s p then portTrain s p else s)
def execPortEnable (p : PortNo) (s : State) : Host.Outcome State Fault Refusal :=
  .next (portCfgWrite s p (setFlag (rget s (portCfg p)) 0 true))
def execPortActive (p : PortNo) (s : State) : Host.Outcome State Fault Refusal :=
  .next (portCfgWrite s p (setFlag (rget s (portCfg p)) 3 true))
def execEvtLinkStall (p : PortNo) (vc : BitVec 4) (s : State) : Host.Outcome State Fault Refusal :=
  .next (if rget s (lnkBlk + 0x9010) ≠ 0 ∧ (portAt s p).stalled vc.toNat then
    portEvent (rflag s (portStatus p) 4 true) 0x0030 p vc.toNat else s)
def execHoldLimitExpiry (t : TileNo) (s : State) : Host.Outcome State Fault Refusal := .next (holdExpiry s t)
def execTimeExchange (s : State) : Host.Outcome State Fault Refusal := .next (if fabricLive s then timeSend s else s)
def execClassListCreate (n : Option (BitVec 12)) (members : List (BitVec 10)) (rank experts : Nat) (s : State) :
    Host.Outcome State Fault Refusal := .next (listCreate s n members rank experts)
def execClassListDelete (n : BitVec 12) (s : State) : Host.Outcome State Fault Refusal := .next (setList s n.toNat none)

end Sys2Proof.Machine
end

