-- ==== Sys2Proof/Machine/Copy.lean ====
section
/-! DEFINITION. What a seat keeps at its buddy (R327 to R337): the partner area and its parts, job, table and journal records,
the Copybook scan, and landings as partner WRITE flits, whose addresses count from the start of the partner area. -/
namespace Sys2Proof.Machine

def ckpStatus : Nat := ckpBlk + 8
/-- Seat-map index of the buddy, none where CKP_CFG is not VALID. -/
def buddyIx (s : State) : Option Nat := if flag (rget s ckpBlk) 11 then some (fld (rget s ckpBlk) 0 11) else none

/-! ### The checkpoint descriptor (R329) -/

def Job.method (j : Job) (r : Nat) : Bool := decide (wfld j.desc 0 r 1 = 1)
/-- Some region uses Recitation. -/
def Job.recites (j : Job) : Bool := decide (wfld j.desc 0 0 64 ≠ 0)
def Job.copyEvery (j : Job) : Nat := wfld j.desc 1 0 13
def Job.archEvery (j : Job) : Nat := wfld j.desc 1 16 13
def Job.archSets (j : Job) : Nat := wfld j.desc 1 32 6
def Job.storeEvery (j : Job) : Nat := wfld j.desc 1 40 12
def Job.journalIn (j : Job) : Nat := wfld j.desc 2 0 48
/-- Class lists checkpointed with the job; GATE_LIST always is. -/
def Job.namedLists (j : Job) : List Nat :=
  let l := ((List.range 48).map (fun i => leNat ((j.desc.drop (32 + 2 * i)).take 2))).filter (fun x => decide (x ≠ 0xFFFF))
  if l.contains j.gateList then l else l ++ [j.gateList]

/-- Every sheet of the state regions in order: its region and address. -/
def Job.sheets (j : Job) : List (Nat × Nat) :=
  (j.regionList.zip (List.range j.regionList.length)).flatMap (fun (r, i) => (List.range (r.2 / 4096)).map (fun k => (i, r.1 + 4096 * k)))
/-- Sheets of the Copybook regions. -/
def Job.copySheets (j : Job) : List (Nat × Nat) := j.sheets.filter (fun e => !j.method e.1)

/-! ### The partner area (R328), in sheets from its start -/

structure AreaMap where
  defn : Nat
  live : Nat
  landing : Nat
  slots : Nat
  base : Nat
  journal : Nat
  ring : Nat
  total : Nat
  deriving DecidableEq, Repr

/-- Bytes of the definition: Timetable, class and region tables, checkpoint descriptor, both route plans (DESIGN CHOICE, log 64). -/
def Job.definition (j : Job) : List Byte := j.tt ++ j.classes ++ j.regions ++ j.desc ++ j.learnPlan ++ j.genPlan

def Job.area (j : Job) : AreaMap :=
  let d := cdiv j.definition.length 4096
  let tbl := 8 + j.namedLists.length
  let l := j.copySheets.length + 65 + tbl
  let b := if j.recites then j.sheets.length + 65 + tbl else 0
  let m := Nat.max l b
  let ring := if j.recites then Nat.max (j.copyEvery + 1) 2 else 2
  { defn := 1, live := 1 + d, landing := 1 + d + l, slots := m, base := 1 + d + l + m + cdiv m 1024,
    journal := 1 + d + l + m + cdiv m 1024 + b, ring := ring, total := 1 + d + l + m + cdiv m 1024 + b + ring }

/-! ### Records (R334, R336, R337) -/

/-- A byte list padded with zeros. -/
def padTo (n : Nat) (l : List Byte) : List Byte := l ++ List.replicate (n - l.length) 0

/-- The 64-byte block of a tensor in the job record (DESIGN CHOICE, log 64). -/
def tensorBlock (t : TensorSt) : List Byte :=
  let slots := List.replicate (16 - t.hist.length) none ++ t.hist.reverse
  let mask := (slots.zip (List.range 16)).foldl (fun m (x, i) => if x.isNone then m + 2 ^ i else m) 0
  padTo 64 (leBytes 1 (unsgn 8 t.exp) ++ leBytes 2 mask ++ [0] ++ slots.flatMap (fun x => leBytes 2 (unsgn 16 (x.getD 0))))

/-- Word 0 of the replacement record (R273). -/
def replWord0 (j : Job) : Nat := j.repl.eOld.toNat + j.repl.eNew.toNat * 2 ^ 32

/-- The job record, 65 sheets, of the state `r` after step NEXT - 1. -/
def jobRecord (j : Job) (r : JobRec) : List Byte :=
  padTo 4096 (leBytes 8 ((r.next + 2 ^ 32 - 1) % 2 ^ 32) ++ leBytes 8 (unsgn 8 r.ls + r.streak % 2 ^ 16 * 2 ^ 8 + r.epoch.toNat * 2 ^ 32) ++
    leBytes 8 r.repl.toNat) ++
  padTo (64 * 4096) (j.classList.flatMap (fun e => tensorBlock (tget {} r.tensors (clsTid e))))

/-- One class list of the table record (DESIGN CHOICE, log 64). -/
def listSheet (s : State) (n : Nat) : List Byte :=
  match listAt s n with
  | some l =>
    padTo 4096 (leBytes 2 n ++ leBytes 2 l.rank ++ leBytes 2 l.members.length ++ leBytes 2 l.experts ++ leBytes 2 l.cGen.toNat ++
      leBytes 2 l.cSeq.toNat ++ leBytes 4 0 ++ l.members.flatMap (fun m => leBytes 2 m.toNat))
  | none => padTo 4096 (leBytes 2 n)

def seatMapBytes (s : State) : List Byte := (List.range 2048).flatMap (fun i => leBytes 8 (rget s (seatReg i)).toNat)
def routeBytes (s : State) : List Byte := (List.range 2048).flatMap (fun p => leBytes 8 (rget s (routeReg p)).toNat)
def listBytes (s : State) (j : Job) : List Byte := j.namedLists.flatMap (listSheet s)
def tableRecord (s : State) (j : Job) : List Byte := seatMapBytes s ++ routeBytes s ++ listBytes s j
/-- What decides whether the table record is copied (R330). -/
def tableKey (s : State) (j : Job) : List Byte := seatMapBytes s ++ listBytes s j

/-- A journal record: `j` is the job after the step, `kind` 0 committed or 1 skipped. -/
def journalRecord (step attempts kind : Nat) (j : Job) (time : BitVec 64) (crc : Nat) (input : List Byte) : List Byte :=
  padTo 4096 (leBytes 8 (step % 2 ^ 32 + attempts * 2 ^ 32 + kind * 2 ^ 36) ++
    leBytes 8 (unsgn 8 j.rcv.sStart + unsgn 8 j.ls * 2 ^ 8 + j.streak % 2 ^ 16 * 2 ^ 16 + j.epoch.toNat * 2 ^ 32) ++
    leBytes 8 time.toNat ++ leBytes 8 crc ++ leBytes 32 0 ++ input)

/-- The journal record of a step. -/
def journalOf (j : Job) (step : Nat) : Option (List Byte) := j.rcv.journal.find? (fun r => decide (wfld r 0 0 32 = step % 2 ^ 32))
/-- The journal records of steps after a step, the step number read modulo 2^32. -/
def journalAfter (j : Job) (step : Nat) : List (List Byte) :=
  j.rcv.journal.filter (fun r => let d := (wfld r 0 0 32 + 2 ^ 32 - step % 2 ^ 32) % 2 ^ 32; decide (0 < d ∧ d < 2 ^ 31))

/-- REPORT_CRC: CRC-32C over words 0 and 2 to 39 of a Step Report. -/
def reportCrc (r : List Byte) : Nat := crc32c (r.take 8 ++ r.drop 16)

/-! ### Sending to the buddy -/

/-- The bytes of a transfer to an address, by flit: address and data, 239 bytes in the first and at most 240 in each other (R214). -/
def dataPieces (a : Nat) (l : List Byte) : List (Nat × List Byte) :=
  (List.range (l.length / 240 + 1)).map (fun k => let o := if k = 0 then 0 else 240 * k - 1; (a + o, (l.drop o).take (if k = 0 then 239 else 240)))

/-- Bytes to an offset of the partner area, as WRITE flits on VC2 (R330; DESIGN CHOICE, log 65). -/
def sendPartner (s : State) (off : Nat) (data : List Byte) : State :=
  match buddyIx s with
  | none => s
  | some ix =>
    (dataPieces off data).foldl (fun s (o, b) =>
      let pm := seatPm s ix
      let (t, s) := takeTag s pm
      let f := { mkFlit s 0 2 pm (BitVec.ofNat 10 ix) t (flitLen (o - off) b.length) (.bytes (BitVec.ofNat 48 o) b [] none) with partner := true }
      let s := { s with fab := { s.fab with landed := s.fab.landed ++ [f] } }
      match seatState s ix with
      | 1 => routeOut s f
      | 2 => { s with fab := { s.fab with parked := s.fab.parked ++ [f] } }
      | _ => let (g, s) := returnOf s f 0x20; localSend s g) s

/-- A sheet of a landing: the key that its index entry holds, and its bytes. Keys number the region sheets, then the job
record, then the table record. -/
abbrev Landed := Nat × List Byte

/-- A landing and its index, which ends at a key of ones or at its last slot (DESIGN CHOICE, log 65). -/
def sendLanding (s : State) (j : Job) (l : List Landed) : State :=
  let a := j.area
  let s := (l.zip (List.range l.length)).foldl (fun s (e, i) => sendPartner s (4096 * (a.landing + i)) e.2) s
  sendPartner s (4096 * (a.landing + a.slots)) (l.flatMap (fun e => leBytes 4 e.1) ++ if l.length < a.slots then leBytes 4 0xFFFFFFFF else [])

/-- The flits of the landing need not be sent again. -/
def dropLanded (s : State) : State := { s with fab := { s.fab with landed := [] } }

def sheetBytes (s : State) (a : Nat) : List Byte := vbytes (mapCtx s) (viewOut s) a 4096
def isDirty (s : State) (a : Nat) : Bool := tget false s.m.dirty (canon (mapCtx s) a / 4096)

/-- Sheets of a record with their keys. -/
def recordSheets (key : Nat) (r : List Byte) : List Landed := (List.range (r.length / 4096)).map (fun i => (key + i, (r.drop (4096 * i)).take 4096))

/-- Region sheets that a scan copies (R330), with their keys. -/
def scanSheets (s : State) (j : Job) (full : Bool) : List (Nat × Nat) :=
  ((j.sheets.zip (List.range j.sheets.length)).filter (fun (e, _) => if j.method e.1 then full else j.rcv.whole || isDirty s e.2)).map
    (fun (e, k) => (k, e.2))

/-- Dirty bits of the state regions are read and cleared. -/
def clearDirty (s : State) (j : Job) : State :=
  let ks := j.sheets.map (fun e => canon (mapCtx s) e.2 / 4096)
  { s with m := { s.m with dirty := s.m.dirty.filter (fun e => !ks.contains e.1) } }

/-- Job record `r` and table record as landed sheets; the table record where `table`. -/
def landedRecords (s : State) (j : Job) (r : JobRec) (table : Bool) : List Landed :=
  let n := j.sheets.length
  recordSheets n (jobRecord j r) ++ (if table then recordSheets (n + 65) (tableRecord s j) else [])

/-- The step that has just committed is a full-copy step. -/
def fullStep (j : Job) : Bool := (j.recites && decide (j.rcv.last.next % j.copyEvery = 0)) || j.rcv.whole

/-- The key of a journal record in a landing's index (DESIGN CHOICE, log 65). -/
def Job.journalKey (j : Job) : Nat := j.sheets.length + 65 + 8 + j.namedLists.length

/-- The place of a step's journal record in the partner area. -/
def Job.journalAt (j : Job) (step : Nat) : Nat := 4096 * (j.area.journal + step % j.area.ring)

/-- The Copybook scan of a commit and its landing, with the step's journal record, which has no slot left where every other sheet
is sent; `j` is the job after the commit point (R330; DESIGN CHOICE, log 65). -/
def copybook (s : State) (ctx : Nat) (j : Job) : State :=
  let full := fullStep j
  let sh := scanSheets s j full
  let table := decide (tableKey s j ≠ j.rcv.table) || j.rcv.whole
  let l := sh.map (fun e => (e.1, sheetBytes s e.2)) ++ landedRecords s j j.rcv.last table
  let s' := sh.foldl (fun s e => s.pass false (e.2, 4096)) s
  let s' := match journalOf j (j.rcv.last.next - 1) with
    | some r =>
      if l.length < j.area.slots then sendLanding s' j (l ++ [(j.journalKey, r)]) else sendPartner (sendLanding s' j l) (j.journalAt (j.rcv.last.next - 1)) r
    | none => sendLanding s' j l
  onJob (clearDirty s' j).fresh ctx (fun j => { j with rcv := { j.rcv with landing := sh.map (·.2), whole := false, table := tableKey s j, scanWait := false, sent := j.rcv.last } })

/-- The whole of a job's committed state, with job record `r`, as one landing with its definition (R333, R341). -/
def sendWhole (s : State) (ctx : Nat) (j : Job) (r : JobRec) : State :=
  let l := (j.sheets.zip (List.range j.sheets.length)).map (fun (e, k) => (k, sheetBytes s e.2)) ++ landedRecords s j r true
  let s' := j.sheets.foldl (fun s e => s.pass false (e.2, 4096)) s
  let s' := sendPartner s' 4096 (padTo (4096 * (j.area.live - 1)) j.definition)
  onJob (sendLanding s' j l).fresh ctx (fun j => { j with rcv := { j.rcv with table := tableKey s j, sent := r, unsent := false } })

/-- REPROTECT reads 1 while the transfer of a job's re-protection runs (R341). -/
def showReprotect (s : State) : State :=
  rflag s ckpStatus 33 (s.jobs.any (fun e => match e.2 with | some j => j.rcv.reprotect && !j.rcv.unsent | none => false))

/-- A re-protection that had to wait is sent (R341; DEDUCED, log 68). -/
def sendLate (s : State) (ctx : Nat) (j : Job) (r : JobRec) : State := showReprotect (sendWhole s ctx j r)

/-! ### Committed records -/

/-- The committed counters of the job's class lists become those in use now (R335). -/
def commitLists (s : State) (j : Job) : State :=
  j.namedLists.foldl (fun s n => match listAt s n with
    | some l => setList s n (some { l with cGen := l.gen, cSeq := l.seq })
    | none => s) s

/-- Before an attempt is repeated the counters go back to their committed values (R335). -/
def restoreLists (s : State) (j : Job) : State :=
  j.namedLists.foldl (fun s n => match listAt s n with
    | some l => dropUnstarted (setList s n (some { l with gen := l.cGen, seq := l.cSeq, arrived := [], waiting := false })) n
    | none => s) s

/-- The numerical state of the job at its last committed step. -/
def recOf (s : State) (j : Job) : JobRec :=
  { next := j.next, ls := j.ls, streak := j.streak, epoch := j.epoch, repl := BitVec.ofNat 64 (replWord0 j), tensors := j.tensors,
    lists := j.namedLists.filterMap (fun n => (listAt s n).map (fun l => (n, l.cGen, l.cSeq))) }

/-- A committed record is loaded into the job. -/
def Job.load (j : Job) (r : JobRec) : Job :=
  { j with next := r.next, ls := r.ls, streak := r.streak, epoch := r.epoch, tensors := r.tensors, attempt := 0, aborts := 0,
           repl := { j.repl with eOld := r.repl.setWidth 32, eNew := (r.repl >>> 32).setWidth 32 }, gates := 0, commits := 0, outcome := none, optFail := false, stateStarted := false, expCorr := false, scaleClamp := false }

/-- A committed record's class-list counters are loaded. -/
def loadLists (s : State) (r : JobRec) : State :=
  r.lists.foldl (fun s e => match listAt s e.1 with
    | some l => dropUnstarted (setList s e.1 (some { l with gen := e.2.1, seq := e.2.2, cGen := e.2.1, cSeq := e.2.2, arrived := [], waiting := false })) e.1
    | none => s) s

end Sys2Proof.Machine
end

