-- ==== Sys2Proof/Machine/TileCtl.lean ====
section
/-! DEFINITION. Tile control (R122 to R133): the commands of TILE_CTRL, the end of a drain, preemption with its save image,
restore, and software writes of the TILE_ registers. -/
namespace Sys2Proof.Machine

/-! ### Stopping and starting (R122, R125, R133) -/

/-- TILE_STATUS.DRAINED: no started instruction (R133; DEDUCED, log 27). -/
def drained (T : Tile) : Bool := [0, 1, 2, 3, 4].all (fun q => (T.startedQ q).isEmpty)
/-- No queue holds an unstarted instruction. -/
def queuesEmpty (T : Tile) : Bool := [0, 1, 2, 3, 4].all (fun q => (T.queue q).isEmpty)

/-- Issue at TILE_PC begins and the queues start from their heads. -/
def Tile.resume (T : Tile) : Tile :=
  { T with run := true, stopped := false, halt := .none, bwait := none, pendResume := false, lost := false, bellLate := false }
/-- Every unstarted instruction is discarded; the issued view follows the Abacus again (R422). -/
def Tile.flush (T : Tile) : Tile :=
  { T with queues := [], waits := [], met := [], bwait := none, pendFlush := false,
           aba := { T.aba with iFused := T.aba.fused, iAnchor := T.aba.anchor, iValid := T.aba.valid } }

/-- A FLUSH that has waited for the drain acts once DRAINED is 1 (R125). -/
def Tile.flushDue (T : Tile) : Tile := if T.pendFlush && drained T then T.flush else T

/-- TILE_CTRL commands act: neither quiet (R354) nor in a reset or a preemption (DEDUCED, log 23). -/
def ctlLive (s : State) (t : Nat) : Bool :=
  !tileQuiet s t && !(s.tile t).resetting && decide ((s.tile t).pre = .idle) && !dieDead s (dieOf t) && !s.sys.modReset

/-- GO; after a FLUSH that still waits for the drain it waits too (R125). -/
def tileGo (s : State) (t : Nat) : State :=
  let T := s.tile t
  if ctlLive s t && !T.run then s.setTile t (if T.flushDue.pendFlush then { T with pendResume := true } else T.flushDue.resume) else s
def tileStop (s : State) (t : Nat) : State :=
  if ctlLive s t && (s.tile t).run then s.onTile t Tile.stopIssue else s
/-- RESUME waits until DRAINED is 1; it does not touch a tile that runs (DEDUCED, log 23). -/
def tileResume (s : State) (t : Nat) : State :=
  let T := s.tile t
  if !ctlLive s t || T.run then s
  else if drained T then s.setTile t T.flushDue.resume else s.setTile t { T with pendResume := true }
/-- FLUSH waits until DRAINED is 1; it does not touch a tile that runs (DEDUCED, log 23). -/
def tileFlush (s : State) (t : Nat) : State :=
  let T := s.tile t
  if !ctlLive s t || T.run then s
  else if drained T then s.setTile t T.flush else s.setTile t { T with pendFlush := true }

/-- The tile has stopped: every queue is empty after a stop or an issue fault, nothing is started after an execution
fault (DEDUCED, log 27). -/
def atStop (T : Tile) : Bool := !T.run && drained T && T.access.isEmpty && decide (T.halt ≠ .none) && (decide (T.halt = .hold) || queuesEmpty T)

/-- Firmware's restart of a tile after a fault: FLUSH, TILE_FAULT cleared, TILE_PC and GO (R254). -/
def Tile.restarted (T : Tile) (pc : BitVec 48) : Tile :=
  { T.flush.resume with pc := pc.setWidth 64, restart := none, fault := { T.fault with code := 0, more := 0, valid := false } }

def isCommit : EngineOp → Bool
  | .commit .. => true
  | _ => false

/-- Firmware can restart the tile: nothing is started, but for the COMMITs of a job that replays, which complete when the replay ends
(R125, R338, R339; DEDUCED, log 68). -/
def restartReady (s : State) (T : Tile) : Bool :=
  [0, 1, 2, 3].all (fun q => (T.startedQ q).isEmpty) && (T.startedQ 4).all (fun x => isCommit x.i.op && !x.ready) &&
    ((T.startedQ 4).isEmpty || (match jobOf s T.ctx.toNat with | some j => j.rcv.replay.isSome | none => false))

/-- A restart waits, like the FLUSH it begins with, until the tile is drained. -/
def restartTile (s : State) (t : Nat) (pc : BitVec 48) : State :=
  let T := s.tile t
  if !ctlLive s t then s else if restartReady s T then s.setTile t (T.restarted pc) else s.setTile t { T with run := false, restart := some pc }

/-- STOPPED sets at the end of the drain, and a FLUSH or RESUME that waited for DRAINED proceeds (DEDUCED, log 23; DEDUCED, log 27). -/
def drainEnd (s : State) (t : Nat) : State :=
  let T := s.tile t
  if !ctlLive s t || T.run then s
  else if !drained T then (match T.restart with | some pc => if restartReady s T then s.setTile t (T.restarted pc) else s | none => s)
  else
    let T := if atStop T then { T with stopped := true } else T
    let T := T.flushDue
    s.setTile t (match T.restart with | some pc => T.restarted pc | none => if T.pendResume then T.resume else T)

/-! ### Preemption (R128, R129, R203) -/

def tilePreempt (s : State) (t : Nat) : State :=
  if ctlLive s t then s.onTile t (fun T => { T with pre := .asked, wasRun := T.run, run := false, saved := false, bwait := none }) else s

/-- The drain of steps 2 and 3 has ended: only Mover instructions are started, no scalar access is in flight and no stage
entry copies. -/
def preDrained (T : Tile) : Bool :=
  [0, 1, 2, 4].all (fun q => (T.startedQ q).isEmpty) && T.access.isEmpty && T.stages.all (fun e => decide (e.2.state ≠ 1))

/-- The number of each write's sheet among the sheets that a list of writes goes through, in its order. -/
def sheetRuns : Nat → Option Nat → List PW → List Nat
  | _, _, [] => []
  | n, p, w :: ws =>
    let k := w.addr / 4096
    let n := if p.isSome ∧ p ≠ some k then n + 1 else n
    n :: sheetRuns n (some k) ws

/-- A write of a started Mover instruction lies before its resume point. A MOVE has done a free number of whole progress units, none
beyond the 16 that advance: of a scatter-add the additions of those units' elements (its writes end with the last element's),
elsewhere the bits that those units write. A PACK has done a free number of the sheets it writes (R128, R183; DEDUCED, log 25). -/
def beforePoint (s : State) (T : Tile) (k : Nat) (x : Started) : Nat → PW → Bool :=
  let n := (Config.freeWord s.free).toNat
  match x.i.op with
  | .move mode a b =>
    let units := n % (moveUnit mode a b (a.size - 1) + 2)
    let ahead := decide (movesBefore T k < 16)
    if mode = 2 then
      fun i _ => ahead && decide (moveUnit mode a b (a.size - cdiv (x.writes.length - i) (fmtBits b.fmt / 8)) < units)
    else
      let done := unitBits (mapCtx s) mode a b units
      fun _ w => ahead && decide (maskAt done w.addr &&& w.mask ≠ 0)
  | _ =>
    let l := sheetRuns 0 none x.writes
    let done := n % (l.getLastD 0 + 2)
    fun i _ => decide (l.getD i 0 < done)

/-- A started Mover instruction stops at a resume point: its writes before the point land, and the rest is recorded under its
tag (DEDUCED, log 25). -/
def moverPoint (s : State) (t : Nat) (k : Nat) : State :=
  match ((s.tile t).startedQ 3)[k]? with
  | some x =>
    let p := beforePoint s (s.tile t) k x
    let ws := (List.range x.writes.length).zip x.writes
    let s := s.fresh.land t 3 ((ws.filter (fun w => p w.1 w.2)).map (·.2))
    s.onTile t (fun T => T.setStarted 3 (((T.startedQ 3).zip (List.range (T.startedQ 3).length)).map (fun (y, i) =>
      if i = k then { y with writes := (ws.filter (fun w => !p w.1 w.2)).map (·.2) } else y)))
  | none => s

/-- Step 4 begins: the Mover's resume points stand and every stage entry is idle (R203; DEDUCED, log 25). -/
def preemptSave (s : State) (t : Nat) : State :=
  if decide ((s.tile t).pre = .asked) && preDrained (s.tile t) && !tileQuiet s t then
    let s := (List.range ((s.tile t).startedQ 3).length).foldl (fun s k => moverPoint s t k) s
    s.onTile t (fun T => { T with pre := .saving, stages := T.stages.filterMap (fun e =>
      let g : Stage := { e.2 with state := 0, active := false, disarm := false }
      if g = {} then none else some (e.1, g)) })
  else s

/-! ### The save image (R129, R131) -/

def imageSize : Nat := 7143424
def offV : Nat := 4096
def offCells : Nat := 176 * 1024
def offRows : Nat := 816 * 1024
def offSlate : Nat := 832 * 1024

/-- Bytes of the image whose packing is internal (DESIGN CHOICE, log 24). -/
def freeImage (s : State) (o n : Nat) : List Byte :=
  (upto o n).map (fun a => BitVec.ofNat 8 (fld (Config.freeWord (s.free * 2 ^ 24 + a / 8)) (8 * (a % 8)) 8))

/-- The header: its four fixed fields, then the internal part, in which the model keeps the number of the save. -/
def imageHeader (s : State) (t id : Nat) : List Byte :=
  leBytes 8 1 ++ leBytes 8 (tileCtx s t).toNat ++ leBytes 2 t ++ freeImage s 18 6 ++ leBytes 8 id ++ freeImage s 32 4064

/-- The save image of tile `t` (DESIGN CHOICE, log 24). -/
def imageBytes (s : State) (t id : Nat) : List Byte :=
  let T := s.tile t
  imageHeader s t id ++ (List.range 64).flatMap (fun i => leBytes 512 (T.vr i).toNat) ++ freeImage s (36 * 1024) (140 * 1024) ++
    (List.range 32768).flatMap (fun i => leBytes 20 (tget 0 T.aba.cells i).toNat) ++
    (List.range 256).flatMap (fun i => leBytes 64 (rowWords (T.row i))) ++ vbytes (mapCtx s) (memGet s.m) (slateOf t) slateSize

/-- TILE_SAVE_BASE names populated memory for a whole image. -/
def imagePlace (s : State) (T : Tile) : Bool :=
  let b := T.saveBase.toNat
  match regionOf (mapCtx s) b ((b + imageSize - 1 : Nat) : Int) with
  | .dram => true
  | .cupb => true
  | _ => false

/-- The error that an image access meets; an address that holds no memory has class 0x07 (R190). -/
def imageError (s : State) (t : Nat) (rd : Bool) : Option ExecFault :=
  let T := s.tile t
  if !imagePlace s T then some ⟨0x43, T.saveBase.setWidth 64, 0x07⟩ else accessError s rd T.saveBase.toNat imageSize

/-- What a tile whose state has been saved, or is to be replaced, holds: no work, and nothing runs. -/
def Tile.emptied (T : Tile) : Tile :=
  { T with run := false, stopped := true, halt := .hold, pre := .idle, queues := [], started := [], access := [], waits := [], met := [],
           bwait := none, pendResume := false, pendFlush := false, restart := none }

/-- Step 5: the image is written and SAVED sets. Where TILE_SAVE_BASE names no populated memory or a die that does not answer, the
tile is left empty and stopped with FLT_MEM_ERROR (DEDUCED, log 24). -/
def preemptSaved (s : State) (t : Nat) : State :=
  let T := s.tile t
  if T.pre ≠ .saving ∨ tileQuiet s t then s
  else
    match imageError s t false with
    | some f => execFault (s.setTile t T.emptied) t 5 T.pc T.seq f
    | none =>
      let id := s.saves.length + 1
      let b := T.saveBase.toNat
      let s := { s with saves := s.saves ++ [(id, { T with pre := .idle })] }
      let s := ((s.pass true (b, imageSize)).land t 7 (putBytes (mapCtx s) b (imageBytes s t id))).fresh
      s.setTile t { T.emptied with saved := true }

/-- An abandoned preemption: PREEMPT_FAIL, and issue resumes at TILE_PC (R129). -/
def Tile.abandon (T : Tile) : Tile := { T with pre := .idle, run := T.wasRun, preFail := true }

def preemptExpiry (s : State) (t : Nat) : State :=
  let T := s.tile t
  if T.pre = .asked ∧ T.preLimit ≠ 0 ∧ !tileQuiet s t then raiseTile (s.setTile t T.abandon) t 0x0021 0 0 else s

/-! ### Restore (R130, R131) -/

def tileRestore (s : State) (t : Nat) : State :=
  if ctlLive s t then s.onTile t (fun T => { T.emptied with pre := .restoring }) else s

/-- The state that a tile reset leaves (R132), which keeps TILE_CTX and TILE_BELL_RANGE (DEDUCED, log 26). -/
def Tile.cleared (T : Tile) : Tile := { ctx := T.ctx, bellBase := T.bellBase, bellCount := T.bellCount }

/-- Slate and state as a tile reset leaves them (R74, R88, R132), with the shadows of the tile's tallies (R384; DEDUCED, log 26). -/
def clearTile (s : State) (t : Nat) : State :=
  { s.onTile t Tile.cleared with
    m := memClear s.m (slateOf t) (slateOf t + slateSize), shadow := tclear s.shadow (pageBase t) (pageBase t + 0x200000) }

/-- A restore that finds the wrong image: reset state, STOPPED, and a fault at execution, recorded with QUEUE 5 and TILE_PC
(DEDUCED, log 24). -/
def badImage (s : State) (t : Nat) (f : ExecFault) : State :=
  execFault (clearTile s t) t 5 (s.tile t).pc (s.tile t).seq f

/-- The number in `n` bytes of the image. -/
def imageNat (s : State) (b o n : Nat) : Nat := leNat (vbytes (mapCtx s) (errorView s (viewOut s)) (b + o) n)

/-- The table of the values `g i` for i below `n`. -/
def tabOf {α : Type} [DecidableEq α] (d : α) (n : Nat) (g : Nat → α) : Tab α :=
  ((List.range n).map (fun i => (i, g i))).filter (fun e => decide (e.2 ≠ d))

/-- The tile from its saved state and the documented areas of the image at `b`. What the image does not hold stays as the
tile has it: TILE_WAIT_LIMIT, TILE_SAVE_BASE, PREEMPT_LIMIT, PREEMPT_FAIL, the Mover's counters and the stage entries (DESIGN CHOICE, log 24). -/
def Tile.restored (T S : Tile) (s : State) (b : Nat) : Tile :=
  { S with
    v := tabOf 0 64 (fun i => BitVec.ofNat 4096 (imageNat s b (offV + 512 * i) 512)),
    aba := { S.aba with cells := tabOf 0 32768 (fun i => BitVec.ofNat 160 (imageNat s b (offCells + 20 * i) 20)) },
    rows := tabOf {} 256 (fun i => rowOfImage (imageNat s b (offRows + 64 * i) 64)),
    eng := { S.eng with clipSeen := T.eng.clipSeen, nonfSeen := T.eng.nonfSeen, outInf := T.eng.outInf, converted := T.eng.converted,
                        clip := T.eng.clip, vanish := T.eng.vanish, nonf := T.eng.nonf, outInfN := T.eng.outInfN, late := T.eng.late },
    stages := T.stages, met := [], last32 := T.last32, waitLimit := T.waitLimit, saveBase := T.saveBase, preLimit := T.preLimit,
    preFail := T.preFail, saved := T.saved, quiet := false, pre := .idle, run := S.wasRun,
    stopped := !S.wasRun && S.stopped, wasRun := false, resetting := false }

/-- The tile state that the internal parts of the image stand for: the one its save kept, or for an image that no save of this
module wrote a free one (R131; DESIGN CHOICE, log 24). -/
def tileOfSave (s : State) (b : Nat) : Tile :=
  match s.saves.find? (fun e => decide (e.1 = imageNat s b 24 8)) with
  | some (_, S) => S
  | none => Config.imageTile s.free (vbytes (mapCtx s) (errorView s (viewOut s)) b imageSize)

/-- The image has been read into the tile, or the header stops it (DESIGN CHOICE, log 24). -/
def restoreDone (s : State) (t : Nat) : Host.Outcome State Fault Refusal :=
  let T := s.tile t
  let b := T.saveBase.toNat
  if T.pre ≠ .restoring ∨ tileQuiet s t then .next s
  else
    match imageError s t true with
    | some f => .next (badImage s t f)
    | none =>
      if imageNat s b 0 4 ≠ 1 ∨ imageNat s b 8 8 % 512 ≠ T.ctx.toNat then .next (badImage s t ⟨0x46, 0, 0⟩)
      else if imageNat s b 16 2 ≠ t then .fault .restoredOnOtherTile
      else
        let slate := putBytes (mapCtx s) (slateOf t) (vbytes (mapCtx s) (viewOut s) (b + offSlate) slateSize)
        let s' := (s.pass false (b, imageSize)).setTile t { T.restored (tileOfSave s b) s b with ctx := T.ctx }
        .next ((s'.land t 7 slate).fresh)

/-! ### Software writes of the TILE_ registers (R133) -/

/-- Writing 1 to TILE_FAULT.VALID (R125). -/
def faultClear (s : State) (t : Nat) : State :=
  s.onTile t (fun T => { T with fault := { T.fault with code := 0, more := 0, valid := false } })

/-- The command bits of TILE_CTRL, lowest first (DEDUCED, log 23). -/
def tileCommand (s : State) (t : Nat) (v : BitVec 64) : State :=
  let c (i : Nat) (f : State → Nat → State) (s : State) : State := if flag v i then f s t else s
  c 5 tileFlush (c 4 tileResume (c 3 tileRestore (c 2 tilePreempt (c 1 tileStop (c 0 tileGo s)))))

/-- A host, management or firmware write of a TILE_ register, by byte enables (R421). -/
def tileRegWrite (s : State) (t o : Nat) (be : BitVec 8) (v0 : BitVec 64) : State :=
  let T := s.tile t
  let v := v0 &&& beMask be
  let m (old : BitVec 64) : BitVec 64 := mergeBytes old be v0
  match o with
  | 0x0000 => if flag v 4 then s.setTile t { T with preFail := false } else s
  | 0x0008 => tileCommand (s.setTile t { T with preLimit := BitVec.ofNat 16 (fld (m (packBits [(16, T.preLimit.toNat)])) 16 16) }) t v
  | 0x0010 => if T.run ∨ fld be 0 6 = 0 then s else s.setTile t { T with pc := BitVec.ofNat 64 (fld (m T.pc) 3 45 * 8), bwait := none, waits := tset none T.waits 5 none }
  | 0x0018 => s.setTile t { T with step := (m (T.step.setWidth 64)).setWidth 32 }
  | 0x0020 => s.setTile t { T with seed := m T.seed }
  | 0x0028 => s.setTile t { T with ctx := (m (T.ctx.setWidth 64)).setWidth 9 }
  | 0x0030 =>
    let w := m (packBits [(0, T.bellBase.toNat), (16, T.bellCount.toNat)])
    s.setTile t { T with bellBase := BitVec.ofNat 16 (fld w 0 16), bellCount := BitVec.ofNat 17 (fld w 16 17) }
  | 0x0038 => s.setTile t { T with waitLimit := (m (T.waitLimit.setWidth 64)).setWidth 32 }
  | 0x0040 => s.setTile t { T with saveBase := BitVec.ofNat 48 (fld (m (T.saveBase.setWidth 64)) 12 36 * 4096) }
  | 0x0048 => if flag v 12 then faultClear s t else s
  | _ => s

/-- A write of a register of the page of tile `t` from outside the tile. -/
def tilePageWrite (s : State) (t o : Nat) (be : BitVec 8) (v : BitVec 64) : State :=
  if isTileReg o then tileRegWrite s t o be v else pageWrite s t o be v

def execTileDrainEnd (t : TileNo) (s : State) : Host.Outcome State Fault Refusal := .next (drainEnd s t)
def execTileGo (t : TileNo) (s : State) : Host.Outcome State Fault Refusal := .next (tileGo s t)
def execTileStop (t : TileNo) (s : State) : Host.Outcome State Fault Refusal := .next (tileStop s t)
def execTilePreempt (t : TileNo) (s : State) : Host.Outcome State Fault Refusal := .next (tilePreempt s t)
def execPreemptSave (t : TileNo) (s : State) : Host.Outcome State Fault Refusal := .next (preemptSave s t)
def execTileRestore (t : TileNo) (s : State) : Host.Outcome State Fault Refusal := .next (tileRestore s t)
def execRestoreDone (t : TileNo) (s : State) : Host.Outcome State Fault Refusal := restoreDone s t
def execTileResume (t : TileNo) (s : State) : Host.Outcome State Fault Refusal := .next (tileResume s t)
def execTileFlush (t : TileNo) (s : State) : Host.Outcome State Fault Refusal := .next (tileFlush s t)
def execTileFaultClear (t : TileNo) (s : State) : Host.Outcome State Fault Refusal := .next (faultClear s t)

end Sys2Proof.Machine
end

