-- ==== Sys2Proof/Machine/Train.lean ====
section
/-! DEFINITION. The training step (R248 to R257): the gate's release, the commit point, the restore after FLT_OPT_NONFINITE,
aborted attempts, an abandoned step and its two ways out. -/
namespace Sys2Proof.Machine

/-! ### Completing GATE, COMMIT and CHG (R159) -/

/-- Started commit-control instructions of a context that have not been decided. -/
def ctlWaiters (s : State) (ctx : Nat) : List (Nat × Nat × Started) :=
  (linkStarted s).filter (fun e => decide ((s.tile e.1).ctx.toNat = ctx) && !e.2.2.ready)

/-- Those that `sel` selects (result word and step) complete with a status and an outcome. -/
def endCtl (s : State) (ctx status outcome : Nat) (sel : EngineOp → Option (Nat × BitVec 32)) : State :=
  (ctlWaiters s ctx).foldl (fun s (t, k, x) =>
    match sel x.i.op with
    | some (res, step) => setLink s t k { x with ready := true, writes := resultWord s t res status outcome step }
    | none => s) s

def selGate : EngineOp → Option (Nat × BitVec 32)
  | .gate _ res step => some (res, step)
  | _ => none
/-- A COMMIT of one step. -/
def selCommit (step : Nat) : EngineOp → Option (Nat × BitVec 32)
  | .commit _ res n => if n.toNat = step then some (res, n) else none
  | _ => none

def endGates (s : State) (ctx status outcome : Nat) : State := endCtl s ctx status outcome selGate
def endCommits (s : State) (ctx step status : Nat) : State := endCtl s ctx status 0 (selCommit step)

/-! ### Restarting tiles -/

/-- Tiles of a context that have stopped with a recorded fault or that a reset has cleared. -/
def faultedTiles (s : State) (ctx : Nat) : List Nat :=
  (s.tiles.filter (fun e => decide (e.2.ctx.toNat = ctx) && (e.2.fault.valid || e.2.lost) && !e.2.run)).map (·.1)

/-- GATE_LIST holds every seat of the job: between the orders 1 and 5 of a seat swap it does not (R342). -/
def listWhole (s : State) (j : Job) : Bool :=
  match listAt s j.gateList with | some l => decide (l.members.length ≥ j.stages * j.replicas) | none => false

/-- Firmware restarts the faulted tiles of a job at RESTART_PC (R254, R255), but none during a seat swap (R342). -/
def restartFaulted (s : State) (ctx : Nat) (j : Job) : State :=
  if listWhole s j && j.rcv.swap.isNone && !j.stopped then (faultedTiles s ctx).foldl (fun s t => restartTile s t (BitVec.ofNat 48 j.restartPc)) s else s

/-- Tiles of a context that have left their reset state. -/
def jobTiles (s : State) (ctx : Nat) : List Nat := (s.tiles.filter (fun e => decide (e.2.ctx.toNat = ctx))).map (·.1)
/-- Firmware starts tiles of a job at RESTART_PC, but none during a seat swap (R342). -/
def startTiles (s : State) (j : Job) (l : List Nat) : State :=
  if j.rcv.swap.isSome then s else l.foldl (fun s t => restartTile s t (BitVec.ofNat 48 j.restartPc)) s

/-! ### The end of an attempt (R251, R254 to R256) -/

/-- The counters of an attempt begin again. -/
def Job.fresh (j : Job) (now : BitVec 64) : Job :=
  { j with gates := 0, commits := 0, outcome := none, optFail := false, stateStarted := false, gated := none, start := now, late := false }

/-- The run in progress has ended, and the next one begins (R251 to R256). -/
def Job.endRun (j : Job) (how : Nat) : Job := { j with ends := tset 4 j.ends j.run how, run := j.run + 1 }

/-- FLT_STEP_RETRY: the job stops, and its host is told (R256, R398). -/
def stepRetry (s : State) (ctx : Nat) (step : Nat) : State :=
  let s := onJob s ctx (fun j => { j with stopped := true })
  raise s 0x0001 (0x80 + 0x3FF * 2 ^ 24 + ctx * 2 ^ 40) (step % 2 ^ 32) [ctx] none

/-- A restore from partner memory is needed; it becomes a rollback to BASE where it would touch a sheet of a Recitation
region on this seat or, by a free choice, on another (R254, R339; DEDUCED, log 68). -/
def needRestore (s : State) (ctx : Nat) : State :=
  match jobOf s ctx with
  | some j =>
    let roll := j.recites && (j.sheets.any (fun e => j.method e.1 && (isDirty s e.2 || decide (j.rcv.mend = some e.2))) || Config.freeBit s.free)
    (setJob s ctx (some { j with rcv := { j.rcv with restoring := true, rollback := j.rcv.rollback || roll } })).fresh
  | none => s

/-- An attempt fails with outcome 1, 2 (gate) or 3 (FLT_OPT_NONFINITE): the rows of R43 and R45, its Step Report, and the
next attempt or, after the eighth retry, the end of the step (DEDUCED, log 47). -/
def failAttempt (s : State) (ctx outcome : Nat) (j : Job) (amax : List (BitVec 30 × Int)) : State :=
  let s := if outcome = 3 then s else failExps s ctx j amax
  match jobOf s ctx with
  | none => s
  | some j1 =>
    let (j2, floor) := lossFail j1
    let last := decide (j.attempt = 8)
    let r := stepReport s ctx j2 j.attempt (if last then 4 else outcome) j.ls j.expCorr floor false
    let s := setJob s ctx (some { (j2.fresh s.now).endRun (if last then 5 else outcome) with attempt := if last then j.attempt else j.attempt + 1, aborts := 0 })
    let s := if floor then raiseJob s ctx 0x0011 j2.next 0 else s
    let s := clearCounts (putRecord s ctx r) ctx
    let s := if outcome = 3 then needRestore s ctx else s
    if last then endCommits (endGates (stepRetry s ctx j.next) ctx 0x0114 0) ctx j.next 0x0114
    else if outcome = 3 then s else endGates s ctx 0x0111 outcome

/-- The first failing case found on any seat; 0 only where every seat passes (R251). -/
def combineVerdict (a b : Nat) : Nat := if a = 0 then b else if b = 0 then a else Nat.min a b

/-- GATE_OUTCOME_RELEASE: `other` is the combined verdict of the other seats, `amax` the amax exponents that the other seats
give for tensors that clipped anywhere (DEDUCED, log 47). -/
def gateRelease (s : State) (ctx : Nat) (other : BitVec 4) (amax : List (BitVec 30 × Int)) : State :=
  match jobOf s ctx with
  | none => s
  | some j =>
    if j.layout ∨ j.stopped ∨ j.outcome.isSome ∨ j.gates < j.gateTiles ∨ other.toNat > 2 then s
    else
      match combineVerdict (seatVerdict j.final j) other.toNat with
      | 0 => endGates (setJob s ctx (some { j with outcome := some 0 })) ctx 0 0
      | v => failAttempt s ctx v j amax

/-! ### The commit point (R253) -/

/-- The commit point is reached on this seat; `j` is the job before it. -/
def commitNow (s : State) (ctx : Nat) (j : Job) (amax : List (BitVec 30 × Int)) : State :=
  let s := commitLists (commitExps s ctx j amax) j
  match jobOf s ctx with
  | none => s
  | some j1 =>
    let (j2, ceil) := lossCommit j1
    let r := stepReport s ctx j2 j.attempt 0 j.ls j.expCorr false ceil
    let input := vbytes (mapCtx s) (viewOut s) j.journalIn 2048
    let s := s.pass false (j.journalIn, 2048)
    let jr := journalRecord j.next j.attempt 0 j2 s.now (reportCrc r) input
    let replay := j.rcv.replay.isSome
    let j3 : Job :=
      { (j2.fresh s.now) with next := j.next + 1, attempt := 0, aborts := 0, run := 1, ends := [], expCorr := false, scaleClamp := false, committed := true,
                              acked := replay,
                              rcv := { j.rcv with report := r, reportAttempt := j.attempt, sStart := j2.ls, late := false,
                                                  journal := if replay then j.rcv.journal else j.rcv.journal ++ [jr] } }
    let s := setJob s ctx (some { j3 with rcv := { j3.rcv with last := recOf s j3 } })
    let s := clearSteps (putHists (putRecord s ctx r) ctx j.next j2) ctx j.next 1
    if replay then endCommits (clearDirty s j3) ctx j.next 0
    else if j.rcv.unsent then sendPartner (clearDirty (sendLate s ctx j3 (recOf s j3)) j3) (j3.journalAt j.next) jr
    else if j.rcv.reprotect then onJob s ctx (fun j => { j with rcv := { j.rcv with scanWait := true } })
    else copybook s ctx { j3 with rcv := { j3.rcv with last := recOf s j3 } }

/-- COMMIT_POINT: every seat has reported; `failed` says that another seat has reported failure (DEDUCED, log 47). -/
def commitPoint (s : State) (ctx : Nat) (amax : List (BitVec 30 × Int)) (failed : Bool) : State :=
  match jobOf s ctx with
  | none => s
  | some j =>
    if j.layout ∨ j.stopped ∨ j.outcome ≠ some 0 then s
    else if failed || j.optFail then failAttempt s ctx 3 j []
    else if j.commits < j.gateTiles then s
    else commitNow s ctx j amax

/-! ### Restore (R254, R255, R339, R340) -/

/-- Sheets that a restore must bring: the dirty sheets of the state regions, those of a landing that was discarded and one that has
stopped a Changeover, or for a rollback every sheet (R254, R270, R339, R340). -/
def restoreSheets (s : State) (j : Job) : List Nat :=
  (j.sheets.map (·.2)).filter (fun a => j.rcv.rollback || isDirty s a || j.rcv.landing.contains a || decide (j.rcv.mend = some a))

/-- A rollback to BASE: the job at step F, from which the journal is replayed up to the step before the one in progress, whose
attempt then repeats (DEDUCED, log 68). -/
def rollBack (s : State) (ctx : Nat) (j : Job) : State :=
  let again : Again := { numerics := recOf s j, attempt := j.attempt, aborts := j.aborts, stopped := j.stopped, sStart := j.rcv.sStart, expCorr := j.expCorr }
  let s := loadLists s j.rcv.base
  let s := setJob s ctx (some { ((j.load j.rcv.base).fresh s.now) with
    acked := true, stopped := false, run := j.run + 1,
    rcv := { j.rcv with restoring := false, rollback := false, landing := [], mend := none, whole := true, replay := some j.next, ran := false,
                        again := some again } })
  rflag s ckpStatus 34 true

/-- PARTNER_RESTORE_DONE: the sheets read from partner memory are written, the counters go back to their committed values,
COMMITs complete with ST_OPT_RETRY, a re-protection that waited is sent (R341), and faulted tiles start at RESTART_PC (DEDUCED, log 68). -/
def restoreDoneJob (s : State) (ctx : Nat) (sheets : List (BitVec 48 × List Byte)) : State :=
  match jobOf s ctx with
  | none => s
  | some j =>
    let need := restoreSheets s j
    if !j.rcv.restoring || !need.all (fun a => sheets.any (fun e => decide (e.1.toNat = a))) then s
    else
      let mine := sheets.filter (fun e => j.sheets.any (fun x => decide (x.2 = e.1.toNat)))
      let s := mine.foldl (fun s e => s.land 1023 7 (putBytes (mapCtx s) e.1.toNat (e.2.take 4096))) s
      if j.rcv.rollback then rollBack s ctx j
      else
        let s := restoreLists s j
        let s := endCommits s ctx j.next 0x0112
        let s := setJob s ctx (some { j with rcv := { j.rcv with
          restoring := false, go := false, mend := none, whole := true, landing := if j.acked then j.rcv.landing else [] } })
        let s := match jobOf s ctx with | some j1 => if j1.rcv.unsent && j1.acked then sendLate s ctx j1 j1.rcv.ack else s | none => s
        if j.rcv.go then startTiles s j ((jobTiles s ctx).filter (fun t => !(s.tile t).run)) else restartFaulted s ctx j

/-! ### Aborted attempts (R255, R256) -/

/-- What follows an abort: the restore where a STATE = 1 DRILL had started or one is under way; else the counters go back, and faulted
tiles start (R255, R335). -/
def afterAbort (s : State) (ctx : Nat) (j : Job) : State :=
  if j.rcv.restoring then s else if j.stateStarted then needRestore s ctx else restartFaulted (restoreLists s j) ctx j

/-- ATTEMPT_ABORT: the attempt is repeated, after a restore where a STATE = 1 DRILL had started; the fourth abort of the same
attempt abandons the step (DEDUCED, log 47). -/
def abortAttempt (s : State) (ctx : Nat) : State :=
  match jobOf s ctx with
  | none => s
  | some j =>
    if j.layout ∨ j.stopped then s
    else if j.aborts + 1 = 4 then
      let r := stepReport s ctx j j.attempt 4 j.ls j.expCorr false false
      let s := clearCounts (putRecord (setJob s ctx (some ((j.fresh s.now).endRun 5))) ctx r) ctx
      let s := afterAbort s ctx { j with stopped := true }
      endCommits (endGates (stepRetry s ctx j.next) ctx 0x0114 0) ctx j.next 0x0114
    else
      let s := clearCounts (setJob s ctx (some { (j.fresh s.now).endRun 4 with aborts := j.aborts + 1 })) ctx
      let s := endCommits (endGates s ctx 0x0113 0) ctx j.next 0x0113
      afterAbort s ctx j

/-- A seat has been lost before the acknowledgement of the last commit: the job returns to the acknowledged step, and the
sheets of the discarded landing are restored too (R340). -/
def dropUnacked (s : State) (ctx : Nat) : State :=
  match jobOf s ctx with
  | none => s
  | some j =>
    if j.acked ∨ j.rcv.creating then s
    else
      let s := loadLists (dropLanded (clearCounts s ctx)) j.rcv.ack
      let s := if s.ward.held = some (j.rcv.last.next - 1) then { s with ward := { s.ward with held := none } } else s
      setJob s ctx (some { ((j.load j.rcv.ack).fresh s.now) with
        acked := true, run := j.run + 1,
        rcv := { j.rcv with restoring := true, rollback := j.recites, scanWait := false, last := j.rcv.ack, sStart := j.rcv.ack.ls, late := false,
                            journal := let dropped := journalAfter j (j.rcv.ack.next + 2 ^ 32 - 1); j.rcv.journal.filter (fun r => !dropped.contains r) } })

/-! ### The deadline and the ways out (R256, R258) -/

/-- COMMITs of the step in progress that wait in the queues of the context's tiles. -/
def queuedCommits (s : State) (ctx step : Nat) : Nat :=
  ((s.tiles.filter (fun e => decide (e.2.ctx.toNat = ctx))).flatMap (fun e => (e.2.queue 4).filter (fun i => (selCommit step i.op).isSome))).length

/-- EVT_STEP_LATE, once an attempt, while its COMMITs have not all issued (R258; DEDUCED, log 22; DEDUCED, log 47). -/
def stepLate (s : State) (ctx : Nat) : State :=
  match jobOf s ctx with
  | none => s
  | some j =>
    if j.stopped ∨ j.layout ∨ j.late ∨ j.commits + queuedCommits s ctx j.next ≥ j.gateTiles ∨ (s.now - j.start).toNat ≤ j.deadline then s
    else raiseJob (setJob s ctx (some { j with late := true })) ctx 0x0040 j.next 0

/-- RESUME of an abandoned step, from attempt 0; the job's stopped tiles start at RESTART_PC, once a restore under way is complete.
After a replay that diverged a new journal starts, and the next commit copies the job whole (DEDUCED, log 47; DEDUCED, log 68). -/
def resumeJob (s : State) (ctx : Nat) (newS : Option Int) : State :=
  match jobOf s ctx with
  | none => s
  | some j =>
    let ls := match newS with | some x => x | none => j.ls
    let s := setJob s ctx (some { (j.fresh s.now) with
      stopped := false, attempt := 0, aborts := 0, ls := ls,
      rcv := { j.rcv with sStart := ls, diverged := false, go := j.rcv.restoring, whole := j.rcv.whole || j.rcv.diverged,
                          journal := if j.rcv.diverged then [] else j.rcv.journal } })
    if j.rcv.restoring then s else startTiles s j ((jobTiles s ctx).filter (fun t => !(s.tile t).run))

/-- SKIP: the step number is consumed with no change of state, and journalled; the next step's runs begin (R256; DEDUCED, log 47). What a
failed gate's correction of a tensor becomes the spec leaves open: it stands (DESIGN CHOICE, log 94). -/
def skipJob (s : State) (ctx : Nat) (j : Job) : State :=
  let r := journalRecord j.next 0 1 j s.now 0 []
  let j' := { (j.fresh s.now) with stopped := false, attempt := 0, aborts := 0, next := j.next + 1, run := 1, ends := [],
                                   rcv := { j.rcv with sStart := j.ls, journal := j.rcv.journal ++ [r] } }
  setJob (sendPartner s (j.journalAt j.next) r) ctx (some j')

def execGateOutcomeRelease (ctx : CtxNo) (outcome : BitVec 4) (amax : List (BitVec 30 × Int)) (s : State) :
    Host.Outcome State Fault Refusal := .next (gateRelease s ctx.toNat outcome amax)
def execCommitPoint (ctx : CtxNo) (amax : List (BitVec 30 × Int)) (failed : Bool) (s : State) :
    Host.Outcome State Fault Refusal := .next (commitPoint s ctx.toNat amax failed)
def execAttemptAbort (ctx : CtxNo) (s : State) : Host.Outcome State Fault Refusal := .next (abortAttempt s ctx.toNat)
def execEvtStepLate (ctx : CtxNo) (s : State) : Host.Outcome State Fault Refusal := .next (stepLate s ctx.toNat)

end Sys2Proof.Machine
end

