-- ==== Sys2Proof/Machine/Cmds.lean ====
section
/-! DEFINITION. Host commands (R396, R397): taking a command from its ring, the checks common to all of them, the windows of a
context, ends and completions, and DMA. -/
namespace Sys2Proof.Machine

/-! ### Taking a command -/

/-- MGT_STATUS and its READY (R403, R407). -/
def mgtStatus : Nat := mgtBlk + 8
def ready (s : State) : Bool := flag (rget s mgtStatus) 0

/-- The command service runs: READY is 1, and the module is neither quiet nor in reset (DESIGN CHOICE, log 63). -/
def serviceRuns (s : State) : Bool := ready s && !moduleQuiet s && !s.sys.modReset

/-- Operand words 1 to 7. -/
def cmdWords (c : HostCmd) : List (BitVec 64) := [c.w1, c.w2, c.w3, c.w4, c.w5, c.w6, c.w7]

/-- Bits [63:41] of word 0, and the bits of an operand word beside its fields, are zero; `masks` gives the fields of each word
that the command's row lists (DEDUCED, log 82). -/
def cmdClean (c : HostCmd) (masks : List Nat) : Bool :=
  decide (c.zero = 0) && ((cmdWords c).zip masks).all (fun (w, m) => decide (w &&& ~~~(BitVec.ofNat 64 m) = 0))

/-- A word taken whole: an address or a count. -/
def wholeWord : Nat := 2 ^ 64 - 1

/-- The command leaves its ring: HEAD counts `n` slots on, modulo the ring size. -/
def headOn (s : State) (q n : Nat) : State :=
  rset s (qreg q 24) (BitVec.ofNat 64 ((fld (rget s (qreg q 24)) 0 12 + n) % 2 ^ fld (rget s (qreg q 8)) 0 4))

/-- A command ends as soon as it is taken. -/
def endNow (s : State) (op : BitVec 16) (c : HostCmd) (status : BitVec 16) (result : BitVec 64 := 0) : State :=
  { s with host := { s.host with cmds := s.host.cmds ++ [{ op := op, c := c, status := some status, result := result }] } }

/-- A command stays in progress. -/
def startCmd (s : State) (op : BitVec 16) (c : HostCmd) : State :=
  { s with host := { s.host with cmds := s.host.cmds ++ [{ op := op, c := c }] } }

/-- A command of `n` slots is taken from the ring of its queue set, if that runs, and checked (R397): a command marked PF from
a VF, then reserved bits and values outside a field's range (DEDUCED, log 82). -/
def takeCmd (s : State) (op : BitVec 16) (c : HostCmd) (pf : Bool) (masks : List Nat) (legal : Bool) (body : State → State)
    (n : Nat := 1) : State :=
  if !serviceRuns s || !qEnabled s c.q.val then s
  else
    let s := headOn s c.q.val n
    if pf && decide (c.q.val ≠ 0) then endNow s op c 0x0161
    else if !cmdClean c masks || !legal then endNow s op c 0x0160
    else body s

/-! ### Windows (R397) -/

/-- The range lies wholly in one window of the context. -/
def inWindow (s : State) (ctx a n : Nat) : Bool := (tget [] s.rooms.windows ctx).any (fun w => decide (w.1 ≤ a ∧ a + n ≤ w.1 + w.2))

/-- Every 32-byte unit of a range is populated, unreserved memory. -/
def memRange (s : State) (a n : Nat) : Bool := (List.range (cdiv n 32)).all (fun k => mapped (mapCtx s) (a + 32 * k) 32)

/-! ### Completions (R396) -/

/-- A completion of queue set `q` is written at PROD; nothing is written while the queue set is disabled (R399; DEDUCED, log 82). -/
def writeCompletion (s : State) (q : Nat) (r : CmdRec) : State :=
  if !qEnabled s q then s
  else
    let prod := fld (rget s (qreg q 0x28)) 0 12
    let lap := tget false s.host.compLap q
    let np := (prod + 1) % 2 ^ fld (rget s (qreg q 8)) 0 4
    let bytes := leBytes 8 (r.c.tag.toNat + (r.status.getD 0).toNat * 2 ^ 16 + (if lap then 0 else 2 ^ 32)) ++ leBytes 8 r.result.toNat
    let h := hostPut s.host (fld (rget s (qreg q 0x20)) 6 58 * 64 + 16 * prod) bytes
    let s := { s with host := { h with compLap := tset false h.compLap q (if np = 0 then !lap else lap) } }
    signal (rset s (qreg q 0x28) (BitVec.ofNat 64 np)) q 1

/-- The first command of queue set `q` that has ended writes its completion (DEDUCED, log 82). -/
def complete (s : State) (q : Nat) : State :=
  let mine (r : CmdRec) : Bool := r.status.isSome && decide (r.c.q.val = q)
  if moduleQuiet s then s
  else
  match s.host.cmds.findIdx? mine, s.host.cmds.find? mine with
  | some i, some r => writeCompletion { s with host := { s.host with cmds := s.host.cmds.eraseIdx i } } q r
  | _, _ => s

/-! ### DMA (R396, R397) -/

/-- Memory reads free bytes where a word is poisoned or its die is in reset. -/
def dmaRead (s : State) (a n : Nat) : List Byte := vbytes (mapCtx s) (errorView s (viewOut s)) a n

/-- Writes to a die in reset or quiet do not land. -/
def liveWrites (s : State) (ws : List PW) : List PW := ws.filter (fun w => match homeDie w.addr with | some d => !dieDead s d | none => true)

/-- Bytes from outside the tiles reach memory. -/
def landBytes (s : State) (a : Nat) (l : List Byte) : State :=
  (s.pass true (a, l.length)).land 1023 7 (liveWrites s (putBytes (mapCtx s) a l))

/-- The status of a transfer: where memory answers with an error (R12, R208) the spec gives the transfer an error and no code, so the code
is free and not ST_OK (DESIGN CHOICE, log 92). -/
def dmaStatus (s : State) (read : Bool) (a n : Nat) : BitVec 16 :=
  if (accessError s read a n).isSome then BitVec.ofNat 16 (1 + (Config.freeWord s.free).toNat % 65535) else 0

def dmaIn (s : State) (c : HostCmd) : State :=
  let n := c.w3.toNat
  if !inWindow s (cmdCtx c) c.w2.toNat n || !memRange s c.w2.toNat n then endNow s 0x18 c 0x0161
  else endNow (landBytes s c.w2.toNat (hostBytes s.host c.w1.toNat n)).fresh 0x18 c (dmaStatus s false c.w2.toNat n)

def dmaOut (s : State) (c : HostCmd) : State :=
  let n := c.w3.toNat
  if !inWindow s (cmdCtx c) c.w2.toNat n || !memRange s c.w2.toNat n then endNow s 0x19 c 0x0161
  else
    let l := dmaRead s c.w2.toNat n
    let st := dmaStatus s true c.w2.toNat n
    let s := (s.pass false (c.w2.toNat, n)).fresh
    endNow { s with host := hostPut s.host c.w1.toNat l } 0x19 c st

/-- Fields of a DMA command. -/
def dmaMasks : List Nat := [wholeWord, bmask 0 48, wholeWord]

def execDmaIn (c : HostCmd) (s : State) : Host.Outcome State Fault Refusal :=
  .next (takeCmd s 0x18 c false dmaMasks (decide (c.w3.toNat % 32 = 0)) (fun s => dmaIn s c))
def execDmaOut (c : HostCmd) (s : State) : Host.Outcome State Fault Refusal :=
  .next (takeCmd s 0x19 c false dmaMasks (decide (c.w3.toNat % 32 = 0)) (fun s => dmaOut s c))
/-- COMMAND_COMPLETION of queue set `k`. -/
def execCommandCompletion (k : Nat) (s : State) : Host.Outcome State Fault Refusal := .next (complete s k)

end Sys2Proof.Machine
end

