-- ==== Sys2Proof/Machine/Serve.lean ====
section
/-! DEFINITION. Serving (R276 to R279, R300 to R326): adapters, the Roster, budgets, step boundaries, digests and compatibility
rings, serving classes and steering cards. -/
namespace Sys2Proof.Machine

/-! ### Adapters (R276 to R279) -/

def adapterAt (s : State) (k : Nat) : Adapter := tget {} s.adapters k
def setAdapter (s : State) (k : Nat) (a : Adapter) : State := { s with adapters := tset {} s.adapters k a }
/-- The slot of an identifier in a state. -/
def adapterIn (s : State) (id : Nat) (st : AState) : Option Nat := (s.adapters.find? (fun e => decide (e.2.id = id ∧ e.2.state = st))).map (·.1)
/-- Insertion sort by a given order. -/
def insertBy {α : Type} (lt : α → α → Bool) (x : α) : List α → List α
  | [] => [x]
  | y :: r => if lt x y then x :: y :: r else y :: insertBy lt x r
def sortBy {α : Type} (lt : α → α → Bool) (l : List α) : List α := l.foldr (insertBy lt) []

/-- When a load of now becomes LIVE (R278). -/
def flipTime (s : State) : BitVec 64 := s.now + 2000
/-- The slots with which a load of an identifier is compared: the LIVE one (R278) and those taken in the same job service cycle, which
is the same module time (R279; DEDUCED, log 57). -/
def adapterRivals (s : State) (id : Nat) : List Adapter :=
  (s.adapters.map (·.2)).filter (fun a => decide (a.id = id) && (decide (a.state = .live) || (decide (a.state = .loading) && decide (a.flip = flipTime s))))

/-- A load is refused because its version is not newer, or takes the lowest FREE slot; none where no slot is FREE (DEDUCED, log 57). -/
def adapterTry (s : State) (c : HostCmd) : Option (State × BitVec 16 × Nat) :=
  let id := fld c.w1 0 24
  let ver := BitVec.ofNat 16 (fld c.w1 24 16)
  if (adapterRivals s id).any (fun a => !newer 16 ver.toNat a.version.toNat) then some (s, 0x0136, 0)
  else
    match (List.range 1024).find? (fun k => decide ((adapterAt s k).state = .free)) with
    | none => none
    | some k =>
      some (setAdapter s k { state := .loading, rank := fld c.w1 40 7, version := ver, id := id, base := fld c.w2 12 36 * 4096, flip := flipTime s }, 0, k)

/-- A load that waits tries again. -/
def adapterAgain (s : State) (r : CmdRec) : State :=
  match adapterTry s r.c with
  | some (s, st, k) => endWhere s (fun x => decide (x.op = 0x0A) && decide (x.c = r.c)) st (BitVec.ofNat 64 k)
  | none => s

/-- A slot becomes FREE: EVT_ADAPTER_FREED, and the loads that wait try in turn, oldest first, until one takes it (DEDUCED, log 57). -/
def adapterFree (s : State) (k : Nat) : State :=
  let a := adapterAt s k
  let s := raise (setAdapter s k {}) 0x0042 k a.version.toNat [] none
  (s.host.cmds.filter (fun r => decide (r.op = 0x0A) && r.status.isNone)).foldl adapterAgain s

/-- A LIVE slot leaves service. -/
def adapterDrain (s : State) (k : Nat) : State :=
  if (adapterAt s k).refs = 0 then adapterFree s k else setAdapter s k { adapterAt s k with state := .draining }

/-- A LOADING slot whose T_FLIP has come becomes LIVE (DEDUCED, log 57). -/
def adapterFlip (s : State) (k : Nat) : State :=
  let a := adapterAt s k
  if a.state ≠ .loading ∨ s.now.toNat < a.flip.toNat then s
  else
    let old := adapterIn s a.id .live
    let s := setAdapter s k { a with state := .live }
    match old with | some o => adapterDrain s o | none => s

/-- Every flip whose time has come, in the order of T_FLIP and then of the slots (R277; DEDUCED, log 57). -/
def dueFlips (s : State) : State :=
  (sortBy (fun (a b : Nat × Adapter) => decide (a.2.flip < b.2.flip) || (decide (a.2.flip = b.2.flip) && decide (a.1 < b.1))) s.adapters).foldl
    (fun s e => adapterFlip s e.1) s

/-- An entry's pin is released; a DRAINING slot without pins becomes FREE in the same cycle. -/
def unpin (s : State) (k : Nat) : State :=
  let a := { adapterAt s k with refs := (adapterAt s k).refs - 1 }
  let s := setAdapter s k a
  if a.state = .draining ∧ a.refs = 0 then adapterFree s k else s

def adapterLoad (s0 : State) (c : HostCmd) : State :=
  let s := dueFlips s0
  if !inWindow s (cmdCtx c) (fld c.w2 12 36 * 4096) 4096 then endNow s 0x0A c 0x0161
  else
    match adapterTry s c with
    | some (s, st, k) => endNow s 0x0A c st (BitVec.ofNat 64 k)
    | none => if flag c.w1 47 then endNow s 0x0A c 0x0138 else startCmd s 0x0A c

def adapterUnload (s0 : State) (c : HostCmd) : State :=
  let s := dueFlips s0
  let id := fld c.w1 0 24
  match adapterIn s id .live, adapterIn s id .draining with
  | some k, _ => endNow (adapterDrain s k) 0x0B c (if (adapterAt s k).refs = 0 then 0 else 0x0139) (BitVec.ofNat 64 k)
  | none, some k => endNow s 0x0B c 0x0139 (BitVec.ofNat 64 k)
  | none, none => endNow s 0x0B c 0

/-! ### Roster entries (R301 to R305) -/

def entry (s : State) (i : Nat) : Entry := tget {} s.serve.entries i
def setEntry (s : State) (i : Nat) (e : Entry) : State := { s with serve := { s.serve with entries := tset {} s.serve.entries i e } }
/-- Identity: index and GEN. -/
def Entry.ident (e : Entry) (i : Nat) : Nat := i + e.gen.toNat * 2 ^ 17
def EState.code : EState → Nat
  | .free => 0
  | .admitted => 1
  | .prefill => 2
  | .decode => 3
  | .held => 4
  | .expired => 5
  | .done => 6
  | .evicted => 7
/-- DONE, EXPIRED or EVICTED. -/
def Entry.final (e : Entry) : Bool := decide (e.state = .done ∨ e.state = .expired ∨ e.state = .evicted)
/-- Neither FREE nor final. -/
def Entry.open_ (e : Entry) : Bool := decide (e.state ≠ .free) && !e.final
def Entry.inDigest (e : Entry) : Bool := decide (e.stream ≠ 1)
def Entry.inRing (e : Entry) : Bool := decide (e.stream = 1 ∨ e.stream = 2)

/-- Entries of a die that are not FREE, by index. -/
def dieEntries (s : State) (d : Nat) : List (Nat × Entry) :=
  (trange s.serve.entries (d * 16384) (d * 16384 + 16384)).filter (fun e => decide (e.2.state ≠ .free))
/-- ROS_STATUS.LIVE (R300; DEDUCED, log 62). -/
def rosterLive (s : State) : Bool := s.serve.entries.any (fun e => decide (e.2.state ≠ .free))

def dieServe (s : State) (d : Nat) : DieServe := tget {} s.serve.dies d
def setDie (s : State) (d : Nat) (x : DieServe) : State := { s with serve := { s.serve with dies := tset {} s.serve.dies d x } }

/-- An entry enters a final state: pins released, it no longer runs (R303), and its tenant has a record to come (R315). -/
def finish (s : State) (i : Nat) (st : EState) : State :=
  let e := entry s i
  let x := dieServe s (i / 16384)
  let s := setDie s (i / 16384) { x with ended := if x.ended.contains e.tenant then x.ended else x.ended ++ [e.tenant] }
  let s := setEntry s i { e with state := st, aslot := none, steer := none, evict := false, dig := !e.inDigest, ring := !e.inRing }
  match e.aslot with | some k => unpin s k | none => s

/-- PREFILL or DECODE entries are held (R302). -/
def Entry.hold (e : Entry) (why : BitVec 2) : Entry :=
  match e.state with
  | .prefill => { e with state := .held, why := why, prevDecode := false }
  | .decode => { e with state := .held, why := why, prevDecode := true }
  | _ => e
/-- A HELD entry returns to PREV. -/
def Entry.unhold (e : Entry) : Entry := if e.state = .held then { e with state := if e.prevDecode then .decode else .prefill, why := 0 } else e

/-- Final entries whose records are all written become FREE, with their GEN kept (R305). -/
def freeReported (s : State) (d : Nat) : State :=
  (dieEntries s d).foldl (fun s (i, e) => if e.final && e.dig && e.ring then setEntry s i { gen := e.gen } else s) s

/-! ### Registers (R326) -/

def rosCfg : Nat := rosBlk
def rosStatus : Nat := rosBlk + 8
def rosStep (d k : Nat) : Nat := rosBlk + 0x100 + 64 * d + k
def rosBkt (t k : Nat) : Nat := rosBlk + 0x1000 + 32 * t + k
def dring (t k : Nat) : Nat := rosBlk + 0x5000 + 32 * t + k
def tenant (s : State) (t : Nat) : Tenant := tget {} s.serve.tenants t
def setTenant (s : State) (t : Nat) (x : Tenant) : State := { s with serve := { s.serve with tenants := tset {} s.serve.tenants t x } }
/-- A job with an entry on the die is in the learning layout: no boundaries occur there (R304; DEDUCED, log 58). -/
def learning (s : State) (d : Nat) : Bool :=
  (dieEntries s d).any (fun e => match jobOf s e.2.tenant with | some j => !j.layout | none => false)
/-- The die serves (R309). -/
def serving (s : State) (d : Nat) : Bool := flag (rget s (rosStep d 0)) 32
/-- READY and DONE of a die. -/
def readyBell (s : State) (d : Nat) : BitVec 19 := BitVec.ofNat 19 (d * 65536 + fld (rget s (rosStep d 0)) 0 16)
def doneBell (s : State) (d : Nat) : BitVec 19 := BitVec.ofNat 19 (d * 65536 + fld (rget s (rosStep d 0)) 16 16)
def batchAddr (s : State) (d k : Nat) : Nat := fld (rget s (rosStep d 8)) 12 36 * 4096 + 135168 * (k % 2)
def resultAddr (s : State) (d k : Nat) : Nat := fld (rget s (rosStep d 16)) 12 36 * 4096 + 327680 * (k % 2)
def batchMax (s : State) (d : Nat) : Nat := fld (rget s (rosStep d 32)) 0 13
def pfMax (s : State) (d : Nat) : Nat := fld (rget s (rosStep d 32)) 13 24
/-- T_DIE in ns. -/
def tDie (s : State) (d : Nat) : Nat := fld (rget s (rosStep d 32)) 37 27 * 1000

/-- Bytes that an agent with tile `t`'s Classroom writes to populated memory; elsewhere they are discarded. Their lines allocate (R192). -/
def landFor (s : State) (t a : Nat) (l : List Byte) : State :=
  if memRange s a l.length then (s.touch t true true (a, l.length)).land 1023 7 (putBytes (mapCtx s) a l) else s
/-- Bytes that firmware or a Roster writes, which belong to no tile: their lines allocate in the ways of the half that owns the stack (R192;
DEDUCED, log 30). -/
def landAt (s : State) (a : Nat) (l : List Byte) : State :=
  if memRange s a l.length then (s.touchHome true (a, l.length)).land 1023 7 (putBytes (mapCtx s) a l) else s

/-! ### Budgets (R314) -/

def level (s : State) (t : Nat) : Int := sgn 48 (fld (rget s (rosBkt t 16)) 0 48)
/-- LEVEL stops at -2^47. -/
def setLevel (s : State) (t : Nat) (v : Int) : State := rset s (rosBkt t 16) (BitVec.ofNat 64 (unsgn 48 (max (-(2 ^ 47 : Nat)) v)))

/-- A bucket's refill up to now. -/
def refill (s : State) (t : Nat) : State :=
  let x := tenant s t
  let r := rget s (rosBkt t 0)
  let dt := match x.refill with | some a => (s.now - a).toNat | none => 0
  let n := fld r 0 32 * dt * 256 + x.rem
  let v := min (level s t + (n / 1000000000 : Nat)) (fld r 32 32 * 256 : Nat)
  setTenant (setLevel s t v) t { x with refill := some s.now, rem := n % 1000000000 }

/-- Every bucket that has been started is refilled (R309, R314). -/
def refillAll (s : State) : State := (s.serve.tenants.map (·.1)).foldl refill s

/-- Tokens of a prefill item (DEDUCED, log 59). -/
def chunkOfEntry (s : State) (d : Nat) (e : Entry) : Nat :=
  match tget none s.serve.classes (d * 64 + e.cls) with
  | some c => Nat.min c.chunk (e.prompt - e.pos)
  | none => e.prompt - e.pos
/-- The cost of an entry's next item. -/
def itemCost (s : State) (d : Nat) (e : Entry) (decode : Bool) : Nat :=
  if decode then 256 else chunkOfEntry s d e * fld (rget s (rosBkt e.tenant 8)) 0 16

/-! ### Forming a batch (R310) -/

/-- PRIO highest first, then DEADLINE, then T_ADMIT, then index (DEDUCED, log 59). -/
def offeredBefore (a b : Nat × Entry) : Bool :=
  if a.2.prio ≠ b.2.prio then decide (a.2.prio > b.2.prio)
  else if a.2.deadline ≠ b.2.deadline then decide (a.2.deadline < b.2.deadline)
  else if a.2.tAdmit ≠ b.2.tAdmit then decide (a.2.tAdmit < b.2.tAdmit)
  else decide (a.1 < b.1)

/-- The item of an entry that runs. -/
def itemOf (s : State) (d i : Nat) (e : Entry) : BatchItem :=
  let dec := decide (e.state = .decode)
  let n := if dec then 1 else chunkOfEntry s d e
  { entry := i, ident := e.ident i, decode := dec, last := !dec && decide (e.pos + n ≥ e.prompt), pos := e.pos, ntok := n,
    remain := e.maxNew - e.emitted, cost := itemCost s d e dec }

/-- One offered entry: it runs, with its cost reserved, while LEVEL is above 0; otherwise it is held. -/
def offer (d : Nat) (a : State × List BatchItem) (x : Nat × Entry) : State × List BatchItem :=
  let (s, l) := a
  let t := x.2.tenant
  if level s t > 0 then
    let e := x.2.unhold
    let it := itemOf s d x.1 e
    (setEntry (setLevel s t (level s t - it.cost)) x.1 e, l ++ [it])
  else (setEntry s x.1 (x.2.hold 2), l)

/-- An ADMITTED entry is offered a prefill slot of its class: the budget admits it, or it stays in its place (DEDUCED, log 59). -/
def offerNew (d slots : Nat) (a : State × List BatchItem) (x : Nat × Entry) : State × List BatchItem :=
  let (s, l) := a
  let inPrefill := ((dieEntries s d).filter (fun e => decide (e.2.cls = x.2.cls ∧ e.2.state = .prefill))).length
  if inPrefill < slots ∧ level s x.2.tenant > 0 then
    let e := { x.2 with state := .prefill }
    let it := itemOf s d x.1 e
    (setEntry (setLevel s x.2.tenant (level s x.2.tenant - it.cost)) x.1 e, l ++ [it])
  else (s, l)

def oldestFirst (a b : Nat × Entry) : Bool := if a.2.tAdmit ≠ b.2.tAdmit then decide (a.2.tAdmit < b.2.tAdmit) else decide (a.1 < b.1)

/-- The entries that run at a boundary and the items they give, in index order. -/
def chooseBatch (s : State) (d : Nat) : State × List BatchItem :=
  let s := refillAll s
  let off := (dieEntries s d).filter (fun e => decide (e.2.state = .prefill ∨ e.2.state = .decode) || (decide (e.2.state = .held) && decide (e.2.why = 2)))
  let a := (sortBy offeredBefore off).foldl (offer d) (s, [])
  let a := (List.range 64).foldl (fun a c =>
    match tget none s.serve.classes (d * 64 + c) with
    | some k => (sortBy oldestFirst ((dieEntries a.1 d).filter (fun e => decide (e.2.cls = c ∧ e.2.state = .admitted)))).foldl (offerNew d k.pfSlots) a
    | none => a) a
  (a.1, sortBy (fun x y => decide (x.entry < y.entry)) a.2)

/-- A batch item in memory, 32 bytes. -/
def itemBytes (s : State) (it : BatchItem) : List Byte :=
  let e := entry s it.entry
  leBytes 8 (it.ident + it.decode.toNat * 2 ^ 32 + it.last.toNat * 2 ^ 33 + e.tenant * 2 ^ 34 + (e.aslot.getD 0) * 2 ^ 43 +
      e.aslot.isSome.toNat * 2 ^ 53 + (e.steer.getD 0) * 2 ^ 54 + e.steer.isSome.toNat * 2 ^ 63) ++
    leBytes 8 (it.pos + it.ntok * 2 ^ 32) ++ leBytes 8 (e.plist + e.npages * 2 ^ 48) ++ leBytes 8 (it.remain + e.aver.toNat * 2 ^ 32)

/-- The batch of the die's step is formed, written and announced; with no item nothing is written (R309; DEDUCED, log 58; DEDUCED, log 59). -/
def formBatch (s : State) (d : Nat) : State :=
  let (s, l0) := chooseBatch s d
  let l := l0.take (batchMax s d)
  let x := dieServe s d
  if l.isEmpty then setDie s d { x with batch := [] }
  else
    let k := x.step.toNat
    let bytes := leBytes 8 (k + l.length * 2 ^ 32) ++ leBytes 8 s.now.toNat ++ leBytes 16 0 ++ l.flatMap (itemBytes s)
    bellAdd (landAt (setDie s d { x with batch := l, formed := s.now, late := false }) (batchAddr s d k) bytes) (readyBell s d) 1

/-- With no batch out, a serving die checks again for entries that can run (DEDUCED, log 58). -/
def tryBatch (s : State) (d : Nat) : State :=
  if serving s d && (dieServe s d).batch.isEmpty && !dieDead s d && !learning s d then formBatch s d else s

/-! ### Records (R315 to R318) -/

/-- A digest item before it is laid out. -/
structure DigItem where
  ident : Nat
  token : Nat := 0xFFFFFFFF
  logp : Nat := 0
  pos : Nat
  state : EState
  sitout : Bool := false
  final : Bool := false
  charge : Nat := 0
  deriving DecidableEq, Repr

def DigItem.bytes (x : DigItem) (epoch : BitVec 32) : List Byte :=
  leBytes 8 (x.ident + x.token * 2 ^ 32) ++ leBytes 8 (x.logp + epoch.toNat * 2 ^ 32) ++
    leBytes 8 (x.pos % 2 ^ 32 + x.state.code * 2 ^ 32 + x.sitout.toNat * 2 ^ 35 + x.final.toNat * 2 ^ 36) ++ leBytes 8 (x.charge % 2 ^ 32)

/-- A tenant's digest ring has room for `n` units. -/
def digestRoom (s : State) (t n : Nat) : Bool :=
  let used := (fld (rget s (dring t 16)) 0 25 + 2 ^ 25 - fld (rget s (dring t 24)) 0 25) % 2 ^ 25
  decide (used + n ≤ 2 ^ fld (rget s (dring t 8)) 0 5)

/-- One digest record of a tenant, written whole before the producer index moves past it (DEDUCED, log 60). -/
def putDigest (s : State) (t d step : Nat) (outside : Bool) (epoch : BitVec 32) (time : BitVec 64) (l : List DigItem) : State :=
  let size := 2 ^ fld (rget s (dring t 8)) 0 5
  let base := fld (rget s (dring t 0)) 12 52 * 4096
  let prod := fld (rget s (dring t 16)) 0 25
  let phase := decide ((prod / size) % 2 = 0)
  let bytes := leBytes 8 (step % 2 ^ 32 + d * 2 ^ 32 + phase.toNat * 2 ^ 35 + outside.toNat * 2 ^ 36 + l.length * 2 ^ 48) ++
    leBytes 8 (epoch.toNat + t * 2 ^ 32) ++ leBytes 8 time.toNat ++ leBytes 8 (unsgn 48 (level s t)) ++ leBytes 32 0 ++
    l.flatMap (fun x => x.bytes epoch)
  let units := bytes.length / 32
  let h := (List.range units).foldl (fun h u => hostPut h (base + 32 * ((prod + u) % size)) ((bytes.drop (32 * u)).take 32)) s.host
  let s := rset { s with host := h } (dring t 16) (BitVec.ofNat 64 ((prod + units) % 2 ^ 25))
  let s := setTenant s t { tenant s t with full := false }
  if flag (rget s (dring t 8)) 5 then ctxSignal s t 2 2 else s

/-- EVT_DIGEST_FULL once for each run of full steps (DEDUCED, log 60). -/
def digestFull (s : State) (t : Nat) : State :=
  if (tenant s t).full then s else raiseJob (setTenant s t { tenant s t with full := true }) t 0x0051 t 0

/-- Word `k` of the control block of a compatibility ring. -/
def ringWord (s : State) (a k : Nat) : Nat := leNat (hostBytes s.host (a + 8 * k) 8)
/-- Free entries of a compatibility ring (DEDUCED, log 60). -/
def ringRoom (s : State) (e : Entry) : Nat := 2 ^ nfld (ringWord s e.cring 2) 0 4 - (ringWord s e.cring 0 + 2 ^ 64 - ringWord s e.cring 1) % 2 ^ 64

/-- END of a final state. -/
def endCode : EState → Nat
  | .expired => 1
  | .evicted => 2
  | _ => 0

/-- Items of one entry go to its compatibility ring, whole before the producer index moves past them (DEDUCED, log 60). -/
def putRing (s : State) (e : Entry) (l : List DigItem) : State :=
  let p := ringWord s e.cring 0
  let n := 2 ^ nfld (ringWord s e.cring 2) 0 4
  let h := (l.zip (List.range l.length)).foldl (fun h (x, k) =>
    hostPut h (e.cring + 64 + 16 * ((p + k) % n))
      (leBytes 8 (x.token + x.logp * 2 ^ 32) ++ leBytes 8 (x.pos % 2 ^ 32 + x.final.toNat * 2 ^ 32 + (if x.final then endCode x.state * 2 ^ 33 else 0)))) s.host
  { s with host := hostPut h e.cring (leBytes 8 ((p + l.length) % 2 ^ 64)) }

/-- The item that reports a final state without a token. -/
def finalItem (i : Nat) (e : Entry) : DigItem := { ident := e.ident i, pos := e.pos, state := e.state, final := true }

/-- Final entries that still owe their ring an entry write it where there is room. -/
def ringFinals (s : State) (d : Nat) : State :=
  (dieEntries s d).foldl (fun s (i, e) =>
    if e.final && !e.ring && decide (ringRoom s e ≥ 1) then setEntry (putRing s e [finalItem i e]) i { e with ring := true } else s) s

/-- Entries of a tenant on a die whose final state the digest has not reported. -/
def owedFinals (s : State) (d t : Nat) : List (Nat × Entry) := (dieEntries s d).filter (fun e => e.2.final && !e.2.dig && decide (e.2.tenant = t))
/-- The digest has reported them. -/
def setReported (s : State) (l : List (Nat × Entry)) : State := l.foldl (fun s x => setEntry s x.1 { entry s x.1 with dig := true }) s

/-- The epoch of a tenant's job. -/
def tenantEpoch (s : State) (t : Nat) : BitVec 32 := match jobOf s t with | some j => j.epoch | none => 0

/-- The die's last step: none before step 0, where the number is free. -/
def lastStep (s : State) (d : Nat) : Nat :=
  let x := dieServe s d
  if !x.batch.isEmpty then x.step.toNat else if x.step = 0 then (Config.freeWord s.free).toNat % 2 ^ 32 else (x.step - 1).toNat

/-- Tenants with final states to report. -/
def owing (s : State) (d : Nat) : List Nat := (((dieEntries s d).filter (fun e => e.2.final && !e.2.dig)).map (·.2.tenant)) ++ (dieServe s d).ended
/-- The record of a tenant's final states is written. -/
def recorded (s : State) (d t : Nat) : State := setDie s d { dieServe s d with ended := (dieServe s d).ended.filter (· ≠ t) }

/-- Out-of-step records of a die: one for each tenant with final states to report, where its ring has room (R304, R317; DEDUCED, log 60). -/
def outRecords (s : State) (d : Nat) : State :=
  let ts := (owing s d).eraseDups
  let s := ts.foldl (fun s t =>
    let l := owedFinals s d t
    if digestRoom s t (2 + l.length) then
      setReported (recorded (putDigest s t d (lastStep s d) true (tenantEpoch s t) s.now (l.map (fun x => finalItem x.1 x.2))) d t) l
    else digestFull s t) s
  freeReported (ringFinals s.fresh d) d

/-- Entries outside the batch whose deadline has passed; in the learning layout those of the batch too, which does not go on (R304;
DEDUCED, log 58). -/
def expireIdle (s : State) (d : Nat) : State :=
  let b := if learning s d then [] else (dieServe s d).batch.map (·.entry)
  (dieEntries s d).foldl (fun s (i, e) => if e.open_ && !b.contains i && decide (s.now.toNat > e.deadline) then finish s i (if e.evict then .evicted else .expired) else s) s

/-! ### A step boundary (R306, R308, R311, R313) -/

/-- A result item as read: whether its fields are in order, and what it says. -/
structure Result where
  ok : Bool
  npages : Nat
  sitout : Bool
  eos : Bool
  epoch : BitVec 32
  toks : List (Nat × Nat)
  deriving DecidableEq, Repr

def readResult (s : State) (d step k : Nat) (it : BatchItem) : Result :=
  let b := vbytes (mapCtx s) (viewOut s) (resultAddr s d step + 80 * k) 80
  let n := wfld b 1 16 4
  { ok := decide (wfld b 0 0 64 = it.ident) && decide (n ≤ it.remain ∧ n ≤ 8) && decide (wfld b 1 22 10 = 0),
    npages := wfld b 1 0 16, sitout := wfld b 1 20 1 = 1, eos := wfld b 1 21 1 = 1, epoch := BitVec.ofNat 32 (wfld b 1 32 32),
    toks := (List.range n).map (fun i => (wfld b (2 + i) 0 32, wfld b (2 + i) 32 32)) }

/-- What a boundary does with one batch item. -/
structure Outcome where
  it : BatchItem
  r : Result
  sit : Bool
  deriving DecidableEq, Repr

/-- The deadline of an item's entry has passed, and no eviction comes first. -/
def expires (s : State) (it : BatchItem) : Bool := !(entry s it.entry).evict && decide (s.now.toNat > (entry s it.entry).deadline)

/-- Tokens that an item emits. -/
def emitted (s : State) (o : Outcome) : List (Nat × Nat) := if o.sit || expires s o.it then [] else o.r.toks

/-- Results of the batch, with sit-outs by R308, R311 and R318; an entry that ended while the batch was out has none. -/
def outcomes (s : State) (d : Nat) : List Outcome :=
  let x := dieServe s d
  ((x.batch.zip (List.range x.batch.length)).filter (fun e => (entry s e.1.entry).open_ && decide ((entry s e.1.entry).ident e.1.entry = e.1.ident))).map (fun (it, k) =>
    let r := readResult s d x.step.toNat k it
    let o : Outcome := { it := it, r := r, sit := tget false s.counts.sitOut it.entry || !r.ok || r.sitout }
    let e := entry s it.entry
    { o with sit := o.sit || (e.inRing && decide ((emitted s o).length > ringRoom s e)) })

/-- EVT_RESULT_BAD for items that are not in order. -/
def badResults (s : State) (d : Nat) (l : List Outcome) : State :=
  l.foldl (fun s o =>
    if !o.r.ok && !tget false s.counts.sitOut o.it.entry then raiseJob s (entry s o.it.entry).tenant 0x0050 (d + (dieServe s d).step.toNat * 8) o.it.ident else s) s

/-- The state of the entry of an item at the boundary, in the order of R306. -/
def nextState (s : State) (o : Outcome) : EState :=
  let e := entry s o.it.entry
  if e.evict then .evicted
  else if expires s o.it then .expired
  else if o.sit then e.state
  else if !o.it.decode && !o.it.last then e.state
  else if e.emitted + o.r.toks.length ≥ e.maxNew ∨ o.r.eos then .done
  else if e.state = .held then .held
  else .decode

/-- The charge of an item (R313, R314). -/
def charge (o : Outcome) : Nat := if o.sit then 0 else if o.it.decode then (if o.r.toks.isEmpty then 256 else o.r.toks.length * 256) else o.it.cost

/-- The digest items of one batch item: one for each token, or one that carries none (DEDUCED, log 60). -/
def outItems (s : State) (o : Outcome) : List DigItem :=
  let e := entry s o.it.entry
  let st := nextState s o
  let fin := decide (st = .done ∨ st = .expired ∨ st = .evicted)
  let toks := emitted s o
  let first := if o.it.decode then o.it.pos + 1 else o.it.pos + o.it.ntok
  let after := if o.sit then e.pos else e.pos + (if o.it.decode then o.r.toks.length else o.it.ntok)
  if toks.isEmpty then [{ ident := o.it.ident, pos := after, state := st, sitout := o.sit, final := fin, charge := charge o }]
  else (toks.zip (List.range toks.length)).map (fun (x, k) =>
    { ident := o.it.ident, token := x.1, logp := x.2, pos := first + k, state := st, final := fin && decide (k + 1 = toks.length),
      charge := if k = 0 then charge o else 0 })

/-- One item is applied to its entry and its tenant's bucket (R311, R314). -/
def applyItem (s : State) (o : Outcome) : State :=
  let i := o.it.entry
  let e := entry s i
  let st := nextState s o
  let items := outItems s o
  let s := setLevel s e.tenant (level s e.tenant + o.it.cost - charge o)
  let room := e.inRing && decide (items.length ≤ ringRoom s e)
  let e1 := if o.sit then e
    else { e with pos := e.pos + (if o.it.decode then o.r.toks.length else o.it.ntok), emitted := e.emitted + o.r.toks.length,
                  npages := o.r.npages, epoch := o.r.epoch, prevDecode := e.prevDecode || o.it.last }
  let fin := decide (st = .done ∨ st = .expired ∨ st = .evicted)
  let s := if room && (!(emitted s o).isEmpty || fin) then putRing s e items else s
  let s := setEntry s i { e1 with state := if fin then e1.state else st }
  if fin then (let s := finish s i st; setEntry s i { entry s i with ring := !e.inRing || room }) else s

/-- The tenants with something to report at a boundary: an entry in the batch, or one that has reached a final state (R315). -/
def boundaryTenants (s : State) (d : Nat) (os : List Outcome) : List Nat :=
  ((os.map (fun o => (entry s o.it.entry).tenant)) ++ owing s d).eraseDups

/-- One tenant's part of a boundary: where its ring lacks room its entries sit out, otherwise its record is written (DEDUCED, log 58). -/
def tenantBoundary (d : Nat) (os : List Outcome) (s : State) (t : Nat) : State :=
  let mine := os.filter (fun o => decide ((entry s o.it.entry).tenant = t))
  let owed := owedFinals s d t
  let dig := mine.filter (fun o => (entry s o.it.entry).inDigest)
  let need := 2 + owed.length + ((dig.map (fun o => (outItems s o).length)).foldl (· + ·) 0)
  if digestRoom s t need then
    let items := dig.flatMap (outItems s) ++ owed.map (fun x => finalItem x.1 x.2)
    let epoch := match mine.find? (fun o => !o.sit) with | some o => o.r.epoch | none => tenantEpoch s t
    let s' := mine.foldl applyItem s
    let s' := recorded (putDigest s' t d (dieServe s d).step.toNat false epoch s.now items) d t
    setReported s' (owed ++ ((dig.map (fun o => (o.it.entry, entry s' o.it.entry))).filter (fun x => x.2.final)))
  else digestFull (mine.foldl (fun s o => applyItem s { o with sit := true }) s) t

/-- The boundary of a die: results, records, marks, and the next batch (DEDUCED, log 58). -/
def boundary (s : State) (d : Nat) : State :=
  let x := dieServe s d
  if x.batch.isEmpty || dieDead s d || learning s d || !bellMet s (doneBell s d) (x.step + 1) then s
  else
    let s := (expireIdle s d).touch 0 false true (resultAddr s d x.step.toNat, 80 * x.batch.length)
    let os := outcomes s d
    let s := badResults s d os
    let s := (boundaryTenants s d os).foldl (tenantBoundary d os) s
    let s := freeReported (ringFinals s d) d
    let s := { s with counts := { s.counts with sitOut := tclear s.counts.sitOut (d * 16384) (d * 16384 + 16384) } }
    let s := setDie s.fresh d { dieServe s d with step := x.step + 1, batch := [] }
    if serving s d then formBatch s d else s

/-- A die's deadlines are checked away from a boundary, and its expiries reported (R304, R309). -/
def checkIdle (s : State) (d : Nat) : State := outRecords (expireIdle s d) d

/-- The 1 ms check of a die without a batch, or whose job is in the learning layout (R304, R309; DEDUCED, log 58). -/
def tick (s : State) (d : Nat) : State :=
  if dieDead s d || (!(dieServe s d).batch.isEmpty && !learning s d) then s else tryBatch (checkIdle s d) d

/-- ENABLE of a die: 1 starts serving at step 0, 0 ends it after the step in progress (R309; DEDUCED, log 59). -/
def setServing (s : State) (d : Nat) (on : Bool) : State :=
  let was := serving s d
  let others := (List.range 8).any (fun k => decide (k ≠ d) && serving s k)
  let s := rflag s (rosStep d 0) 32 on
  if !on || was then s
  else
    let s := { s with serve := { s.serve with tenants := (List.range 512).map (fun t =>
      let x := tenant s t
      (t, if others && x.refill.isSome then x else { x with refill := some s.now })) } }
    let s := (dieServe s d).batch.foldl (fun s it => let t := (entry s it.entry).tenant; setLevel s t (level s t + it.cost)) s
    let s := setDie s d { ended := (dieServe s d).ended }
    if dieDead s d then s else tryBatch (checkIdle s d) d

/-! ### Classes (R323) -/

/-- Classes of a die. -/
def classesOf (s : State) (d : Nat) : List ServeClass := (List.range 64).filterMap (fun c => tget none s.serve.classes (d * 64 + c))

/-- The worst case L of a class in ns; none where PF_SLOTS or CHUNK is 0 (DEDUCED, log 59; DEDUCED, log 61). -/
def worstCase (s : State) (tdie sum : Nat) (k : ServeClass) : Option Int :=
  if k.pfSlots = 0 ∨ k.chunk = 0 then none
  else
    let form : Int := if flag (rget s rosCfg) 0 then 20000 + 40 * sum else 2000 + 4 * sum
    let cpf : Int := cdiv k.maxPrompt k.chunk
    let wadm : Int := 1 + (((k.maxActive : Int) - 1) / k.pfSlots) * cpf
    some ((wadm + cpf + k.maxOut - 1) * (tdie + form))

/-- The status with which a die's class set is refused, 0 where it stands (DEDUCED, log 61). -/
def classStatus (s : State) (l : List ServeClass) (bmax pmax tdie : Nat) : BitVec 16 :=
  let sum := (l.map (·.maxActive)).foldl (· + ·) 0
  if sum > bmax ∨ (l.map (fun k => k.pfSlots * k.chunk)).foldl (· + ·) 0 > pmax then 0x0147
  else if l.any (fun k => match worstCase s tdie sum k with | some x => decide (x > k.d) | none => true) then 0x0148 else 0

/-- CLASS_SET; `e` is the second slot, read where W1 [9] is 1 (DEDUCED, log 61). -/
def classSet (s : State) (c e : HostCmd) : State :=
  let d := fld c.w1 0 3
  let n := fld c.w1 3 6
  let low := c.w5.toNat + c.w6.toNat * 2 ^ 64 + c.w7.toNat * 2 ^ 128
  let high := if flag c.w1 9 then e.w1.toNat + e.w2.toNat * 2 ^ 64 + e.w3.toNat * 2 ^ 128 + e.w4.toNat * 2 ^ 192 + e.w5.toNat * 2 ^ 256 else 0
  let k : ServeClass := { maxActive := fld c.w2 0 16, pfSlots := fld c.w2 16 16, chunk := fld c.w2 32 32, maxPrompt := fld c.w3 0 32,
                          maxOut := fld c.w3 32 32, d := c.w4.toNat, tenants := low + high * 2 ^ 192 }
  let set := tset none s.serve.classes (d * 64 + n) (some k)
  let s' := { s with serve := { s.serve with classes := set } }
  match classStatus s (classesOf s' d) (batchMax s d) (pfMax s d) (tDie s d) with
  | 0 => endNow s' 0x21 c 0
  | st => endNow s 0x21 c st

/-- A write of LIMITS: a value outside a field's range keeps it, and where T_DIE or BATCH_MAX changes every class is checked again; a
write that would break one is discarded (R323, R326; DEDUCED, log 61). -/
def limitsWrite (s : State) (d : Nat) (v : BitVec 64) : State :=
  let a := rosStep d 32
  let old := rget s a
  if (fld v 0 13 ≠ fld old 0 13 ∨ fld v 37 27 ≠ fld old 37 27) ∧ classStatus s (classesOf s d) (fld v 0 13) (fld v 13 24) (fld v 37 27 * 1000) ≠ 0 then s
  else rset s a v

/-! ### Admission and eviction (R307, R322) -/

def steered (s : State) (slot : Nat) : Bool := !(tget [] s.counts.steer slot).isEmpty
/-- Entries that pin a steering slot (R319). -/
def steerRefs (s : State) (slot : Nat) : Nat := (s.serve.entries.filter (fun e => decide (e.2.steer = some slot))).length

/-- The checks of R322 in order (DEDUCED, log 60). -/
def admitStatus (s : State) (c : HostCmd) (d t : Nat) (k : Option ServeClass) : BitVec 16 :=
  match k with
  | none => 0x0140
  | some k =>
    let stream := fld c.w1 10 2
    let n := nfld (ringWord s c.w4.toNat 2) 0 4
    let ringBad := decide (stream = 1 ∨ stream = 2) && (decide (c.w4.toNat % 64 ≠ 0) || decide (n < 6))
    let adapter := fld c.w1 40 24
    if nfld k.tenants t 1 = 0 then 0x0140
    else if fld c.w2 0 32 > k.maxPrompt ∨ fld c.w2 32 32 > k.maxOut ∨ fld c.w2 32 32 = 0 ∨ stream = 3 ∨ ringBad then 0x0141
    else if ((dieEntries s d).filter (fun e => decide (e.2.cls = fld c.w1 0 6))).length ≥ k.maxActive then 0x0142
    else if (dieEntries s d).length ≥ 16384 then 0x0143
    else if adapter ≠ 0xFFFFFF ∧ (adapterIn s adapter .live).isNone then 0x0144
    else if flag c.w1 24 ∧ !steered s (fld c.w1 15 9) then 0x0145
    else 0

/-- The first FREE entry of a die. -/
def freeEntry (s : State) (d : Nat) : Option Nat := (upto (d * 16384) 16384).find? (fun i => decide ((entry s i).state = .free))

def admitReq (s0 : State) (c : HostCmd) : State :=
  let s := dueFlips s0
  let t := cmdCtx c
  let d := fld c.w1 12 3
  let cls := fld c.w1 0 6
  let k := tget none s.serve.classes (d * 64 + cls)
  if !inWindow s t (fld c.w5 0 48) (Nat.max 1 (4 * fld c.w5 48 16)) then endNow s 0x10 c 0x0161
  else
    match admitStatus s c d t k, freeEntry s d with
    | 0, some i =>
      let adapter := fld c.w1 40 24
      let slot := if adapter = 0xFFFFFF then none else adapterIn s adapter .live
      let limit := s.now.toNat + (match k with | some k => k.d | none => 0)
      let e : Entry :=
        { state := .admitted, gen := (entry s i).gen + 1, tenant := t, cls := cls, prio := fld c.w1 6 4, stream := fld c.w1 10 2, aslot := slot,
          steer := if flag c.w1 24 then some (fld c.w1 15 9) else none, prompt := fld c.w2 0 32, maxNew := fld c.w2 32 32,
          deadline := if flag c.w1 25 then Nat.min c.w3.toNat limit else limit, plist := fld c.w5 0 48, npages := fld c.w5 48 16,
          epoch := 0, aver := match slot with | some a => (adapterAt s a).version | none => 0, tAdmit := s.now.toNat, cring := c.w4.toNat }
      let s := match slot with | some a => setAdapter s a { adapterAt s a with refs := (adapterAt s a).refs + 1 } | none => s
      tryBatch (endNow (setEntry s i e) 0x10 c 0 (BitVec.ofNat 64 (e.ident i))) d
    | st, _ => endNow s 0x10 c st

/-- One entry is evicted: in the batch at the end of the step, otherwise at once. -/
def evictEntry (s : State) (i : Nat) : State :=
  let e := entry s i
  if !e.open_ then s
  else if (dieServe s (i / 16384)).batch.any (fun it => decide (it.entry = i)) then setEntry s i { e with evict := true }
  else finish s i .evicted

def evict (s : State) (c : HostCmd) : State :=
  let id := fld c.w1 0 32
  let i := id % 2 ^ 17
  let e := entry s i
  if e.state = .free ∨ e.gen.toNat ≠ id / 2 ^ 17 then endNow s 0x11 c 0x0146
  else if e.tenant ≠ cmdCtx c then endNow s 0x11 c 0x0161
  else endNow (evictEntry s i) 0x11 c 0

/-- Every entry of a tenant is evicted (R307, R370). -/
def evictTenant (s : State) (t : Nat) : State :=
  (s.serve.entries.filter (fun e => decide (e.2.tenant = t))).foldl (fun s e => evictEntry s e.1) s

/-- Firmware's report of a quiet die before its reset (R356): every entry that is not FREE becomes EVICTED. -/
def evictDie (s : State) (d : Nat) : State :=
  let s := setDie s d { dieServe s d with batch := [] }
  outRecords ((dieEntries s d).foldl (fun s e => finish s e.1 .evicted) s) d

/-! ### Steering cards (R319, R320) -/

/-- Every directory entry names segments within the card and has zero reserved bits. -/
def steerCardOk (l : List Byte) : Bool :=
  (List.range 256).all (fun k =>
    let e := leNat ((l.drop (4 * k)).take 4)
    decide (nfld e 0 5 ≤ 30 ∧ nfld e 5 5 ≤ 30 ∧ nfld e 26 6 = 0))

def steerLoad (s : State) (c : HostCmd) : State :=
  let slot := fld c.w1 0 9
  let l := dmaRead s c.w2.toNat 16384
  if steerRefs s slot ≠ 0 then endNow s 0x22 c 0x0149
  else if !steerCardOk l then endNow s 0x22 c 0x014A
  else endNow { (s.pass false (c.w2.toNat, 16384)).fresh with counts := { s.counts with steer := tset [] s.counts.steer slot l } } 0x22 c 0

def steerUnload (s : State) (c : HostCmd) : State :=
  let slot := fld c.w1 0 9
  if steerRefs s slot ≠ 0 then endNow s 0x23 c 0x0149
  else endNow { s with counts := { s.counts with steer := tset [] s.counts.steer slot [] } } 0x23 c 0

/-- A write to ROS_CFG.MODE (R300; DEDUCED, log 62). -/
def rosMode (s : State) (mode : Bool) : State := if rosterLive s then rflag s rosStatus 1 true else rflag s rosCfg 0 mode

/-- EVT_SERVE_LATE, once a step that overruns T_DIE (R324). -/
def serveLate (s : State) (d : Nat) : State :=
  let x := dieServe s d
  if x.batch.isEmpty || x.late || decide ((s.now - x.formed).toNat ≤ tDie s d) then s
  else raise (setDie s d { x with late := true }) 0x0052 d x.step.toNat [] none

/-! ### Commands -/

def execAdapterLoad (c : HostCmd) (s : State) : Host.Outcome State Fault Refusal :=
  .next (takeCmd s 0x0A c false [bmask 0 48, bmask 12 36] (decide (1 ≤ fld c.w1 40 7 ∧ fld c.w1 40 7 ≤ 64)) (fun s => adapterLoad s c))
def execAdapterUnload (c : HostCmd) (s : State) : Host.Outcome State Fault Refusal :=
  .next (takeCmd s 0x0B c false [bmask 0 48] true (fun s => adapterUnload s c))
def execAdapterFlip (slot : BitVec 10) (s : State) : Host.Outcome State Fault Refusal := .next (adapterFlip s slot.toNat)
/-- A load of queue set `q` that has waited for ADAPTER_WAIT_LIMIT fails. -/
def execAdapterWaitLimit (q : Fin 513) (tag : BitVec 16) (s : State) : Host.Outcome State Fault Refusal :=
  .next (endWhere s (fun r => decide (r.op = 0x0A) && decide (r.c.q = q ∧ r.c.tag = tag)) 0x0138 0)
def execAdmitCmd (c : HostCmd) (s : State) : Host.Outcome State Fault Refusal :=
  .next (takeCmd s 0x10 c false [bmask 0 26 + bmask 40 24, wholeWord, wholeWord, wholeWord, wholeWord] (decide (fld c.w5 0 3 = 0)) (fun s => admitReq s c))
def execEvict (c : HostCmd) (s : State) : Host.Outcome State Fault Refusal :=
  .next (takeCmd s 0x11 c false [bmask 0 32] true (fun s => evict s c))
def execClassSet (c e : HostCmd) (s : State) : Host.Outcome State Fault Refusal :=
  .next (takeCmd s 0x21 c true [bmask 0 10] true (fun s => classSet s c e) (if flag c.w1 9 then 2 else 1))
def execSteerLoad (c : HostCmd) (s : State) : Host.Outcome State Fault Refusal :=
  .next (takeCmd s 0x22 c true [bmask 0 9, bmask 0 48] (memRange s c.w2.toNat 16384) (fun s => steerLoad s c))
def execSteerUnload (c : HostCmd) (s : State) : Host.Outcome State Fault Refusal :=
  .next (takeCmd s 0x23 c true [bmask 0 9] true (fun s => steerUnload s c))
def execRosterBoundary (d : DieNo) (s : State) : Host.Outcome State Fault Refusal := .next (boundary s d)
def execServingEnable (d : DieNo) (on : Bool) (s : State) : Host.Outcome State Fault Refusal := .next (setServing s d on)
def execRosterTick (d : DieNo) (s : State) : Host.Outcome State Fault Refusal := .next (tick s d)
def execRosModeWrite (mode : Bool) (s : State) : Host.Outcome State Fault Refusal := .next (rosMode s mode)
def execEvtServeLate (d : DieNo) (s : State) : Host.Outcome State Fault Refusal := .next (serveLate s d)

end Sys2Proof.Machine
end

