-- ==== Sys2Proof/Machine/Change.lean ====
section
/-! DEFINITION. Changeovers (R259 to R270), the removal of a class list's member and its readmission (R121, R234, R255, R270, R339,
R340, R342, R346), ROLLs (R224) and weight replacement (R271 to R275). -/
namespace Sys2Proof.Machine

/-! ### Readiness and the start (R263, R264) -/

/-- A CHG that asks for a layout. -/
def selChg (layout : Bool) : EngineOp → Option (Nat × BitVec 32)
  | .chg l res step => if l = layout then some (res, step) else none
  | _ => none

/-- Started, undecided instructions of a context that `sel` selects. -/
def ctlCount (s : State) (ctx : Nat) (sel : EngineOp → Option (Nat × BitVec 32)) : Nat :=
  ((ctlWaiters s ctx).filter (fun e => (sel e.2.2.i.op).isSome)).length

/-- Every COMMIT that the job has issued on the seat has completed. -/
def commitsOver (s : State) (ctx : Nat) : Bool :=
  s.tiles.all (fun e => decide (e.2.ctx.toNat ≠ ctx) ||
    (!(e.2.queue 4).any (fun i => isCommit i.op) && !(e.2.startedQ 4).any (fun x => isCommit x.i.op)))

/-- No gate or commit of the context is pending (R255). -/
def ctlIdle (s : State) (ctx : Nat) : Bool :=
  (ctlWaiters s ctx).all (fun e => match e.2.2.i.op with | .gate .. => false | .commit .. => false | _ => true)

/-- The seat is ready for a Changeover into `layout` (DEDUCED, log 50; DEDUCED, log 52). -/
def chgReady (s : State) (ctx : Nat) (j : Job) (layout : Bool) : Bool :=
  decide (j.layout ≠ layout) && j.change.isNone && decide (ctlCount s ctx (selChg layout) ≥ j.gateTiles) && ctlIdle s ctx && j.rcv.swap.isNone &&
    (!layout || (commitsOver s ctx && j.acked)) && !j.rcv.restoring && j.rcv.replay.isNone && !j.rcv.creating && decide (j.repl.state = 0)

def Job.plan (j : Job) (layout : Bool) : List Byte := if layout then j.genPlan else j.learnPlan
/-- The entries that this seat executes. -/
def ownEntries (s : State) (j : Job) (layout : Bool) : List PlanEntry :=
  (planEntries (j.plan layout)).filter (fun e => decide (e.srcRank = rankIn s j.gateList))

/-- The bytes of a local entry, each with the byte it comes from. -/
def localCopy (s : State) (e : PlanEntry) : List (PW × Nat) :=
  (List.range e.len).map (fun k =>
    let a := canon (mapCtx s) (e.src + k)
    ({ addr := canon (mapCtx s) (e.dst + k), mask := 0xFF, val := viewOut s a }, a))

/-- PORTS of a route plan (R260). -/
def planPorts (plan : List Byte) : BitVec 6 := BitVec.ofNat 6 (wfld plan 0 25 6)

/-- One sheet of a remote entry as a transfer of WRITE flits on VC2 over `ports` ports (R264). -/
def pushSheet (ports : BitVec 6) (s : State) (seat : BitVec 10) (src dst : Nat) : State :=
  let l := dataPieces dst (sheetBytes s src)
  let s := l.foldl (fun s x => sendSpread s ports 0 2 seat (flitLen (x.1 - dst) x.2.length) (.bytes (BitVec.ofNat 48 x.1) x.2 [] none)) s
  sendKept s 6 1 seat 0 (.endB l.length)

/-- A tile of the context, in whose Classroom the accesses of the context's engines allocate (R192). -/
def ctxTile (s : State) (ctx : Nat) : Nat := ((s.tiles.find? (fun e => decide (e.2.ctx.toNat = ctx))).map (·.1)).getD 0

/-- A remote entry is pushed sheet by sheet, each to be acknowledged (DEDUCED, log 52). -/
def pushEntry (ports : BitVec 6) (members : List (BitVec 10)) (a : State × Tab Nat) (e : PlanEntry) : State × Tab Nat :=
  match members[e.dstRank]? with
  | some seat =>
    let n := e.len / 4096
    ((List.range n).foldl (fun s k => pushSheet ports s seat (e.src + 4096 * k) (e.dst + 4096 * k)) a.1,
     tset 0 a.2 seat.toNat (tget 0 a.2 seat.toNat + n))
  | none => a

/-! ### Failure (R270) -/

/-- A Changeover ends without a switch point: its CHGs complete with `status`, destinations may hold part of what was under
way, and firmware's restore comes before the next CHG (DEDUCED, log 52). -/
def chgFail (s : State) (ctx : Nat) (status : Nat) : State :=
  match jobOf s ctx with
  | none => s
  | some j =>
    match j.change with
    | none => s
    | some x =>
      let ws := (x.writes.map (·.1)).filter (fun w => Config.freeBit (s.free * 2 ^ 48 + w.addr / 8))
      let s := ((setJob s ctx (some { j with change := none })).fresh.touchWrites (some (ctxTile s ctx)) (ws.filter (taken s))).land 1022 6 ws
      needRestore (endCtl s ctx status 0 (selChg x.layout)) ctx

/-- The failing rank and address enter the Changeover report; a poisoned sheet of a state region of this seat is one that the restore
brings. -/
def chgMemErr (s : State) (ctx : Nat) (rank : BitVec 10) (a : BitVec 48) : State :=
  let sheet (j : Job) : Option Nat :=
    if rank.toNat = rankIn s j.gateList then (j.sheets.map (·.2)).find? (fun x => rangesMeet (mapCtx s) x 4096 a.toNat 1) else none
  chgFail (onJob s ctx (fun j => { j with chgReport := some (rank, a), rcv := { j.rcv with mend := sheet j } })) ctx 0x0134

/-- The start: this seat's entries run, and its local writes race from now on (R264, R265; DEDUCED, log 52). -/
def chgBegin (s : State) (ctx : Nat) (j : Job) (layout : Bool) : State :=
  let es := ownEntries s j layout
  let begun (w : List (PW × Nat)) (t : Tab Nat) (s : State) : State := onJob s ctx (fun j => { j with change := some { layout := layout, writes := w, awaits := t } })
  match (es.filterMap (fun e => accessError s true e.src e.len)).head? with
  | some f => chgMemErr (begun [] [] s) ctx (BitVec.ofNat 10 (rankIn s j.gateList)) (f.info0.truncate 48)
  | none =>
    let (loc, rem) := es.partition (fun e => decide (e.dstRank = e.srcRank))
    let members := match listAt s j.gateList with | some l => l.members | none => []
    let s1 := s.touches (ctxTile s ctx) false (es.map (fun e => (e.src, e.len)))
    let (s1, t) := rem.foldl (pushEntry (planPorts (j.plan layout)) members) (s1, [])
    let w := loc.flatMap (localCopy s)
    ((begun w t s1).accept (w.map (·.1))).fresh

def chgStart (s : State) (ctx : Nat) : State :=
  match jobOf s ctx with
  | some j => if chgReady s ctx j (!j.layout) then chgBegin s ctx j (!j.layout) else s
  | none => s

/-- A local byte as it lands: what its source held at the start or, by a free choice for each word, holds now (R265; DEDUCED, log 52). -/
def landedByte (s : State) (ctx : Nat) (w : PW × Nat) : PW :=
  if Config.freeBit (raceIx s 1022 6 ctx w.1.addr) then { w.1 with val := viewOut s w.2 } else w.1

/-- This seat reports done once every transfer is acknowledged; the report of a failed read at any seat ends the Changeover (DEDUCED, log 52). -/
def seatDone (s : State) (ctx : Nat) (failed : Option (BitVec 10 × BitVec 48)) : State :=
  match jobOf s ctx with
  | none => s
  | some j =>
    match j.change, failed with
    | some _, some (r, a) => chgMemErr s ctx r a
    | some x, none =>
      if x.done || !x.awaits.isEmpty then s
      else
        let ws := x.writes.map (landedByte s ctx)
        let dests := ((ownEntries s j x.layout).filter (fun e => decide (e.dstRank = e.srcRank))).map (fun e => (e.dst, e.len))
        ((setJob s ctx (some { j with change := some { x with writes := [], done := true } })).touches (ctxTile s ctx) true dests).land 1022 6 ws
    | none, _ => s

/-! ### The switch point (R266 to R269) -/

/-- PREFILL and DECODE entries of a tenant are held for the barrier, which takes precedence over the budget (DEDUCED, log 53). -/
def holdTenant (s : State) (t : Nat) : State :=
  (s.serve.entries.filter (fun e => decide (e.2.tenant = t))).foldl (fun s (i, e) =>
    setEntry s i (if e.state = .held then { e with why := 1 } else e.hold 1)) s
/-- Entries held for the barrier return to their previous state (DEDUCED, log 53). -/
def unholdTenant (s : State) (t : Nat) : State :=
  (s.serve.entries.filter (fun e => decide (e.2.tenant = t ∧ e.2.why = 1))).foldl (fun s (i, e) => setEntry s i e.unhold) s

/-- START, EPOCH_k and LEAVE_k of a replacement descriptor (R271). -/
def startBell (d : List Byte) : BitVec 19 := Config.replBell d
def epochBell (d : List Byte) (k : Nat) : BitVec 19 := Config.replBell d + BitVec.ofNat 19 (1 + 2 * k)
def leaveBell (d : List Byte) (k : Nat) : BitVec 19 := Config.replBell d + BitVec.ofNat 19 (2 + 2 * k)

/-- Every EPOCH_k is set to the job's weight epoch. -/
def epochBells (s : State) (d : List Byte) (epoch : BitVec 32) : State :=
  (List.range (Config.replLayers d)).foldl (fun s k => bellSet s (epochBell d k) epoch) s

/-- The replacement record (R273). Until layer 0 has been received E_NEW still reads E_OLD. -/
def putRecordOf (s : State) (r : Repl) : State :=
  match r.desc with
  | some d =>
    landAt s (Config.replRecord d)
      (leBytes 8 (r.eOld.toNat + (if r.received = 0 then r.eOld else r.eNew).toNat * 2 ^ 32) ++
        leBytes 8 (r.cut.toNat + r.front % 256 * 2 ^ 32 + r.state.toNat * 2 ^ 40))
  | none => s

/-- The exponents of forward-pass tensors that a new weight epoch publishes: the committed ones (R44, R268; DEDUCED, log 46). -/
def publish (j : Job) : Tab TensorSt :=
  j.classList.foldl (fun t e =>
    if forwardClass (clsClass e) then
      let x := tget {} t (clsTid e)
      tset {} t (clsTid e) { x with pub := if clsFixed e then x.exp else (tget {} j.rcv.last.tensors (clsTid e)).exp }
    else t) j.tensors

/-- The job's weight epoch changes: the record and the EPOCH_k follow. -/
def setEpoch (s : State) (ctx : Nat) (e : BitVec 32) : State :=
  match jobOf s ctx with
  | none => s
  | some j =>
    let r := { j.repl with eOld := e, eNew := e }
    let s := setJob s ctx (some { j with epoch := e, repl := r, tensors := publish j })
    match r.desc with | some d => putRecordOf (epochBells s d e) r | none => s

def switchPoint (s : State) (ctx : Nat) : State :=
  match jobOf s ctx with
  | none => s
  | some j =>
    match j.change with
    | none => s
    | some x =>
      if !x.done then s
      else
        let s := setJob s ctx (some { (j.fresh s.now) with layout := x.layout, change := none })
        let s := endCtl s ctx 0 0 (selChg x.layout)
        if x.layout then
          let s := setEpoch s ctx (if j.committed then j.epoch + 1 else j.epoch)
          let s := onJob s ctx (fun j => { j with committed := false })
          (List.range 8).foldl tryBatch (unholdTenant s ctx)
        else
          let s := holdTenant (clearDirty s j) ctx
          match jobOf s ctx with
          | some j1 => if j1.rcv.unsent then sendLate s ctx j1 j1.rcv.ack else s
          | none => s

/-! ### Removal of a member, and a seat swap (R121, R234, R255, R270, R339, R340, R342, R346) -/

/-- A job of the list from which the fabric manager has removed a member: a creation in progress ends; else the swap of its seat begins, a
Changeover aborts, an unacknowledged commit is dropped, and the attempt aborts; with Recitation regions the job rolls back. -/
def jobMemberLost (s : State) (ctx : Nat) (seat : BitVec 10) : State :=
  match jobOf s ctx with
  | none => s
  | some j =>
    if j.rcv.creating then endCmds (setJob s ctx none) [1, 2] ctx 0x0150 0
    else
      let s := onJob s ctx (fun j => { j with rcv := { j.rcv with swap := some seat } })
      let s :=
        if j.change.isSome then chgFail s ctx 0x0133
        else if j.layout then s
        else if j.acked then abortAttempt s ctx
        else dropUnacked (endGates s ctx 0x0113 0) ctx
      if j.recites && !j.layout then onJob s ctx (fun j => { j with rcv := { j.rcv with restoring := true, rollback := true } }) else s

/-- A member leaves a list: the fabric's part, then that of every job whose GATE_LIST it is. -/
def memberRemove (s : State) (n : Nat) (seat : BitVec 10) : State :=
  if (match listAt s n with | some l => l.members.contains seat | none => false) then
    let s := listRemove s n seat
    (s.jobs.filter (fun e => match e.2 with | some j => decide (j.gateList = n) | none => false)).foldl (fun s e => jobMemberLost s e.1 seat) s
  else s

/-- The swapped seat is a member again, its entry is ACTIVE (on the spare itself SEATED is 1), and this seat's restore is over. -/
def swapOver (s : State) (j : Job) : Bool :=
  match j.rcv.swap with
  | some seat =>
    listWhole s j && (match listAt s j.gateList with | some l => l.members.contains seat | none => false) && !j.rcv.restoring &&
      (if seat = selfSeat s then seated s else decide (seatState s seat.toNat = 1))
  | none => false

/-- GEN_PLAN for the swapped seat alone: this seat's entries whose destination it is (R346). -/
def genFor (s : State) (ctx : Nat) (j : Job) (seat : BitVec 10) : State :=
  let members := match listAt s j.gateList with | some l => l.members | none => []
  let es := (ownEntries s j true).filter (fun e => decide (members[e.dstRank]? = some seat))
  let (loc, rem) := es.partition (fun e => decide (e.dstRank = e.srcRank))
  let t := ctxTile s ctx
  let s1 := (rem.foldl (pushEntry (planPorts j.genPlan) members) (s.touches t false (es.map (fun e => (e.src, e.len))), [])).1
  (s1.touches t true (loc.map (fun e => (e.dst, e.len)))).land 1022 6 ((loc.flatMap (localCopy s)).map (·.1))

/-- Order 7 of a swap: every job tile starts at RESTART_PC, or the replay goes on. In the generation layout GEN_PLAN runs for the spare, whose
tiles start; the others go on (R342, R346; DEDUCED, log 69). -/
def swapGo (s : State) (ctx : Nat) : State :=
  match jobOf s ctx with
  | none => s
  | some j =>
    if !swapOver s j then s
    else
      let j' := { j with rcv := { j.rcv with swap := none } }
      let s := setJob s ctx (some j')
      if j.layout then
        let seat := j.rcv.swap.getD 0
        let s := genFor s ctx j' seat
        if seat = selfSeat s then startTiles s j' (jobTiles s ctx) else restartFaulted s ctx j'
      else if j.stopped || j.rcv.replay.isSome then s
      else startTiles s j' (jobTiles s ctx)

/-- Every job's swap goes on where it can. -/
def swapsGo (s : State) : State := s.jobs.foldl (fun s e => swapGo s e.1) s

/-! ### ROLL (R224) -/

/-- A class list as the fabric manager gives it: members that it no longer has are removed (R121, R234, R340); with a member that it has
again its counters are the committed ones (R335, R342). -/
def rollList (s : State) (n : Nat) (v : BitVec 64) (members : List (BitVec 10)) : State :=
  let was : List (BitVec 10) := match listAt s n with | some l => l.members | none => []
  let s := (was.filter (fun m => !members.contains m)).foldl (fun s m => memberRemove s n m) s
  if members.isEmpty then setList s n none
  else
    let old : ClassList := match listAt s n with | some l => l | none => {}
    let l := { old with members := members, rank := fld v 0 10, experts := fld v 16 16 }
    setList s n (some (if !was.isEmpty && members.any (fun m => !was.contains m) then { l with gen := l.cGen, seq := l.cSeq, arrived := [], waiting := false } else l))

/-- Firmware applies one ROLL: table 0 the seat map, 1 the route table, 2 the class lists, 3 LNK_SELF (DEDUCED, log 43). -/
def rollApply (s : State) (f : Flit) : State :=
  match f.body with
  | .roll table i v members _ =>
    let w (a : Nat) : BitVec 64 := match regSpec a with | some sp => regMerge sp (rget s a) 0xFF v | none => v
    swapsGo (match table with
    | 0 => writeSeat s (i % 2048) (w (seatReg (i % 2048)))
    | 1 => rset s (routeReg (i % 2048)) (w (routeReg (i % 2048)))
    | 2 => rollList s (i % 4096) v members
    | _ => rset s lnkSelf (w lnkSelf))
  | _ => s

def rollEpoch (f : Flit) : BitVec 32 := match f.body with | .roll _ _ _ _ e => e | _ => 0

/-- ROLLs that are held and whose turn has come, in epoch order; each is acknowledged to its sender once it has been applied (R342). -/
def rollDue : Nat → State → State
  | 0, s => s
  | n + 1, s =>
    match s.fab.rolls.find? (fun f => decide (rollEpoch f = s.fab.rollNext)) with
    | some f => rollDue n (doneReply (rollApply { s with fab := { s.fab with rolls := s.fab.rolls.erase f, rollNext := s.fab.rollNext + 1 } } f) f 0 0)
    | none => s

/-- A ROLL is applied in its turn; an early one is held, one whose epoch has passed changes nothing (DEDUCED, log 43). -/
def rollArrive (s : State) (f : Flit) : State :=
  match f.body with
  | .roll _ _ _ _ e =>
    once s f (fun s =>
      if reached 32 e.toNat s.fab.rollNext.toNat then
        let s := { s with fab := { s.fab with rolls := s.fab.rolls ++ [f] } }
        rollDue s.fab.rolls.length s
      else s)
  | _ => s

/-! ### Weight replacement (R271 to R275) -/

/-- Ranges that a descriptor names: every layer's, then the two staging buffers (DESIGN CHOICE, log 51). -/
def replRanges (d : List Byte) : List (Nat × Nat) :=
  let (a, b, n) := Config.replStaging d
  (List.range (Config.replLayers d)).flatMap (fun k => (Config.replRanges d k).take 4) ++ [(a, n), (b, n)]

/-- A list's ranges do not meet one another. -/
def apart (mc : MapCtx) : List (Nat × Nat) → Bool
  | [] => true
  | r :: l => l.all (fun x => !rangesMeet mc r.1 r.2 x.1 x.2) && apart mc l

/-- Bytes of a layer. -/
def layerBytes (d : List Byte) (k : Nat) : Nat := (((Config.replRanges d k).take 4).map (·.2)).foldl (· + ·) 0

/-- The descriptor is in order: L from 1 to 255, ranges apart and in stacked DRAM, staging buffers large enough. -/
def replOk (s : State) (d : List Byte) : Bool :=
  let l := Config.replLayers d
  decide (1 ≤ l ∧ l ≤ 255) && apart (mapCtx s) (replRanges d) &&
    (replRanges d).all (fun r => decide (r.2 = 0) || (memRange s r.1 r.2 && decide (canon (mapCtx s) r.1 < cupBase ∧ canon (mapCtx s) (r.1 + r.2 - 1) < cupBase))) &&
    (List.range l).all (fun k => decide (layerBytes d k ≤ (Config.replStaging d).2.2))

/-- The number of the next decode step on the die of the Bell block. -/
def nextDecode (s : State) (d : List Byte) : BitVec 32 :=
  let x := dieServe s ((Config.replBell d).toNat / 65536)
  if x.batch.isEmpty then x.step else x.step + 1

/-- The descriptor is accepted with the first REPLACE. -/
def acceptDesc (s : State) (j : Job) (d : List Byte) : State :=
  let n := nextDecode s d
  (List.range (Config.replLayers d)).foldl (fun s k => bellSet s (leaveBell d k) n) (bellSet (epochBells s d j.epoch) (startBell d) n)

/-- The replacement begins: layer 0 is to be received. -/
def replBegin (s : State) (ctx : Nat) (j : Job) (d : List Byte) (c : HostCmd) : State :=
  let r : Repl := { desc := some d, eNew := BitVec.ofNat 32 (fld c.w2 0 32), eOld := j.epoch, sources := dmaRead s c.w3.toNat Config.sourceBytes,
                    state := 1, cut := j.repl.cut }
  startCmd (putRecordOf (setJob s ctx (some { j with repl := r })) r).fresh 0x08 c

/-- REPLACE. During a replacement R273 refuses it and R274 has it wait: which of the two is free (DESIGN CHOICE, log 50). -/
def replace (s : State) (c : HostCmd) (ctx : Nat) (j : Job) : State :=
  let fresh := j.repl.desc.isNone
  if (fresh && !inWindow s ctx c.w1.toNat Config.replBytes) || !inWindow s ctx c.w3.toNat Config.sourceBytes then endNow s 0x08 c 0x0161
  else if !j.layout then endNow s 0x08 c 0x0137
  else if j.repl.state ≠ 0 then (if Config.freeBit s.free then endNow s.fresh 0x08 c 0x0135 else startCmd s.fresh 0x08 c)
  else if !newer 32 (fld c.w2 0 32) j.epoch.toNat then endNow s 0x08 c 0x0136
  else
    match j.repl.desc with
    | some d => replBegin s ctx j d c
    | none =>
      let d := dmaRead s c.w1.toNat Config.replBytes
      if replOk s d then replBegin (acceptDesc s j d) ctx j d c else endNow s 0x08 c 0x013A

/-- A stalled layer gets a new source. -/
def replaceResume (s : State) (c : HostCmd) (ctx : Nat) (j : Job) : State :=
  if !inWindow s ctx c.w3.toNat Config.sourceBytes then endNow s 0x09 c 0x0161
  else if j.repl.state ≠ 3 then endNow s 0x09 c 0x0135
  else
    let r := { j.repl with sources := dmaRead s c.w3.toNat Config.sourceBytes, failing := false, state := if j.repl.received = 0 then 1 else 2 }
    endNow (putRecordOf (setJob s ctx (some { j with repl := r })) r).fresh 0x09 c 0

/-- Staging buffer of a layer. -/
def stagingOf (d : List Byte) (k : Nat) : Nat := if k % 2 = 0 then (Config.replStaging d).1 else (Config.replStaging d).2.1

/-- The receipt of the next layer ends; layer 0 arms the cut. -/
def layerReceived (s : State) (ctx : Nat) (data : List Byte) : State :=
  match jobOf s ctx with
  | none => s
  | some j =>
    match j.repl.desc with
    | none => s
    | some d =>
      let k := j.repl.received
      if j.repl.state = 0 ∨ j.repl.state = 3 ∨ k ≥ Config.replLayers d ∨ k > j.repl.front + 1 ∨ data.length ≠ layerBytes d k then s
      else
        let s := landFor s (ctxTile s ctx) (stagingOf d k) data
        let r := { j.repl with received := k + 1, failing := false, state := 2, cut := if k = 0 then bellGet s (startBell d) else j.repl.cut }
        putRecordOf (setJob s ctx (some { j with repl := r })) r

/-- Bytes over a layer's ranges in order. -/
def putLayer (s : State) (t : Nat) : List (Nat × Nat) → List Byte → State
  | [], _ => s
  | r :: l, data => putLayer (landFor s t r.1 (data.take r.2)) t l (data.drop r.2)

/-- The REPLACE in progress ends, and those that waited are taken in turn (R274). -/
def replaceOver (s : State) (ctx : Nat) : State :=
  match s.host.cmds.filter (fun r => decide (r.op = 0x08 ∧ cmdCtx r.c = ctx) && r.status.isNone) with
  | [] => s
  | r :: l =>
    l.foldl (fun s x => match jobOf s ctx with
      | some j => replace { s with host := { s.host with cmds := s.host.cmds.erase x } } x.c ctx j
      | none => s) (endWhere s (fun x => decide (x.op = 0x08) && decide (x.c = r.c)) 0 0)

/-- The scale exponents of the new epoch that a layer image carries are installed with it (R44, R274; DESIGN CHOICE, log 46). -/
def imageExps (j : Job) (image : List Byte) : Tab TensorSt :=
  j.classList.foldl (fun t e =>
    match (if forwardClass (clsClass e) && !clsFixed e then Config.imageExp image (clsTid e) else none) with
    | some x => tset {} t (clsTid e) { tget {} t (clsTid e) with pub := x }
    | none => t) j.tensors

/-- The front installs its layer once it is staged and every step below the cut has left it. -/
def install (s : State) (ctx : Nat) : State :=
  match jobOf s ctx with
  | none => s
  | some j =>
    match j.repl.desc with
    | none => s
    | some d =>
      let k := j.repl.front
      if j.repl.state = 0 ∨ k ≥ j.repl.received ∨ !bellMet s (leaveBell d k) j.repl.cut then s
      else
        let data := dmaRead s (stagingOf d k) (layerBytes d k)
        let s := (putLayer (s.touch (ctxTile s ctx) false true (stagingOf d k, layerBytes d k)) (ctxTile s ctx) ((Config.replRanges d k).take 4) data).fresh
        let s := bellSet s (epochBell d k) j.repl.eNew
        let all := decide (k + 1 = Config.replLayers d)
        let r := { j.repl with front := k + 1, state := if all then 0 else j.repl.state, eOld := if all then j.repl.eNew else j.repl.eOld }
        let s := putRecordOf (setJob s ctx (some { j with repl := r, epoch := if all then r.eNew else j.epoch, tensors := imageExps j data })) r
        if all then replaceOver s ctx else s

/-- The GET of the layer has failed and is tried again. -/
def replRetry (s : State) (ctx : Nat) : State :=
  onJob s ctx (fun j => if j.repl.state = 1 ∨ j.repl.state = 2 then { j with repl := { j.repl with failing := true } } else j)

/-- A layer has failed for 1 s: the front stalls. -/
def replStall (s : State) (ctx : Nat) : State :=
  match jobOf s ctx with
  | none => s
  | some j =>
    if !j.repl.failing ∨ j.repl.state = 3 then s
    else
      let r := { j.repl with state := 3 }
      raiseJob (putRecordOf (setJob s ctx (some { j with repl := r })) r) ctx 0x0041 j.repl.received 0

def execChgStart (ctx : CtxNo) (s : State) : Host.Outcome State Fault Refusal := .next (chgStart s ctx.toNat)
def execChgSeatDone (ctx : CtxNo) (failed : Option (BitVec 10 × BitVec 48)) (s : State) : Host.Outcome State Fault Refusal :=
  .next (seatDone s ctx.toNat failed)
def execChgSwitchPoint (ctx : CtxNo) (s : State) : Host.Outcome State Fault Refusal := .next (switchPoint s ctx.toNat)
def execRollFlit (p : BitVec 6) (f : Flit) (s : State) : Host.Outcome State Fault Refusal := .next (arrive s p 10 f (fun s => rollArrive s f))
def execClassListMemberRemove (n : BitVec 12) (seat : BitVec 10) (s : State) : Host.Outcome State Fault Refusal :=
  .next (memberRemove s n.toNat seat)
def execReplaceLayerReceived (ctx : CtxNo) (data : List Byte) (s : State) : Host.Outcome State Fault Refusal :=
  .next (layerReceived s ctx.toNat data)
def execReplaceInstall (ctx : CtxNo) (s : State) : Host.Outcome State Fault Refusal := .next (install s ctx.toNat)
def execReplaceRetry (ctx : CtxNo) (s : State) : Host.Outcome State Fault Refusal := .next (replRetry s ctx.toNat)
def execEvtReplaceStall (ctx : CtxNo) (s : State) : Host.Outcome State Fault Refusal := .next (replStall s ctx.toNat)

end Sys2Proof.Machine
end

