-- ==== Sys2Proof/Machine/Create.lean ====
section
/-! DEFINITION. The job service's creation checks (R50, R53, R238 to R240, R258, R261, R328, R329, R343) and what a
definition or a set holds when it is read back (R328, R334, R336). -/
namespace Sys2Proof.Machine

/-- Bytes of module memory, none where they are not populated memory or meet an error. -/
def readMem (s : State) (a n : Nat) : Option (List Byte) :=
  if memRange s a n && (accessError s true a n).isNone then some (vbytes (mapCtx s) (viewOut s) a n) else none

/-- Every listed (word, low bit, width) is zero. -/
def zeroFields (l : List Byte) (fs : List (Nat × Nat × Nat)) : Bool := fs.all (fun (k, lo, w) => decide (wfld l k lo w = 0))

/-! ### Timetable (R238, R258) -/

def Job.pageCode (j : Job) : Nat := wfld j.tt 2 24 2
def Job.classCount (j : Job) : Nat := wfld j.tt 4 48 13
def Job.regionCount (j : Job) : Nat := wfld j.tt 5 48 7
/-- Admission block, words 16 to 23 of the Timetable. -/
def Job.adm (j : Job) (k lo w : Nat) : Nat := wfld j.tt (16 + k) lo w

/-- Header and admission block: reserved fields, ranges, GATE_LIST (DEDUCED, log 54). -/
def headerOk (s : State) (j : Job) : Bool :=
  zeroFields j.tt [(0, 52, 12), (1, 48, 16), (2, 61, 3), (3, 48, 16), (4, 61, 3), (5, 55, 9), (6, 48, 16), (7, 48, 16),
    (16, 60, 4), (17, 48, 16), (18, 48, 16), (19, 48, 16), (20, 48, 16), (21, 54, 10), (23, 52, 12)] &&
  decide (wfld j.tt 0 0 8 = 1 ∧ 1 ≤ j.stages ∧ 1 ≤ j.replicas ∧ j.stages * j.replicas ≤ 1024 ∧ 1 ≤ j.gateTiles ∧ j.gateTiles ≤ 768) &&
  decide (j.restartPc % 8 = 0 ∧ j.mbCeil % j.page = 0 ∧ j.page ≤ j.mbCeil ∧ 1 ≤ j.deadline) &&
  decide (wfld j.tt 4 0 48 % 16 = 0 ∧ 1 ≤ j.classCount ∧ j.classCount ≤ 4096 ∧ wfld j.tt 5 0 48 % 16 = 0 ∧ j.regionCount ≤ 64) &&
  decide (1 ≤ j.adm 0 32 16 ∧ 1 ≤ j.adm 0 52 8 ∧ 1 ≤ j.adm 5 48 6 ∧ j.adm 5 48 6 ≤ 36 ∧ 800 ≤ j.adm 7 40 12 ∧ j.adm 7 40 12 ≤ 2200) &&
  (match listAt s j.gateList with | some l => decide (l.members.length = j.stages * j.replicas) | none => false)

/-- Class entries: reserved fields and values, no TENSOR_ID twice (R239). -/
def classesOk (j : Job) : Bool :=
  j.classList.all (fun e => zeroFields e [(0, 57, 7), (1, 16, 48)] && decide (clsClass e ≤ 6) && !fmtReserved (clsFmt e)) &&
    decide ((j.classList.map clsTid).eraseDups.length = j.classList.length)

/-- Region entries: reserved fields and values, no two overlap (R240). -/
def regionsOk (s : State) (j : Job) : Bool :=
  (List.range (j.regions.length / 16)).all (fun i =>
    let e := entryOf j.regions 16 i
    zeroFields e [(0, 0, 12), (0, 48, 16), (1, 36, 28)] && decide (1 ≤ wfld e 1 0 32 ∧ 3 ≤ wfld e 1 32 4 ∧ wfld e 1 32 4 ≤ 5)) &&
    apart (mapCtx s) j.regionList

/-- The numerics block, and at most 1024 observed tensors (R50, R53). -/
def numericsOk (j : Job) : Bool :=
  zeroFields j.tt [(9, 49, 15), (12, 32, 32), (13, 0, 64), (14, 0, 64), (15, 0, 64)] &&
    decide (j.lsMin ≤ j.lsInit ∧ j.lsInit ≤ j.lsMax ∧ 64 ≤ j.lsStreak) && decide ((j.classList.filter clsObserve).length ≤ 1024)

/-- The checkpoint descriptor (R329). -/
def descOk (j : Job) : Bool :=
  zeroFields j.desc [(1, 13, 3), (1, 29, 3), (1, 38, 2), (1, 52, 12), (2, 0, 12), (2, 48, 16), (3, 0, 64)] &&
    decide (wfld j.desc 0 0 64 < 2 ^ j.regionCount) && (!j.recites || decide (1 ≤ j.copyEvery ∧ j.copyEvery ≤ 4096)) &&
    decide (j.archEvery ≤ 4096 ∧ 2 ≤ j.archSets) &&
    (List.range 48).all (fun i => let x := leNat ((j.desc.drop (32 + 2 * i)).take 2); decide (x = 0xFFFF ∨ x < 4096))

/-! ### Route plans (R260, R261) -/

/-- A plan from its address: too many entries, malformed, or its bytes. -/
def readPlan (s : State) (a : Nat) : Except (BitVec 16) (List Byte) :=
  match readMem s a 32 with
  | none => .error 0x0131
  | some h =>
    let n := wfld h 0 8 17
    if n > 65536 then .error 0x0132
    else if n = 0 then .error 0x0131
    else match readMem s a (32 + 32 * n) with | some l => .ok l | none => .error 0x0131

/-- A plan range lies wholly in unreserved stacked DRAM or Cupboard. -/
def planRange (s : State) (a n : Nat) : Bool := decide (a + n ≤ slateBase) && memRange s a n

/-- One plan by itself: header, entries, and the overlaps that R261 forbids within it. -/
def planOk (s : State) (members : Nat) (p : List Byte) : Bool :=
  let es := planEntries p
  let mc := mapCtx s
  zeroFields p [(0, 31, 33), (1, 0, 64), (2, 0, 64), (3, 0, 64)] && decide (wfld p 0 0 8 = 1 ∧ 1 ≤ wfld p 0 25 6 ∧ wfld p 0 25 6 ≤ 36) &&
    (List.range es.length).all (fun i =>
      let e := (p.drop (32 + 32 * i)).take 32
      zeroFields e [(0, 0, 12), (0, 48, 16), (1, 0, 12), (1, 48, 16), (2, 52, 12), (3, 0, 64)] && decide (1 ≤ wfld e 2 0 32)) &&
    es.all (fun e => decide (e.srcRank < members ∧ e.dstRank < members) && planRange s e.src e.len && planRange s e.dst e.len) &&
    (List.range members).all (fun r => apart mc (planDests p r)) &&
    es.all (fun e => es.all (fun x => decide (e.dstRank ≠ x.srcRank) || !rangesMeet mc e.dst e.len x.src x.len))

/-- No destination of GEN_PLAN overlaps a state-region sheet that is not a destination of LEARN_PLAN. -/
def genOk (s : State) (j : Job) : Bool :=
  let mc := mapCtx s
  (planEntries j.genPlan).all (fun e => j.sheets.all (fun x =>
    !rangesMeet mc e.dst e.len x.2 4096 || (planDests j.learnPlan e.dstRank).any (fun d => rangesMeet mc x.2 4096 d.1 d.2)))

/-! ### Admission of a Timetable (R258) -/

/-- T_MB is below the floor of 3 × MB_MACS ÷ (768 × 65,536 × CLK_FLOOR). -/
def belowFloor (j : Job) : Bool := decide (j.adm 0 0 32 * (768 * 65536 * j.adm 7 40 12) < 3 * j.adm 6 0 64)

/-- Whether W is within STEP_DEADLINE, both over one common denominator; `kept` says whether gathered layers are kept (DEDUCED, log 54). -/
def deadlineMet (j : Job) (kept : Bool) : Bool :=
  let ports := j.adm 5 48 6 * 200
  let p := ports * j.replicas
  let clk := 64 * 768 * j.adm 7 40 12
  let q := clk * 76800
  let opt := j.adm 7 0 40
  let layers := j.adm 0 52 8
  let mb := j.adm 0 32 16 + j.stages - 1
  let re := if kept then 0 else layers * j.adm 2 0 48 * (j.replicas - 1)
  let micro := mb * (j.adm 0 0 32 * 1000 * p + re) * q
  let red := j.adm 5 0 48 * j.replicas * q
  let sync := 2 * Config.barrierNs j.gateList * p * q
  let optim := Nat.max (opt * 1000 * 76800) (14 * opt * clk) * p
  let hall := (if j.shEn then j.adm 0 48 4 * 142900 else 0) * p * q
  decide (micro + red + sync + optim + hall ≤ j.deadline * p * q)

/-- B is within the stacked DRAM of a module, 2558 GiB (DEDUCED, log 54). -/
def memoryMet (j : Job) (kept : Bool) : Bool :=
  let k := if kept then j.adm 0 52 8 + 1 else 2
  decide ((j.regionList.map (·.2)).foldl (· + ·) 0 + j.adm 3 0 48 + k * j.adm 2 0 48 + j.stages * j.adm 1 0 48 + j.adm 4 0 48 ≤ 2558 * 2 ^ 30)

/-- The choice of R243 (DEDUCED, log 54). -/
def keeps (j : Job) : Bool := decide (wfld j.tt 2 26 1 = 1) && memoryMet j true && deadlineMet j true

/-! ### The Archive's part (R343) -/

/-- Bytes of an Archive set's slot: a header extent, the definition, LIVE, BASE and the journal, rounded up to 1 MiB. -/
def setSlot (j : Job) : Nat :=
  let a := j.area
  2 ^ 20 + cdiv (4096 * ((a.live - a.defn) + (a.landing - a.live) + (a.journal - a.base) + a.ring)) (2 ^ 20) * 2 ^ 20

/-! ### Creation -/

/-- A job as its definition gives it, at step `next`. -/
def jobOfDefinition (tt classes regions desc learnPlan genPlan : List Byte) : Job :=
  let j : Job := { tt, classes, regions, desc, learnPlan, genPlan }
  { j with ls := j.lsInit, tensors := j.classList.foldl (fun t e => tset {} t (clsTid e) { exp := clsE e, pub := clsE e }) [] }

/-- The checks of creation; the first to fail gives the status (DEDUCED, log 54). -/
def createCheck (s : State) (c : HostCmd) : Except (BitVec 16) Job :=
  match readMem s c.w1.toNat 192, readMem s c.w2.toNat 128 with
  | some tt, some desc =>
    let j0 := jobOfDefinition tt [] [] desc [] []
    if !headerOk s j0 then .error 0x0101
    else
      match readMem s (wfld tt 4 0 48) (16 * j0.classCount), readMem s (wfld tt 5 0 48) (16 * j0.regionCount) with
      | some cl, some rg =>
        let j1 := jobOfDefinition tt cl rg desc [] []
        if !classesOk j1 || !regionsOk s j1 then .error 0x0101
        else if !numericsOk j1 then .error 0x0104
        else if !descOk j1 then .error 0x0101
        else
          match readPlan s (wfld tt 6 0 48), readPlan s (wfld tt 7 0 48) with
          | .error e, _ => .error e
          | _, .error e => .error e
          | .ok lp, .ok gp =>
            let j := jobOfDefinition tt cl rg desc lp gp
            let n := j.stages * j.replicas
            if !planOk s n lp || !planOk s n gp || !genOk s j then .error 0x0131
            else if belowFloor j then .error 0x0101
            else
              let kept := keeps j
              if !deadlineMet j kept then .error 0x0102
              else if !memoryMet j kept then .error 0x0103
              else if j.archEvery ≠ 0 ∧ setSlot j * j.archSets > 16000000000000 then .error 0x0152
              else if (buddyIx s).isNone ∨ Config.partnerArea s.now < j.area.total then .error 0x0150
              else .ok { j with kept := kept }
      | _, _ => .error 0x0101
  | _, _ => .error 0x0101

/-- What a creation reads of its Timetable and of what that names. -/
def creationReads (c : HostCmd) (j : Job) : List (Nat × Nat) :=
  [(c.w1.toNat, 192), (c.w2.toNat, 128), (wfld j.tt 4 0 48, j.classes.length), (wfld j.tt 5 0 48, j.regions.length),
   (wfld j.tt 6 0 48, j.learnPlan.length), (wfld j.tt 7 0 48, j.genPlan.length)]

/-- The creation reply (R396): KEPT, and the per-step landed bytes of the descriptor as given and with every region under
Recitation, on a step that is no full-copy step (DEDUCED, log 54). -/
def creationReply (j : Job) : List Byte :=
  leBytes 8 j.kept.toNat ++ leBytes 8 (4096 * (j.copySheets.length + 66)) ++ leBytes 8 (4096 * 66) ++ leBytes 40 0

/-! ### Reading a definition and records back -/

/-- Bytes of a route plan with its header. -/
def planBytes (l : List Byte) : Nat := 32 + 32 * wfld l 0 8 17

/-- The job that the bytes of a definition describe. -/
def parseDefinition (l : List Byte) : Job :=
  let tt := l.take 192
  let j0 := jobOfDefinition tt [] [] [] [] []
  let nc := 16 * j0.classCount
  let nr := 16 * j0.regionCount
  let r := l.drop (192 + nc + nr + 128)
  jobOfDefinition tt ((l.drop 192).take nc) ((l.drop (192 + nc)).take nr) ((l.drop (192 + nc + nr)).take 128) (r.take (planBytes r))
    ((r.drop (planBytes r)).take (planBytes (r.drop (planBytes r))))

/-- A tensor's 64-byte block of the job record. -/
def parseTensor (b : List Byte) : TensorSt :=
  let mask := leNat ((b.drop 1).take 2)
  { exp := sgn 8 (leNat (b.take 1)), pub := sgn 8 (leNat (b.take 1)),
    hist := ((List.range 16).map (fun i => if nfld mask i 1 = 1 then none else some (sgn 16 (leNat ((b.drop (4 + 2 * i)).take 2))))).reverse }

/-- A class list's number and counters in its sheet of the table record. -/
def parseList (b : List Byte) : Nat × BitVec 16 × BitVec 16 :=
  (leNat (b.take 2), BitVec.ofNat 16 (leNat ((b.drop 8).take 2)), BitVec.ofNat 16 (leNat ((b.drop 10).take 2)))

/-- The numerical state that a job record and a table record hold. -/
def parseRecord (j : Job) (record table : List Byte) : JobRec :=
  { next := (wfld record 0 0 32 + 1) % 2 ^ 32, ls := sgn 8 (wfld record 1 0 8), streak := wfld record 1 8 16,
    epoch := BitVec.ofNat 32 (wfld record 1 32 32), repl := BitVec.ofNat 64 (wfld record 2 0 64),
    tensors := (j.classList.zip (List.range j.classList.length)).foldl
      (fun t (e, i) => tset {} t (clsTid e) (parseTensor ((record.drop (4096 + 64 * i)).take 64))) [],
    lists := (List.range j.namedLists.length).map (fun i => parseList (table.drop (4096 * (8 + i)))) }

/-- Sheets, job record and table record at an offset of a partner area or a set. -/
def recordAt (j : Job) (l : List Byte) (sheets : Nat) : JobRec := parseRecord j (l.drop (4096 * sheets)) (l.drop (4096 * (sheets + 65)))

end Sys2Proof.Machine
end

