-- ==== Sys2Proof/Machine/Ckp.lean ====
section
/-! DEFINITION. Creation, replay, acknowledgement and re-protection at a seat; landings, applies and Archive sets at a buddy
(R327 to R347), and the job service's commands (R256, R259, R396). -/
namespace Sys2Proof.Machine

/-! ### Creation (R333, R345) -/

/-- The job's starting state goes to the buddy as one landing. -/
def protect (s : State) (ctx : Nat) (j : Job) : State := sendWhole (setJob s ctx (some j)) ctx j (recOf s j)

/-- The job as creation leaves it before its landing is acknowledged. -/
def Job.created (j : Job) (epoch : BitVec 32) (now : BitVec 64) : Job :=
  { j with epoch := epoch, acked := false, start := now, repl := { eOld := epoch, eNew := epoch },
           rcv := { creating := true, sStart := j.ls } }

/-- A creation that is accepted has read its definition (R192; DEDUCED, log 30). -/
def readCreation (s : State) (c : HostCmd) (j : Job) : State := (creationReads c j).foldl (fun s r => s.touchHome false r) s

def create (s : State) (c : HostCmd) (ctx : Nat) : State :=
  if (jobOf s ctx).isSome then endNow s 0x01 c 0x0160
  else
    match createCheck s c with
    | .error e => endNow s 0x01 c e
    | .ok j => startCmd (protect (landAt (readCreation s c j) c.w4.toNat (creationReply j)) ctx (j.created (BitVec.ofNat 32 (fld c.w3 0 32)) s.now)) 0x01 c

/-- `n` bytes of this seat's part of a set, from the part at sheet `x` of the partner area; a set has no LANDING (R343). -/
def setBytes (s : State) (a : AreaMap) (tier step x n : Nat) : List Byte :=
  let k := if x < a.landing then x - 1 else a.landing - 1 + (x - a.base)
  (upto (2 ^ 20 + 4096 * k) n).map (Config.setByte s.now tier step)

/-- Sheets at their addresses. -/
def landSheets (s : State) (l : List Nat) (data : List Byte) : State :=
  (l.zip (List.range l.length)).foldl (fun s (a, i) => landAt s a ((data.drop (4096 * i)).take 4096)) s

/-- A set is loaded: LIVE, or BASE with its journal to be replayed up to the set's step, in which every commit is acknowledged at once (R338,
R345; DEDUCED, log 67). -/
def loadSet (s : State) (ctx tier step : Nat) (j : Job) : State :=
  let a := j.area
  let n := j.sheets.length
  let from_ := if j.recites then a.base else a.live
  let l := setBytes s a tier step from_ (4096 * (n + 65 + 8 + j.namedLists.length))
  let r0 := recordAt j l n
  let r := if j.recites then r0 else { r0 with next := step + 1 }
  let journal := (upto r.next (step + 1 - r.next)).map (fun k => setBytes s a tier step (a.journal + k % a.ring) 4096)
  let s := landSheets s (j.sheets.map (·.2)) l
  let rcv := { j.rcv with base := r, ack := r, last := r, sent := r, sStart := r.ls, journal := journal,
                          replay := if j.recites then some (step + 1) else none }
  let j' := { j.load r with acked := j.recites, rcv := rcv }
  let s := clearDirty (loadLists s r) j'
  if j.recites then rflag (setJob s ctx (some j')) ckpStatus 34 true else protect s ctx j'

def createFrom (s : State) (c : HostCmd) (ctx : Nat) : State :=
  if (jobOf s ctx).isSome then endNow s 0x02 c 0x0160
  else
    match createCheck s c with
    | .error e => endNow s 0x02 c e
    | .ok j =>
      let tier := fld c.w5 0 2
      let step := fld c.w5 32 32
      if !Config.setHeld s.now tier step then endNow s 0x02 c 0x0153
      else
        match Config.setFails s.now tier step with
        | some seat => endNow s 0x02 c 0x0151 (seat.setWidth 64)
        | none =>
          startCmd (loadSet (landAt (readCreation s c j) c.w4.toNat (creationReply j)) ctx tier step (j.created (BitVec.ofNat 32 (fld c.w3 0 32)) s.now)) 0x02 c

/-! ### The acknowledgement at a seat (R331, R333, R341) -/

/-- The landing of the last commit copied every Recitation region. -/
def landedFull (j : Job) : Bool := j.sheets.any (fun e => j.method e.1 && j.rcv.landing.contains e.2)

/-- CKP_STATUS.ACKED and ACK_VALID. -/
def setAcked (s : State) (step : Nat) : State := rflag (rfld s ckpStatus 0 32 step) ckpStatus 32 true

/-- A commit is acknowledged: its COMMITs complete, and the records of the acknowledged step and of BASE move on (DEDUCED, log 68). -/
def ackCommit (s : State) (ctx step : Nat) (j : Job) : State :=
  let r := j.rcv.sent
  let full := landedFull j
  let s := setJob s ctx (some { j with acked := true, rcv := { j.rcv with
    ack := r, base := if full then r else j.rcv.base, journal := if full then journalAfter j step else j.rcv.journal, landing := [], late := false } })
  endCommits (dropLanded (setAcked s step)) ctx step 0

/-- The landing of a creation is acknowledged: CREATE completes. -/
def ackCreate (s : State) (ctx step : Nat) (j : Job) : State :=
  let r := j.rcv.sent
  let s := setJob s ctx (some { j with acked := true, start := s.now, rcv := { j.rcv with creating := false, ack := r, base := r, last := r, journal := [], whole := true } })
  endCmds (dropLanded (setAcked s step)) [1, 2] ctx 0 0

/-- A re-protection is acknowledged: the new buddy holds the acknowledged state, BASE with it, and a scan that waited runs (DEDUCED, log 68). -/
def ackReprotect (s : State) (ctx step : Nat) (j : Job) : State :=
  let j' := { j with rcv := { j.rcv with reprotect := false, base := j.rcv.sent, whole := true, journal := journalAfter j step } }
  let s := showReprotect (setAcked (dropLanded (setJob s ctx (some j'))) step)
  if j.rcv.scanWait then copybook s ctx j' else if j.acked then s else ackCommit s ctx step j'

def seatAck (s : State) (ctx step : Nat) : State :=
  match jobOf s ctx with
  | none => s
  | some j =>
    let last := decide ((step + 1) % 2 ^ 32 = j.rcv.sent.next % 2 ^ 32)
    if j.rcv.creating then (if last && j.rcv.replay.isNone then ackCreate s ctx step j else s)
    else if j.rcv.reprotect then (if last && !j.rcv.unsent then ackReprotect s ctx step j else s)
    else if last && !j.acked then ackCommit s ctx step j
    else s

/-- The time of the last commit point, by its journal record. -/
def commitTime (j : Job) : BitVec 64 := BitVec.ofNat 64 (((journalOf j (j.rcv.last.next - 1)).map (fun r => wfld r 2 0 64)).getD 0)

/-- EVT_CKP_LATE, once a commit, CKP_ACK_LIMIT milliseconds after its commit point (R332; DEDUCED, log 68). -/
def ckpLate (s : State) (ctx : Nat) : State :=
  match jobOf s ctx with
  | none => s
  | some j =>
    let limit := fld (rget s (ckpBlk + 0x20)) 0 32
    if j.acked ∨ j.rcv.creating ∨ j.rcv.late ∨ limit = 0 ∨ (s.now - commitTime j).toNat < limit * 1000000 then s
    else
      let s := rflag (setJob s ctx (some { j with rcv := { j.rcv with late := true } })) ckpStatus 35 true
      raiseJob s ctx 0x0060 ((j.rcv.last.next + 2 ^ 32 - 1) % 2 ^ 32) (selfSeat s).toNat

/-- The state regions hold a committed step: no STATE = 1 DRILL has started, no restore or replay runs, and in the generation layout no sheet
of them is one that LEARN_PLAN brings back (R267). -/
def atCommitted (s : State) (j : Job) : Bool :=
  !j.stateStarted && !j.rcv.restoring && j.rcv.replay.isNone &&
    !(j.layout && (planDests j.learnPlan (rankIn s j.gateList)).any (fun d => j.sheets.any (fun x => rangesMeet (mapCtx s) x.2 4096 d.1 d.2)))

/-- A new buddy: a creation whose buddy is lost ends; every other job re-protects at once, or, where its regions no longer hold a committed
step, at its next commit, switch into learning, restore or the end of its replay (R341; DEDUCED, log 67; DEDUCED, log 68). -/
def jobReprotect (s : State) (ctx : Nat) : State :=
  match jobOf s ctx with
  | none => s
  | some j =>
    if j.rcv.creating then endCmds (setJob s ctx none) [1, 2] ctx 0x0150 0
    else if !atCommitted s j then
      setJob (dropLanded s) ctx (some { j with rcv := { j.rcv with reprotect := true, unsent := true } })
    else sendWhole (setJob (dropLanded s) ctx (some { j with rcv := { j.rcv with reprotect := true } })) ctx j (if j.acked then j.rcv.ack else j.rcv.last)

/-- A write of CKP_CFG; while a job exists it starts R341. -/
def buddyWrite (s : State) (buddy : BitVec 11) (valid : Bool) : State :=
  let s := rset s ckpBlk (packBits [(0, buddy.toNat), (11, valid.toNat)])
  if valid then showReprotect (s.jobs.foldl (fun s e => jobReprotect s e.1) s) else s

/-! ### Replay (R338, R339) -/

/-- Whether the report of the replayed step agrees with the journal. -/
def replayAgrees (j : Job) : Bool :=
  match journalOf j (j.next - 1) with
  | some r => decide (wfld r 0 32 4 = j.rcv.reportAttempt ∧ wfld r 3 0 32 = reportCrc j.rcv.report)
  | none => false

/-- A replay that diverges: the job stops with the state before the replayed step. A CREATE_FROM under way ends with the status
that otherwise the next command meets (DEDUCED, log 67). -/
def diverge (s : State) (ctx : Nat) (j : Job) : State :=
  let s := j.rcv.beforeSheets.foldl (fun s e => landAt s e.1 e.2) s
  let j' := { (j.load j.rcv.before).fresh s.now with
    stopped := true,
    rcv := { j.rcv with replay := none, ran := false, beforeSheets := [], again := none, diverged := true, tell := !j.rcv.creating, creating := false } }
  let s := rflag (rflag (clearDirty (loadLists (setJob s ctx (some j')) j.rcv.before) j') ckpStatus 34 false) ckpStatus 36 true
  endCmds (raiseJob s ctx 0x0061 (j.next - 1) 0) [2] ctx 0x0154 0

/-- The attempt that a rollback interrupted. -/
def Job.resumed (j : Job) : Job :=
  match j.rcv.again with
  | some a => { j with ls := a.numerics.ls, streak := a.numerics.streak, tensors := a.numerics.tensors, attempt := a.attempt, aborts := a.aborts, stopped := a.stopped, expCorr := a.expCorr }
  | none => j

/-- The replay has reached its last step: a creation sends its landing; a spare in the generation layout gets what GEN_PLAN brings it
(R346); else the attempt in progress repeats, and COMMITs that waited complete (R339; DEDUCED, log 68; DEDUCED, log 69). -/
def replayOver (s : State) (ctx : Nat) (j : Job) : State :=
  let start := match j.rcv.again with | some a => a.sStart | none => j.rcv.sStart
  let rcv := { j.rcv with replay := none, ran := false, beforeSheets := [], again := none, sStart := start, genNext := false }
  let j' := { (j.resumed.fresh s.now) with layout := j.rcv.genNext, acked := !j.rcv.creating, rcv := rcv }
  let s := rflag (setJob s ctx (some j')) ckpStatus 34 false
  if j.rcv.creating then sendWhole s ctx j' (recOf s j')
  else if j.rcv.genNext then startTiles (genFor s ctx j' (selfSeat s)) j' (jobTiles s ctx)
  else
    let s := if j.rcv.unsent then sendLate s ctx j' (recOf s j') else s
    let s := endCommits s ctx j.next 0x0112
    if j'.stopped then s else startTiles s j' (jobTiles s ctx)

/-- The next journalled step is replayed. -/
def replayNext (s : State) (ctx : Nat) (j : Job) : State :=
  match journalOf j j.next with
  | none => s
  | some r =>
    let j1 := { j with rcv := { j.rcv with before := recOf s j, beforeSheets := j.sheets.map (fun (e : Nat × Nat) => (e.2, sheetBytes s e.2)) } }
    if wfld r 0 36 2 = 1 then setJob s ctx (some { (j1.fresh s.now) with next := j.next + 1, rcv := { j1.rcv with ran := false } })
    else
      let s := landAt s j.journalIn ((r.drop 64).take 2048)
      let j2 := { (j1.fresh s.now) with attempt := 0, aborts := 0, ls := sgn 8 (wfld r 1 0 8), rcv := { j1.rcv with ran := true, sStart := sgn 8 (wfld r 1 0 8) } }
      startTiles (setJob s ctx (some j2)) j2 (jobTiles s ctx)

/-- REPLAY_STEP: the step replayed last has committed and is compared; then the next one runs, or the replay ends (DEDUCED, log 68). -/
def replayStep (s : State) (ctx : Nat) : State :=
  match jobOf s ctx with
  | none => s
  | some j =>
    match j.rcv.replay with
    | none => s
    | some a =>
      if j.stopped || j.rcv.restoring || j.rcv.swap.isSome || (j.rcv.ran && decide (j.next = j.rcv.before.next)) then s
      else if j.rcv.ran && !replayAgrees j then diverge s ctx j
      else if j.next ≥ a then replayOver s ctx j
      else replayNext s ctx j

/-! ### A spare's restore (R342, order 3) -/

/-- A register as a table record of the buddy gives it, its reserved bits zero (R6). -/
def tableReg (s : State) (a : Nat) (b : List Byte) : State :=
  let v : BitVec 64 := BitVec.ofNat 64 (leNat b)
  rset s a (match regSpec a with | some sp => regMerge sp (rget s a) 0xFF v | none => v)

/-- The neighbours of this module's ports are those of the failed module's. -/
def nbrMatch (s : State) : Bool := (List.range 36).all (fun p => decide (rget s (portNbr p) = Config.failedNbr s.now p))

/-- The spare takes the seat's job from the bytes of the partner area: definition, LIVE or BASE, job record, seat map, class lists, and the
route table where its neighbours are the failed module's; its seat-map entry for the seat becomes its own PM. Whether the job is in the
generation layout no record says, so it is free (R342, R346; DEDUCED, log 69). -/
def spareRestore (s : State) (ctx : Nat) (area : List Byte) : State :=
  let j := parseDefinition (area.drop 4096)
  let a := j.area
  let n := j.sheets.length
  let l := area.drop (4096 * (if j.recites then a.base else a.live))
  let r := recordAt j l n
  let table := l.drop (4096 * (n + 65))
  let s := landSheets s (j.sheets.map (·.2)) l
  let s := (List.range 2048).foldl (fun s i => tableReg s (seatReg i) ((table.drop (8 * i)).take 8)) s
  let s := if nbrMatch s then (List.range 2048).foldl (fun s p => tableReg s (routeReg p) ((table.drop (16384 + 8 * p)).take 8)) s else s
  let s := rfld s (seatReg (selfSeat s).toNat) 0 11 (selfPm s).toNat
  let s := (List.range j.namedLists.length).foldl (fun s i =>
    let b := table.drop (4096 * (8 + i))
    let m := (List.range (leNat ((b.drop 4).take 2))).map (fun k => BitVec.ofNat 10 (leNat ((b.drop (16 + 2 * k)).take 2)))
    let (no, gen, seq) := parseList b
    setList s no (some { members := m, rank := (m.findIdx? (· = selfSeat s)).getD 0, experts := leNat ((b.drop 6).take 2),
                         gen := gen, seq := seq, cGen := gen, cSeq := seq })) s
  let upTo := (recordAt j (area.drop (4096 * a.live)) j.copySheets.length).next
  let steps := (upto r.next (upTo - r.next)).filterMap (fun k =>
    let b := (area.drop (j.journalAt k)).take 4096
    if wfld b 0 0 32 = k % 2 ^ 32 then some b else none)
  let replays := j.recites && decide (r.next < upTo)
  let j' := { j.load r with acked := true, start := s.now, layout := !replays && Config.freeBit s.free, rcv := {
    base := r, ack := r, last := r, sent := r, sStart := r.ls, journal := if j.recites then steps else [],
    replay := if replays then some upTo else none, swap := some (selfSeat s), genNext := replays && Config.freeBit s.free } }
  let s := (clearDirty (setJob s ctx (some j')) j').fresh
  if j'.rcv.replay.isSome then rflag s ckpStatus 34 true else s

/-- PARTNER_RESTORE_DONE: a job's restore, or on a spare that does not hold its seat yet the restore from the partner area. -/
def partnerRestore (s : State) (ctx : Nat) (sheets : List (BitVec 48 × List Byte)) (area : List Byte) : State :=
  if (jobOf s ctx).isNone then (if area.isEmpty || seated s then s else spareRestore s ctx area)
  else swapGo (restoreDoneJob s ctx sheets) ctx

/-! ### The buddy (R327, R328, R331) -/

/-- Bytes of the armed partner area. -/
def areaBytes (s : State) (off n : Nat) : List Byte :=
  match (mapCtx s).ward with
  | some (b, _) => vbytes (mapCtx s) (memGet s.m) (b + off) n
  | none => []
/-- Writes into the armed partner area by its Copybook engines. -/
def areaPut (s : State) (off : Nat) (l : List Byte) : State :=
  match (mapCtx s).ward with
  | some (b, _) => ((s.pass true (b + off, l.length)).land 1023 7 (putBytes (mapCtx s) (b + off) l)).withDirty s
  | none => s

/-- Sheets of the armed area. -/
def wardSheets (s : State) : Nat := fld (rget s (ckpBlk + 0x18)) 0 32
/-- The ward's job by the definition in the area. -/
def wardJob (s : State) : Job := parseDefinition (areaBytes s 4096 (4096 * (wardSheets s - 1)))

/-- The landing index up to its end. -/
def indexKeys : Nat → List Byte → List Nat
  | 0, _ => []
  | n + 1, l => let k := leNat (l.take 4); if k = 0xFFFFFFFF then [] else k :: indexKeys n (l.drop 4)

def landingIndex (s : State) (j : Job) : List Nat :=
  indexKeys j.area.slots (areaBytes s (4096 * (j.area.landing + j.area.slots)) (4 * j.area.slots))

def setWard (s : State) (w : Ward) : State := { s with ward := w }
/-- The module holds an armed area and its engines run. -/
def wardLive (s : State) : Bool := (mapCtx s).ward.isSome && !moduleQuiet s && !s.sys.modReset

/-- HELD for a step: every sheet and the landing index have landed, and the previous landing is applied (DEDUCED, log 66). -/
def ckpHeld (s : State) (step : Nat) : State :=
  if wardLive s && s.ward.release.isNone then setWard s { s.ward with held := some step } else s

/-- The release reaches the buddy: the landing is to be applied (DEDUCED, log 66). -/
def wardAck (s : State) (step : Nat) : State :=
  if wardLive s && decide (s.ward.held = some step) then setWard s { s.ward with held := none, release := some step } else s

/-- One landed sheet goes into LIVE, and on a full-copy step into BASE; the journal record into JOURNAL (DESIGN CHOICE, log 65). -/
def applySheet (j : Job) (full : Bool) (s : State) (x : Nat × Nat) : State :=
  let a := j.area
  let n := j.sheets.length
  let b := areaBytes s (4096 * (a.landing + x.2)) 4096
  if x.1 = j.journalKey then areaPut s (j.journalAt (wfld b 0 0 32)) b
  else
  let live : Option Nat :=
    if x.1 < n then (match j.sheets[x.1]? with | some e => j.copySheets.findIdx? (fun y => decide (y = e)) | none => none)
    else some (j.copySheets.length + (x.1 - n))
  let s := match live with | some p => areaPut s (4096 * (a.live + p)) b | none => s
  if full then areaPut s (4096 * (a.base + x.1)) b else s

/-- LIVE's Copybook sheets go into BASE. -/
def liveToBase (s : State) (j : Job) : State :=
  let a := j.area
  (j.copySheets.zip (List.range j.copySheets.length)).foldl (fun s (e, p) =>
    match j.sheets.findIdx? (fun y => decide (y = e)) with
    | some k => areaPut s (4096 * (a.base + k)) (areaBytes s (4096 * (a.live + p)) 4096)
    | none => s) s

/-- The slot that the next Archive set takes: an empty one, else the oldest that is neither the newest set nor waits for its
upload (R343; DEDUCED, log 66). -/
def archiveSlot (w : Ward) (n : Nat) : Option Nat :=
  match (List.range n).find? (fun k => (tget none w.sets k).isNone) with
  | some k => some k
  | none =>
    let l := (List.range n).filterMap (fun k => (tget none w.sets k).map (fun x => (k, x)))
    (sortBy (fun a b => decide (a.2.number < b.2.number)) (l.filter (fun e => decide (e.2.number ≠ w.count) && !e.2.upload))).head?.map (·.1)

/-- An Archive set: header extent, definition, LIVE, BASE, journal records; the header's packing is internal (DESIGN CHOICE, log 64). -/
def archiveBytes (s : State) (j : Job) : List Byte :=
  let a := j.area
  freeImage s 0 (2 ^ 20) ++ areaBytes s 4096 (4096 * (a.landing - 1)) ++ areaBytes s (4096 * a.base) (4096 * (a.total - a.base))

/-- After the apply of step N an Archive set may be due. -/
def archiveDue (s : State) (j : Job) (step : Nat) : State :=
  if j.archEvery = 0 ∨ (step + 1) % j.archEvery ≠ 0 then s
  else
    match archiveSlot s.ward j.archSets with
    | some k => setWard s.fresh { s.ward with writing := some (k, step, archiveBytes s j) }
    | none => raise s 0x0063 step 0 [] none

/-- The apply of a released landing ends. The packing of the header is internal (DESIGN CHOICE, log 64; DEDUCED, log 66). -/
def applyDone (s : State) : State :=
  match s.ward.release with
  | none => s
  | some step =>
    if !wardLive s || s.ward.writing.isSome then s
    else
      let j := wardJob s
      let keys := landingIndex s j
      let full := j.recites && keys.any (fun k => match j.sheets[k]? with | some e => j.method e.1 | none => false)
      let s := (keys.zip (List.range keys.length)).foldl (applySheet j full) s
      let s := if full then liveToBase s j else s
      let s := (areaPut s 0 (freeImage s 0 4096)).fresh
      archiveDue (setWard s { s.ward with release := none, acked := some step, base := if full then some step else s.ward.base }) j step

/-- The area is for a ward: for another than before, no Archive set of this one is held here (R347). -/
def wardFor (s : State) (w : BitVec 64) : State :=
  let seat := fld w 48 10
  if s.ward.seat = some seat then s
  else rset (setWard s { s.ward with sets := [], writing := none, count := 0, failed := false, seat := some seat }) (ckpBlk + 0x28) 0

/-- A write of CKP_WARD_BASE (R327, R347; DEDUCED, log 66). -/
def wardArm (s : State) (v : BitVec 64) : State :=
  let a := ckpBlk + 0x10
  let old := rget s a
  let v := v &&& BitVec.ofNat 64 (bmask 12 47)
  if flag old 58 then
    let s' := rset s a (setFld v 12 36 (fld old 12 36))
    if flag v 58 then wardFor s' v else setWard s' { s.ward with held := none, release := none, acked := none, base := none }
  else if flag v 58 then
    let b := fld v 12 36 * 4096
    let n := wardSheets s * 4096
    let meets := s.jobs.any (fun e => match e.2 with | some j => j.regionList.any (fun r => rangesMeet (mapCtx s) b n r.1 r.2) | none => false)
    if !planRange s b n || meets then rflag s ckpStatus 37 true else wardFor (rset s a v) v
  else rset s a v

/-! ### Archive and shared store (R205, R343, R344) -/

def putArchive (s : State) (a : Nat) (l : List Byte) : State :=
  { s with archive := (l.zip (upto a l.length)).foldl (fun m (v, k) => tset 0 m k v) s.archive }

/-- Stacked DRAM or Cupboard, the reserved part and a partner area too: what firmware reaches (R189, R190, R327). -/
def firmRange (s : State) (a n : Nat) : Bool :=
  (List.range (cdiv n 4096)).all (fun k =>
    let c := canon (mapCtx s) (a + 4096 * k)
    decide (niBase ≤ c ∧ c < niBase + dramEnd) || decide (cupBase ≤ c ∧ c < cupEnd))

/-- The bytes of an extent that belongs to the Archive set being written. -/
def setExtent (s : State) (extent : Nat) : Option (List Byte) :=
  s.ward.writing.bind (fun (k, _, l) =>
    let o := extent * 2 ^ 20
    let b := k * setSlot (wardJob s)
    if b ≤ o ∧ o < b + l.length then some ((l.drop (o - b)).take (2 ^ 20)) else none)

/-- A firmware transfer of one extent completes: an extent that is written is durable from then on, also one of a set in progress; a failed
one leaves its destination as it was, and so does one that memory answers with an error (R12, R205; DEDUCED, log 66). -/
def extentMove (s : State) (write : Bool) (extent : Nat) (addr : Nat) (ok : Bool) : State :=
  let n := 2 ^ 20
  match (if write ∧ ok then setExtent s extent else none) with
  | some l => { putArchive s (extent * n) l with reply := .status 0 }
  | none =>
  if extent * n + n > 32000000000000 ∨ !firmRange s addr n then s
  else if !ok ∨ (accessError s write addr n).isSome then { s with reply := .status 0x0151 }
  else if write then
    let l := dmaRead s addr n
    { putArchive (s.pass false (addr, n)).fresh (extent * n) l with reply := .status 0 }
  else { landBytes s addr ((upto (extent * n) n).map (fun a => tget 0 s.archive a)) with reply := .status 0 }

/-- No extent completes: after the Quiet State of the module none starts, and the one in progress has completed or lost power (R413;
DEDUCED, log 66). -/
def noExtent (s : State) : Bool := moduleQuiet s && (s.sys.lastExtent || !s.sys.rails)

def extentDone (s : State) (write : Bool) (extent : Nat) (addr : Nat) (ok : Bool) : State :=
  if noExtent s then s
  else extentMove { s with sys := { s.sys with lastExtent := moduleQuiet s } } write extent addr ok

/-- The last extent of a set is durable; a set takes more than one extent, so none is completed in the Quiet State of the module (R413). -/
def setDone (s : State) : State :=
  match (if moduleQuiet s then none else s.ward.writing) with
  | none => s
  | some (k, step, l) =>
    let j := wardJob s
    let n := s.ward.count + 1
    let x : ArchSet := { step := step, number := n, upload := decide (j.storeEvery ≠ 0 ∧ n % j.storeEvery = 0) }
    let s := putArchive s (k * setSlot j) l
    let s := rset (setWard s { s.ward with writing := none, sets := tset none s.ward.sets k (some x), count := n }) (ckpBlk + 0x28)
      (BitVec.ofNat 64 (step % 2 ^ 32 + 2 ^ 32))
    raise s 0x0062 step 0 [] none

/-- The oldest set that waits for its upload. -/
def uploadSlot (w : Ward) : Option (Nat × ArchSet) :=
  (sortBy (fun a b => decide (a.2.number < b.2.number)) (w.sets.filterMap (fun e => e.2.bind (fun x => if x.upload then some (e.1, x) else none)))).head?

/-- An upload ends: the set is no longer protected, or EVT_STORE_FAIL is raised. -/
def uploadDone (s : State) (ok : Bool) : State :=
  match uploadSlot s.ward with
  | none => s
  | some (k, x) =>
    if s.ward.failed then s
    else if ok && !s.ward.qpError then setWard s { s.ward with sets := tset none s.ward.sets k (some { x with upload := false }) }
    else raise (setWard s { s.ward with failed := true }) 0x0064 x.step 0 [] none

/-- Die and set of the Hall line that holds an address of stacked DRAM. -/
def hallKey (a : Nat) : Nat := (a - niBase) / dramDie * 16384 + a / 256 % 16384
/-- The address's line stands modified in the Hall cache of its die. -/
def hallModified (s : State) (a : Nat) : Bool := (tget [] s.m.hall (hallKey a)).any (fun x => decide (x.line = a / 256) && x.modified)
/-- The line is written back: the cache's copy is no longer modified. -/
def hallBack (s : State) (a : Nat) : State :=
  let set := (tget [] s.m.hall (hallKey a)).map (fun x => if x.line = a / 256 then { x with modified := false } else x)
  { s with m := { s.m with hall := tset [] s.m.hall (hallKey a) set } }

/-- An error that no instruction finds, in a memory word or (`hall`) in the Hall line that holds it: a corrected one is repaired and counted
by its tier; an uncorrectable word is poisoned in place, and a modified Hall line is written back poisoned (R207; DEDUCED, log 66). -/
def patrol (s : State) (addr : Nat) (uncorrectable hall : Bool) : State :=
  let a := canon (mapCtx s) addr
  let dram := decide (niBase ≤ a ∧ a < niBase + dramEnd)
  let slate := decide (slateBase ≤ a ∧ a < slateBase + 768 * slateWin ∧ (a - slateBase) % slateWin < slateSize)
  if !(dram || decide (cupBase ≤ a ∧ a < cupEnd) || slate) || (match homeDie a with | some d => dieDead s d | none => false) then s
  else if hall && dram then
    if !uncorrectable then countTal s 0x118 1
    else if hallModified s a then hallBack { s with m := memPoison s.m a 8 } a
    else s
  else if uncorrectable then { s with m := memPoison s.m a (protSize a) }
  else countTal s (if slate then 0x110 else if dram then 0x120 else 0x128) 1

/-! ### Commands of the job service -/

/-- A job command: after a replay that diverged the job service returns ST_REPLAY_DIVERGE to the next one (R338; DEDUCED, log 67). -/
def takeJob (s : State) (op : BitVec 16) (c : HostCmd) (masks : List Nat) (legal : Bool) (body : State → Nat → State) : State :=
  takeCmd s op c false masks legal (fun s =>
    match jobOf s (cmdCtx c) with
    | some j =>
      if j.rcv.tell then endNow (setJob s (cmdCtx c) (some { j with rcv := { j.rcv with tell := false } })) op c 0x0154 else body s (cmdCtx c)
    | none => body s (cmdCtx c))

/-- A command that needs a job; without one it is refused as a bad command (DEDUCED, log 67). -/
def withJob (s : State) (op : BitVec 16) (c : HostCmd) (ctx : Nat) (body : Job → State) : State :=
  match jobOf s ctx with
  | some j => body j
  | none => endNow s op c 0x0160

/-- DESTROY: what waits for the job ends with a status that the spec leaves open (DEDUCED, log 67). -/
def destroy (s : State) (c : HostCmd) (ctx : Nat) : State :=
  let st := (Config.freeWord s.free).toNat % 65536
  let s := endCtl s.fresh ctx st 0 (fun op => match op with | .gate _ r n => some (r, n) | .commit _ r n => some (r, n) | .chg _ r n => some (r, n) | _ => none)
  endNow (setJob s ctx none) 0x03 c 0

def resumeCmd (s : State) (c : HostCmd) (ctx : Nat) (j : Job) : State :=
  let x := sgn 8 (fld c.w1 8 8)
  let set := flag c.w1 0
  if !j.stopped || (set && !decide (j.lsMin ≤ x ∧ x ≤ j.lsMax)) then endNow s 0x04 c 0x0160
  else endNow (resumeJob s ctx (if set then some x else none)) 0x04 c 0

def skipCmd (s : State) (c : HostCmd) (ctx : Nat) (j : Job) : State :=
  if !j.stopped then endNow s 0x05 c 0x0160 else endNow (skipJob s ctx j) 0x05 c 0

def createMasks : List Nat := [bmask 0 48, bmask 0 48, bmask 0 32, bmask 0 48]

def execCreate (c : HostCmd) (s : State) : Host.Outcome State Fault Refusal :=
  .next (takeJob s 0x01 c createMasks true (fun s ctx => create s c ctx))
def execCreateFrom (c : HostCmd) (s : State) : Host.Outcome State Fault Refusal :=
  .next (takeJob s 0x02 c (createMasks ++ [bmask 0 2 + bmask 32 32]) (decide (fld c.w5 0 2 = 1 ∨ fld c.w5 0 2 = 2)) (fun s ctx => createFrom s c ctx))
def execDestroy (c : HostCmd) (s : State) : Host.Outcome State Fault Refusal :=
  .next (takeJob s 0x03 c [] true (fun s ctx => withJob s 0x03 c ctx (fun _ => destroy s c ctx)))
def execResume (c : HostCmd) (s : State) : Host.Outcome State Fault Refusal :=
  .next (takeJob s 0x04 c [1 + bmask 8 8] true (fun s ctx => withJob s 0x04 c ctx (fun j => resumeCmd s c ctx j)))
def execSkip (c : HostCmd) (s : State) : Host.Outcome State Fault Refusal :=
  .next (takeJob s 0x05 c [] true (fun s ctx => withJob s 0x05 c ctx (fun j => skipCmd s c ctx j)))
/-- REMAP is refused (R259). -/
def execRemap (c : HostCmd) (s : State) : Host.Outcome State Fault Refusal := .next (takeJob s 0x06 c [] true (fun s _ => endNow s 0x06 c 0x0130))
/-- REPLAN is refused (R259). -/
def execReplan (c : HostCmd) (s : State) : Host.Outcome State Fault Refusal := .next (takeJob s 0x07 c [] true (fun s _ => endNow s 0x07 c 0x0130))
def execReplace (c : HostCmd) (s : State) : Host.Outcome State Fault Refusal :=
  .next (takeJob s 0x08 c [wholeWord, bmask 0 32] true (fun s ctx => withJob s 0x08 c ctx (fun j => replace s c ctx j)))
def execReplaceResume (c : HostCmd) (s : State) : Host.Outcome State Fault Refusal :=
  .next (takeJob s 0x09 c [wholeWord, bmask 0 32] true (fun s ctx => withJob s 0x09 c ctx (fun j => replaceResume s c ctx j)))
/-- CKP_STORE_SET: the queue pair, remote region and Ethernet port of the shared store. -/
def execCkpStoreSet (c : HostCmd) (s : State) : Host.Outcome State Fault Refusal :=
  .next (takeCmd s 0x24 c true [bmask 0 48, 1] true (fun s =>
    endNow (setWard s.fresh { s.ward with store := dmaRead s c.w1.toNat Config.roceBytes, port := flag c.w2 0, qpError := false }) 0x24 c 0))
def execPartnerRestoreDone (ctx : CtxNo) (sheets : List (BitVec 48 × List Byte)) (area : List Byte) (s : State) :
    Host.Outcome State Fault Refusal := .next (partnerRestore s ctx.toNat sheets area)
def execCkpHeld (step : BitVec 32) (s : State) : Host.Outcome State Fault Refusal := .next (ckpHeld s step.toNat)
/-- The acknowledgement reaches this module as a seat and as a buddy. -/
def execCkpAckRelease (ctx : CtxNo) (step : BitVec 32) (s : State) : Host.Outcome State Fault Refusal :=
  .next (wardAck (seatAck s ctx.toNat step.toNat) step.toNat)
def execLandingApplyDone (s : State) : Host.Outcome State Fault Refusal := .next (applyDone s)
def execEvtCkpLate (ctx : CtxNo) (s : State) : Host.Outcome State Fault Refusal := .next (ckpLate s ctx.toNat)
def execArchiveExtentDone (write : Bool) (extent : Nat) (addr : BitVec 48) (ok : Bool) (s : State) : Host.Outcome State Fault Refusal :=
  .next (extentDone s write extent addr.toNat ok)
def execArchiveSetDone (s : State) : Host.Outcome State Fault Refusal := .next (setDone s)
def execStoreUploadDone (ok : Bool) (s : State) : Host.Outcome State Fault Refusal := .next (uploadDone s ok)
/-- A failed upload is tried again. -/
def execStoreRetry (s : State) : Host.Outcome State Fault Refusal := .next (setWard s { s.ward with failed := false })
def execBuddyWrite (buddy : BitVec 11) (valid : Bool) (s : State) : Host.Outcome State Fault Refusal := .next (buddyWrite s buddy valid)
def execWardArm (v : BitVec 64) (s : State) : Host.Outcome State Fault Refusal := .next (wardArm s v)
def execReplayStep (ctx : CtxNo) (s : State) : Host.Outcome State Fault Refusal := .next (replayStep s ctx.toNat)
def execPatrolScrub (addr : BitVec 48) (e : FoundError) (s : State) : Host.Outcome State Fault Refusal :=
  .next (patrol s addr.toNat e.uncorrectable e.hall)

end Sys2Proof.Machine
end

