-- ==== Sys2Proof/Machine/Health.lean ====
section
/-! DEFINITION. Detectors, the Quiet State, the Report Card and the resets of tiles, ports and compute dies (R348 to R364). The
module reset stands in Power.lean, which holds what it clears. -/
namespace Sys2Proof.Machine

def hangCfg : Nat := mgtBlk + 0x800
def wdogReg : Nat := mgtBlk + 0x808
def quietReg : Nat := mgtBlk + 0x810
def whyReg : Nat := mgtBlk + 0x818
def resetStatus : Nat := mgtBlk + 0x828
def rcReg (k : Nat) : Nat := mgtBlk + 0x830 + 8 * k
def prefectReg (k : Nat) : Nat := mgtBlk + 0x100 + 8 * k

/-! ### Core clocks (R415, R418) -/

/-- The clock in MHz to which a cause holds a die; no listed value, no limit. -/
def clkLimit (m : Tab Nat) (d : Nat) : Nat := tget 100000 m d
def clkReq (s : State) (d : Nat) : Nat := tget 2000 s.sys.clkReq d
/-- A die's core clock in MHz: the lowest of what software requested, heat, the power cap and low coolant flow allow (R415, R418; DEDUCED,
log 78). -/
def clkOf (s : State) (d : Nat) : Nat :=
  Nat.min (Nat.min (clkReq s d) (if flag (rget s (mgtBlk + 0x918)) 32 then 800 else 100000))
    (Nat.min (clkLimit s.sys.clkHeat d) (clkLimit s.sys.clkCap d))

/-! ### Notification (R364) -/

/-- Scope codes of MGT_RESET. -/
def Scope.code : Scope → Nat × Nat
  | .tile t => (0, t.val)
  | .port p => (1, p.val)
  | .die d => (2, d.val)
  | .module => (3, 0)

/-- An event of this chapter: word 2 holds the scope, its target and one more value. It reaches the PF and out-of-band
management, and for a tile the owning context. -/
def raiseHealth (s : State) (code scope target v : Nat) : State :=
  let w2 := scope + target * 4 + v * 2 ^ 12
  let die := if scope = 0 then some (target / 96) else if scope = 2 then some target else none
  if scope = 0 then
    let s := raise s code w2 0 [(s.tile target).ctx.toNat] die
    if moduleQuiet s then s else { s with host := { s.host with oob := s.host.oob ++ [⟨BitVec.ofNat 16 code, s.now, BitVec.ofNat 64 w2, 0⟩] } }
  else raise s code w2 0 [] die

/-! ### Entering the Quiet State (R354, R355) -/

/-- Writes of a copy of a stage entry, and of a save image, that a tile has begun. -/
def stageWrites (s : State) (t : Nat) : List PW :=
  let mc := mapCtx s
  (s.tile t).stages.flatMap (fun e =>
    if e.2.state = 1 && e.2.active then putBytes mc e.2.up.toNat (vbytes mc (viewOut s) e.2.low.toNat e.2.len) else []) ++
  (if (s.tile t).pre = .saving then putBytes mc (s.tile t).saveBase.toNat (imageBytes s t (s.saves.length + 1)) else [])

/-- Writes that a tile's started instructions and scalar accesses have begun. -/
def begunWrites (T : Tile) : List PW :=
  T.started.flatMap (fun e => e.2.flatMap (·.writes)) ++ T.access.flatMap (fun a => match a with | .st _ _ _ ws _ => ws | _ => [])

/-- A tile stops where it stands: every word that its started work writes holds its old or its new value, nothing rings, and
a preemption in progress is abandoned (R354, R363). -/
def freezeTile (s : State) (t : Nat) : State :=
  let T := s.tile t
  let ws := partialWrites s (begunWrites T)
  let copies := partialWrites s (stageWrites s t)
  let s := s.setTile t { T with
    started := T.started.map (fun e => (e.1, e.2.map (fun x => { x with writes := [], tags := [] }))), access := [],
    run := false, pre := .idle, preFail := T.preFail || decide (T.pre = .asked), bwait := none, restart := none,
    pendResume := false, pendFlush := false }
  (s.fresh.touchWrites (some t) (ws.filter (taken s))).land t 7 (ws ++ copies)

/-- The attempt of a context's job is aborted, unless its seat has reported ready (R355). -/
def abortFor (s : State) (ctx : Nat) : State :=
  match jobOf s ctx with
  | some j => if j.commits ≥ j.gateTiles then s else abortAttempt s ctx
  | none => s

/-- A tile enters the Quiet State. -/
def quietTile (s : State) (t reason : Nat) : State :=
  if tileQuiet s t then s
  else
    let s := (freezeTile s t).onTile t (fun T => { T with quiet := true, quietWhy := reason })
    raiseHealth (abortFor s (s.tile t).ctx.toNat) 0x71 0 t reason

/-- Tiles of the dies in `ds` that have left their reset state and are not quiet. -/
def awake (s : State) (ds : List Nat) : List Nat := (s.tiles.filter (fun e => ds.contains (dieOf e.1) && !tileQuiet s e.1)).map (·.1)
/-- Contexts of the jobs whose tiles are in a list. -/
def jobsOn (s : State) (l : List Nat) : List Nat := ((l.map (fun t => (s.tile t).ctx.toNat)).filter (fun c => (jobOf s c).isSome)).eraseDups

/-- The scope of key `k`, a die or 8 the module, is in reset: it is quiet until that reset completes. -/
def resetting (s : State) (k : Nat) : Bool := s.sys.modReset || decide (s.sys.dieReset = some k)

/-- A cause of the Quiet State falls on a scope in reset: it stays quiet for that cause when the reset has completed (R358, R412, R416;
DEDUCED, log 70). -/
def quietLater (s : State) (k reason : Nat) : State :=
  if reason = 0 ∨ tget 0 s.sys.newQuiet k ≠ 0 then s
  else
    let s := rfld { s with sys := { s.sys with newQuiet := tset 0 s.sys.newQuiet k reason } } whyReg (4 * k) 4 reason
    raiseHealth s 0x71 (if k = 8 then 3 else 2) (if k = 8 then 0 else k) reason

/-- A compute die enters the Quiet State. -/
def quietDie (s : State) (d reason : Nat) : State :=
  if resetting s d then quietLater s d reason
  else if dieQuiet s d then s
  else
    let l := awake s [d]
    let s := rfld (rflag (l.foldl freezeTile s) quietReg d true) whyReg (4 * d) 4 reason
    raiseHealth ((jobsOn s l).foldl abortFor s) 0x71 2 d reason

/-- The module enters the Quiet State: every die does, and EVT_QUIET goes out by MSI-X vector 0 of the PF, the SMBus alert and
the management port (R354, R364; DEDUCED, log 70). -/
def quietModule (s : State) (reason : Nat) : State :=
  if s.sys.modReset then quietLater s 8 reason
  else if moduleQuiet s then s
  else
    let l := awake s (List.range 8)
    let s := rfld (rfld (l.foldl freezeTile s) quietReg 0 9 0x1FF) whyReg 32 4 reason
    let s := (jobsOn s l).foldl abortFor s
    let s := signal { s with sys := { s.sys with smbAlert := true, lastExtent := false }, ward := { s.ward with qpError := true } } 0 0
    raiseHealth s 0x71 3 0 reason

/-! ### The Report Card (R359, R360) -/

/-- Primary area of a die, its mirror, and the module record. -/
def cardArea (d : Nat) : Nat := 0x080000000000 + d * 0x005000000000 + 0x0013FE000000
def cardMirror (d : Nat) : Nat := 0x13FFC0000000 + d * 0x100000
def moduleCard : Nat := 0x13FFC0800000

/-- `n` bytes of a record whose packing the spec leaves open (DESIGN CHOICE, log 73). -/
def openBytes (s : State) (o n : Nat) : List Byte := (upto o n).map (Config.reportByte s.free)

/-- Bytes stored by the Monitor and Prefect cores. -/
def storeBytes (s : State) (a : Nat) (l : List Byte) : State :=
  let ws := (l.zip (upto a l.length)).map (fun (v, k) => { addr := k, mask := 0xFF, val := v })
  (s.touchWrites none ws).write ws

/-- Registers of a tile record, in order. -/
def cardRegs : List Nat := [0x0, 0x8, 0x10, 0x18, 0x48, 0x50, 0x58, 0x60, 0x38, 0x30, 0x400, 0x500, 0x508, 0x510, 0x580, 0x600]

/-- `n` bytes that hold the given values in a packing the spec leaves open (DESIGN CHOICE, log 73). -/
def packed (s : State) (place n : Nat) (values : List Nat) : List Byte := (List.range n).map (Config.packField s.free place values)

/-- A field of the record, all ones where it does not answer (R359). -/
def answer (s : State) (field : Nat) (l : List Byte) : List Byte := if Config.silent s.free field then List.replicate l.length 0xFF else l

/-- The MISSING mask over `n` fields. -/
def missing (s : State) (n : Nat) : Nat := (List.range n).foldl (fun m k => m + if Config.silent s.free k then 2 ^ k else 0) 0

/-- SEQ of the capture that MGT_RCk will show. -/
def nextSeq (s : State) (k : Nat) : Nat := (fld (rget s (rcReg k)) 0 16 + 1) % 2 ^ 16

/-- The block of one queue, eight words: count among the indices, the started instruction, the head, its wait and the Bell's value. The
head and tail indices, the progress units and their time are no state of the model. -/
def cardQueue (s : State) (t q : Nat) : List Byte :=
  let T := s.tile t
  let o := 0xC0 + 64 * q
  let word (k : Nat) (v : Option (BitVec 64)) : List Byte := match v with | some x => leBytes 8 x.toNat | none => openBytes s (o + 8 * k) 8
  let head := (T.queue q).head?
  packed s (16 + q) 8 [(T.queue q).length] ++ word 1 (((T.startedQ q).head?).map (·.i.pc)) ++ openBytes s (o + 16) 16 ++ word 4 (head.map (·.w0)) ++
    word 5 (head.map (·.w1)) ++ packed s (24 + q) 8 (match head.bind (·.wait) with | some w => [w.1.toNat, w.2.toNat] | none => []) ++
    word 7 ((head.bind (·.wait)).map (fun w => (bellGet s w.1).setWidth 64))

/-- The reason code of a tile record: that of its Quiet State, or 0xF for FLT_BELL_TIMEOUT (R360). -/
def tileWhy (s : State) (t : Nat) : Nat :=
  if (s.tile t).quiet then (s.tile t).quietWhy
  else if dieQuiet s (dieOf t) then fld (rget s whyReg) (4 * (if moduleQuiet s then 8 else dieOf t)) 4 else 0xF

/-- The record of a tile: fields 0 to 15 are its registers, 16 to 20 its queues, then the last 32 issued, X0 to X31 and the stage entries
(DESIGN CHOICE, log 73). -/
def tileCard (s : State) (t : Nat) : List Byte :=
  let T := s.tile t
  let ran := (T.last32.take 32).reverse.flatMap (fun e => leBytes 8 e.1.toNat ++ leBytes 8 e.2.1.toNat)
  packed s 0 64 [0, t, nextSeq s (dieOf t), s.now.toNat, tileWhy s t, (tileCtx s t).toNat, missing s 24] ++
    (cardRegs.zip (List.range 16)).flatMap (fun (o, k) => answer s k (leBytes 8 ((pageRead s t o).getD 0).toNat)) ++
    (List.range 5).flatMap (fun q => answer s (16 + q) (cardQueue s t q)) ++
    answer s 21 (ran ++ openBytes s (0x200 + ran.length) (512 - ran.length)) ++
    answer s 22 ((List.range 32).flatMap (fun i => leBytes 8 (T.xr i).toNat)) ++
    answer s 23 ((List.range 64).flatMap (fun n => let e := T.stage n
      (List.range 4).map (Config.packField 0 1 [e.state.toNat, e.wasLate.toNat, e.err.toNat]))) ++ List.replicate 2560 0

/-- The last 1024 events under a key, 32 bytes each. -/
def cardEvents (s : State) (k : Nat) : List Byte :=
  let ev := ((tget [] s.host.last k).take 1024).flatMap (fun e => leBytes 8 e.time.toNat ++ leBytes 8 e.code.toNat ++ leBytes 8 e.w2.toNat ++ leBytes 8 e.w3.toNat)
  ev ++ openBytes s (32768 + ev.length) (32768 - ev.length)

/-- Roster entries of a die by state. -/
def rosterCounts (s : State) (d : Nat) : List Nat :=
  [EState.free, .admitted, .prefill, .decode, .held, .expired, .done, .evicted].map (fun st =>
    if st = .free then 16384 - ((dieEntries s d).filter (fun e => decide (e.2.state ≠ .free))).length
    else ((dieEntries s d).filter (fun e => decide (e.2.state = st))).length)

/-- The record of a die (DESIGN CHOICE, log 73). -/
def dieCard (s : State) (d : Nat) : List Byte :=
  packed s 2 4096 [1, d, nextSeq s d, s.now.toNat, fld (rget s whyReg) (4 * (if moduleQuiet s then 8 else d)) 4, missing s 3, tget 0 s.sys.fired d] ++
    answer s 0 (packed s 3 28672 (clkOf s d :: rosterCounts s d)) ++ answer s 1 (cardEvents s d) ++ List.replicate 196608 0 ++
    answer s 2 ((List.range 65536).flatMap (fun k => leBytes 4 (tget 0 s.bells (d * 65536 + k)).toNat))

/-- The record of the I/O dies: service assignment, port and controller status, events raised on no compute die. The Prefect cores'
program counters are no state of the model (DESIGN CHOICE, log 73). -/
def ioCard (s : State) : List Byte :=
  packed s 4 0x80000 ([2, nextSeq s 8, s.now.toNat, fld (rget s whyReg) 32 4, missing s 1, (rget s (hstBlk + 8)).toNat] ++
    (List.range 16).map (fun k => (rget s (prefectReg k)).toNat) ++ (List.range 36).map (fun p => (rget s (portStatus p)).toNat) ++
    (cardEvents s 8).map (·.toNat))

/-- MGT_RCd after a capture. -/
def noteCard (s : State) (k kind : Nat) (tile : Option Nat) : State :=
  let r := rget s (rcReg k)
  let r := if flag r 16 then setFld r 20 8 (satAdd 8 (fld r 20 8) 1) else r
  let r := setFld (setFlag (setFlag (setFld r 0 16 (fld r 0 16 + 1)) 16 true) 18 true) 28 4 kind
  rset s (rcReg k) (match tile with | some t => setFld r 32 10 t | none => r)

/-- Bit of `Sys.card` for a scope. -/
def cardBit (scope target : Nat) : Nat := if scope = 0 then target else if scope = 2 then 768 + target else 776

/-- The record of a die in its area and in the mirror. -/
def captureDie (s : State) (d : Nat) : State :=
  let r := dieCard s d
  noteCard (storeBytes (storeBytes s.fresh (cardArea d + 0x80000) r) (cardMirror d + 0x80000) r) d 1 none

/-- A record is written, copied to the mirror and reported; with the module's record those of its dies (R359; DESIGN CHOICE, log 73). -/
def capture (s : State) (scope target : Nat) : State :=
  let s :=
    if scope = 0 then
      let d := dieOf target
      let r := tileCard s target
      noteCard (storeBytes (storeBytes s (cardArea d + target % 96 * 4096) r) (cardMirror d + target % 96 * 4096) r) d 0 (some target)
    else if scope = 2 then captureDie s target
    else noteCard (storeBytes ((List.range 8).foldl captureDie s) moduleCard (ioCard s)) 8 2 none
  raiseHealth s.fresh 0x72 scope target 0

/-- The scope is quiet. -/
def scopeQuiet (s : State) (scope target : Nat) : Bool :=
  if scope = 0 then tileQuiet s target else if scope = 2 then dieQuiet s target else moduleQuiet s

/-- The Report Card of a quiet scope is collected once before its reset. -/
def collect (s : State) (scope target : Nat) : State :=
  if tget false s.sys.card (cardBit scope target) then s
  else let s := capture s scope target
       { s with sys := { s.sys with card := tset false s.sys.card (cardBit scope target) true } }

/-- REPORT_CARD_CAPTURE: of a quiet scope, or, once for each timeout, of a tile that has stopped with FLT_BELL_TIMEOUT (R350, R359). A port has no
Report Card (DEDUCED, log 71; DEDUCED, log 75). -/
def captureNow (s : State) (sc : Scope) : State :=
  let (scope, target) := Scope.code sc
  if scope = 1 then s
  else if scopeQuiet s scope target then collect s scope target
  else if scope = 0 ∧ (s.tile target).bellLate then (capture s 0 target).onTile target (fun T => { T with bellLate := false })
  else s

/-! ### Reset requests (R361 to R363) -/

/-- A reset is in progress. -/
def anyReset (s : State) : Bool :=
  s.tiles.any (fun e => e.2.resetting) || s.sys.portReset.any (fun e => e.2) || s.sys.dieReset.isSome || s.sys.modReset

/-- MGT_RESET_STATUS.BUSY follows the resets. -/
def setBusy (s : State) : State := rflag s resetStatus 0 (anyReset s)

/-- The last request and its result. -/
def setRequest (s : State) (scope target result : Nat) : State :=
  rset s resetStatus (setFld (setFld (setFld (rget s resetStatus) 1 2 scope) 3 10 target) 13 3 result)

/-- The result of a request, where it is still the last one: 0 done, 1 running, 5 superseded (DEDUCED, log 70). -/
def setResult (s : State) (scope target result : Nat) : State :=
  if fld (rget s resetStatus) 1 2 = scope ∧ fld (rget s resetStatus) 3 10 = target then rfld s resetStatus 13 3 result else s

/-- A tile reset in progress is abandoned for the reset of its die, and reported as superseded (R363). -/
def supersede (s : State) (t : Nat) : State :=
  if (s.tile t).resetting then setResult (s.onTile t (fun T => { T with resetting := false })) 0 t 5 else s

/-- The scope lies in a scope that is in reset, or waits for its own reset. -/
def inReset (s : State) (scope target : Nat) : Bool :=
  s.sys.modReset ||
  (match scope with
   | 0 => (s.tile target).resetting || decide (s.sys.dieReset = some (dieOf target))
   | 1 => tget false s.sys.portReset target
   | 2 => decide (s.sys.dieReset = some target) || s.sys.dieWait.contains target
   | _ => false)

/-- A tile reset begins: the tile is quiet and its Report Card collected (DEDUCED, log 70). -/
def startTileReset (s : State) (t : Nat) : State :=
  let s := collect (quietTile s t 1) 0 t
  let s := s.onTile t (fun T => { T with resetting := true })
  setBusy (setRequest { s with sys := { s.sys with tileResets := tset [] s.sys.tileResets t (tget [] s.sys.tileResets t ++ [s.now]) } } 0 t 1)

/-- A port is reset: it enters the Quiet State, its flits are routed again or returned, its buffers and STATUS are cleared, and an enabled
port trains (R351, R354, R361, R364; DEDUCED, log 70; DEDUCED, log 71). -/
def startPortReset (s : State) (p : Nat) : State :=
  let s := setPort (portDown (raiseHealth s 0x71 1 p 1) p) p {}
  let s := setRequest (rset s (portStatus p) 0) 1 p 1
  if flag (rget s (portCfg p)) 0 && !tget false s.sys.phyBad p then
    setBusy (portTrain { s with sys := { s.sys with portReset := tset false s.sys.portReset p true } } p)
  else raiseHealth (setBusy (setResult s 1 p 0)) 0x73 1 p 0

/-- A die reset begins: the die is quiet, its Roster entries are reported (R356), its Report Card collected, and the tile
resets in progress on it are abandoned (R363; DEDUCED, log 70). -/
def startDieReset (s : State) (d : Nat) : State :=
  let s := collect (evictDie (quietDie s d 1) d) 2 d
  let s := (upto (96 * d) 96).foldl supersede s
  setBusy { s with sys := { s.sys with dieReset := some d } }

/-- A request for a tile, port or die (DEDUCED, log 70). -/
def request (s : State) (scope target : Nat) : State :=
  if target ≥ (match scope with | 0 => 768 | 1 => 36 | _ => 8) then setRequest s scope target 4
  else if inReset s scope target then setRequest s scope target 2
  else
    match scope with
    | 0 => startTileReset s target
    | 1 => startPortReset s target
    | _ =>
      if s.sys.dieReset.isSome then
        setRequest { s with sys := { s.sys with dieWait := s.sys.dieWait ++ [target] } } 2 target 3
      else setRequest (startDieReset s target) 2 target 1

/-- A quiet die that no reset contains is reset when AUTO_DIE is 1 (R362; DEDUCED, log 70). -/
def autoDie (s : State) (d : Nat) : State :=
  if flag (rget s hangCfg) 34 && flag (rget s quietReg) d && !moduleQuiet s && !inReset s 2 d then request s 2 d else s

/-- A cause that makes a die quiet, and its reset (R362; DEDUCED, log 70). -/
def dieFault (s : State) (d reason : Nat) : State := autoDie (quietDie s d reason) d

/-- A tile's detector makes its die quiet: the record of the die names the tile (R360, R362). -/
def firedFault (s : State) (t reason : Nat) : State :=
  dieFault { s with sys := { s.sys with fired := tset 0 s.sys.fired (dieOf t) (t + 1) } } (dieOf t) reason

/-- A quiet tile is reset when AUTO_TILE is 1 (R362). -/
def autoTile (s : State) (t : Nat) : State :=
  if flag (rget s hangCfg) 32 && (s.tile t).quiet && !dieQuiet s (dieOf t) && !inReset s 0 t then request s 0 t else s

/-- The warning of a port that fails its PHY calibration or its training: its bit of BOOT_UNIT (R404, R409; DESIGN CHOICE, log 77). -/
def portWarning (s : State) (p : Nat) : State := rset s mgtStatus (setFlag (rget s mgtStatus) (16 + (Config.bootBit p).val) true)

/-- A tile reset inside another sequence: the tile becomes quiet, its Report Card is collected, and its state is cleared (R359, R370,
R373). Its job goes on: the tile no longer belongs to it. -/
def resetNow (s : State) (t : Nat) : State :=
  let s := raiseHealth ((freezeTile s t).onTile t (fun T => { T with quiet := true, quietWhy := 1 })) 0x71 0 t 1
  let s := clearTile (collect s 0 t) t
  raiseHealth { s with sys := { s.sys with card := tset false s.sys.card t false } } 0x73 0 t 0

/-! ### The end of a reset -/

/-- A tile that a reset has cleared; a tile of a job waits for firmware's restart (R132, R255; DEDUCED, log 71). -/
def tileAfter (s : State) (t : Nat) : State :=
  let T := s.tile t
  (clearTile s t).onTile t (fun x => { x with
    quiet := false, quietWhy := 0, resetting := false, lost := (jobOf s T.ctx.toNat).isSome, entry := T.entry })

/-- Firmware restarts the job tiles that a reset has cleared, unless a restore must run first (R255, R361; DEDUCED, log 71). -/
def restartLost (s : State) (ctxs : List Nat) : State :=
  ctxs.foldl (fun s c =>
    match jobOf s c with
    | some j => if j.stopped || j.rcv.restoring then s else restartFaulted s c j
    | none => s) s

/-- Contexts with tiles in a list that have no job and have been started by CTX_GO. -/
def startedOn (s : State) (l : List Nat) : List Nat :=
  ((l.filter (fun t => (s.tile t).entry.isSome)).map (fun t => (s.tile t).ctx.toNat)).eraseDups.filter (fun c => (jobOf s c).isNone)

/-- A context without a job restarts from its entry point, the PC at which CTX_GO started each of its tiles (R361; DEDUCED, log 71). -/
def restartCtxs (s : State) (ctxs : List Nat) : State :=
  s.tiles.foldl (fun s e =>
    match e.2.entry with
    | some pc => if ctxs.contains e.2.ctx.toNat then restartTile s e.1 (pc.setWidth 48) else s
    | none => s) s

def clearCard (s : State) (k : Nat) : State := { s with sys := { s.sys with card := tset false s.sys.card k false } }

/-- TILE_RESET_DONE. -/
def tileResetDone (s : State) (t : Nat) : State :=
  if !(s.tile t).resetting then s
  else
    let s := setResult (setBusy (clearCard (tileAfter s t) t)) 0 t 0
    restartLost (raiseHealth s 0x73 0 t 0) (jobsOn s [t])

/-- A tile reset that has not completed within 1 ms (R362). -/
def tileResetTimeout (s : State) (t : Nat) : State :=
  if !(s.tile t).resetting then s
  else firedFault (raiseHealth (rflag s resetStatus 16 true) 0x74 0 t 0) t 8

/-- The next die reset that waits; MGT_RESET_STATUS goes on showing the last request. -/
def nextDie (s : State) : State :=
  match s.sys.dieWait with
  | d :: r => setResult (startDieReset { s with sys := { s.sys with dieWait := r } } d) 2 d 1
  | [] => s

/-- The modified lines of a die's Hall cache that firmware cannot write back are poisoned in place (R207, R361; DESIGN CHOICE, log 71). -/
def cleanDie (s : State) (d : Nat) : State :=
  let lost := ((trange s.m.hall (d * 16384) ((d + 1) * 16384)).flatMap (·.2)).filter (fun l => l.modified && Config.backFails s.free l.line)
  { s with m := lost.foldl (fun m l => (List.range 8).foldl (fun m k => memPoison m (256 * l.line + 32 * k) 32) m) s.m, free := s.free + 1 }

/-- What a die reset clears: its tiles, Bells, Hall cache, Roster entries (but GEN, and those that firmware has still to report, R356) and
stage entries (R361; DEDUCED, log 71). -/
def clearDie (s : State) (d : Nat) : State :=
  let ts := (s.tiles.filter (fun e => decide (dieOf e.1 = d))).map (·.1)
  let s := ts.foldl tileAfter s
  let s := (dieEntries s d).foldl (fun s e => if e.2.final && !(e.2.dig && e.2.ring) then s else setEntry s e.1 { gen := e.2.gen }) s
  let m := memClear s.m (slateOf (96 * d)) (slateOf (96 * d) + 96 * slateWin)
  { s with bells := tclear s.bells (d * 65536) ((d + 1) * 65536), m := { m with hall := tclear m.hall (d * 16384) ((d + 1) * 16384) },
           sys := { s.sys with dieReset := none, monDown := tclear s.sys.monDown (2 * d) (2 * d + 2),
                               card := tclear (tclear s.sys.card (96 * d) (96 * d + 96)) (768 + d) (769 + d) } }

/-- DIE_RESET_DONE: the die leaves reset and, unless the module is quiet, the Quiet State. -/
def dieResetDone (s : State) (d : Nat) : State :=
  if s.sys.dieReset ≠ some d then s
  else
    let s := clearDie (cleanDie s d) d
    let why := tget 0 s.sys.newQuiet d
    let s := { s with sys := { s.sys with newQuiet := tset 0 s.sys.newQuiet d 0, fired := tset 0 s.sys.fired d 0 } }
    let s := if moduleQuiet s then s else rflag (rfld s whyReg (4 * d) 4 why) quietReg d (decide (why ≠ 0))
    let s := raiseHealth (setResult (setBusy s) 2 d 0) 0x73 2 d 0
    let ts := (s.tiles.filter (fun e => decide (dieOf e.1 = d))).map (·.1)
    autoDie (nextDie (restartCtxs (restartLost s (jobsOn s ts)) (startedOn s ts))) d

/-- The end of a port reset, with the end of its training (R361; DEDUCED, log 71). -/
def portResetDone (s : State) (p : Nat) : State :=
  if !tget false s.sys.portReset p then s
  else
    let s := { s with sys := { s.sys with portReset := tset false s.sys.portReset p false } }
    raiseHealth (setResult (setBusy s) 1 p 0) 0x73 1 p 0

/-! ### Detectors (R348 to R353) -/

/-- A started COLL of tile `t` has its collective in `c`. -/
def collOfStarted (t : Nat) (x : Started) (c : Coll) : Bool := c.tile.any (fun w => decide (w = (t, x.i.seq)))

/-- A flit that waits at a port is one of the instruction's: of its transfer, or of its collective. -/
def ownFlit (s : State) (t : Nat) (x : Started) (f : Flit) : Bool :=
  decide (f.srcPm = selfPm s) &&
    ((decide (f.dstPm = x.pm) && x.tags.contains f.tag) ||
      s.fab.colls.any (fun e => match e.2 with
        | some c => collOfStarted t x c && c.held.any (fun g => decide (g.ty = f.ty ∧ g.dstPm = f.dstPm ∧ g.tag = f.tag))
        | none => false))

/-- The link instruction waits for a release across the fabric, or for a credit of a port whose STALL is set (R349; DEDUCED, log 75). -/
def hangExempt (s : State) (t : Nat) (x : Started) : Bool :=
  !x.ready &&
  ((match x.i.op with
    | .barrier .. | .gate .. | .commit .. | .chg .. => true
    | .coll .. => s.fab.colls.any (fun e => match e.2 with | some c => c.verdict.isNone && collOfStarted t x c | none => false)
    | _ => false) ||
   s.fab.ports.any (fun e => flag (rget s (portStatus e.1)) 4 && e.2.held.any (ownFlit s t x)))

/-- What the engine progress detector watches: a started instruction that is not exempt, or a scalar control unit that could
issue (DEDUCED, log 75). -/
def watched (s : State) (t q : Nat) : Bool :=
  let T := s.tile t
  if q = 5 then canIssue s t && T.bwait.isNone else (T.startedQ q).any (fun x => !(decide (q = 4) && hangExempt s t x))

/-- Times of the last 60 s (DEDUCED, log 75). -/
def lastMinute (s : State) (l : List (BitVec 64)) : List (BitVec 64) := l.filter (fun x => decide ((s.now - x).toNat < 60000000000))

/-- Resets of a tile in the last 60 s. -/
def recentResets (s : State) (t : Nat) : Nat := (lastMinute s (tget [] s.sys.tileResets t)).length

/-- ENGINE_HANG: EVT_HANG, the Quiet State, and the reset or the escalation to the die (R362; DEDUCED, log 75). -/
def engineHang (s : State) (t q : Nat) : State :=
  if fld (rget s hangCfg) 0 24 = 0 ∨ tileQuiet s t ∨ inReset s 0 t ∨ !watched s t q then s
  else
    let s := quietTile (raiseHealth s 0x70 0 t q) t 0
    if recentResets s t ≥ fld (rget s hangCfg) 36 4 then firedFault s t 9 else autoTile s t

/-- A Monitor core falls silent: its partner takes its rows, or both are silent (R14, R348). -/
def monitorLoss (s : State) (d core : Nat) : State :=
  let s := { s with sys := { s.sys with monDown := tset false s.sys.monDown (2 * d + core) true } }
  if tget false s.sys.monDown (2 * d) && tget false s.sys.monDown (2 * d + 1) then dieFault s d 2 else s

/-- The firmware's service assignment: its own choice among those in which a living core has every service (R14; DESIGN CHOICE, log 74). -/
def assignServices (s : State) : State :=
  let n := s.sys.assign
  let live := (List.range 16).filter (fun k => flag (rget s (prefectReg k)) 8)
  let all := live.foldl (fun m k => m ||| Config.services n k) (0 : BitVec 8)
  let s := { s with sys := { s.sys with assign := n + 1 } }
  (List.range 16).foldl (fun s k =>
    let v := if live.contains k then (if live.head? = some k then Config.services n k ||| ~~~all else Config.services n k) else 0
    rfld s (prefectReg k) 0 8 v.toNat) s

/-- Living Prefect cores of the I/O die of core `k`. -/
def coresOf (s : State) (k : Nat) : List Nat := (upto (8 * (k / 8)) 8).filter (fun i => flag (rget s (prefectReg i)) 8)

/-- The services of a lost core move to a surviving core of its I/O die (R352), or, where none is left there, of the other one, so that
each service keeps a living core (R14). Which of them is the least loaded no register shows: a free choice (DESIGN CHOICE, log 74). -/
def moveServices (s : State) (k : Nat) (services : Nat) : State :=
  let io := if (coresOf s k).isEmpty then coresOf s (15 - k) else coresOf s k
  let i := io.getD ((Config.freeWord s.free).toNat % Nat.max 1 io.length) k
  if io.isEmpty then s else (rfld s (prefectReg i) 0 8 (fld (rget s (prefectReg i)) 0 8 ||| services)).fresh

/-- EVT_PREFECT_LOST: the core is halted and reset, its services move, and the event is raised. -/
def losePrefect (s : State) (k : Nat) : State :=
  let r := rget s (prefectReg k)
  let n := satAdd 8 (fld r 16 8) 1
  let s := rset s (prefectReg k) (setFld (setFlag (setFld r 0 8 0) 8 false) 16 8 n)
  let s := moveServices s k (fld r 0 8)
  let s := { s with sys := { s.sys with
    preLost := tset [] s.sys.preLost k (lastMinute s (tget [] s.sys.preLost k) ++ [s.now]), preDown := tset false s.sys.preDown k true } }
  raiseHealth s 0x75 3 k n

/-- The I/O die of a core can no longer serve: four of its eight cores are lost, or this core three times in 60 s (R352). -/
def ioDieLost (s : State) (k : Nat) : Bool := decide ((coresOf s k).length ≤ 4) || decide ((lastMinute s (tget [] s.sys.preLost k)).length ≥ 3)

/-- PREFECT_RESET_DONE: the core rejoins, and firmware assigns the services afresh. -/
def prefectDone (s : State) (k : Nat) : State :=
  if !tget false s.sys.preDown k then s
  else assignServices (rflag { s with sys := { s.sys with preDown := tset false s.sys.preDown k false } } (prefectReg k) 8 true)

/-- MGT_WDOG has not been petted within LIMIT_MS (DEDUCED, log 75). -/
def wdogDue (s : State) : Bool :=
  flag (rget s wdogReg) 16 && decide ((s.now - s.sys.wdogFrom).toNat ≥ fld (rget s wdogReg) 0 16 * 1000000)
def wdogPet (s : State) : State := { s with sys := { s.sys with wdogFrom := s.now } }

/-- EVT_PORT_HANG, and the port's reset when AUTO_PORT is 1 (R351). -/
def portHang (s : State) (p : Nat) : State :=
  if fld (rget s hangCfg) 24 8 = 0 ∨ !flag (rget s (portStatus p)) 4 ∨ !portLive s p then s
  else
    let s := portEvent s 0x0035 p 0
    if flag (rget s hangCfg) 33 then request s 1 p else s

/-- MGT_QUIET.DIE_REQ (R358). -/
def dieReq (s : State) (mask : BitVec 8) : State := (List.range 8).foldl (fun s d => if flag mask d then dieFault s d 1 else s) s

def rcAck (s : State) (k : Nat) : State := rflag s (rcReg k) 16 false

def execTileReset (t : TileNo) (s : State) : Host.Outcome State Fault Refusal := .next (request s 0 t)
def execTileResetDone (t : TileNo) (s : State) : Host.Outcome State Fault Refusal := .next (tileResetDone s t)
def execTileResetTimeout (t : TileNo) (s : State) : Host.Outcome State Fault Refusal := .next (tileResetTimeout s t)
def execEngineHang (t : TileNo) (q : Fin 6) (s : State) : Host.Outcome State Fault Refusal := .next (engineHang s t q.val)
def execMonitorHeartbeatLoss (d : DieNo) (core : Fin 2) (s : State) : Host.Outcome State Fault Refusal := .next (monitorLoss s d core.val)
def execPrefectResetDone (k : Fin 16) (s : State) : Host.Outcome State Fault Refusal := .next (prefectDone s k.val)
def execWdogPet (s : State) : Host.Outcome State Fault Refusal := .next (wdogPet s)
def execEvtPortHang (p : PortNo) (s : State) : Host.Outcome State Fault Refusal := .next (portHang s p)
def execDieReq (mask : BitVec 8) (s : State) : Host.Outcome State Fault Refusal := .next (dieReq s mask)
def execReportCardCapture (sc : Scope) (s : State) : Host.Outcome State Fault Refusal := .next (captureNow s sc)
def execRcAck (k : Fin 9) (s : State) : Host.Outcome State Fault Refusal := .next (rcAck s k.val)
def execPortReset (p : PortNo) (s : State) : Host.Outcome State Fault Refusal := .next (request s 1 p)
def execDieReset (d : DieNo) (s : State) : Host.Outcome State Fault Refusal := .next (request s 2 d)
def execDieResetDone (d : DieNo) (s : State) : Host.Outcome State Fault Refusal := .next (dieResetDone s d)
def execDieControlUncorrectable (d : DieNo) (s : State) : Host.Outcome State Fault Refusal := .next (dieFault s d 6)
/-- Training of a port ends; with it a port reset. A port that fails it stays DOWN with its warning (R404, R409). -/
def execPortTrained (p : PortNo) (ok : Bool) (s : State) : Host.Outcome State Fault Refusal :=
  .next (if portState s p = 1 then
    portResetDone (if ok then setPort s p { portAt s p with trained := true } else portWarning (setPortState s p 0) p) p else s)

end Sys2Proof.Machine
end

