-- ==== Sys2Proof/Machine/Power.lean ====
section
/-! DEFINITION. The calibration store (R405, R406), the module reset (R361, R362), power-up (R403, R404, R411), loss of power
(R412, R413), power caps (R415, R416) and the thermal and coolant limits (R418). -/
namespace Sys2Proof.Machine

def pwrCap : Nat := mgtBlk + 0x900
def pwrStatus : Nat := mgtBlk + 0x908
def thermReg : Nat := mgtBlk + 0x910
def coolReg : Nat := mgtBlk + 0x918

/-! ### The calibration store -/

def calSize : Nat := 0x100000

/-- The body of an image, bytes 0x40 on: trims and seeds, and zero from 0x5_D000 (R406's table). -/
def calBody (l : List Byte) : List Byte := (List.range (calSize - 64)).map (fun k => if k + 64 < 0x5D000 then l.getD k 0 else 0)

/-- An image: its header with ORIGIN, WRITES, serial, time and the CRC of its body, and its body (18_host_bringup_calibration; DEDUCED, log 76). -/
def calRecord (origin writes time : Nat) (body : List Byte) : List Byte :=
  leBytes 8 (0x53564341 + 2 ^ 32 + origin * 2 ^ 40 + writes * 2 ^ 48) ++ leBytes 8 Config.serial.toNat ++ leBytes 8 time ++
    leBytes 8 (crc32c body) ++ List.replicate 32 0 ++ body

/-- The factory image. -/
def factoryImage : List Byte := calRecord 0 Config.factoryWrites.toNat Config.factoryTime.toNat (calBody Config.factoryCal)

/-- The store as it reads; a store that is being programmed, or whose programming lost power, reads free bytes (DEDUCED, log 76). -/
def calBytes (s : State) : List Byte :=
  if s.sys.calTorn then (List.range calSize).map (fun k => BitVec.ofNat 8 (fld (Config.freeWord (s.free * 2 ^ 32 + k / 8)) (8 * (k % 8)) 8))
  else if s.sys.calWritten then (List.range calSize).map (fun k => tget 0 s.sys.cal k)
  else factoryImage

/-- MAGIC, VERSION, serial and CRC of an image are those of this module. -/
def calImageOk (l : List Byte) : Bool :=
  decide (wfld l 0 0 32 = 0x53564341 ∧ wfld l 0 32 8 = 1 ∧ wfld l 1 0 64 = Config.serial.toNat ∧ wfld l 3 0 32 = crc32c (l.drop 64))

/-- The store passes its check at stage 3. -/
def calGood (s : State) : Bool := !s.sys.calTorn && calImageOk (calBytes s)

/-- WRITES of the stored header. -/
def calWrites (s : State) : Nat := wfld (calBytes s) 0 48 16

/-- An image as it is programmed: WRITES counts one on, and the time is that of the write (DEDUCED, log 76). -/
def calImage (s : State) (origin : Nat) (body : List Byte) : List Byte := calRecord origin (calWrites s + 1) s.now.toNat body

/-- A calibration command is running. -/
def calBusy (s : State) : Bool := s.sys.calJob.isSome

/-- The store is erased and programming begins. -/
def calProgram (s : State) (j : CalJob) : State := rflag { s with sys := { s.sys with calJob := some j, calTorn := true } } mgtStatus 7 true

/-- CAL_WRITE of an image, by either path; the status in which it ends, none where programming begins (DEDUCED, log 76). -/
def calWrite (s : State) (image : List Byte) : State × Option (BitVec 16) :=
  if calBusy s then (s, some 0x0163)
  else if calWrites s ≥ 10000 then (s, some 0x0164)
  else if image.length ≠ calSize ∨ !calImageOk image then (s, some 0x0162)
  else (calProgram s { image := calImage s (wfld image 0 40 2) (image.drop 64), origin := BitVec.ofNat 2 (wfld image 0 40 2) }, none)

/-- CAL_CAPTURE: the values that the last bring-up's self-calibration produced, with ORIGIN 2 (DEDUCED, log 76). -/
def calCapture (s : State) : State × Option (BitVec 16) :=
  if calBusy s then (s, some 0x0163)
  else if calWrites s ≥ 10000 then (s, some 0x0164)
  else
    (calProgram s { image := calImage s 2 (calBody (Config.selfCalibration s.sys.bringups)), origin := 2 }, none)

/-- Programming finishes: the store holds the image and CAL_PENDING sets (DEDUCED, log 76). -/
def calDone (s : State) : State :=
  match s.sys.calJob with
  | none => s
  | some j =>
    let cells := (j.image.zip (List.range j.image.length)).foldl (fun m (v, k) => tset 0 m k v) []
    let s := { s with sys := { s.sys with calJob := none, calTorn := false, calWritten := true, cal := cells } }
    endWhere (rflag (rflag s mgtStatus 7 false) mgtStatus 6 true) (fun r => decide (r.op = 0x31 ∨ r.op = 0x32)) 0 0

/-! ### What a module reset and a loss of power clear (R361, R412) -/

/-- The byte lies in a Report Card area, which a scrub skips. -/
def cardByte (a : Nat) : Bool :=
  (List.range 8).any (fun d => decide (cardArea d ≤ a ∧ a < cardArea d + 0x100000)) || decide (cardMirror 0 ≤ a ∧ a < moduleCard + 0x80000)

/-- Register bits that are not stored: levels that a sensor or a link shows, and the three bits of the management domain
(R407, R420; DEDUCED, log 72). -/
def liveBits (a : Nat) : Nat :=
  if a = pwrStatus then bmask 0 28 + bmask 40 1
  else if a = thermReg then bmask 0 24 + bmask 32 1
  else if a = coolReg then bmask 0 32 + bmask 33 2
  else 0

/-- Registers after a reset: their reset values, and the bits in `keep` as they were. -/
def keepRegs (s : State) (keep : Nat → Nat) : Tab (BitVec 64) :=
  s.regs.foldl (fun t e =>
    let m := BitVec.ofNat 64 (keep e.1)
    tset (regReset e.1) t e.1 ((regReset e.1 &&& ~~~m) ||| (e.2 &&& m))) []

/-- Everything that neither power nor a module reset keeps is gone: what stays is the host's memory, the contents of save images (an image
that the host copied out restores bit for bit, R131), the Archive, the calibration store, the management domain and the given memory and registers (DEDUCED, log 72). -/
def clearAll (s : State) (m : Mem) (regs : Tab (BitVec 64)) : State :=
  { pending := s.pending, now := s.now, free := s.free, m := m, regs := regs, saves := s.saves,
    host := { mem := s.host.mem, msix := s.host.msix, oob := s.host.oob }, ward := { sets := s.ward.sets }, archive := s.archive, reply := s.reply,
    sys := { inputOk := s.sys.inputOk, aux := s.sys.aux, modEn := s.sys.modEn, rails := s.sys.rails, pwrgd := s.sys.pwrgd,
             disconnected := s.sys.disconnected, portConfig := s.sys.portConfig, jtag := s.sys.jtag, fwStaged := s.sys.fwStaged, fwGood := s.sys.fwGood,
             bringups := s.sys.bringups, cal := s.sys.cal, calWritten := s.sys.calWritten, calTorn := s.sys.calTorn, calJob := s.sys.calJob,
             standby := s.sys.standby, leakOff := s.sys.leakOff, temp := s.sys.temp, assign := s.sys.assign } }

/-- MGT_STATUS.STAGE. -/
def stageOf (s : State) : Nat := fld (rget s mgtStatus) 1 4
def bootErr (s : State) : Nat := fld (rget s mgtStatus) 8 8

/-- EXTEST is accepted only below stage 3; from there on it behaves as BYPASS (R402; DESIGN CHOICE, log 85). -/
def leaveExtest (s : State) : State := if s.sys.jtag = 0 then { s with sys := { s.sys with jtag := 15 } } else s

/-- A module reset clears the module and starts at stage 3, or at stage 1 where the rails are off, with a staged firmware image activated
(R361, R401, R403). It stays quiet until READY, as a die does until its reset completes (DEDUCED, log 72). -/
def resetModule (s : State) : State :=
  let m : Mem := { cells := s.m.cells.filter (fun e => cardByte e.1), poison := s.m.poison.filter (fun e => cardByte e.1) }
  let keep (a : Nat) : Nat := if a = quietReg then 0x1FF else if a = whyReg then bmask 0 36 else if a = hstBlk + 8 then 3 else liveBits a
  let s := clearAll s m (keepRegs s keep)
  let s := { s with sys := { s.sys with modReset := true, fwGood := s.sys.fwStaged.getD s.sys.fwGood, fwStaged := none } }
  let s := rflag (rfld s mgtStatus 1 4 (if s.sys.rails then 3 else 1)) mgtStatus 7 (calBusy s)
  setBusy (setRequest (if s.sys.rails then leaveExtest s else s) 3 0 1)

/-- The module is powered or powering up (DESIGN CHOICE, log 63). -/
def powered (s : State) : Bool := s.sys.rails || decide (stageOf s ≠ 0)

/-- The module becomes quiet, its Report Card is collected, and it is reset, the smaller resets abandoned with it (R359, R363). -/
def beginModuleReset (s : State) : State := resetModule (if s.sys.rails then collect (quietModule s 1) 3 0 else quietModule s 1)

/-- A module reset is requested: absorbed after a reset that failed (R362) and while one runs that neither a failed stage (R404) nor a new
cause holds up; waiting while the input is out of range (R412); nothing resets a module in Standby or Off (DEDUCED, log 70; DEDUCED, log 72). -/
def requestModule (s : State) : State :=
  if !powered s && (decide (bootErr s = 0) || !s.sys.modEn) then s
  else if s.sys.resetFailed || (s.sys.modReset && decide (bootErr s = 0 ∧ tget 0 s.sys.newQuiet 8 = 0)) then setRequest s 3 0 2
  else if !s.sys.inputOk then setRequest { s with sys := { s.sys with modWait := true } } 3 0 3
  else beginModuleReset s

/-- The input is back in range: a module reset that waited for it begins (R412). -/
def inputBack (s : State) : State :=
  let s := { s with sys := { s.sys with inputOk := true } }
  if s.sys.modWait then beginModuleReset { s with sys := { s.sys with modWait := false } } else s

/-- A cause that makes the module quiet, and its reset when AUTO_MODULE is 1 (R362; DEDUCED, log 70). -/
def moduleFault (s : State) (reason : Nat) : State :=
  if (moduleQuiet s && !s.sys.modReset) || decide (tget 0 s.sys.newQuiet 8 ≠ 0) then s
  else
    let s := quietModule s reason
    if flag (rget s hangCfg) 35 then requestModule s else s

/-- A write of MGT_HANG_CFG resets the scopes that are quiet already and whose AUTO bit is 1; a failed stage, Standby, a leak and a failed
reset have ways out of their own (R362, R404, R413, R418; DEDUCED, log 70). -/
def autoResets (s : State) : State :=
  let s := (s.tiles.map (·.1)).foldl autoTile s
  let s := (List.range 8).foldl autoDie s
  if flag (rget s hangCfg) 35 && moduleQuiet s && !s.sys.modReset && !s.sys.modWait && !s.sys.standby && !s.sys.leakOff &&
      !s.sys.resetFailed && decide (bootErr s = 0) then requestModule s
  else s

/-- READY has not come within 20 s of a module reset: the module stays quiet with FAILED (R362). -/
def moduleResetTimeout (s : State) : State :=
  if !s.sys.modReset || ready s || s.sys.resetFailed then s
  else raiseHealth (rflag { s with sys := { s.sys with resetFailed := true } } resetStatus 16 true) 0x74 3 0 0

/-- A die reset that has not completed within 3 s (R362). -/
def dieResetTimeout (s : State) (d : Nat) : State :=
  if s.sys.dieReset ≠ some d then s
  else moduleFault (raiseHealth (rflag s resetStatus 16 true) 0x74 2 d 0) 3

/-- Loss of the module's power: every volatile store is lost, and module time with it; a calibration write is cut off (DEDUCED, log 72). -/
def powerOff (s : State) : State :=
  let s' := clearAll s {} (keepRegs s liveBits)
  { s' with now := Config.freeWord s.free, free := s.free + 1,
            sys := { s'.sys with rails := false, pwrgd := false, portConfig := false, calJob := none, standby := false, leakOff := false, temp := [] } }

/-- Loss of the auxiliary rail: the management domain too (DEDUCED, log 72). -/
def auxOff (s : State) : State :=
  let s := powerOff s
  { s with regs := [], host := { s.host with oob := [] }, sys := { s.sys with aux := false, inputOk := false } }

/-! ### Power-up (R403, R404) -/

/-- A stage fails: BOOT_ERR and BOOT_UNIT, and the Quiet State with no reason. -/
def bootFail (s : State) (err unit : Nat) : State :=
  let s := rfld (rfld s mgtStatus 8 8 err) mgtStatus 16 8 unit
  rfld (quietModule s 0) whyReg 32 4 0

/-- A power-up that begins leaves what an earlier one recorded of its failure (R404; DEDUCED, log 77). -/
def newBoot (s : State) : State :=
  if bootErr s = 0 then s else rfld (rfld (rfld (rfld s mgtStatus 8 8 0) mgtStatus 16 8 0) quietReg 0 9 0) whyReg 0 36 0

/-- Stage 2 starts, unless the leak sensor is wet (R418; DEDUCED, log 77). -/
def startStage2 (s : State) : State :=
  let s := newBoot s
  if flag (rget s coolReg) 33 then bootFail s 2 0xFF
  else rfld { s with sys := { s.sys with rails := true } } mgtStatus 1 4 2

/-- What is quiet once READY sets: after a module reset the dies on which a new cause has fallen, and otherwise the dies that have become
quiet during power-up, which only their own reset ends (R358, R361, R416). -/
def quietAfter (s : State) : State :=
  if s.sys.modReset then
    let s := rfld (rfld s quietReg 8 1 0) whyReg 32 4 0
    let s := (List.range 8).foldl (fun s d =>
      let why := tget 0 s.sys.newQuiet d
      rflag (rfld s whyReg (4 * d) 4 why) quietReg d (decide (why ≠ 0))) s
    raiseHealth (setResult (setBusy { s with sys := { s.sys with modReset := false, newQuiet := [] } }) 3 0 0) 0x73 3 0 0
  else s

/-- READY: firmware runs (DESIGN CHOICE, log 74). -/
def setReady (s : State) : State :=
  let n := s.sys.bringups + 1
  let s := { s with sys := { s.sys with bringups := n, wdogFrom := s.now } }
  let s := (List.range 16).foldl (fun s k => rflag s (prefectReg k) 8 true) s
  let s := assignServices (rflag s wdogReg 16 true)
  let s := rfld s mgtBlk 32 32 (Config.firmwareId n).toNat
  (List.range 8).foldl autoDie (quietAfter (rfld s mgtStatus 0 5 0x1F))

/-- The stage that runs is complete; a module that has become quiet meanwhile goes no further (DEDUCED, log 77). -/
def stageDone (s : State) : State :=
  if bootErr s ≠ 0 ∨ s.sys.resetFailed ∨ s.sys.standby ∨ s.sys.leakOff ∨ (moduleQuiet s && !s.sys.modReset) ∨ tget 0 s.sys.newQuiet 8 ≠ 0 then s
  else
    match stageOf s with
    | 0 => s
    | 1 => startStage2 s
    | 2 => leaveExtest (rfld { s with sys := { s.sys with pwrgd := true } } mgtStatus 1 4 3)
    | 3 => rfld (rflag s mgtStatus 5 (!calGood s)) mgtStatus 1 4 4
    | 8 => if s.sys.fwGood then setReady s else bootFail s 9 0
    | 15 => s
    | n => rfld s mgtStatus 1 4 (n + 1)

/-- A port fails its PHY calibration at stage 5: it stays DOWN until the next one, with a warning (R404). -/
def phyFail (s : State) (p : Nat) : State :=
  if p ≥ 36 then s else portWarning (portDown { s with sys := { s.sys with phyBad := tset false s.sys.phyBad p true } } p) p

/-- A stage exceeds its limit or fails. A port that fails its calibration at stage 5 is a warning (R404; DEDUCED, log 77). -/
def bootTimeout (s : State) (err unit : Nat) : State :=
  let st := stageOf s
  if st = 0 ∨ st = 15 ∨ bootErr s ≠ 0 ∨ s.sys.resetFailed then s
  else if err = 0 then (if st = 5 then phyFail s unit else s)
  else if err = st ∨ (err = 9 ∧ st = 8) then bootFail s err unit
  else s

/-- The input is in range and MOD_EN high: stage 1, where the module has no power (R411, R412; DEDUCED, log 77). -/
def powerUp (s : State) : State :=
  let s := inputBack { s with sys := { s.sys with modEn := true, disconnected := false } }
  if powered s then s else rfld (newBoot s) mgtStatus 1 4 1

/-- Input below 48.0 V for 50 µs: UV, and the Quiet State with reason 7; the rails stay up (R412). -/
def undervoltage (s : State) : State :=
  let s := { s with sys := { s.sys with inputOk := false } }
  if powered s then moduleFault (rflag s pwrStatus 40 true) 7 else s
def below44 (s : State) : State :=
  let s := { s with sys := { s.sys with inputOk := false } }
  if powered s then powerOff s else s
def overvoltage (s : State) : State := let s := auxOff s; { s with sys := { s.sys with disconnected := true } }
/-- The auxiliary rail comes up with the management domain. -/
def auxUp (s : State) : State := { s with sys := { s.sys with aux := true, disconnected := false } }

/-- MOD_EN low for 1 ms; the rails go off 100 ms later (R413; DEDUCED, log 77). -/
def modEnLow (s : State) : State :=
  let s := { s with sys := { s.sys with modEn := false } }
  if powered s then { quietModule s 1 with sys := { (quietModule s 1).sys with standby := true } } else s
def modEnHigh (s : State) : State :=
  let s := { s with sys := { s.sys with modEn := true } }
  if powered s || !s.sys.inputOk then s else startStage2 s
def standbyOff (s : State) : State :=
  if !s.sys.standby then s
  else
    let s := powerOff s
    if s.sys.modEn && s.sys.inputOk then startStage2 s else s

/-! ### Clocks (R415, R418) -/

/-- THROTTLED: the dies that run below the clock that software requested. -/
def noteThrottle (s : State) : State :=
  (List.range 8).foldl (fun s d => rflag s pwrStatus (32 + d) (decide (clkOf s d < clkReq s d))) s

/-- A limit goes one step of 25 MHz down, to 0.8 GHz. -/
def stepDown (m : Tab Nat) (d req : Nat) : Tab Nat := tset 100000 m d (Nat.max 800 (Nat.min (clkLimit m d) req - 25))
/-- A limit goes one step up, and is gone once it has reached the clock that software requested. -/
def stepUp (m : Tab Nat) (d req : Nat) : Tab Nat := tset 100000 m d (if clkLimit m d + 25 ≥ req then 100000 else clkLimit m d + 25)

/-- What a die's cap lacks of DIE_W, in eighths of a watt, after one more millisecond: it grows by the die's share of the excess for as long
as the total is above MODULE_W, and shrinks by its share of what is free once the total is below 95 % of it (R415; DESIGN CHOICE, log 78). -/
def cutNext (cut lim total full : Nat) : Nat :=
  if total > lim then Nat.min full (cut + (total - lim)) else if 100 * total < 95 * lim then cut - (lim - total) else cut

/-- One millisecond of a die's power cap. The cap is DIE_W less what the excess over MODULE_W has taken from it; a die over it slows by
25 MHz, a die below 95 % of it rises. At 0.8 GHz it inserts idle cycles, which change no value (DEDUCED, log 78). -/
def capStep (s : State) (d watts total : Nat) : State :=
  let lim := fld (rget s pwrCap) 16 13
  let full := 8 * fld (rget s pwrCap) 0 10
  let cut := cutNext (tget 0 s.sys.cut d) lim total full
  let cap := full - cut
  let cuts := tset 0 s.sys.cut d cut
  let clk := if 8 * watts > cap then stepDown s.sys.clkCap d (clkReq s d)
    else if 100 * (8 * watts) < 95 * cap then stepUp s.sys.clkCap d (clkReq s d) else s.sys.clkCap
  let s := { s with sys := { s.sys with cut := cuts, clkCap := clk } }
  noteThrottle (rflag (rfld s pwrStatus 0 16 total) pwrStatus 42 (decide (total > lim) || !cuts.isEmpty))

/-! ### Rails and sensors (R416, R418) -/

/-- Overcurrent of rail 0 to 7 (a compute die's) or 8, 9 (an I/O die's). -/
def overcurrent (s : State) (rail : Nat) : State :=
  let s := rflag s pwrStatus 41 true
  if rail < 8 then dieFault s rail 7 else moduleFault s 7

/-- The hardware trip: rails off with no Report Card, and TRIP in the management domain. -/
def trip (s : State) : State := if s.sys.rails then rflag (powerOff s) thermReg 32 true else s

/-- Highest of the readings under keys in [lo, lo + n). -/
def hottest (s : State) (lo n : Nat) : Nat := (upto lo n).foldl (fun m k => Nat.max m (tget 0 s.sys.temp k)) 0

def noteTemp (s : State) (k c lo n place : Nat) : State :=
  let s := { s with sys := { s.sys with temp := tset 0 s.sys.temp k c } }
  rfld s thermReg place 8 (hottest s lo n)

/-- A die's hottest junction: the throttle, from THROTTLE_C until 2 K below, and the Quiet State at 105 °C (DEDUCED, log 78). -/
def dieReading (s : State) (d c : Nat) : State :=
  let s := noteTemp s d c 0 8 0
  let t := fld (rget s thermReg) 24 8
  let hot := decide (c ≥ t) || (tget false s.sys.hot d && decide (c + 2 > t))
  let clk := if hot then stepDown s.sys.clkHeat d (clkReq s d) else stepUp s.sys.clkHeat d (clkReq s d)
  let s := noteThrottle { s with sys := { s.sys with hot := tset false s.sys.hot d hot, clkHeat := clk } }
  if c ≥ 105 then dieFault s d 7 else s

def stackReading (s : State) (d k c : Nat) : State :=
  let i := 4 * d + k
  let s := noteTemp s (16 + i) c 16 32 8
  let s := { s with sys := { s.sys with refresh2 := tset false s.sys.refresh2 i (decide (c ≥ 85)) } }
  if c ≥ 95 then dieFault s d 7 else s

/-- A hot I/O die, which has no Quiet State of its own, makes the module quiet (R13, R418; DEDUCED, log 78). -/
def ioReading (s : State) (c : Nat) : State :=
  let s := noteTemp s 8 c 8 1 16
  if c ≥ 105 then moduleFault s 7 else s

/-- A reading taken each millisecond. Any junction at 115 °C trips (DEDUCED, log 78). -/
def sensorReading (s : State) : Reading → State
  | .die d c => if c ≥ 115 then trip s else dieReading s d.val c
  | .io c => if c ≥ 115 then trip s else ioReading s c
  | .stack d k c => if c ≥ 115 then trip s else stackReading s d.val k.val c
  | .coolant flow inlet outlet =>
    let s := rfld (rfld (rfld s coolReg 0 16 flow) coolReg 16 8 inlet) coolReg 24 8 outlet
    if outlet ≤ 60 ∧ flow ≥ 800 then noteThrottle (rflag s coolReg 32 false) else s
  | .input w v =>
    let s := rfld (rfld s pwrStatus 0 16 w) pwrStatus 16 12 v
    if powered s && decide (500 ≤ v ∧ v ≤ 580) then inputBack s else s
  | .dry => rflag s coolReg 33 false

/-- Outlet above 60 °C or flow below 8 L/min for 1 s (DEDUCED, log 78). -/
def lowFlow (s : State) : State :=
  if fld (rget s coolReg) 24 8 > 60 ∨ fld (rget s coolReg) 0 16 < 800 then
    noteThrottle (rflag s coolReg 32 true)
  else s

def flowFailure (s : State) : State := if fld (rget s coolReg) 0 16 < 400 ∧ s.sys.rails then moduleFault s 7 else s

/-- A leak: the Quiet State and the Report Card; the rails go off 5 ms later. -/
def leak (s : State) : State :=
  let s := rflag (rflag s coolReg 33 true) coolReg 34 true
  if s.sys.rails then
    let s := collect (quietModule s 7) 3 0
    { s with sys := { s.sys with leakOff := true } }
  else s

def execCalWriteDone (s : State) : Host.Outcome State Fault Refusal := .next (calDone s)
def execModuleReq (s : State) : Host.Outcome State Fault Refusal := .next (moduleFault s 1)
def execDieResetTimeout (d : DieNo) (s : State) : Host.Outcome State Fault Refusal := .next (dieResetTimeout s d)
def execModuleReset (s : State) : Host.Outcome State Fault Refusal := .next (requestModule s)
def execModuleResetTimeout (s : State) : Host.Outcome State Fault Refusal := .next (moduleResetTimeout s)
def execEvtPrefectLost (k : Fin 16) (s : State) : Host.Outcome State Fault Refusal :=
  .next (if flag (rget s (prefectReg k.val)) 8 then
    (if ioDieLost (losePrefect s k.val) k.val then moduleFault (losePrefect s k.val) 5 else losePrefect s k.val) else s)
def execWdogExpiry (s : State) : Host.Outcome State Fault Refusal := .next (if wdogDue s then moduleFault s 4 else s)
def execPowerUp (s : State) : Host.Outcome State Fault Refusal := .next (powerUp s)
def execPowerUpStageDone (s : State) : Host.Outcome State Fault Refusal := .next (stageDone s)
def execBootStageTimeout (err unit : BitVec 8) (s : State) : Host.Outcome State Fault Refusal := .next (bootTimeout s err.toNat unit.toNat)
def execInputUndervoltage (s : State) : Host.Outcome State Fault Refusal := .next (undervoltage s)
def execInputBelow44v (s : State) : Host.Outcome State Fault Refusal := .next (below44 s)
def execInputBelow40v (s : State) : Host.Outcome State Fault Refusal := .next (auxOff s)
def execInputOvervoltage (s : State) : Host.Outcome State Fault Refusal := .next (overvoltage s)
def execAuxRailUp (s : State) : Host.Outcome State Fault Refusal := .next (auxUp s)
def execModEnLow (s : State) : Host.Outcome State Fault Refusal := .next (modEnLow s)
def execStandbyRailsOff (s : State) : Host.Outcome State Fault Refusal := .next (standbyOff s)
def execModEnHigh (s : State) : Host.Outcome State Fault Refusal := .next (modEnHigh s)
def execPowerCapStep (d : DieNo) (watts moduleWatts : Nat) (s : State) : Host.Outcome State Fault Refusal := .next (capStep s d watts moduleWatts)
def execOcp (rail : Fin 10) (s : State) : Host.Outcome State Fault Refusal := .next (overcurrent s rail.val)
def execThermalReading (r : Reading) (s : State) : Host.Outcome State Fault Refusal := .next (sensorReading s r)
def execThermalTrip (s : State) : Host.Outcome State Fault Refusal := .next (trip s)
def execLowFlow (s : State) : Host.Outcome State Fault Refusal := .next (lowFlow s)
def execFlowFailure (s : State) : Host.Outcome State Fault Refusal := .next (flowFailure s)
def execLeakDetected (s : State) : Host.Outcome State Fault Refusal := .next (leak s)
def execLeakRailsOff (s : State) : Host.Outcome State Fault Refusal := .next (if s.sys.leakOff then powerOff s else s)

end Sys2Proof.Machine
end

