-- ==== Sys2Proof/Machine/Rooms.lean ====
section
/-! DEFINITION. Classrooms, contexts, the slot table, switches and Study Hall (R368 to R377), and CTX_SET and CTX_GO. -/
namespace Sys2Proof.Machine

/-! ### Registers and resources (R368, R372, R378) -/

def roomReg (c k : Nat) : Nat := clsBlk + 0x100 + 32 * c + k
def slotReg (c k : Nat) : Nat := clsBlk + 0x1000 + 256 * c + 8 * k
def ctxReg (n k : Nat) : Nat := clsBlk + 0x2000 + 32 * n + k
def isSplit (s : State) (d : Nat) : Bool := flag (splitMask s) d
/-- Classroom 2d + 1 of a joined die is ignored. -/
def roomIgnored (s : State) (c : Nat) : Bool := decide (c % 2 = 1) && !isSplit s (c / 2)
/-- Tiles of a Classroom in local-index order. -/
def roomTiles (s : State) (c : Nat) : List Nat :=
  if isSplit s (c / 2) then upto (c / 2 * 96 + c % 2 * 48) 48 else if c % 2 = 0 then upto (c / 2 * 96) 96 else []

def resident (s : State) (c : Nat) : Option Nat := let r := rget s (roomReg c 16); if flag r 9 then some (fld r 0 9) else none
def ctxValid (s : State) (n : Nat) : Bool := flag (rget s (ctxReg n 0)) 16
def ctxMask (s : State) (n : Nat) : Nat := fld (rget s (ctxReg n 0)) 0 16
def inMask (mask c : Nat) : Bool := mask.testBit c

/-- ERR of a Classroom. -/
def roomErr (s : State) (c : Nat) : State := rflag s (roomReg c 16) 16 true

/-- A slot of the table in force: its context where it is valid. -/
def activeSlot (s : State) (c k : Nat) : BitVec 64 := tget 0 s.rooms.table (32 * c + k)
def slotValid (v : BitVec 64) : Bool := flag v 9
def slotCtx (v : BitVec 64) : Nat := fld v 0 9
/-- Lowest valid slot of a context in the table in force. -/
def lowestSlot (s : State) (c n : Nat) : Option Nat := (List.range 32).find? (fun k => slotValid (activeSlot s c k) && decide (slotCtx (activeSlot s c k) = n))
def anySlot (s : State) (c : Nat) : Bool := (List.range 32).any (fun k => slotValid (activeSlot s c k))

/-- Writes of the slot table take effect from a module time (R371). -/
def loadTable (s : State) (c time : Nat) : State :=
  { s with rooms := { s.rooms with
      table := (List.range 32).foldl (fun t k => tset 0 t (32 * c + k) (rget s (slotReg c k))) s.rooms.table,
      cycleAt := tset none s.rooms.cycleAt c (some (BitVec.ofNat 64 time)) } }

/-- The quantum of a slot in ns, 0 where it is not valid. -/
def slotNs (s : State) (c k : Nat) : Nat := if slotValid (activeSlot s c k) then fld (activeSlot s c k) 10 10 * 100000 else 0
/-- The offset of a slot in the cycle; that of slot 32 is the cycle period P (R371). -/
def slotOffset (s : State) (c k : Nat) : Nat := (List.range k).foldl (fun n i => n + slotNs s c i) 0
def cyclePeriod (s : State) (c : Nat) : Nat := slotOffset s c 32
/-- The start of the cycle that module time lies in. -/
def cycleStart (s : State) (c : Nat) : Nat := s.now.toNat / cyclePeriod s c * cyclePeriod s c
/-- The slot that module time lies in, and its start: none where no slot is valid (R371). -/
def slotDue (s : State) (c : Nat) : Option (Nat × Nat) :=
  ((List.range 32).find? (fun k => decide (slotNs s c k ≠ 0 ∧ slotOffset s c k ≤ s.now.toNat - cycleStart s c ∧
    s.now.toNat - cycleStart s c < slotOffset s c k + slotNs s c k))).map (fun k => (k, cycleStart s c + slotOffset s c k))

/-- A cycle has begun since the table last took its writes. -/
def newCycle (s : State) (c : Nat) : Bool :=
  decide (cyclePeriod s c ≠ 0) && (match tget none s.rooms.cycleAt c with | some t => decide (t.toNat < cycleStart s c) | none => true)

/-- First byte of the save area of slot `k`. -/
def areaOf (s : State) (c k : Nat) : Nat := fld (rget s (roomReg c 8)) 12 36 * 4096 + k * (roomTiles s c).length * imageSize

/-- TILE_SAVE_BASE of every tile for the save area of a context. -/
def pointTiles (s : State) (c n : Nat) : State :=
  match lowestSlot s c n with
  | none => s
  | some k => ((roomTiles s c).zip (List.range (roomTiles s c).length)).foldl (fun s (t, i) =>
      s.onTile t (fun T => { T with saveBase := BitVec.ofNat 48 (areaOf s c k + i * imageSize) })) s

/-- TILE_CTX and the Bell range of a context in every tile of a Classroom (R370). -/
def nameTiles (s : State) (c n : Nat) : State :=
  let r := rget s (ctxReg n 0)
  (roomTiles s c).foldl (fun s t => s.onTile t (fun T =>
    { T with ctx := BitVec.ofNat 9 n, bellBase := BitVec.ofNat 16 (fld r 17 16), bellCount := BitVec.ofNat 17 (fld r 33 17) })) s

/-! ### Tallies (R377) -/

/-- An event tally of a context counts `n` ns; a wrap raises EVT_TALLY_WRAP with the register's address (R379). -/
def countCtx (s : State) (a n : Nat) (ctx : Nat) : State :=
  let (v, wrap) := tallyAdd (rget s a) n
  let s := rset s a v
  if wrap then raise s 0x0023 0 a [ctx] none else s

/-- RUN_NS of the resident context up to now. -/
def stopRun (s : State) (c : Nat) : State :=
  match resident s c, tget none s.rooms.runFrom c with
  | some n, some f =>
    let s := countCtx s (ctxReg n 8) (s.now - f).toNat n
    { s with rooms := { s.rooms with runFrom := tset none s.rooms.runFrom c none } }
  | _, _ => s
def startRun (s : State) (c : Nat) : State := { s with rooms := { s.rooms with runFrom := tset none s.rooms.runFrom c (some s.now) } }

/-! ### A switch (R373 to R375) -/

/-- RUN_NS of a context as it reads: with the time since the Classrooms in which it is resident were restored (R377). -/
def runNow (s : State) (n : Nat) : BitVec 64 :=
  (tallyAdd (rget s (ctxReg n 8)) ((List.range 16).foldl (fun k c =>
    match resident s c, tget none s.rooms.runFrom c with
    | some m, some f => if m = n then k + (s.now - f).toNat else k
    | _, _ => k) 0)).1

def switchOf (s : State) (c : Nat) : Option Switch := tget none s.rooms.switch c
def setSwitch (s : State) (c : Nat) (w : Option Switch) : State := { s with rooms := { s.rooms with switch := tset none s.rooms.switch c w } }
def sliceOf (s : State) (c : Nat) : Option (BitVec 9) := tget none s.rooms.slice c
def setSlice (s : State) (c : Nat) (x : Option (BitVec 9)) : State := { s with rooms := { s.rooms with slice := tset none s.rooms.slice c x } }

/-- What the pipeline Bells of a job hold on a Classroom's die (R244). -/
def pipeBells (s : State) (c : Nat) (n : BitVec 9) : List (BitVec 32) :=
  match jobOf s n.toNat with
  | some j => (List.range j.pipeCount).map (fun i => bellGet s (BitVec.ofNat 19 (c / 2 * 65536 + (j.pipeBell + i) % 65536)))
  | none => []
/-- A slice of Study Hall begins in the place of the job of context `n`. -/
def openSlice (s : State) (c : Nat) (n : BitVec 9) : State :=
  let s := setSlice s c (some n)
  { s with rooms := { s.rooms with sliceAt := tset 0 s.rooms.sliceAt c s.now, sliceBells := tset [] s.rooms.sliceBells c (pipeBells s c n) } }
/-- The slice is over: its time is no part of any wait of the job's tiles (R247). -/
def closeSlice (s : State) (c : Nat) : State :=
  let d := s.now - tget 0 s.rooms.sliceAt c
  let s := (roomTiles s c).foldl (fun s t => s.onTile t (fun T => { T with waits := T.waits.map (fun e => (e.1, e.2.map (· + d))) })) s
  setSlice s c none

/-- SWITCHING: a switch or a slice is in progress. -/
def setSwitching (s : State) (c : Nat) : State := rflag s (roomReg c 16) 15 ((switchOf s c).isSome || (sliceOf s c).isSome)

/-- The saved image of a context would be stale: its area has not been written since the context became valid (DEDUCED, log 79). -/
def areaFresh (s : State) (c n : Nat) : Bool :=
  match lowestSlot s c n with
  | some k => decide (tget 0 s.rooms.areaAt (32 * c + k) ≤ tget 0 s.rooms.validAt n)
  | none => true

/-- A Classroom's next switch, once its tiles are to be given to another context: RUN_NS stops and PREEMPT is written to every
tile; with no resident context there is nothing to save. -/
def beginSwitch (s : State) (c : Nat) (w : Switch) : State :=
  let s := stopRun s c
  let s := setSwitching (setSwitch s c (some w)) c
  match resident s c with
  | some n => (roomTiles s c).foldl tilePreempt (pointTiles s c n)
  | none => s

/-- The charge of a switch: SWITCH_NS of the incoming context, or of SH_CTX for Study Hall. -/
def chargeSwitch (s : State) (w : Switch) (n : Nat) (sh : Option Nat) : State :=
  let k := if w.study then sh.getD n else n
  countCtx s (ctxReg k 16) (s.now - w.start).toNat k

/-- SH_CTX of the job of a context. -/
def shOf (s : State) (n : Nat) : Option Nat := (jobOf s n).bind (fun j => if j.shEn then some j.shCtx else none)

/-- The incoming context becomes resident. -/
def becomeResident (s : State) (c n : Nat) : State := startRun (nameTiles (rfld (rfld s (roomReg c 16) 0 9 n) (roomReg c 16) 9 1 1) c n) c

/-- No context is resident: what the tiles held has been saved, or belonged to a context that is gone. -/
def noResident (s : State) (c : Nat) : State := setSwitching (setSwitch (rfld s (roomReg c 16) 0 10 0) c none) c

/-- Whether a slot of the table in force names another context than `n`: the switch to it (R375). -/
def dueSwitch (s : State) (c : Nat) (now : Option Nat) : Option Switch :=
  let v := activeSlot s c (fld (rget s (roomReg c 16)) 10 5)
  let inc := if ctxValid s (slotCtx v) then some (slotCtx v) else none
  if !slotValid v || decide (inc = now) then none
  else some { incoming := inc.map (BitVec.ofNat 9), start := (tget none s.rooms.slotAt c).getD s.now }

/-- The end of a switch: the context is resident, and is preempted at once where its slot, or its slice, has ended (DEDUCED, log 79). -/
def endSwitch (s : State) (c : Nat) (w : Switch) (n : Nat) : State :=
  let sh := if w.study then (match sliceOf s c with | some j => shOf s j.toNat | none => shOf s n) else none
  let s := chargeSwitch s w n sh
  let back := w.study && decide ((sliceOf s c).map (·.toNat) = some n)
  let s := if back then closeSlice s c else s
  let s := setSwitching (setSwitch (becomeResident s c n) c none) c
  match sliceOf s c with
  | some j => if w.ended then beginSwitch s c { incoming := some j, start := s.now, study := true } else s
  | none => match dueSwitch s c (some n) with | some x => beginSwitch s c x | none => s

/-- The incoming context's area is restored, or its tiles are reset where it is fresh. -/
def loadValid (s : State) (c : Nat) (w : Switch) (n : Nat) : State :=
  if areaFresh s c n then endSwitch ((roomTiles s c).foldl resetNow s) c w n
  else
    let s := pointTiles (nameTiles s c n) c n
    setSwitch ((roomTiles s c).foldl tileRestore s) c (some { w with restoring := true })

/-- The Classroom has no resident context; a slot that has started meanwhile switches at once (DEDUCED, log 79). -/
def idleRoom (s : State) (c : Nat) : State :=
  let s := noResident s c
  match dueSwitch s c none with
  | some w => (match w.incoming with | some i => loadValid (setSwitching (setSwitch s c (some w)) c) c w i.toNat | none => s)
  | none => s

/-- Step 2: the incoming context's area is restored, or its tiles are reset where it is fresh; an idle slot leaves the tiles
empty. -/
def loadIncoming (s : State) (c : Nat) (w : Switch) : State :=
  match w.incoming with
  | none => idleRoom s c
  | some i => if ctxValid s i.toNat then loadValid s c w i.toNat else idleRoom s c

/-- Step 1, and step 2 at once where there is nothing to save (DEDUCED, log 79). -/
def startSwitch (s : State) (c : Nat) (w : Switch) : State :=
  let s := beginSwitch s c w
  if (resident s c).isNone then loadIncoming s c w else s

/-- Some tile of the Classroom is quiet or in reset. -/
def roomHeld (s : State) (c : Nat) : Bool := (roomTiles s c).any (fun t => tileQuiet s t || (s.tile t).resetting || dieDead s (dieOf t))

/-- A switch that does not take place: the tiles already saved are restored, and the outgoing context stays resident. -/
def goBack (s : State) (c : Nat) (w : Switch) : State :=
  let s := setSwitch s c (some { w with back := true, restoring := true })
  (roomTiles s c).foldl (fun s t => if (s.tile t).saved && decide ((s.tile t).pre = .idle) then tileRestore s t else s) s

/-- A preemption is abandoned during a switch: the slot is lost (R374). -/
def slotLost (s : State) (c : Nat) (w : Switch) : State :=
  let r := roomReg c 16
  let s := rfld s r 32 16 (satAdd 16 (fld (rget s r) 32 16) 1)
  goBack (raise s 0x0080 c (fld (rget s r) 10 5) [] none) c w

/-- PREEMPT_LIMIT passes. -/
def limitExpiry (s : State) (t : Nat) : State :=
  let fires := decide ((s.tile t).pre = .asked ∧ (s.tile t).preLimit ≠ 0) && !tileQuiet s t
  let s := preemptExpiry s t
  match fires, switchOf s (roomOf s t) with
  | true, some w => if w.restoring then s else slotLost s (roomOf s t) w
  | _, _ => s

/-- SAVED sets; a switch that goes back restores the tile. -/
def savedTile (s : State) (t : Nat) : State :=
  let s := preemptSaved s t
  match switchOf s (roomOf s t) with
  | some w => if w.back && (s.tile t).saved && decide ((s.tile t).pre = .idle) then tileRestore s t else s
  | none => s

/-- SLOT_SAVE_DONE: every tile has SAVED set. Where a tile has become quiet or been reset instead, the Classroom stays with its
resident context (DEDUCED, log 79). -/
def saveDone (s : State) (c : Nat) : State :=
  match switchOf s c with
  | none => s
  | some w =>
    let ts := roomTiles s c
    if w.restoring || ts.any (fun t => decide ((s.tile t).pre = .asked ∨ (s.tile t).pre = .saving)) then s
    else if ts.all (fun t => (s.tile t).saved) && !roomHeld s c then
      let s := match (resident s c).bind (lowestSlot s c) with
        | some k => { s with rooms := { s.rooms with order := s.rooms.order + 1, areaAt := tset 0 s.rooms.areaAt (32 * c + k) (s.rooms.order + 1) } }
        | none => s
      loadIncoming s c w
    else goBack s c w

/-- After a switch that went back, a slot that has started meanwhile, or a slice that has ended, tries again (R374). -/
def tryAgain (s : State) (c : Nat) (w : Switch) : State :=
  match sliceOf s c with
  | some j => if w.ended then beginSwitch s c { incoming := some j, start := s.now, study := true } else s
  | none =>
    match dueSwitch s c (resident s c) with
    | some x => if !roomHeld s c && (w.ended || (!w.study && decide (x.start ≠ w.start))) then beginSwitch s c x else s
    | none => s

/-- SLOT_RESTORE_DONE: every tile has been restored (DEDUCED, log 79). -/
def restoreEnd (s : State) (c : Nat) : State :=
  match switchOf s c with
  | none => s
  | some w =>
    if !w.restoring || (roomTiles s c).any (fun t => decide ((s.tile t).pre ≠ .idle)) then s
    else if w.back then
      let s := if w.study && decide ((sliceOf s c).map (·.toNat) = resident s c) then closeSlice s c else s
      tryAgain (startRun (setSwitching (setSwitch s c none) c) c) c w
    else
      match w.incoming with
      | some n => if ctxValid s n.toNat then endSwitch s c w n.toNat else idleRoom ((roomTiles s c).foldl resetNow s) c
      | none => idleRoom s c

/-- SLOT_START of the slot that module time lies in, once for each of its starts: writes of the table take effect at a cycle start, and
a slot that names another context switches (R371, R373; DEDUCED, log 79). -/
def slotStart (s : State) (c k : Nat) : State :=
  if roomIgnored s c then s
  else
    let s := if newCycle s c then loadTable s c (cycleStart s c) else s
    match slotDue s c with
    | none => s
    | some (n, t) =>
      if n ≠ k ∨ (fld (rget s (roomReg c 16)) 10 5 = k ∧ tget none s.rooms.slotAt c = some (BitVec.ofNat 64 t)) then s
      else
        let s := rfld s (roomReg c 16) 10 5 k
        let s := { s with rooms := { s.rooms with slotAt := tset none s.rooms.slotAt c (some (BitVec.ofNat 64 t)) } }
        match switchOf s c, sliceOf s c with
        | some w, _ => if w.study then setSwitch s c (some { w with ended := true }) else s
        | none, some j => startSwitch s c { incoming := some j, start := s.now, study := true }
        | none, none =>
          match dueSwitch s c (resident s c) with
          | some w => if roomHeld s c then s else startSwitch s c w
          | none => s

/-! ### Study Hall (R244, R376) -/

/-- A bubble: every tile that the job has in the Classroom has empty queues but for waits on the job's pipeline Bells (R244; DEDUCED, log 79). -/
def isBubble (s : State) (c n : Nat) : Bool :=
  (roomTiles s c).all (fun t =>
    let T := s.tile t
    decide (T.ctx.toNat ≠ n) || (List.range 5).all (fun q => match (T.queue q).head? with | some i => pipeWait s T i | none => true))

/-- How long a bubble of the resident context has lasted, in ns: since a head last left a queue of one of its tiles, or since its
restore (R244, R376; DEDUCED, log 79). -/
def bubbleNs (s : State) (c n : Nat) : Nat :=
  (roomTiles s c).foldl (fun k t => if (s.tile t).ctx.toNat = n then Nat.min k (s.now - (s.tile t).headAt).toNat else k)
    (s.now - (tget none s.rooms.runFrom c).getD 0).toNat

/-- A bubble has lasted SH_THRESHOLD: SH_CTX runs on the Classroom. -/
def bubble (s : State) (c : Nat) : State :=
  match resident s c, switchOf s c, sliceOf s c with
  | some n, none, none =>
    match shOf s n with
    | some h =>
      if fld (rget s (roomReg c 0)) 0 16 ≠ 0 ∧ bubbleNs s c n ≥ fld (rget s (roomReg c 0)) 0 16 * 1000 ∧ !roomIgnored s c ∧ (lowestSlot s c h).isSome ∧ ctxValid s h ∧ h ≠ n ∧ !roomHeld s c ∧ isBubble s c n then
        startSwitch (openSlice s c (BitVec.ofNat 9 n)) c { incoming := some (BitVec.ofNat 9 h), start := s.now, study := true }
      else s
    | none => s
  | _, _, _ => s

/-- A slice is at its end: one of the job's pipeline Bells on the die has been rung, or the quantum of SH_CTX's lowest slot is over (R376;
DEDUCED, log 79). -/
def sliceOver (s : State) (c : Nat) (j : BitVec 9) : Bool :=
  decide (pipeBells s c j ≠ tget [] s.rooms.sliceBells c) ||
    (match (shOf s j.toNat).bind (lowestSlot s c) with
     | some k => decide ((s.now - tget 0 s.rooms.sliceAt c).toNat ≥ fld (activeSlot s c k) 10 10 * 100000)
     | none => true)

/-- A slice ends: the job is restored (DEDUCED, log 79). -/
def sliceEnd (s : State) (c : Nat) : State :=
  match switchOf s c, sliceOf s c with
  | some w, some j => if w.study && sliceOver s c j then setSwitch s c (some { w with ended := true }) else s
  | none, some j => if sliceOver s c j then startSwitch s c { incoming := some j, start := s.now, study := true } else s
  | _, none => s

/-! ### Configuration (R369 to R372) -/

/-- A write of SPLIT. -/
def splitWrite (s : State) (d : Nat) (v : Bool) : State :=
  if isSplit s d = v then s
  else if (List.range 512).any (fun n => ctxValid s n && (inMask (ctxMask s n) (2 * d) || inMask (ctxMask s n) (2 * d + 1))) then
    rflag s (clsBlk + 8 * d) 1 true
  else rflag s (clsBlk + 8 * d) 0 v

/-- Two contexts' masks share a die. -/
def sharesDie (a b : Nat) : Bool := (List.range 8).any (fun d => (inMask a (2 * d) || inMask a (2 * d + 1)) && (inMask b (2 * d) || inMask b (2 * d + 1)))

/-- The Bell range of a CLS_CTXn_CFG value, clipped at 65,536 (R133). -/
def bellRange (v : BitVec 64) : Nat × Nat := (fld v 17 16, Nat.min (fld v 33 17) (65536 - fld v 17 16))

/-- A CLS_CTXn_CFG value that is discarded (R370; DEDUCED, log 79). -/
def ctxBad (s : State) (n : Nat) (v : BitVec 64) : Bool :=
  (List.range 16).any (fun c => inMask (fld v 0 16) c && roomIgnored s c) ||
  (List.range 512).any (fun m => decide (m ≠ n) && ctxValid s m && sharesDie (fld v 0 16) (ctxMask s m) &&
    (let a := bellRange v; let b := bellRange (rget s (ctxReg m 0)); overlaps a.1 a.2 b.1 b.2))

/-- The tiles of a Classroom are reset, and no context is resident on it. -/
def emptyRoom (s : State) (c : Nat) : State := rfld ((roomTiles s c).foldl resetNow (stopRun s c)) (roomReg c 16) 0 10 0

/-- A destroyed context leaves a Classroom where it is resident. While another context is being restored the tiles are that one's; a slice
of Study Hall loses its job, or its SH_CTX and is over (DEDUCED, log 79). -/
def leaveRoom (s : State) (c n : Nat) : State :=
  if resident s c = some n then
    match switchOf s c with
    | some w =>
      if w.back then idleRoom (setSlice (emptyRoom s c) c none) c
      else if w.restoring then rfld s (roomReg c 16) 0 10 0
      else
        let job := decide ((sliceOf s c).map (·.toNat) = some n)
        loadIncoming (if job then setSlice (emptyRoom s c) c none else emptyRoom s c) c (if job then { w with incoming := none } else w)
    | none =>
      match sliceOf s c with
      | some j => startSwitch (emptyRoom s c) c { incoming := some j, start := s.now, study := true }
      | none => setSwitching (emptyRoom s c) c
  else if decide ((sliceOf s c).map (·.toNat) = some n) then
    let s := setSwitching (setSlice s c none) c
    match switchOf s c, dueSwitch s c (resident s c) with
    | none, some w => if roomHeld s c then s else startSwitch s c w
    | _, _ => s
  else s

/-- A context is destroyed: its Roster entries are evicted, its job ends, and the tiles on which it is resident are reset (R370; DEDUCED,
log 80). -/
def destroyCtx (s : State) (n : Nat) : State :=
  let s := setJob (evictTenant s n) n none
  let s := { s with rooms := { s.rooms with windows := tset [] s.rooms.windows n [] } }
  (List.range 16).foldl (fun s c => leaveRoom s c n) s

/-- A write of CLS_CTXn_CFG. -/
def ctxWrite (s : State) (n : Nat) (v : BitVec 64) : State :=
  if ctxBad s n v then roomErr s (((List.range 16).find? (inMask (fld v 0 16))).getD 0)
  else
    let was := ctxValid s n
    let s := rset s (ctxReg n 0) v
    if was && !flag v 16 then destroyCtx s n
    else if !was && flag v 16 then
      { s with rooms := { s.rooms with order := s.rooms.order + 1, validAt := tset 0 s.rooms.validAt n (s.rooms.order + 1) } }
    else s

/-- A write of a slot: it takes effect at the next cycle start, or at once where no slot is valid (R371; DEDUCED, log 79). -/
def slotWrite (s : State) (c k : Nat) (v : BitVec 64) : State :=
  if fld v 10 10 = 0 ∨ fld v 10 10 > 1000 ∨ !inMask (ctxMask s (slotCtx v)) c then roomErr s c
  else
    let s := rset s (slotReg c k) v
    if anySlot s c then s else loadTable s c s.now.toNat

/-- Stacked DRAM of a Classroom: its range of the interleaved view, and its stacks in the other, without their reserved tops. -/
def roomDram (s : State) (c : Nat) : List (Nat × Nat) :=
  let d := c / 2
  let split := isSplit s d
  let mine := if split then [2 * (c % 2), 2 * (c % 2) + 1] else [0, 1, 2, 3]
  (if split then (d * dramDie + c % 2 * 0x002800000000, 0x0027F8000000) else (d * dramDie, 0x004FF0000000)) ::
    mine.map (fun k => (niBase + d * dramDie + k * dramStack, 0x0013FC000000))

/-- A write of CLS_ROOMc_SAVE: the pool of 32 areas is sheet-aligned and lies wholly in the Classroom's own stacked DRAM; `low` are the
bits [11:0] as written (R372; DEDUCED, log 79). -/
def saveWrite (s : State) (c : Nat) (v : BitVec 64) (low : Nat) : State :=
  let b := fld v 12 36 * 4096
  let n := 32 * (roomTiles s c).length * imageSize
  if low ≠ 0 then roomErr s c
  else if (roomDram s c).any (fun r => decide (r.1 ≤ b ∧ b + n ≤ r.1 + r.2)) then rset s (roomReg c 8) (BitVec.ofNat 64 b) else roomErr s c

/-! ### CTX_SET and CTX_GO (R396, R397) -/

/-- Up to 8 windows of 16 bytes (DEDUCED, log 80). -/
def readWindows (s : State) (a : Nat) : List (Nat × Nat) :=
  let l := dmaRead s a 128
  ((List.range 8).map (fun i => (wfld l (2 * i) 0 48, wfld l (2 * i + 1) 0 64))).filter (fun w => decide (w.2 ≠ 0))

/-- CTX_SET. A context that is not VALID has no windows (DEDUCED, log 80). -/
def ctxSet (s : State) (c : HostCmd) : State :=
  let n := c.ctx.toNat
  let ws := readWindows s c.w2.toNat
  let bad := ctxBad s n c.w1
  let s := ctxWrite s.fresh n c.w1
  let s := if bad then s else { s with rooms := { s.rooms with windows := tset [] s.rooms.windows n (if flag c.w1 16 then ws else []) } }
  endNow s 0x20 c 0

/-- Tiles that CTX_GO starts: those of the context in the Classrooms of the mask, stopped and able to start (DEDUCED, log 80). -/
def goTiles (s : State) (n mask : Nat) : List Nat :=
  ((List.range 16).filter (fun c => inMask mask c && inMask (ctxMask s n) c && (decide (resident s c = some n) || (resident s c).isNone))).flatMap (fun c =>
    (roomTiles s c).filter (fun t => decide ((s.tile t).ctx.toNat = n) && ctlLive s t && !(s.tile t).run))

def ctxGo (s : State) (c : HostCmd) : State :=
  let n := cmdCtx c
  if !ctxValid s n || !inWindow s n c.w1.toNat 8 then endNow s 0x1A c 0x0161
  else
    let l := goTiles s n (fld c.w2 0 16)
    let s := l.foldl (fun s t => tileGo (s.onTile t (fun T => { T with pc := c.w1, entry := some c.w1, bwait := none, waits := tset none T.waits 5 none })) t) s
    endNow s 0x1A c 0 (BitVec.ofNat 64 l.length)

def execPreemptSaved (t : TileNo) (s : State) : Host.Outcome State Fault Refusal := .next (savedTile s t)
def execPreemptLimitExpiry (t : TileNo) (s : State) : Host.Outcome State Fault Refusal := .next (limitExpiry s t)
def execStudyHallBubble (c : Fin 16) (s : State) : Host.Outcome State Fault Refusal := .next (bubble s c.val)
def execStudyHallSliceEnd (c : Fin 16) (s : State) : Host.Outcome State Fault Refusal := .next (sliceEnd s c.val)
def execSlotStart (c : Fin 16) (slot : Fin 32) (s : State) : Host.Outcome State Fault Refusal := .next (slotStart s c.val slot.val)
def execSlotSaveDone (c : Fin 16) (s : State) : Host.Outcome State Fault Refusal := .next (saveDone s c.val)
def execSlotRestoreDone (c : Fin 16) (s : State) : Host.Outcome State Fault Refusal := .next (restoreEnd s c.val)
def execSplitWrite (d : DieNo) (split : Bool) (s : State) : Host.Outcome State Fault Refusal := .next (splitWrite s d split)
def execCtxSet (c : HostCmd) (s : State) : Host.Outcome State Fault Refusal :=
  .next (takeCmd s 0x20 c true [bmask 0 50, bmask 0 48] true (fun s => ctxSet s c))
def execCtxGo (c : HostCmd) (s : State) : Host.Outcome State Fault Refusal :=
  .next (takeCmd s 0x1A c false [bmask 3 45, bmask 0 16] true (fun s => ctxGo s c))

end Sys2Proof.Machine
end

