-- ==== Sys2Proof/Machine/Tally.lean ====
section
/-! DEFINITION. Roll Call (R384 to R388): arming, the latch of every tally into its shadow, and the acknowledgement. -/
namespace Sys2Proof.Machine

def rcTime : Nat := talBlk
def rcCtl : Nat := talBlk + 8
def rcStatus : Nat := talBlk + 0x10
def rcLatched : Nat := talBlk + 0x18

/-- Bits of a register that are a tally (R379): event tallies, and counters that stick (DEDUCED, log 81). -/
def tallyBits (a : Nat) : Nat :=
  let o := (a - mgtBlk) % 0x200000
  if a < mgtBlk then 0
  else
    match (a - mgtBlk) / 0x200000 with
    | 0 => if o = 0x810 then bmask 32 32 else if entryAt o 0x830 8 9 0 then bmask 20 8 else if entryAt o 0x100 8 16 0 then bmask 16 8 else 0
    | 1 => if o = 8 ∨ entryAt o 0x1000 64 513 0x38 then bmask 32 32 else 0
    | 5 => if entryAt o 0x100 32 16 16 then bmask 32 16
           else if entryAt o 0x2000 32 512 8 ∨ entryAt o 0x2000 32 512 16 ∨ entryAt o 0x2000 32 512 24 then bmask 0 64 else 0
    | 6 => if entryAt o 0x100 8 9 0 then bmask 0 64 else if o = 0x10 then bmask 24 8 else if entryAt o 0x1000 64 512 32 then bmask 0 32 else 0
    | _ => 0

/-- Offsets of the tallies of a tile page (R185, R209). -/
def tileTallies : List Nat := [0x608, 0x610, 0x618, 0x620, 0x628, 0x630]

/-- Every tally at once: the shadow of the tally at an address holds what its register holds (DEDUCED, log 81). -/
def latchAll (s : State) : Tab (BitVec 64) :=
  let blocks := s.regs.foldl (fun t e => tset 0 t e.1 (e.2 &&& BitVec.ofNat 64 (tallyBits e.1))) []
  let blocks := (List.range 16).foldl (fun t c => match resident s c with | some n => tset 0 t (ctxReg n 8) (runNow s n) | none => t) blocks
  s.tiles.foldl (fun t e => tileTallies.foldl (fun t o => tset 0 t (pageBase e.1 + o) ((pageRead s e.1 o).getD 0)) t) blocks

/-- ARM (R385): discarded with ARM_ERR over an unread snapshot; a time too close is moved, with LATE (DEDUCED, log 81). -/
def rcArm (s : State) (id : BitVec 16) (ow : Bool) : State :=
  if flag (rget s rcStatus) 18 && !ow then rflag s rcStatus 21 true
  else
    let s := rset s rcCtl (packBits [(0, id.toNat), (17, ow.toNat)])
    let t := rget s rcTime
    let soon := s.now + 5000
    let late := decide (t.toNat < s.now.toNat + 5000)
    let s := if late then rflag s rcStatus 19 true else s
    rflag { s with rollCall := some (if late then soon else t, id) } rcStatus 16 true

/-- The latch, once module time has reached the armed time; LOST is a counter that sticks (R379, R386; DEDUCED, log 81). -/
def rcLatch (s : State) : State :=
  match s.rollCall with
  | none => s
  | some (t, id) =>
    if s.now.toNat < t.toNat then s
    else
      let sh := latchAll s
      let r := rget s rcStatus
      let (lost, stuck) := stickAdd 8 (fld r 24 8) (if flag r 18 then 1 else 0)
      let r := setFld r 24 8 lost
      let r := setFlag (setFlag (setFlag (setFld (setFlag r 16 false) 0 16 id.toNat) 17 true) 18 true) 20 (!flag (rget s timeStatus) 0)
      let s := rset (rset { s with rollCall := none, shadow := sh } rcStatus r) rcLatched t
      raise (if stuck then raise s 0x0012 rcStatus 0 [] none else s) 0x0081 id.toNat t.toNat [] none

def rollAck (s : State) : State := rflag s rcStatus 18 false

def execRollCallArm (id : BitVec 16) (overwrite : Bool) (s : State) : Host.Outcome State Fault Refusal := .next (rcArm s id overwrite)
def execRollCallAck (s : State) : Host.Outcome State Fault Refusal := .next (rollAck s)
def execRollCallLatch (s : State) : Host.Outcome State Fault Refusal := .next (rcLatch s)

end Sys2Proof.Machine
end

