-- ==== Sys2Proof/Machine/HostIf.lean ====
section
/-! DEFINITION. The host interface (R392 to R402): reads and writes of every register with their own rules, BAR accesses,
link-down and function-level resets, calibration commands, out-of-band management and the test port. -/
namespace Sys2Proof.Machine

/-! ### Register writes (R5 to R8, R395, R421) -/

/-- A field keeps its old value where the new one is outside its range. -/
def keepField (old v : BitVec 64) (lo w : Nat) (ok : Nat → Bool) : BitVec 64 := if ok (fld v lo w) then v else setFld v lo w (fld old lo w)

/-- MGT_WDOG: a limit of 0 is discarded, ENABLE stays, PET and the first ENABLE start the count (R353, R367). -/
def wdogWrite (s : State) (v : BitVec 64) (pet : Bool) : State :=
  let old := rget s wdogReg
  let v := setFlag (keepField old v 0 16 (fun x => decide (x ≠ 0))) 16 (flag old 16 || flag v 16)
  let s := rset s wdogReg v
  if pet || (flag v 16 && !flag old 16) then wdogPet s else s

/-- MGT_RESET with GO (R363, R367); bits of SCOPE and TARGET that the write does not cover count as 0 (DESIGN CHOICE, log 93). -/
def resetWrite (s : State) (v : BitVec 64) : State :=
  if !flag v 12 then s else if fld v 0 2 = 3 then requestModule s else request s (fld v 0 2) (fld v 2 10)

/-- A register of the MGT block that is not plain storage; `v` is the merged value, `cmd` the command bits written. -/
def mgtWrite (s : State) (o : Nat) (v cmd : BitVec 64) : State :=
  let a := mgtBlk + o
  let old := rget s a
  if o = 0x800 then autoResets (rset s a v)
  else if o = 0x808 then wdogWrite s v (flag cmd 17)
  else if o = 0x810 then
    let s := dieReq s (BitVec.ofNat 8 (fld cmd 16 8))
    if flag cmd 24 then moduleFault s 1 else s
  else if o = 0x820 then resetWrite s cmd
  else if o = 0x900 then rset s a (keepField old (keepField old v 0 10 (fun x => decide (200 ≤ x ∧ x ≤ 720))) 16 13 (fun x => decide (3000 ≤ x ∧ x ≤ 7600)))
  else if o = 0x910 then rset s a (keepField old v 24 8 (fun x => decide (80 ≤ x ∧ x ≤ 95)))
  else if entryAt o 0x830 8 9 0 && flag cmd 17 then rcAck (rset s a v) ((o - 0x830) / 8)
  else rset s a v

/-- HST block: ring bases only while the queue set is disabled, TAIL modulo the ring size, sizes within their ranges (R407; ESIZE keeps its
value: DESIGN CHOICE, log 93). -/
def hstWrite (s : State) (o : Nat) (v : BitVec 64) : State :=
  let a := hstBlk + o
  let old := rget s a
  let q := (o - 0x1000) / 64
  if o < 0x1000 then rset s a v
  else
    match (o - 0x1000) % 64 with
    | 0 | 0x20 | 0x30 => if qEnabled s q then s else rset s a v
    | 0x10 => rset s a (setFld v 0 12 (fld v 0 12 % 2 ^ fld (rget s (qreg q 8)) 0 4))
    | 8 => rset s a (keepField old v 0 4 (fun x => decide (4 ≤ x ∧ x ≤ 12)))
    | 0x38 => rset s a (keepField old v 0 4 (fun x => decide (6 ≤ x ∧ x ≤ 14)))
    | _ => rset s a v

/-- LNK block (R221, R226, R237; DEDUCED, log 86); a seat's entry or LNK_SELF may end a swap (R342). -/
def lnkWrite (s : State) (o : Nat) (v : BitVec 64) : State :=
  let a := lnkBlk + o
  if entryAt o 0 64 36 0 then portCfgWrite s (o / 64) v
  else if entryAt o 0x1000 8 2048 0 then swapsGo (writeSeat s ((o - 0x1000) / 8) v)
  else if entryAt o 0x9100 8 16 0 then
    rset s a (keepField (rget s a) (keepField (rget s a) v 0 3 (fun x => decide (x ≠ 7))) 3 4 (fun x => decide (x ≠ 0)))
  else if a = lnkSelf then swapsGo (rset s a v)
  else rset s a v

/-- A tenant has an entry. -/
def hasEntry (s : State) (t : Nat) : Bool := s.serve.entries.any (fun e => decide (e.2.state ≠ .free ∧ e.2.tenant = t))

/-- ROS block (R300, R309, R326); DRINGt_CTL.SIZE outside its range keeps its value (DESIGN CHOICE, log 93). -/
def rosWrite (s : State) (o : Nat) (v : BitVec 64) : State :=
  let a := rosBlk + o
  let old := rget s a
  if o = 0 then rosMode s (flag v 0)
  else if 0x100 ≤ o ∧ o < 0x300 then
    let d := (o - 0x100) / 64
    let live := (dieEntries s d).any (fun e => decide (e.2.state ≠ .free))
    match (o - 0x100) % 64 with
    | 0 => let s := if live then s else rset s a (setFld v 32 1 (fld old 32 1))
           if flag v 32 = flag old 32 then s else setServing s d (flag v 32)
    | 0x20 => if live then s else limitsWrite s d (keepField old v 0 13 (fun x => decide (1 ≤ x ∧ x ≤ 4096)))
    | _ => if live then s else rset s a v
  else if entryAt o 0x5000 32 512 8 then
    rset s a (if hasEntry s ((o - 0x5000) / 32) then setFld v 0 5 (fld old 0 5) else keepField old v 0 5 (fun x => decide (10 ≤ x ∧ x ≤ 24)))
  else rset s a v

/-- CKP block (R327, R341, R347). -/
def ckpWrite (s : State) (o : Nat) (v : BitVec 64) : State :=
  if o = 0 then buddyWrite s (BitVec.ofNat 11 (fld v 0 11)) (flag v 11)
  else if o = 0x10 then wardArm s v
  else if o = 0x18 ∧ flag (rget s (ckpBlk + 0x10)) 58 then s
  else rset s (ckpBlk + o) v

/-- CLS block (R369 to R372); `raw` is the value as written. -/
def clsWrite (s : State) (o : Nat) (v raw : BitVec 64) : State :=
  if entryAt o 0 8 8 0 then splitWrite (rset s (clsBlk + o) (setFld v 0 1 (fld (rget s (clsBlk + o)) 0 1))) (o / 8) (flag v 0)
  else if entryAt o 0x100 32 16 8 then saveWrite s ((o - 0x100) / 32) v (fld raw 0 12)
  else if entryAt o 0x1000 8 512 0 then slotWrite s ((o - 0x1000) / 256) ((o - 0x1000) % 256 / 8) v
  else if entryAt o 0x2000 32 512 0 then ctxWrite s ((o - 0x2000) / 32) v
  else rset s (clsBlk + o) v

/-- TAL block (R385, R390; DEDUCED, log 81). -/
def talWrite (s : State) (o : Nat) (v cmd : BitVec 64) : State :=
  let a := talBlk + o
  if o = 8 then
    if flag cmd 16 then rcArm (if flag cmd 18 then rollAck s else s) (BitVec.ofNat 16 (fld v 0 16)) (flag v 17)
    else let s := rset s a v; if flag cmd 18 then rollAck s else s
  else if entryAt o 0x1000 64 512 8 then
    let old := rget s a
    rset s a (if flag old 6 then setFld v 0 5 (fld old 0 5) else keepField old v 0 5 (fun x => decide (10 ≤ x ∧ x ≤ 24)))
  else rset s a v

/-- A write covers a byte of a field that software may write: a byte with none changes nothing (R421). -/
def RegSpec.covers (sp : RegSpec) (be : BitVec 8) : Bool := decide (BitVec.ofNat 64 (sp.rw ||| sp.w1c ||| sp.wo) &&& beMask be ≠ 0)

/-- A software write of the register at a module-local address; addresses without a register, and shadows, discard it (DEDUCED, log 83). -/
def regWrite (s : State) (a : Nat) (be : BitVec 8) (v : BitVec 64) : State :=
  if pageBase 0 ≤ a ∧ a < pageBase 768 then
    let o := (a - pageBase 0) % 0x200000
    if o < 0x100000 then tilePageWrite s ((a - pageBase 0) / 0x200000) o be v else s
  else
    match regSpec a with
    | none => s
    | some sp =>
      if !sp.covers be then s
      else
      let w := regMerge sp (rget s a) be v
      let cmd := regCmd sp be v
      let o := (a - mgtBlk) % 0x200000
      match (a - mgtBlk) / 0x200000 with
      | 0 => mgtWrite s o w cmd
      | 1 => hstWrite s o w
      | 2 => lnkWrite s o w
      | 3 => rosWrite s o w
      | 4 => ckpWrite s o w
      | 5 => clsWrite s o w (v &&& beMask be)
      | _ => talWrite s o w cmd

/-- A register as it reads: pages, blocks, shadows in the second MiB of a window; reserved offsets read zero (DEDUCED, log 83). -/
def regRead (s : State) (a : Nat) : BitVec 64 :=
  let o := a % 0x200000
  if o ≥ 0x100000 then tget 0 s.shadow (a - 0x100000)
  else if pageBase 0 ≤ a ∧ a < pageBase 768 then (pageRead s ((a - pageBase 0) / 0x200000) o).getD 0
  else if (regSpec a).isNone then 0
  else if a = rosStatus then setFlag (rget s a) 0 (rosterLive s)
  else if entryAt (a - clsBlk) 0x2000 32 512 8 && decide (clsBlk ≤ a) then runNow s ((a - clsBlk - 0x2000) / 32)
  else rget s a

/-- The address lies in a register window. -/
def inWindows (a : Nat) : Bool := decide (pageBase 0 ≤ a ∧ a < pageBase 768) || decide (mgtBlk ≤ a ∧ a < mgtBlk + 7 * 0x200000)
def inMgt (a : Nat) : Bool := decide (mgtBlk ≤ a ∧ a < mgtBlk + 0x200000)
/-- The Report Card mirror, which the host and management read (R190). -/
def inMirror (a n : Nat) : Bool := decide (cardMirror 0 ≤ a ∧ a + n ≤ moduleCard + 0x80000)

/-- Bytes written into registers: one write for each register that they touch, with its byte enables. -/
def regBytes (s : State) (a : Nat) (l : List Byte) : State :=
  if l.isEmpty then s
  else
    (upto (a / 8) ((a + l.length - 1) / 8 - a / 8 + 1)).foldl (fun s k =>
      let at_ (i : Nat) : Option Byte := if 8 * k + i < a then none else l[8 * k + i - a]?
      let be := (List.range 8).foldl (fun m i => if (at_ i).isSome then m ||| BitVec.ofNat 8 (2 ^ i) else m) (0 : BitVec 8)
      let v := leNat ((List.range 8).map (fun i => (at_ i).getD 0))
      regWrite s (8 * k) be (BitVec.ofNat 64 v)) s

/-- Bytes of registers. -/
def regReadBytes (s : State) (a n : Nat) : List Byte := (upto a n).map (fun b => BitVec.ofNat 8 (fld (regRead s (b / 8 * 8)) (8 * (b % 8)) 8))

/-! ### BAR accesses (R392, R393, R357) -/

def hstStatus : Nat := hstBlk + 8

/-- A counter of refused accesses: MGT_QUIET.DROPS or HST_STATUS.BAD_ACCESS, bits [63:32]. -/
def countRefused (s : State) (a : Nat) : State := rfld s a 32 32 (satAdd 32 (fld (rget s a) 32 32) 1)

/-- An access that R393 refuses: Completer Abort for a read, and BAD_ACCESS. -/
def badAccess (s : State) (op : BarOp) : State :=
  { countRefused s hstStatus with reply := match op with | .read _ => .abort | .write _ => .none }

/-- An access that a die or a memory word answers with error (DEDUCED, log 83). -/
def failedAccess (s : State) (op : BarOp) : State := { s with reply := match op with | .read _ => .abort | .write _ => .none }

/-- An access that the Quiet State refuses (R357). -/
def quietAccess (s : State) (op : BarOp) : State :=
  match op with
  | .read _ => { s with reply := .abort }
  | .write _ => { countRefused s quietReg with reply := .none }

/-- A register access. -/
def regAccess (s : State) (a : Nat) : BarOp → State
  | .read n => { s with reply := .data (regReadBytes s a n) }
  | .write l => { regBytes s a l with reply := .none }

/-- A memory access through BAR2. -/
def memAccess (s : State) (a : Nat) (op : BarOp) : State :=
  match op with
  | .read n =>
    if inMirror a n then { s with reply := .data (vbytes { mapCtx s with raw := true } (viewOut s) a n) }
    else if n = 0 ∨ !mapped (mapCtx s) a n then badAccess s op
    else if (accessError s true a n).isSome then failedAccess s op
    else { (s.pass false (a, n)).fresh with reply := .data (vbytes (mapCtx s) (viewOut s) a n) }
  | .write l =>
    if l.isEmpty ∨ !mapped (mapCtx s) a l.length then badAccess s op
    else if (accessError s false a l.length).isSome then failedAccess s op
    else { landBytes s a l with reply := .none }

/-- Length of an access. -/
def barLen : BarOp → Nat
  | .read n => n
  | .write l => l.length

/-- Registers in the page of a tile whose die is in reset: the access completes with an error (R12; DEDUCED, log 83). -/
def deadPage (s : State) (a n : Nat) : Bool :=
  [a, a + n - 1].any (fun x => decide (pageBase 0 ≤ x ∧ x < pageBase 768 ∧ s.sys.dieReset = some (dieOf ((x - pageBase 0) / 0x200000))))

/-- An access of the PF at a module-local address, in registers (BAR0) or memory (BAR2). -/
def pfAccess (s : State) (regs : Bool) (a : Nat) (op : BarOp) : State :=
  let mgt := regs && inMgt a && inMgt (a + barLen op - 1)
  let card := !regs && inMirror a (barLen op)
  if moduleQuiet s && !mgt && !(card && (match op with | .read _ => true | .write _ => false)) then quietAccess s op
  else if !moduleQuiet s && !ready s && !mgt then badAccess s op
  else if regs then (if inWindows a && inWindows (a + barLen op - 1) then (if deadPage s a (barLen op) then failedAccess s op else regAccess s a op) else badAccess s op)
  else memAccess s a op

/-- An access of VF n + 1 to its queue set; the rest of its BAR reads zero and discards writes. -/
def vfAccess (s : State) (fn a : Nat) (op : BarOp) : State :=
  if moduleQuiet s then quietAccess s op
  else if !ready s then badAccess s op
  else
    match op with
    | .read n => { s with reply := .data ((upto a n).map (fun b => if b < 64 then (regReadBytes s (qreg fn 0 + b) 1).headD 0 else 0)) }
    | .write l => { regBytes s (qreg fn 0 + a) (l.take (64 - a)) with reply := .none }

/-- HOST_BAR_ACCESS. A function has no other BAR (DEDUCED, log 83). -/
def barAccess (s : State) (fn : Nat) (bar : Nat) (addr : Nat) (op : BarOp) : State :=
  if fn ≠ 0 then (if bar = 0 ∧ addr + barLen op ≤ 0x10000 then vfAccess s fn addr op else badAccess s op)
  else if bar = 0 ∧ addr + barLen op ≤ 2 ^ 40 then pfAccess s true (pageBase 0 + addr) op
  else if bar = 2 ∧ addr + barLen op ≤ 2 ^ 46 then pfAccess s false addr op
  else badAccess s op

/-- REGISTER_WRITE: the host reaches registers as through BAR0, management the MGT block, firmware every register (DEDUCED, log 83). -/
def agentWrite (s : State) (who : Agent) (a : Nat) (be : BitVec 8) (v : BitVec 64) : State :=
  match who with
  | .host =>
    if moduleQuiet s && !inMgt a then countRefused s quietReg
    else if (!moduleQuiet s && !ready s && !inMgt a) || !inWindows a then countRefused s hstStatus
    else if deadPage s a 8 then s
    else regWrite s a be v
  | .management => if s.sys.aux && inMgt a then regWrite s a be v else s
  | .firmware => regWrite s a be v

/-! ### Links and function resets (R396, R399, R403) -/

/-- A queue set stops, and completions not yet written are discarded. -/
def stopQueue (s : State) (q : Nat) : State :=
  let s := { s with host := { s.host with cmds := s.host.cmds.filter (fun r => !(decide (r.c.q.val = q) && r.status.isSome)) } }
  rflag s (qreg q 8) 4 false

def linkDown (s : State) : State := (List.range 513).foldl stopQueue (rflag s hstStatus 0 false)
def linkUp (s : State) (p : Nat) : State := rflag s hstStatus p true

/-- PERST# is deasserted after MOD_PWRGD. -/
def perst (s : State) : State := if s.sys.pwrgd then { s with sys := { s.sys with portConfig := true } } else s

/-! ### Calibration commands of the host (R396, R406) -/

def calReadCmd (s : State) (c : HostCmd) : State :=
  if calBusy s then endNow s 0x30 c 0x0163
  else endNow { s with host := hostPut s.host c.w1.toNat (calBytes s) }.fresh 0x30 c 0

/-- A command that programs the store ends when programming does. -/
def calCmd (s : State) (op : BitVec 16) (c : HostCmd) (r : State × Option (BitVec 16)) : State :=
  match r.2 with
  | some st => endNow s op c st
  | none => startCmd r.1.fresh op c

/-! ### Out-of-band management (R401) -/

/-- What management reads of the sensors: MGT_PWR_STATUS, MGT_THERM and MGT_COOL (DESIGN CHOICE, log 85). -/
def sensorBytes (s : State) : List Byte := [pwrStatus, thermReg, coolReg].flatMap (fun a => leBytes 8 (rget s a).toNat)

/-- A calibration request that management makes (DEDUCED, log 76). -/
def calReply (s : State) (r : State × Option (BitVec 16)) : State :=
  match r.2 with
  | some st => { s with reply := .status st }
  | none => { r.1.fresh with reply := .status 0 }

/-- What both paths serve. -/
def mgmtCommon (s : State) : MgmtReq → Option State
  | .sensors => some { s with reply := .data (sensorBytes s) }
  | .events => some { s with reply := .events s.host.oob }
  | .stageFirmware ok => some { s with sys := { s.sys with fwStaged := some ok }, reply := .status 0 }
  | _ => none

/-- What only the Redfish service serves: the Reset resource and the OEM resource under the Manager. -/
def redfishOwn (s : State) : MgmtReq → State
  | .readReg a => if inMgt a.toNat then { s with reply := .value (regRead s a.toNat) } else { s with reply := .abort }
  | .writeReg a v => if inMgt a.toNat then { regWrite s a.toNat 0xFF v with reply := .none } else { s with reply := .abort }
  | .readMirror a n => if inMirror a.toNat n then { s with reply := .data (vbytes { mapCtx s with raw := true } (viewOut s) a.toNat n) } else { s with reply := .abort }
  | .readCal o n => { s.fresh with reply := .data (((calBytes s).drop o).take n) }
  | .reset => { requestModule s with reply := .none }
  | .calRead => if calBusy s then { s with reply := .status 0x0163 } else { s.fresh with reply := .data (calBytes s) }
  | .calWrite l => calReply s (calWrite s l)
  | .calCapture => calReply s (calCapture s)
  | .sensors | .events | .stageFirmware _ => { s with reply := .abort }

/-- A Redfish request (DESIGN CHOICE, log 85). -/
def redfish (s : State) (r : MgmtReq) : State := match mgmtCommon s r with | some s' => s' | none => redfishOwn s r

/-- The management domain answers while the auxiliary rail is up (DESIGN CHOICE, log 85). -/
def mctp (s : State) (r : MgmtReq) : State :=
  if !s.sys.aux then { s with reply := .none } else match mgmtCommon s r with | some s' => s' | none => { s with reply := .abort }

/-! ### The test port (R402) -/

/-- Instructions of the test port as the state holds them: 0 EXTEST, 1 IDCODE, 2 SAMPLE/PRELOAD, 15 BYPASS (DESIGN CHOICE, log 85). -/
def jtag (s : State) (i : BitVec 4) (r : Reply) : State := { s with sys := { s.sys with jtag := i }, reply := r }

def execRegisterWrite (a : Agent) (addr : BitVec 48) (be : BitVec 8) (v : BitVec 64) (s : State) : Host.Outcome State Fault Refusal :=
  .next (agentWrite s a addr.toNat be v)
def execHostBarAccess (fn : Fin 513) (bar : BitVec 3) (addr : BitVec 64) (op : BarOp) (s : State) : Host.Outcome State Fault Refusal :=
  .next (barAccess s fn.val bar.toNat addr.toNat op)
def execPcieLinkDown (s : State) : Host.Outcome State Fault Refusal := .next (linkDown s)
def execPcieLinkUp (p : Fin 2) (s : State) : Host.Outcome State Fault Refusal := .next (linkUp s p.val)
/-- FLR of VF `vf` + 1. -/
def execFunctionLevelReset (vf : Fin 512) (s : State) : Host.Outcome State Fault Refusal := .next (stopQueue s (vf.val + 1))
def execPerstDeassert (s : State) : Host.Outcome State Fault Refusal := .next (perst s)
def execMctpMessage (r : MgmtReq) (s : State) : Host.Outcome State Fault Refusal := .next (mctp s r)
def execRedfishRequest (r : MgmtReq) (s : State) : Host.Outcome State Fault Refusal :=
  .next (if s.sys.aux then redfish s r else { s with reply := .none })
def execBypass (s : State) : Host.Outcome State Fault Refusal := .next (jtag s 15 .none)
def execIdcode (s : State) : Host.Outcome State Fault Refusal := .next (jtag s 1 (.value 0x132802AB))
def execSamplePreload (s : State) : Host.Outcome State Fault Refusal := .next (jtag s 2 .none)
/-- EXTEST behaves as BYPASS from stage 3 on (DESIGN CHOICE, log 85). -/
def execExtest (s : State) : Host.Outcome State Fault Refusal := .next (jtag s (if stageOf s < 3 then 0 else 15) .none)
def execCalRead (c : HostCmd) (s : State) : Host.Outcome State Fault Refusal := .next (takeCmd s 0x30 c true [wholeWord] true (fun s => calReadCmd s c))
def execCalWrite (c : HostCmd) (s : State) : Host.Outcome State Fault Refusal :=
  .next (takeCmd s 0x31 c true [wholeWord] true (fun s => calCmd s 0x31 c (calWrite s (hostBytes s.host c.w1.toNat calSize))))
def execCalCapture (c : HostCmd) (s : State) : Host.Outcome State Fault Refusal :=
  .next (takeCmd s 0x32 c true [] true (fun s => calCmd s 0x32 c (calCapture s)))

end Sys2Proof.Machine
end

