-- ==== Sys2Proof/Machine/Dispatch.lean ====
section
/-! DEFINITION. The effect of every command: one arm for each constructor of `Instr`, each one direct call of its
meaning. -/
namespace Sys2Proof.Machine

def exec (i : Instr) (s : State) : Host.Outcome State Fault Refusal :=
  match i with
  | .nop t f => Sys2Proof.Machine.execNop t f s
  | .add t f => Sys2Proof.Machine.execAdd t f s
  | .sub t f => Sys2Proof.Machine.execSub t f s
  | .and t f => Sys2Proof.Machine.execAnd t f s
  | .or t f => Sys2Proof.Machine.execOr t f s
  | .xor t f => Sys2Proof.Machine.execXor t f s
  | .shl t f => Sys2Proof.Machine.execShl t f s
  | .shr t f => Sys2Proof.Machine.execShr t f s
  | .sra t f => Sys2Proof.Machine.execSra t f s
  | .mul t f => Sys2Proof.Machine.execMul t f s
  | .min t f => Sys2Proof.Machine.execMin t f s
  | .max t f => Sys2Proof.Machine.execMax t f s
  | .slt t f => Sys2Proof.Machine.execSlt t f s
  | .sltu t f => Sys2Proof.Machine.execSltu t f s
  | .addi t f => Sys2Proof.Machine.execAddi t f s
  | .andi t f => Sys2Proof.Machine.execAndi t f s
  | .ori t f => Sys2Proof.Machine.execOri t f s
  | .xori t f => Sys2Proof.Machine.execXori t f s
  | .shli t f => Sys2Proof.Machine.execShli t f s
  | .shri t f => Sys2Proof.Machine.execShri t f s
  | .srai t f => Sys2Proof.Machine.execSrai t f s
  | .li t f => Sys2Proof.Machine.execLi t f s
  | .ld t f => Sys2Proof.Machine.execLd t f s
  | .st t f => Sys2Proof.Machine.execSt t f s
  | .crr t f => Sys2Proof.Machine.execCrr t f s
  | .crw t f => Sys2Proof.Machine.execCrw t f s
  | .beq t f => Sys2Proof.Machine.execBeq t f s
  | .bne t f => Sys2Proof.Machine.execBne t f s
  | .blt t f => Sys2Proof.Machine.execBlt t f s
  | .bge t f => Sys2Proof.Machine.execBge t f s
  | .bltu t f => Sys2Proof.Machine.execBltu t f s
  | .bgeu t f => Sys2Proof.Machine.execBgeu t f s
  | .jmp t f => Sys2Proof.Machine.execJmp t f s
  | .jal t f => Sys2Proof.Machine.execJal t f s
  | .jr t f => Sys2Proof.Machine.execJr t f s
  | .halt t f => Sys2Proof.Machine.execHalt t f s
  | .step t f => Sys2Proof.Machine.execStep t f s
  | .dld t f => Sys2Proof.Machine.execDld t f s
  | .dst t f => Sys2Proof.Machine.execDst t f s
  | .dadd t f => Sys2Proof.Machine.execDadd t f s
  | .bring t f => Sys2Proof.Machine.execBring t f s
  | .bwait t f => Sys2Proof.Machine.execBwait t f s
  | .bset t f => Sys2Proof.Machine.execBset t f s
  | .mmul t f => Sys2Proof.Machine.execMmul t f s
  | .ladd t f => Sys2Proof.Machine.execLadd t f s
  | .abmode t f => Sys2Proof.Machine.execAbmode t f s
  | .att t f => Sys2Proof.Machine.execAtt t f s
  | .drill t f => Sys2Proof.Machine.execDrill t f s
  | .vadd t f => Sys2Proof.Machine.execVadd t f s
  | .vsub t f => Sys2Proof.Machine.execVsub t f s
  | .vmul t f => Sys2Proof.Machine.execVmul t f s
  | .vfma t f => Sys2Proof.Machine.execVfma t f s
  | .vmin t f => Sys2Proof.Machine.execVmin t f s
  | .vmax t f => Sys2Proof.Machine.execVmax t f s
  | .vcmp t f => Sys2Proof.Machine.execVcmp t f s
  | .vsel t f => Sys2Proof.Machine.execVsel t f s
  | .vand t f => Sys2Proof.Machine.execVand t f s
  | .vor t f => Sys2Proof.Machine.execVor t f s
  | .vxor t f => Sys2Proof.Machine.execVxor t f s
  | .vshl t f => Sys2Proof.Machine.execVshl t f s
  | .vshr t f => Sys2Proof.Machine.execVshr t f s
  | .vperm t f => Sys2Proof.Machine.execVperm t f s
  | .vperm2 t f => Sys2Proof.Machine.execVperm2 t f s
  | .vred t f => Sys2Proof.Machine.execVred t f s
  | .vld t f => Sys2Proof.Machine.execVld t f s
  | .vst t f => Sys2Proof.Machine.execVst t f s
  | .vgather t f => Sys2Proof.Machine.execVgather t f s
  | .vscatter t f => Sys2Proof.Machine.execVscatter t f s
  | .vbcast t f => Sys2Proof.Machine.execVbcast t f s
  | .pset t f => Sys2Proof.Machine.execPset t f s
  | .topk t f => Sys2Proof.Machine.execTopk t f s
  | .bisect t f => Sys2Proof.Machine.execBisect t f s
  | .sample t f => Sys2Proof.Machine.execSample t f s
  | .vcvt t f => Sys2Proof.Machine.execVcvt t f s
  | .move t f => Sys2Proof.Machine.execMove t f s
  | .pack t f => Sys2Proof.Machine.execPack t f s
  | .put t f => Sys2Proof.Machine.execPut t f s
  | .get t f => Sys2Proof.Machine.execGet t f s
  | .rring t f => Sys2Proof.Machine.execRring t f s
  | .coll t f => Sys2Proof.Machine.execColl t f s
  | .barrier t f => Sys2Proof.Machine.execBarrier t f s
  | .gate t f => Sys2Proof.Machine.execGate t f s
  | .commit t f => Sys2Proof.Machine.execCommit t f s
  | .chg t f => Sys2Proof.Machine.execChg t f s
  | .instructionStart t q => Sys2Proof.Machine.execInstructionStart t q s
  | .instructionComplete t q k e => Sys2Proof.Machine.execInstructionComplete t q k e s
  | .fltBellTimeout t q => Sys2Proof.Machine.execFltBellTimeout t q s
  | .tileDrainEnd t => Sys2Proof.Machine.execTileDrainEnd t s
  | .tileGo t => Sys2Proof.Machine.execTileGo t s
  | .tileStop t => Sys2Proof.Machine.execTileStop t s
  | .tilePreempt t => Sys2Proof.Machine.execTilePreempt t s
  | .preemptSave t => Sys2Proof.Machine.execPreemptSave t s
  | .preemptSaved t => Sys2Proof.Machine.execPreemptSaved t s
  | .preemptLimitExpiry t => Sys2Proof.Machine.execPreemptLimitExpiry t s
  | .tileRestore t => Sys2Proof.Machine.execTileRestore t s
  | .restoreDone t => Sys2Proof.Machine.execRestoreDone t s
  | .tileResume t => Sys2Proof.Machine.execTileResume t s
  | .tileFlush t => Sys2Proof.Machine.execTileFlush t s
  | .tileFaultClear t => Sys2Proof.Machine.execTileFaultClear t s
  | .tileReset t => Sys2Proof.Machine.execTileReset t s
  | .tileResetTimeout t => Sys2Proof.Machine.execTileResetTimeout t s
  | .registerWrite a addr be v => Sys2Proof.Machine.execRegisterWrite a addr be v s
  | .stageGo t n sheets sitout disarm => Sys2Proof.Machine.execStageGo t n sheets sitout disarm s
  | .stageDisarm t n => Sys2Proof.Machine.execStageDisarm t n s
  | .stageCopyDone t n => Sys2Proof.Machine.execStageCopyDone t n s
  | .stageCopyFail t n sheet => Sys2Proof.Machine.execStageCopyFail t n sheet s
  | .stageDeadline t n => Sys2Proof.Machine.execStageDeadline t n s
  | .patrolScrub addr e => Sys2Proof.Machine.execPatrolScrub addr e s
  | .archiveExtentDone write extent addr ok => Sys2Proof.Machine.execArchiveExtentDone write extent addr ok s
  | .writeFlit p f => Sys2Proof.Machine.execWriteFlit p f s
  | .readReqFlit p f => Sys2Proof.Machine.execReadReqFlit p f s
  | .readDataFlit p f => Sys2Proof.Machine.execReadDataFlit p f s
  | .ringFlit p f => Sys2Proof.Machine.execRingFlit p f s
  | .collFlit p f => Sys2Proof.Machine.execCollFlit p f s
  | .barrierFlit p f => Sys2Proof.Machine.execBarrierFlit p f s
  | .doneFlit p f => Sys2Proof.Machine.execDoneFlit p f s
  | .returnFlit p f => Sys2Proof.Machine.execReturnFlit p f s
  | .helloFlit p f => Sys2Proof.Machine.execHelloFlit p f s
  | .timeFlit p f => Sys2Proof.Machine.execTimeFlit p f s
  | .rollFlit p f => Sys2Proof.Machine.execRollFlit p f s
  | .idleFlit p f => Sys2Proof.Machine.execIdleFlit p f s
  | .flitForward p f => Sys2Proof.Machine.execFlitForward p f s
  | .flitReplay p num => Sys2Proof.Machine.execFlitReplay p num s
  | .creditReturn p vc acked => Sys2Proof.Machine.execCreditReturn p vc acked s
  | .helloTimer p => Sys2Proof.Machine.execHelloTimer p s
  | .helloTimeout p => Sys2Proof.Machine.execHelloTimeout p s
  | .portTrained p ok => Sys2Proof.Machine.execPortTrained p ok s
  | .retrainTimer p => Sys2Proof.Machine.execRetrainTimer p s
  | .portEnable p => Sys2Proof.Machine.execPortEnable p s
  | .portActive p => Sys2Proof.Machine.execPortActive p s
  | .evtLinkStall p vc => Sys2Proof.Machine.execEvtLinkStall p vc s
  | .holdLimitExpiry t => Sys2Proof.Machine.execHoldLimitExpiry t s
  | .timeExchange => Sys2Proof.Machine.execTimeExchange s
  | .classListCreate n members rank experts => Sys2Proof.Machine.execClassListCreate n members rank experts s
  | .classListDelete n => Sys2Proof.Machine.execClassListDelete n s
  | .classListMemberRemove n seat => Sys2Proof.Machine.execClassListMemberRemove n seat s
  | .gateOutcomeRelease ctx outcome amax => Sys2Proof.Machine.execGateOutcomeRelease ctx outcome amax s
  | .commitPoint ctx amax failed => Sys2Proof.Machine.execCommitPoint ctx amax failed s
  | .partnerRestoreDone ctx sheets area => Sys2Proof.Machine.execPartnerRestoreDone ctx sheets area s
  | .attemptAbort ctx => Sys2Proof.Machine.execAttemptAbort ctx s
  | .evtStepLate ctx => Sys2Proof.Machine.execEvtStepLate ctx s
  | .studyHallBubble c => Sys2Proof.Machine.execStudyHallBubble c s
  | .studyHallSliceEnd c => Sys2Proof.Machine.execStudyHallSliceEnd c s
  | .chgStart ctx => Sys2Proof.Machine.execChgStart ctx s
  | .chgSeatDone ctx failed => Sys2Proof.Machine.execChgSeatDone ctx failed s
  | .chgSwitchPoint ctx => Sys2Proof.Machine.execChgSwitchPoint ctx s
  | .ckpHeld step => Sys2Proof.Machine.execCkpHeld step s
  | .ckpAckRelease ctx step => Sys2Proof.Machine.execCkpAckRelease ctx step s
  | .landingApplyDone => Sys2Proof.Machine.execLandingApplyDone s
  | .evtCkpLate ctx => Sys2Proof.Machine.execEvtCkpLate ctx s
  | .archiveSetDone => Sys2Proof.Machine.execArchiveSetDone s
  | .storeUploadDone ok => Sys2Proof.Machine.execStoreUploadDone ok s
  | .storeRetry => Sys2Proof.Machine.execStoreRetry s
  | .buddyWrite buddy valid => Sys2Proof.Machine.execBuddyWrite buddy valid s
  | .wardArm v => Sys2Proof.Machine.execWardArm v s
  | .replayStep ctx => Sys2Proof.Machine.execReplayStep ctx s
  | .create c => Sys2Proof.Machine.execCreate c s
  | .createFrom c => Sys2Proof.Machine.execCreateFrom c s
  | .destroy c => Sys2Proof.Machine.execDestroy c s
  | .resume c => Sys2Proof.Machine.execResume c s
  | .skip c => Sys2Proof.Machine.execSkip c s
  | .remap c => Sys2Proof.Machine.execRemap c s
  | .replan c => Sys2Proof.Machine.execReplan c s
  | .replace c => Sys2Proof.Machine.execReplace c s
  | .replaceResume c => Sys2Proof.Machine.execReplaceResume c s
  | .replaceLayerReceived ctx data => Sys2Proof.Machine.execReplaceLayerReceived ctx data s
  | .replaceInstall ctx => Sys2Proof.Machine.execReplaceInstall ctx s
  | .replaceRetry ctx => Sys2Proof.Machine.execReplaceRetry ctx s
  | .evtReplaceStall ctx => Sys2Proof.Machine.execEvtReplaceStall ctx s
  | .adapterLoad c => Sys2Proof.Machine.execAdapterLoad c s
  | .adapterUnload c => Sys2Proof.Machine.execAdapterUnload c s
  | .adapterFlip slot => Sys2Proof.Machine.execAdapterFlip slot s
  | .adapterWaitLimit q tag => Sys2Proof.Machine.execAdapterWaitLimit q tag s
  | .admitCmd c => Sys2Proof.Machine.execAdmitCmd c s
  | .evict c => Sys2Proof.Machine.execEvict c s
  | .dmaIn c => Sys2Proof.Machine.execDmaIn c s
  | .dmaOut c => Sys2Proof.Machine.execDmaOut c s
  | .ctxGo c => Sys2Proof.Machine.execCtxGo c s
  | .ctxSet c => Sys2Proof.Machine.execCtxSet c s
  | .classSet c e => Sys2Proof.Machine.execClassSet c e s
  | .steerLoad c => Sys2Proof.Machine.execSteerLoad c s
  | .steerUnload c => Sys2Proof.Machine.execSteerUnload c s
  | .ckpStoreSet c => Sys2Proof.Machine.execCkpStoreSet c s
  | .calRead c => Sys2Proof.Machine.execCalRead c s
  | .calWrite c => Sys2Proof.Machine.execCalWrite c s
  | .calCapture c => Sys2Proof.Machine.execCalCapture c s
  | .calWriteDone => Sys2Proof.Machine.execCalWriteDone s
  | .commandCompletion k => Sys2Proof.Machine.execCommandCompletion k s
  | .rosterBoundary d => Sys2Proof.Machine.execRosterBoundary d s
  | .servingEnable d on => Sys2Proof.Machine.execServingEnable d on s
  | .rosterTick d => Sys2Proof.Machine.execRosterTick d s
  | .rosModeWrite mode => Sys2Proof.Machine.execRosModeWrite mode s
  | .engineHang t q => Sys2Proof.Machine.execEngineHang t q s
  | .monitorHeartbeatLoss d core => Sys2Proof.Machine.execMonitorHeartbeatLoss d core s
  | .evtPrefectLost k => Sys2Proof.Machine.execEvtPrefectLost k s
  | .prefectResetDone k => Sys2Proof.Machine.execPrefectResetDone k s
  | .wdogExpiry => Sys2Proof.Machine.execWdogExpiry s
  | .wdogPet => Sys2Proof.Machine.execWdogPet s
  | .evtPortHang p => Sys2Proof.Machine.execEvtPortHang p s
  | .dieReq mask => Sys2Proof.Machine.execDieReq mask s
  | .moduleReq => Sys2Proof.Machine.execModuleReq s
  | .reportCardCapture sc => Sys2Proof.Machine.execReportCardCapture sc s
  | .rcAck k => Sys2Proof.Machine.execRcAck k s
  | .portReset p => Sys2Proof.Machine.execPortReset p s
  | .dieReset d => Sys2Proof.Machine.execDieReset d s
  | .dieResetDone d => Sys2Proof.Machine.execDieResetDone d s
  | .dieResetTimeout d => Sys2Proof.Machine.execDieResetTimeout d s
  | .moduleReset => Sys2Proof.Machine.execModuleReset s
  | .moduleResetTimeout => Sys2Proof.Machine.execModuleResetTimeout s
  | .rollCallArm id overwrite => Sys2Proof.Machine.execRollCallArm id overwrite s
  | .rollCallAck => Sys2Proof.Machine.execRollCallAck s
  | .rollCallLatch => Sys2Proof.Machine.execRollCallLatch s
  | .slotStart c slot => Sys2Proof.Machine.execSlotStart c slot s
  | .slotSaveDone c => Sys2Proof.Machine.execSlotSaveDone c s
  | .slotRestoreDone c => Sys2Proof.Machine.execSlotRestoreDone c s
  | .splitWrite d split => Sys2Proof.Machine.execSplitWrite d split s
  | .hostBarAccess fn bar addr op => Sys2Proof.Machine.execHostBarAccess fn bar addr op s
  | .pcieLinkDown => Sys2Proof.Machine.execPcieLinkDown s
  | .functionLevelReset vf => Sys2Proof.Machine.execFunctionLevelReset vf s
  | .perstDeassert => Sys2Proof.Machine.execPerstDeassert s
  | .mctpMessage r => Sys2Proof.Machine.execMctpMessage r s
  | .redfishRequest r => Sys2Proof.Machine.execRedfishRequest r s
  | .bypass => Sys2Proof.Machine.execBypass s
  | .idcode => Sys2Proof.Machine.execIdcode s
  | .samplePreload => Sys2Proof.Machine.execSamplePreload s
  | .extest => Sys2Proof.Machine.execExtest s
  | .powerUp => Sys2Proof.Machine.execPowerUp s
  | .powerUpStageDone => Sys2Proof.Machine.execPowerUpStageDone s
  | .bootStageTimeout err unit => Sys2Proof.Machine.execBootStageTimeout err unit s
  | .inputUndervoltage => Sys2Proof.Machine.execInputUndervoltage s
  | .inputBelow44v => Sys2Proof.Machine.execInputBelow44v s
  | .inputBelow40v => Sys2Proof.Machine.execInputBelow40v s
  | .inputOvervoltage => Sys2Proof.Machine.execInputOvervoltage s
  | .auxRailUp => Sys2Proof.Machine.execAuxRailUp s
  | .modEnLow => Sys2Proof.Machine.execModEnLow s
  | .standbyRailsOff => Sys2Proof.Machine.execStandbyRailsOff s
  | .modEnHigh => Sys2Proof.Machine.execModEnHigh s
  | .powerCapStep d watts moduleWatts => Sys2Proof.Machine.execPowerCapStep d watts moduleWatts s
  | .ocp rail => Sys2Proof.Machine.execOcp rail s
  | .thermalReading r => Sys2Proof.Machine.execThermalReading r s
  | .thermalTrip => Sys2Proof.Machine.execThermalTrip s
  | .lowFlow => Sys2Proof.Machine.execLowFlow s
  | .flowFailure => Sys2Proof.Machine.execFlowFailure s
  | .leakDetected => Sys2Proof.Machine.execLeakDetected s
  | .leakRailsOff => Sys2Proof.Machine.execLeakRailsOff s
  | .tileResetDone t => Sys2Proof.Machine.execTileResetDone t s
  | .scalarAccessComplete t e => Sys2Proof.Machine.execScalarAccessComplete t e s
  | .pcieLinkUp p => Sys2Proof.Machine.execPcieLinkUp p s
  | .evtServeLate d => Sys2Proof.Machine.execEvtServeLate d s
  | .dieControlUncorrectable d => Sys2Proof.Machine.execDieControlUncorrectable d s

end Sys2Proof.Machine
end

