-- ==== Sys2Proof/Safety.lean ====
section
/-! DEFINITION. What a safe run is: a step that answers a next state, neither a fault nor a refusal, and the canonical
form of every sparse store that claims are about. -/
namespace Sys2Proof.Safety
open Sys2Proof.Machine

/-- The step answers a next state. -/
def Completes (o : Host.Outcome State Fault Refusal) : Prop := ∃ s', o = .next s'

/-- Memory holds strictly rising addresses and no byte equal to what an unlisted address reads as. -/
abbrev memWf (m : Mem) : Prop := twf (fun _ => (0 : Byte)) m.cells = true

/-- The canonical form of the byte stores, the dirty bits, the poisoned words, the Bells, the registers and the Roster. -/
structure Canon (s : State) : Prop where
  cells : memWf s.m
  dirty : twf (fun _ => false) s.m.dirty = true
  poison : twf (fun _ => (0 : Nat)) s.m.poison = true
  bells : twf (fun _ => (0 : BitVec 32)) s.bells = true
  regs : twf regReset s.regs = true
  host : twf (fun _ => (0 : Byte)) s.host.mem = true
  archive : twf (fun _ => (0 : Byte)) s.archive = true
  cal : twf (fun _ => (0 : Byte)) s.sys.cal = true
  entries : twf (fun _ => ({} : Entry)) s.serve.entries = true

/-! ### When a tile issues, and what issue changes (R107, R122, R126, R142) -/

/-- An instruction word issues on tile `t` now: the scalar control unit issues, no BWAIT holds it, no source register
waits for an LD, and its one or two words are fetched. -/
structure Ready (s : State) (t : Nat) (ext : Bool) (srcs : List Nat) : Prop where
  issues : canIssue s t = true
  noWait : (s.tile t).bwait = none
  noLoad : ldPending (s.tile t) srcs = false
  fetch : fetchFault s (s.tile t).pc = none
  fetch2 : ext = true → fetchFault s ((s.tile t).pc + 8) = none

/-- Nothing outside tile `t` differs but the Hall cache tags that the fetch touches; no byte of memory differs. -/
structure TileOnly (s u : State) (t : Nat) : Prop where
  rest : u = { s with tiles := u.tiles, m := { s.m with hall := u.m.hall } }
  others : ∀ k, k ≠ t → u.tile k = s.tile k
  bytes : ∀ a, memGet u.m a = memGet s.m a

/-- Tile `T` once the instruction with words `w0`, `w1` at its TILE_PC has issued and left TILE_PC at `pc` (R134, R360). -/
def afterIssue (T : Tile) (pc w0 w1 : BitVec 64) : Tile :=
  { T with pc := pc, seq := T.seq + 1, bwait := none, last32 := ((T.pc, w0, w1) :: T.last32).take 32 }

/-- X[rd] holds `v` unless rd is X0, which reads 0; every other X register holds what it held. -/
def SetsX (T U : Tile) (rd : Nat) (v : BitVec 64) : Prop :=
  ∀ r, U.xr r = if r = 0 then 0 else if r = rd then v else T.xr r

/-- Destinations of loads in flight other than `rd`: a later write of X[rd] is not overwritten by their data (R142). -/
def unload (rd : BitVec 5) (l : List Access) : List Access :=
  l.map (fun a => match a with
    | .ld sq pc r ad dt fl => if r = rd then .ld sq pc 0 ad dt fl else a
    | a => a)

/-- The whole effect of a scalar instruction that writes X[rd] and leaves TILE_PC at `pc`: X registers, loads in
flight to X[rd], TILE_PC, the place in issue order and the record of the last 32 issued. -/
structure WritesX (s u : State) (t : Nat) (w0 w1 : BitVec 64) (pc : BitVec 64) (rd : BitVec 5) (v : BitVec 64) : Prop where
  x : SetsX (s.tile t) (u.tile t) rd.toNat v
  tile : u.tile t = { afterIssue (s.tile t) pc w0 w1 with x := (u.tile t).x, access := unload rd (s.tile t).access }
  rest : TileOnly s u t

/-- Nothing outside tile `t` differs but the Hall cache tags, the dirty bits of sheets whose writes in flight a read has seen (R195) and
the model's counter of free values; no byte of memory differs. -/
structure TileOnly' (s u : State) (t : Nat) : Prop where
  rest : u = { s with tiles := u.tiles, free := u.free, m := { s.m with hall := u.m.hall, dirty := u.m.dirty } }
  others : ∀ k, k ≠ t → u.tile k = s.tile k
  bytes : ∀ a, memGet u.m a = memGet s.m a

/-- No write in flight reaches one of the `n` bytes from module-local address `a` (R114). -/
def Settled (s : State) (a n : Nat) : Prop :=
  ∀ e ∈ inflight s, ∀ w ∈ e.2.2.2, ∀ k < n, w.addr ≠ canon (mapCtx s) (a + k)

/-- The byte that memory holds under module-local address `a`. -/
def localByte (s : State) (a : Nat) : Byte := memGet s.m (canon (mapCtx s) a)

/-- Memory where every write of `ws` stands and every other byte is as it was; the writes name distinct bytes. -/
def Lands (s u : State) (ws : List PW) : Prop :=
  (∀ a, (∀ w ∈ ws, w.addr ≠ a) → memGet u.m a = memGet s.m a) ∧
  (∀ w ∈ ws, (∀ v ∈ ws, v.addr = w.addr → v = w) → memGet u.m w.addr = (memGet s.m w.addr &&& ~~~w.mask) ||| (w.val &&& w.mask))

/-- Commands waiting, time, registers outside the tile pages, host side, fabric, Classrooms, counts, serving and module state are
as they were. -/
structure SameOutside (s u : State) : Prop where
  pending : u.pending = s.pending
  now : u.now = s.now
  regs : u.regs = s.regs
  host : u.host = s.host
  fab : u.fab = s.fab
  rooms : u.rooms = s.rooms
  sys : u.sys = s.sys
  counts : u.counts = s.counts
  ward : u.ward = s.ward
  archive : u.archive = s.archive
  serve : u.serve = s.serve
  adapters : u.adapters = s.adapters
  saves : u.saves = s.saves

/-! ### Issue of engine instructions (R107, R108, R137) -/

/-- The state in which an instruction's own checks are made: its words fetched, TILE_PC past it. -/
def atIssue (s : State) (t : Nat) (ext : Bool) : State :=
  (fetched s t (s.tile t).pc ext).onTile t (fun T => { T with pc := T.pc + (if ext then 16 else 8) })

/-- An engine instruction issues into queue `q` now: a ready tile, room in the queue, a Mover tag, and every Bell that the word names
in the tile's range. -/
structure ReadyQ (s : State) (t q : Nat) (x : Sync) (srcs : List Nat) (remote : Bool) (bells : List (BitVec 19)) : Prop where
  ready : Ready s t x.ext (srcs ++ syncSrcs x)
  room : ((s.tile t).queue q).length < 32
  tag : q = 3 → ((s.tile t).queue 3).length + ((s.tile t).startedQ 3).length < 4096
  bells : syncFault (s.tile t) x remote bells = none

/-- The issue of an engine instruction: it stands at the tail of queue `q` with its address, words, wait, ring and captured
operands, and nothing else differs but TILE_PC, the issue order, the record of the last 32 issued, when the head of the queue began to
wait, and the issued view of the Abacus and of TOPK (R107, R108, R422). -/
structure Enqueued (s u : State) (t q : Nat) (w0 : BitVec 64) (x : Sync) (op : EngineOp) : Prop where
  entry : ∃ i : QInstr, (u.tile t).queue q = (s.tile t).queue q ++ [i] ∧ i.seq = (s.tile t).seq ∧ i.pc = (s.tile t).pc ∧ i.w0 = w0 ∧
    i.w1 = (if x.ext then x.w1 else 0) ∧ i.op = op ∧
    i.wait = (if x.ext ∧ x.wen then some (x.wbell, ((s.tile t).xr x.wx.toNat).setWidth 32) else none) ∧
    i.ring = (if x.ext ∧ x.rinc ≠ 0 then some (x.rbell, x.rinc) else none)
  queues : ∀ k, k ≠ q → (u.tile t).queue k = (s.tile t).queue k
  tile : u.tile t = { afterIssue (s.tile t) ((s.tile t).pc + (if x.ext then 16 else 8)) w0 x.w1 with
    queues := (u.tile t).queues, waits := (u.tile t).waits, topkK := (u.tile t).topkK,
    aba := { (s.tile t).aba with iFused := (u.tile t).aba.iFused, iAnchor := (u.tile t).aba.iAnchor, iValid := (u.tile t).aba.iValid } }
  rest : TileOnly s u t

/-! ### Starts and ends of engine instructions (R107, R110 to R113) -/

/-- The head `i` of queue `q` starts now: nothing holds the tile, no earlier instruction interlocks with it, its Bell has reached
its target, and no stage entry is copying or has failed. -/
structure Startable (s : State) (t q : Nat) (i : QInstr) : Prop where
  head : ((s.tile t).queue q).head? = some i
  can : canStart s t = true
  free : interlocked (s.tile t) i = false
  wait : ∀ b v, i.wait = some (b, v) → (bellGet s b - v).toNat < 2 ^ 31
  stages : ∀ e ∈ (s.tile t).stages, e.2.state ≠ 1 ∧ e.2.state ≠ 3

/-- The head `i` of queue `q` has started with writes `ws`: it has left its queue for the started instructions, and no byte of memory,
no scalar register, no Bell and no other tile has changed. -/
structure Starts (s u : State) (t q : Nat) (i : QInstr) (ws : List PW) : Prop where
  queue : (u.tile t).queue q = ((s.tile t).queue q).tail
  started : (u.tile t).startedQ q = (s.tile t).startedQ q ++ [{ i := i, writes := ws }]
  others : ∀ k, k ≠ q → (u.tile t).queue k = (s.tile t).queue k ∧ (u.tile t).startedQ k = (s.tile t).startedQ k
  x : (u.tile t).x = (s.tile t).x
  pc : (u.tile t).pc = (s.tile t).pc
  bytes : ∀ a, memGet u.m a = memGet s.m a
  bells : u.bells = s.bells
  tiles : ∀ k, k ≠ t → u.tile k = s.tile k

/-- The head of queue `q` has started and stands as `y` among the started instructions, which do not yet show in memory, in an X register,
in TILE_PC, in a Bell or on another tile. -/
structure Begins (s u : State) (t q : Nat) (y : Started) : Prop where
  queue : (u.tile t).queue q = ((s.tile t).queue q).tail
  started : (u.tile t).startedQ q = (s.tile t).startedQ q ++ [y]
  x : (u.tile t).x = (s.tile t).x
  pc : (u.tile t).pc = (s.tile t).pc
  bytes : ∀ a, memGet u.m a = memGet s.m a
  bells : u.bells = s.bells
  tiles : ∀ k, k ≠ t → u.tile k = s.tile k

/-- A read finds what memory holds: no write is in flight, no word is poisoned, and no die is in reset or quiet. -/
structure PlainMemory (s : State) : Prop where
  settled : ∀ e ∈ inflight s, e.2.2.2 = []
  sound : s.m.poison = []
  alive : ∀ d, dieDead s d = false

/-- A tile fault recorded on a tile that held none: code, stage, queue and address of the instruction. -/
def Records (T U : Tile) (code : BitVec 8) (atExec : Bool) (queue : BitVec 3) (pc info0 info1 : BitVec 64) (seq : Nat) : Prop :=
  T.fault.valid = false → U.fault = ⟨code, atExec, queue, true, 0, pc.truncate 48, info0, info1, seq⟩

/-! ### Resets and the Quiet State (R348 to R364) -/

/-- No context has a job, so that nothing restarts a tile. -/
def NoJobs (s : State) : Prop := ∀ c, jobOf s c = none

/-- MGT_RESET_STATUS shows a request: its scope, its target and its result (R361, R363). -/
structure Requested (u : State) (scope target result : Nat) : Prop where
  scope : fld (rget u resetStatus) 1 2 = scope
  target : fld (rget u resetStatus) 3 10 = target
  result : fld (rget u resetStatus) 13 3 = result

/-- Tile `t` holds the state that a tile reset leaves: TILE_CTX and TILE_BELL_RANGE kept, everything else at its reset value, its Slate zero
(R132). Where CTX_GO last started it stays known to firmware (R361). -/
structure ResetTile (s u : State) (t : Nat) : Prop where
  tile : u.tile t = { ctx := (s.tile t).ctx, bellBase := (s.tile t).bellBase, bellCount := (s.tile t).bellCount, entry := (s.tile t).entry }
  slate : ∀ k < slateSize, memGet u.m (slateOf t + k) = 0

/-- Tile `t` has stopped where it stood: it issues nothing and its registers and queues are what they were (R354). -/
structure Frozen (s u : State) (t : Nat) : Prop where
  run : (u.tile t).run = false
  x : (u.tile t).x = (s.tile t).x
  pc : (u.tile t).pc = (s.tile t).pc
  queues : (u.tile t).queues = (s.tile t).queues

/-! ### Host commands (R396, R397) -/

/-- The command service takes `c` and passes its common checks: the service runs, the queue set is enabled, a PF command comes from
the PF, reserved bits are zero and the fields are in range. -/
structure Takes (s : State) (c : HostCmd) (pf : Bool) (masks : List Nat) (legal : Bool) : Prop where
  runs : serviceRuns s = true
  enabled : qEnabled s c.q.val = true
  pf : pf = true → c.q.val = 0
  clean : cmdClean c masks = true
  legal : legal = true

/-- HEAD of the queue set has moved past the command. -/
def Consumed (s u : State) (c : HostCmd) : Prop :=
  rget u (qreg c.q.val 24) = BitVec.ofNat 64 ((fld (rget s (qreg c.q.val 24)) 0 12 + 1) % 2 ^ fld (rget s (qreg c.q.val 8)) 0 4)

/-- The command has ended with a status and a result, to be written as a completion; every other command stands as it was. -/
structure Ended (s u : State) (op : BitVec 16) (c : HostCmd) (status : BitVec 16) (result : BitVec 64) : Prop where
  cmds : u.host.cmds = s.host.cmds ++ [{ op := op, c := c, status := some status, result := result }]
  head : Consumed s u c

/-- The command has been taken and runs. -/
structure Running (s u : State) (op : BitVec 16) (c : HostCmd) : Prop where
  cmds : u.host.cmds = s.host.cmds ++ [{ op := op, c := c }]
  head : Consumed s u c

/-- Nothing but registers and the host side differs. -/
def RegsHost (s u : State) : Prop := u = { s with regs := u.regs, host := u.host }

/-! ### Flits at their destination (R214 to R223) -/

/-- The flit is the next of its link, whole (R215). -/
def InOrder (s : State) (p : Nat) (f : Flit) : Prop := f.num = (portAt s p).got ∧ f.badEnd = false

/-- A flit of TYPE `ty` reaches its destination at `p`: from the local delivery buffer, or at a port that carries it and by a route entry
that delivers it here, on a module that is neither quiet nor in reset and, but for a RETURN, after fewer than 15 modules and under
the seat that it names. -/
structure Delivers (s : State) (p : BitVec 6) (f : Flit) (ty : BitVec 4) : Prop where
  live : fabricLive s = true
  crc : f.hcrcOk = true
  type : f.ty = ty
  seat : ty ≠ 7 → f.hops ≠ 15 ∧ seated s = true ∧ f.dstSeat = selfSeat s
  place : (p = 62 ∧ f ∈ s.fab.localq) ∨ (p.toNat < 36 ∧ portTakes s p.toNat f = true ∧ InOrder s p.toNat f ∧ routedHere s f = true)

/-- The state once the flit has been taken from the local delivery buffer or off its link. -/
def takenIn (s : State) (p : BitVec 6) (f : Flit) : State :=
  if p = 62 then { s with fab := { s.fab with localq := s.fab.localq.erase f } } 
  else consume (setPort s p.toNat (portAt s p.toNat).pass) p.toNat f

/-- No ring of Bell `b` is lost to a reset of its die (R12). -/
def BellLives (s : State) (b : BitVec 19) : Prop := s.sys.dieReset ≠ some (b.toNat / 65536)

end Sys2Proof.Safety
end

