-- ==== Sys2Proof/Certificates/Slice0/Obligations.lean ====
section
/-! DEFINITION. The statements about the model. -/
open Sys2Proof Sys2Proof.Machine Sys2Proof.Safety

/-! ### Scalar instructions -/

/-- ADD to SLTU: X[RD] takes the result of X[RS1] and X[RS2] modulo 2^64 (R141). ADDI to SRAI and LI: X[RD] takes the result of
X[RS1] and the immediate; LI takes the sign-extended immediate, or word 1 and 16 bytes of program where EXT is 1 (R141).
Conventions of the model it rests on: log entry 6. -/
def Obligations.ScalarArithmeticResult : Prop :=
  (∀ (t : TileNo) (f : RForm) (s : State), legalR f = true → Ready s t false [f.rs1.toNat, f.rs2.toNat] →
      ∀ (i : Instr) (op : BitVec 8) (g : BitVec 64 → BitVec 64 → BitVec 64),
        (i, op, g) ∈ ([
          (.add t f, 0x01, fun a b => a + b),
          (.sub t f, 0x02, fun a b => a - b),
          (.and t f, 0x03, fun a b => a &&& b),
          (.or t f, 0x04, fun a b => a ||| b),
          (.xor t f, 0x05, fun a b => a ^^^ b),
          (.shl t f, 0x06, fun a b => a <<< (b.toNat % 64)),
          (.shr t f, 0x07, fun a b => a >>> (b.toNat % 64)),
          (.sra t f, 0x08, fun a b => BitVec.ofInt 64 (a.toInt / 2 ^ (b.toNat % 64))),
          (.mul t f, 0x09, fun a b => BitVec.ofNat 64 (a.toNat * b.toNat)),
          (.min t f, 0x0A, fun a b => BitVec.ofInt 64 (min a.toInt b.toInt)),
          (.max t f, 0x0B, fun a b => BitVec.ofInt 64 (max a.toInt b.toInt)),
          (.slt t f, 0x0C, fun a b => if a.toInt < b.toInt then 1 else 0),
          (.sltu t f, 0x0D, fun a b => if a.toNat < b.toNat then 1 else 0)] : List (Instr × BitVec 8 × (BitVec 64 → BitVec 64 → BitVec 64))) →
        ∃ u, exec i s = .next u ∧
          WritesX s u t (f.w0 op) f.w1 ((s.tile t).pc + 8) f.rd (g ((s.tile t).xr f.rs1.toNat) ((s.tile t).xr f.rs2.toNat))) ∧
  (∀ (t : TileNo) (f : IForm) (s : State),
      (legalI f = true → Ready s t false [f.rs1.toNat] →
        ∀ (i : Instr) (op : BitVec 8) (g : BitVec 64 → BitVec 64 → BitVec 64),
          (i, op, g) ∈ ([
            (.addi t f, 0x10, fun a b => a + b),
            (.andi t f, 0x11, fun a b => a &&& b),
            (.ori t f, 0x12, fun a b => a ||| b),
            (.xori t f, 0x13, fun a b => a ^^^ b)] : List (Instr × BitVec 8 × (BitVec 64 → BitVec 64 → BitVec 64))) →
          ∃ u, exec i s = .next u ∧
            WritesX s u t (f.w0 op) f.w1 ((s.tile t).pc + 8) f.rd (g ((s.tile t).xr f.rs1.toNat) (f.imm.signExtend 64))) ∧
      (legalShift f = true → Ready s t false [f.rs1.toNat] →
        ∀ (i : Instr) (op : BitVec 8) (g : BitVec 64 → Nat → BitVec 64),
          (i, op, g) ∈ ([
            (.shli t f, 0x14, fun a n => a <<< n),
            (.shri t f, 0x15, fun a n => a >>> n),
            (.srai t f, 0x16, fun a n => BitVec.ofInt 64 (a.toInt / 2 ^ n))] : List (Instr × BitVec 8 × (BitVec 64 → Nat → BitVec 64))) →
          ∃ u, exec i s = .next u ∧
            WritesX s u t (f.w0 op) f.w1 ((s.tile t).pc + 8) f.rd (g ((s.tile t).xr f.rs1.toNat) f.imm.toNat)) ∧
      (legalLi f = true → Ready s t f.ext [] →
        ∃ u, exec (.li t f) s = .next u ∧
          WritesX s u t (f.w0 0x17) f.w1 ((s.tile t).pc + (if f.ext then 16 else 8)) f.rd
            (if f.ext then f.w1 else f.imm.signExtend 64)))

/-- BEQ to BGEU: where the comparison of X[RS1] and X[RS2] holds, TILE_PC takes the address of this instruction plus 8 times the
signed offset, else the next instruction's address; nothing else changes (R141, R145). JMP, JAL and JR: the target is the address
of this instruction plus 8 times the offset, for JR X[RS1] plus the immediate; JAL writes the next instruction's address to X[RD]
(R141, R145). Conventions of the model it rests on: log entry 17. -/
def Obligations.BranchAndJumpTarget : Prop :=
  (∀ (t : TileNo) (f : BForm) (s : State), legalB f = true → Ready s t false [f.rs1.toNat, f.rs2.toNat] →
      ∀ (i : Instr) (op : BitVec 8) (c : BitVec 64 → BitVec 64 → Bool),
        (i, op, c) ∈ ([
          (.beq t f, 0x20, fun a b => decide (a = b)),
          (.bne t f, 0x21, fun a b => decide (a ≠ b)),
          (.blt t f, 0x22, fun a b => decide (a.toInt < b.toInt)),
          (.bge t f, 0x23, fun a b => decide (b.toInt ≤ a.toInt)),
          (.bltu t f, 0x24, fun a b => decide (a.toNat < b.toNat)),
          (.bgeu t f, 0x25, fun a b => decide (b.toNat ≤ a.toNat))] : List (Instr × BitVec 8 × (BitVec 64 → BitVec 64 → Bool))) →
        ∃ u, exec i s = .next u ∧ TileOnly s u t ∧
          u.tile t = afterIssue (s.tile t) (if c ((s.tile t).xr f.rs1.toNat) ((s.tile t).xr f.rs2.toNat)
            then (s.tile t).pc + 8 * f.off.signExtend 64 else (s.tile t).pc + 8) (f.w0 op) f.w1) ∧
  (∀ (t : TileNo) (s : State),
      (∀ f : BForm, legalJmp f = true → Ready s t false [] →
        ∃ u, exec (.jmp t f) s = .next u ∧ TileOnly s u t ∧
          u.tile t = afterIssue (s.tile t) ((s.tile t).pc + 8 * f.off.signExtend 64) (f.w0 0x26) f.w1) ∧
      (∀ f : IForm, legalI1 f = true → Ready s t false [] →
        ∃ u, exec (.jal t f) s = .next u ∧
          WritesX s u t (f.w0 0x27) f.w1 ((s.tile t).pc + 8 * f.imm.signExtend 64) f.rd ((s.tile t).pc + 8)) ∧
      (∀ f : IForm, legalJr f = true → Ready s t false [f.rs1.toNat] →
        ∃ u, exec (.jr t f) s = .next u ∧ TileOnly s u t ∧
          u.tile t = afterIssue (s.tile t) ((s.tile t).xr f.rs1.toNat + f.imm.signExtend 64) (f.w0 0x28) f.w1))

/-- NOP does nothing, HALT stops issue and lets the queues drain, STEP writes TILE_STEP.STEP, DADD adds X[RS1] to the base field of
D[RD] modulo 2^48 (R141, R144, R133). Conventions of the model it rests on: log entry 6. -/
def Obligations.NopHaltStepDaddEffect : Prop :=
  ∀ (t : TileNo) (f : RForm) (s : State),
    (legalR0 f = true → Ready s t false [] →
      (∃ u, exec (.nop t f) s = .next u ∧ TileOnly s u t ∧ u.tile t = afterIssue (s.tile t) ((s.tile t).pc + 8) (f.w0 0x00) f.w1) ∧
      (∃ u, exec (.halt t f) s = .next u ∧ TileOnly s u t ∧
        u.tile t = { afterIssue (s.tile t) ((s.tile t).pc + 8) (f.w0 0x29) f.w1 with
          run := false, halt := if (s.tile t).halt = .hold then .hold else .drain })) ∧
    (legalStep f = true → Ready s t false [f.rs1.toNat] →
      ∃ u, exec (.step t f) s = .next u ∧ TileOnly s u t ∧
        u.tile t = { afterIssue (s.tile t) ((s.tile t).pc + 8) (f.w0 0x2A) f.w1 with
          step := ((s.tile t).xr f.rs1.toNat).setWidth 32 }) ∧
    (legalDadd f = true → Ready s t false [f.rs1.toNat] →
      ∃ u, exec (.dadd t f) s = .next u ∧ TileOnly s u t ∧
        u.tile t = { afterIssue (s.tile t) ((s.tile t).pc + 8) (f.w0 0x2D) f.w1 with d := (u.tile t).d } ∧
        (∀ d, d ≠ f.rd.toNat → (u.tile t).dr d = (s.tile t).dr d) ∧
        ((u.tile t).dr f.rd.toNat).extractLsb' 0 48 =
          ((s.tile t).dr f.rd.toNat).extractLsb' 0 48 + ((s.tile t).xr f.rs1.toNat).setWidth 48 ∧
        ((u.tile t).dr f.rd.toNat).extractLsb' 48 208 = ((s.tile t).dr f.rd.toNat).extractLsb' 48 208)

/-! ### Scalar access to memory and registers -/

/-- LD at a mapped address that answers without error: the access goes into flight with the 8 bytes at X[RS1] + IMM, bits [2:0] of
the address ignored; no X register has changed yet. The data is what memory holds where no write in flight races with it, and then no
dirty bit changes (R142, R114). ST at a mapped address that answers without error: to the tile's own Slate window the 8 bytes of X[RS2] are in memory at
once; elsewhere the access is posted with those bytes and memory holds what it held (R142). LD of the bytes of an ST that is still posted
captures the stored value (R142). Conventions of the model it rests on: log entries 6, 20 and 28. -/
def Obligations.LoadAndStoreIssue : Prop :=
  (∀ (t : TileNo) (f : IForm) (s : State), legalI f = true → Ready s t false [f.rs1.toNat] →
      let a := ((s.tile t).xr f.rs1.toNat + f.imm.signExtend 64).toNat / 8 * 8
      scalarError s true a = none →
        ∃ u d, exec (.ld t f) s = .next u ∧ TileOnly' s u t ∧ (∀ r, (u.tile t).xr r = (s.tile t).xr r) ∧
          u.tile t = { afterIssue (s.tile t) ((s.tile t).pc + 8) (f.w0 0x18) f.w1 with
            x := (u.tile t).x,
            access := unload f.rd (s.tile t).access ++ [.ld (s.tile t).seq (s.tile t).pc f.rd a d none] } ∧
          (Settled s a 8 → u.m.dirty = s.m.dirty ∧ ∀ k < 8, d.extractLsb' (8 * k) 8 = localByte s (a + k)) ∧
          (∀ sq pc (v : BitVec 64) e, let ws := (List.range 8).map (fun k => ({ addr := canon (mapCtx s) (a + k), mask := 0xFF, val := v.extractLsb' (8 * k) 8 } : PW))
            .st sq pc a ws e ∈ (s.tile t).access →
            (∀ y ∈ inflight s, (∃ w ∈ y.2.2.2, ∃ k < 8, w.addr = canon (mapCtx s) (a + k)) → y = (t.val, 5, sq, ws)) → d = v)) ∧
  (∀ (t : TileNo) (f : BForm) (s : State), legalB f = true → Ready s t false [f.rs1.toNat, f.rs2.toNat] →
      let a := ((s.tile t).xr f.rs1.toNat + f.off.signExtend 64).toNat / 8 * 8
      scalarError s false a = none →
        ∃ u, exec (.st t f) s = .next u ∧ SameOutside s u ∧ u.bells = s.bells ∧ (u.tile t).x = (s.tile t).x ∧ (u.tile t).pc = (s.tile t).pc + 8 ∧
          (slateOf t ≤ a ∧ a < slateOf t + slateSize →
            (∀ k < 8, memGet u.m (a + k) = ((s.tile t).xr f.rs2.toNat).extractLsb' (8 * k) 8) ∧
            (∀ b, (b < a ∨ a + 8 ≤ b) → memGet u.m b = memGet s.m b) ∧ (u.tile t).access = (s.tile t).access) ∧
          (¬ (slateOf t ≤ a ∧ a < slateOf t + slateSize) →
            (∀ b, memGet u.m b = memGet s.m b) ∧
            ∃ ws, (u.tile t).access = (s.tile t).access ++ [.st (s.tile t).seq (s.tile t).pc a ws none] ∧
              ws = (List.range 8).map (fun k =>
                ({ addr := canon (mapCtx s) (a + k), mask := 0xFF, val := ((s.tile t).xr f.rs2.toNat).extractLsb' (8 * k) 8 } : PW))))

/-- The end of the oldest scalar access: an LD that ends cleanly writes its data to its register and no byte of memory; an ST that
ends cleanly, its target answering, puts its bytes into memory and no other byte changes. An error found at issue, at completion or
because the target is in reset by then leaves X[RD] and every byte of memory as they were and raises a fault at execution with QUEUE
5: the code found at issue, or FLT_MEM_ERROR (R142, R12). Conventions of the model it rests on: log entries 20 and 32. -/
def Obligations.ScalarAccessEnd : Prop :=
  ∀ (t : TileNo) (s : State),
    let Faults (u : State) (code : BitVec 8) (info0 info1 : BitVec 64) : Prop :=
      (u.tile t).x = (s.tile t).x ∧ (∀ b, memGet u.m b = memGet s.m b) ∧ (u.tile t).run = false ∧ (u.tile t).fault.valid = true ∧
        ((s.tile t).fault.valid = false → (u.tile t).fault.code = code ∧ (u.tile t).fault.queue = 5 ∧ (u.tile t).fault.atExec = true ∧
          (u.tile t).fault.info0 = info0 ∧ (u.tile t).fault.info1 = info1)
    (∀ sq pc rd a d r, (s.tile t).access = .ld sq pc rd a d none :: r →
      (∃ u, exec (.scalarAccessComplete t .clean) s = .next u ∧ TileOnly s u t ∧ SetsX (s.tile t) (u.tile t) rd.toNat d ∧
        u.tile t = { s.tile t with x := (u.tile t).x, access := r }) ∧
      (∀ k c, ∃ u, exec (.scalarAccessComplete t (.memError k c)) s = .next u ∧ Faults u 0x43 (BitVec.ofNat 64 a) (c.setWidth 64))) ∧
    (∀ sq pc a ws r, (s.tile t).access = .st sq pc a ws none :: r →
      ((∀ w ∈ ws, taken s w = true) → ∃ u, exec (.scalarAccessComplete t .clean) s = .next u ∧ SameOutside s u ∧ Lands s u ws ∧
        (u.tile t).x = (s.tile t).x) ∧
      ((∃ w ∈ ws, taken s w = false) → ∃ u, exec (.scalarAccessComplete t .clean) s = .next u ∧ Faults u 0x43 (BitVec.ofNat 64 a) 6) ∧
      (∀ k c, ∃ u, exec (.scalarAccessComplete t (.memError k c)) s = .next u ∧ Faults u 0x43 (BitVec.ofNat 64 a) (c.setWidth 64))) ∧
    (∀ e sq pc rd a d x r, (s.tile t).access = .ld sq pc rd a d (some x) :: r →
      ∃ u, exec (.scalarAccessComplete t e) s = .next u ∧ Faults u x.code x.info0 x.info1) ∧
    (∀ e sq pc a ws x r, (s.tile t).access = .st sq pc a ws (some x) :: r →
      ∃ u, exec (.scalarAccessComplete t e) s = .next u ∧ Faults u x.code x.info0 x.info1)

/-- CRR writes to X[RD] the register of the tile's own page at its offset, and zero where the offset holds none: TILE_STEP, TILE_SEED,
TILE_WAIT_LIMIT, TILE_SAVE_BASE, the fault record, DRL_FAULT_ELEM, the Mover's counters and the three registers of each stage entry are
read out here by their fields (R143, R133, R185, R209). CRW of a status register (ABA_STATUS, DRL_STATUS, ROD_STATUS, MOV_STATUS)
clears the bits written 1; of MOV_STGn_UP and LOW stores bits [47:12] while the entry is idle and nothing otherwise, of DEADLINE stores
the value; it leaves every read-only register of the page as it was (R143, R209). CRW to a TILE_ register or to an offset that holds
no register raises FLT_PRIV at issue: the fault is recorded with the address of the CRW, issue stops, and no register of the page, no
X register and no byte of memory changes (R143, R122). Conventions of the model it rests on: log entry 6. -/
def Obligations.ControlRegisterAccessAndPrivilege : Prop :=
  (∀ (t : TileNo) (f : IForm) (s : State), legalI1 f = true → Ready s t false [] →
      let T := s.tile t
      let o := f.imm.toNat % 65536
      ∃ u v, exec (.crr t f) s = .next u ∧ WritesX s u t (f.w0 0x1A) f.w1 (T.pc + 8) f.rd v ∧
        (pageRead (s.onTile t (·.advance false)) t o = none → v = 0) ∧
        (∀ r, (o, r) ∈ ([(0x0018, T.step.setWidth 64), (0x0020, T.seed), (0x0038, T.waitLimit.setWidth 64), (0x0040, T.saveBase.setWidth 64),
            (0x0050, T.fault.pc.setWidth 64), (0x0058, T.fault.info0), (0x0060, T.fault.info1), (0x0510, T.eng.drlElem),
            (0x0608, T.eng.converted), (0x0610, T.eng.clip.setWidth 64), (0x0618, T.eng.vanish.setWidth 64), (0x0620, T.eng.nonf.setWidth 64),
            (0x0628, T.eng.outInfN.setWidth 64), (0x0630, T.eng.late)] : List (Nat × BitVec 64)) → v = r) ∧
        (∀ n < 64, (o = 0x0800 + 32 * n → v = (T.stage n).up.setWidth 64) ∧ (o = 0x0808 + 32 * n → v = (T.stage n).low.setWidth 64) ∧
          (o = 0x0810 + 32 * n → v = (T.stage n).dl)) ∧
        (∀ r, pageRead (s.onTile t (·.advance false)) t o = some r → v = r)) ∧
  (∀ (t : TileNo) (f : BForm) (s : State), legalCrw f = true → Ready s t false [f.rs2.toNat] →
      let T := s.tile t
      let A := afterIssue T (T.pc + 8) (f.w0 0x1B) f.w1
      let v := T.xr f.rs2.toNat
      let o := f.off.toNat % 65536
      (∀ U, (o, U) ∈ ([
          (0x0400, { A with aba := { T.aba with ovf := T.aba.ovf &&& ~~~(v.extractLsb' 8 4) } }),
          (0x0500, { A with eng := { T.eng with rowOvf := T.eng.rowOvf && !v.getLsbD 8, readInf := T.eng.readInf && !v.getLsbD 9 } }),
          (0x0580, { A with eng := { T.eng with nanSeen := T.eng.nanSeen && !v.getLsbD 1, negP := T.eng.negP && !v.getLsbD 2 } }),
          (0x0600, { A with eng := { T.eng with clipSeen := T.eng.clipSeen && !v.getLsbD 8, nonfSeen := T.eng.nonfSeen && !v.getLsbD 9,
                                                outInf := T.eng.outInf && !v.getLsbD 10 } })] : List (Nat × Tile)) →
        ∃ u, exec (.crw t f) s = .next u ∧ TileOnly s u t ∧ u.tile t = U) ∧
      (o ∈ [0x0408, 0x0410, 0x0418, 0x0420, 0x0428, 0x0430, 0x0438, 0x0440, 0x0508, 0x0510, 0x0608, 0x0610, 0x0618, 0x0620, 0x0628, 0x0630] →
        ∃ u, exec (.crw t f) s = .next u ∧ TileOnly s u t ∧ u.tile t = A) ∧
      (∀ n < 64,
        let e := T.stage n
        ∀ g : Stage, (o = 0x0800 + 32 * n ∧ g = (if e.state = 0 then { e with up := (v.extractLsb' 12 36).setWidth 48 <<< 12 } else e)) ∨
            (o = 0x0808 + 32 * n ∧ g = (if e.state = 0 then { e with low := (v.extractLsb' 12 36).setWidth 48 <<< 12 } else e)) ∨
            (o = 0x0810 + 32 * n ∧ g = { e with dl := v }) →
          ∃ u, exec (.crw t f) s = .next u ∧ TileOnly s u t ∧ u.tile t = { A with stages := (u.tile t).stages } ∧ (u.tile t).stage n = g ∧
            (∀ k, k ≠ n → (u.tile t).stage k = T.stage k))) ∧
  (∀ (t : TileNo) (f : BForm) (s : State), legalCrw f = true → Ready s t false [f.rs2.toNat] → (s.tile t).fault.valid = false →
      ((f.off.toNat % 65536 ≤ 0x60 ∧ f.off.toNat % 8 = 0) ∨ pageRead (s.onTile t (·.advance false)) t (f.off.toNat % 65536) = none) →
        ∃ u, exec (.crw t f) s = .next u ∧ (∀ a, memGet u.m a = memGet s.m a) ∧
          u.tile t = { s.tile t with
            run := false, bwait := none, halt := if (s.tile t).halt = .hold then .hold else .drain,
            fault := { code := 0x03, atExec := false, queue := 5, valid := true, more := 0, pc := (s.tile t).pc.truncate 48, info0 := 0, info1 := 0,
                       seq := (s.tile t).seq } })

/-- DLD loads D[RD] from 32 bytes of the tile's Slate at X[RS1] + IMM; DST stores D[RS2] there; bits [4:0] of the offset are
ignored (R139, R144). Conventions of the model it rests on: log entries 6 and 28. -/
def Obligations.CardLoadStoreEffect : Prop :=
  ∀ (t : TileNo) (s : State),
    (∀ f : IForm, legalI f = true → Ready s t false [f.rs1.toNat] →
      let o := ((s.tile t).xr f.rs1.toNat + f.imm.signExtend 64).toNat / 32 * 32
      o + 32 ≤ slateSize → accessError s true (slateOf t + o) 32 = none →
        ∃ u v, exec (.dld t f) s = .next u ∧ TileOnly' s u t ∧
          (∀ d, (u.tile t).dr d = if d = f.rd.toNat then v else (s.tile t).dr d) ∧
          u.tile t = { afterIssue (s.tile t) ((s.tile t).pc + 8) (f.w0 0x2B) f.w1 with d := (u.tile t).d } ∧
          (Settled s (slateOf t + o) 32 → ∀ k < 32, v.extractLsb' (8 * k) 8 = memGet s.m (slateOf t + o + k))) ∧
    (∀ f : BForm, legalB f = true → Ready s t false [f.rs1.toNat] →
      let o := ((s.tile t).xr f.rs1.toNat + f.off.signExtend 64).toNat / 32 * 32
      o + 32 ≤ slateSize →
        ∃ u, exec (.dst t f) s = .next u ∧ SameOutside s u ∧ u.bells = s.bells ∧ (u.tile t).x = (s.tile t).x ∧ (u.tile t).d = (s.tile t).d ∧
          (u.tile t).pc = (s.tile t).pc + 8 ∧
          (∀ k < 32, memGet u.m (slateOf t + o + k) = ((s.tile t).dr f.rs2.toNat).extractLsb' (8 * k) 8) ∧
          (∀ b, (b < slateOf t + o ∨ slateOf t + o + 32 ≤ b) → memGet u.m b = memGet s.m b))

/-- The Bell instructions on a Bell of the tile's range: BSET replaces its value; BRING adds its increment modulo 2^32 at once
where no ST of the tile is in flight, and waits behind one otherwise; the Bell store of a die in reset takes neither. BWAIT passes
where the Bell minus its target, modulo 2^32, is below 2^31, and else stays at its TILE_PC; a pass that no pipeline Bell delayed changes
nothing but the issue (R116, R117, R142, R12, R247). Conventions of the model it rests on: log entries 6, 20, 21, 32 and 45. -/
def Obligations.BellInstructionEffect : Prop :=
  ∀ (t : TileNo) (f : IForm) (s : State),
    let b : BitVec 19 := f.imm.setWidth 19
    let v : BitVec 32 := ((s.tile t).xr f.rs1.toNat).setWidth 32
    let Takes (w : BitVec 32) (c : BitVec 19) : BitVec 32 := if c = b ∧ s.sys.dieReset ≠ some (b.toNat / 65536) then w else bellGet s c
    tileBell (s.tile t) b = true →
    (legalBell f = true → Ready s t false [f.rs1.toNat] →
      (∃ u, exec (.bset t f) s = .next u ∧ (∀ c, bellGet u c = Takes v c) ∧
        u = { s with bells := u.bells, tiles := u.tiles, m := { s.m with hall := u.m.hall } } ∧
        u.tile t = afterIssue (s.tile t) ((s.tile t).pc + 8) (f.w0 0x32) f.w1) ∧
      ((bellGet s b - v).toNat < 2 ^ 31 → tget none (s.tile t).waits 5 = none → ∃ u, exec (.bwait t f) s = .next u ∧ TileOnly s u t ∧
        u.tile t = { afterIssue (s.tile t) ((s.tile t).pc + 8) (f.w0 0x31) f.w1 with waits := (u.tile t).waits } ∧
        (∀ q, tget none (u.tile t).waits q = tget none (s.tile t).waits q)) ∧
      ((bellGet s b - v).toNat < 2 ^ 31 → ∃ u, exec (.bwait t f) s = .next u ∧ (u.tile t).pc = (s.tile t).pc + 8 ∧ (u.tile t).x = (s.tile t).x ∧
        tget none (u.tile t).waits 5 = none ∧ u.bells = s.bells ∧ (∀ a, memGet u.m a = memGet s.m a)) ∧
      (2 ^ 31 ≤ (bellGet s b - v).toNat → ∃ u, exec (.bwait t f) s = .next u ∧ TileOnly s u t ∧
        u.tile t = { s.tile t with bwait := some (b, v), waits := (u.tile t).waits } ∧
        (∀ q, q ≠ 5 → tget none (u.tile t).waits q = tget none (s.tile t).waits q))) ∧
    (legalBring f = true → Ready s t false [] →
      ((∀ a ∈ (s.tile t).access, ∀ sq pc ad ws e, a ≠ .st sq pc ad ws e) →
        ∃ u, exec (.bring t f) s = .next u ∧ (∀ c, bellGet u c = Takes (bellGet s b + BitVec.ofNat 32 (f.imm.toNat / 2 ^ 19)) c) ∧
          u = { s with bells := u.bells, tiles := u.tiles, m := { s.m with hall := u.m.hall } } ∧
          u.tile t = afterIssue (s.tile t) ((s.tile t).pc + 8) (f.w0 0x30) f.w1) ∧
      ((∃ sq pc ad ws e, .st sq pc ad ws e ∈ (s.tile t).access) →
        ∃ u, exec (.bring t f) s = .next u ∧ TileOnly s u t ∧
          u.tile t = { afterIssue (s.tile t) ((s.tile t).pc + 8) (f.w0 0x30) f.w1 with
            access := (s.tile t).access ++ [.bring b (BitVec.ofNat 8 (f.imm.toNat / 2 ^ 19))] }))

/-- Bells count modulo 2^32, and a wait for target v is satisfied exactly where the Bell's value b has (b − v) mod 2^32 < 2^31 (R116): BWAIT
then passes and else stands where it is (R117), and the head of a queue then starts, shown of an ABMODE, and else stays where it is (R112).
A target up to 2^31 − 1 ahead of the Bell waits, across the wrap too, and passes once the Bell has reached it (R116). The Bell rung lies on a
die that is not in reset (R12). How the tile holds an unsatisfied BWAIT is the field of log entry 21. -/
def Obligations.BellWaitCondition : Prop :=
  ∀ (t : TileNo) (f : IForm) (s : State),
    let b : BitVec 19 := f.imm.setWidth 19
    let v : BitVec 32 := ((s.tile t).xr f.rs1.toNat).setWidth 32
    tileBell (s.tile t) b = true → s.sys.dieReset ≠ some (b.toNat / 65536) →
    (legalBell f = true → Ready s t false [f.rs1.toNat] →
      (((bellGet s b).toNat + 2 ^ 32 - v.toNat) % 2 ^ 32 < 2 ^ 31 → ∃ u, exec (.bwait t f) s = .next u ∧ (u.tile t).pc = (s.tile t).pc + 8 ∧
        (u.tile t).bwait = none) ∧
      (2 ^ 31 ≤ ((bellGet s b).toNat + 2 ^ 32 - v.toNat) % 2 ^ 32 → ∃ u, exec (.bwait t f) s = .next u ∧ (u.tile t).pc = (s.tile t).pc ∧
        (u.tile t).bwait = some (b, v)) ∧
      (∀ k, 1 ≤ k → k ≤ 2 ^ 31 - 1 → v.toNat = ((bellGet s b).toNat + k) % 2 ^ 32 → ∃ u, exec (.bwait t f) s = .next u ∧ (u.tile t).bwait = some (b, v) ∧
        bellMet (bellAdd s b k) b v = true)) ∧
    (∀ (q : Fin 5) (h : QInstr) (c : BitVec 19) (w : BitVec 32), ((s.tile t).queue q.val).head? = some h → h.wait = some (c, w) →
      (2 ^ 31 ≤ ((bellGet s c).toNat + 2 ^ 32 - w.toNat) % 2 ^ 32 → exec (.instructionStart t q) s = .next s) ∧
      (q = 0 → ∀ m, h.op = .abmode m → canStart s t = true → interlocked (s.tile t) h = false → (∀ e ∈ (s.tile t).stages, e.2.state ≠ 1 ∧ e.2.state ≠ 3) →
        ((bellGet s c).toNat + 2 ^ 32 - w.toNat) % 2 ^ 32 < 2 ^ 31 → ∃ u, exec (.instructionStart t 0) s = .next u ∧ Starts s u t 0 h [])) ∧
    (legalBring f = true → Ready s t false [] → (s.tile t).access = [] →
      ∃ u, exec (.bring t f) s = .next u ∧ (bellGet u b).toNat = ((bellGet s b).toNat + f.imm.toNat / 2 ^ 19) % 2 ^ 32)

/-! ### Issue of engine instructions -/

/-- MMUL, LADD and ABMODE that pass their checks stand at the tail of queue 0 with the tensor cards their D registers hold and the
scalar operands. In the issued view the slot of an MMUL or LADD then holds a valid anchor: the one it held where a chain goes on, else
the instruction's own; other slots and the mode stay. ABMODE leaves its mode and no valid anchor (R108, R146 to R148, R422). ATT and
DRILL read their cards from Slate at issue (bits [5:0] of the offset ignored) and, where the checks pass, stand at the tail of queues 0
and 1 with those bytes, the tensor cards that they name, TILE_STEP and TILE_SEED; ATT leaves its slot without a valid anchor in the
issued view, DRILL leaves the view as it was (R108, R140, R149, R150). Conventions of the model it rests on: log entries 6 and 33. -/
def Obligations.MatrixAttentionAndDrillIssue : Prop :=
  let Chains (A B : Abacus) (slot : Nat) (acc : Bool) (anchor : Int) : Prop :=
    B.iFused = A.iFused ∧ tget false B.iValid slot = true ∧
      tget 0 B.iAnchor slot = (if acc = true ∧ tget false A.iValid slot = true then tget 0 A.iAnchor slot else anchor) ∧
      ∀ k, k ≠ slot → tget false B.iValid k = tget false A.iValid k ∧ tget 0 B.iAnchor k = tget 0 A.iAnchor k
  (∀ (t : TileNo) (s : State),
      (∀ f : MmulForm, legalMmul f = true → ReadyQ s t 0 f.sync [f.kx.toNat] false [] →
        mmulFault (atIssue s t f.sync.ext) t (s.tile t) f = none →
          ∃ u, exec (.mmul t f) s = .next u ∧ Enqueued s u t 0 f.w0 f.sync
            (.mmul f.slot.toNat f.acc (cardOf (s.tile t) f.da.toNat) (cardOf (s.tile t) f.db.toNat) ((s.tile t).xr f.kx.toNat).toNat f.kn.toNat) ∧
            Chains (s.tile t).aba (u.tile t).aba f.slot.toNat f.acc ((cardOf (s.tile t) f.da.toNat).exp + (cardOf (s.tile t) f.db.toNat).exp)) ∧
      (∀ f : LaddForm, legalLadd f = true → ReadyQ s t 0 f.sync [f.nx.toNat] false [] →
        laddFault (atIssue s t f.sync.ext) t (s.tile t) f = none →
          ∃ u, exec (.ladd t f) s = .next u ∧ Enqueued s u t 0 f.w0 f.sync
            (.ladd f.slot.toNat (cardOf (s.tile t) f.dc.toNat) ((s.tile t).xr f.nx.toNat).toNat) ∧
            Chains (s.tile t).aba (u.tile t).aba f.slot.toNat true (cardOf (s.tile t) f.dc.toNat).expa) ∧
      (∀ f : AbmodeForm, legalAbmode f = true → ReadyQ s t 0 f.sync [] false [] →
        ∃ u, exec (.abmode t f) s = .next u ∧ Enqueued s u t 0 f.w0 f.sync (.abmode f.fused) ∧
          (u.tile t).aba.iFused = f.fused ∧ (u.tile t).aba.iValid = [])) ∧
  (∀ (t : TileNo) (s : State),
      (∀ f : AttForm, legalAtt f = true → ReadyQ s t 0 f.sync [f.ax.toNat] false [] →
        let v := atIssue s t f.sync.ext
        let a := slateOf t + ((s.tile t).xr f.ax.toNat).toNat / 64 * 64
        let l := vbytes (mapCtx v) (viewOf v t 5) a 64
        a + 64 ≤ slateOf t + slateSize → attFault v t (s.tile t) f.slot.toNat a l = none →
          ∃ u, exec (.att t f) s = .next u ∧ Enqueued s u t 0 f.w0 f.sync
            (.att f.slot.toNat (s.tile t).aba.iFused (a - slateOf t) l (attPages v t (parseAtt l)) (cardOf (s.tile t) (parseAtt l).dq)
              (cardOf (s.tile t) (parseAtt l).dout) (cardOf (s.tile t) (parseAtt l).dstat) (s.tile t).step (s.tile t).seed) ∧
            tget false (u.tile t).aba.iValid f.slot.toNat = false ∧
            (∀ k, k ≠ f.slot.toNat → tget false (u.tile t).aba.iValid k = tget false (s.tile t).aba.iValid k) ∧
            (u.tile t).aba.iFused = (s.tile t).aba.iFused ∧ (u.tile t).aba.iAnchor = (s.tile t).aba.iAnchor) ∧
      (∀ f : DrillForm, legalDrill f = true → ReadyQ s t 1 f.sync [f.xs.toNat] false [] →
        let v := atIssue s t f.sync.ext
        let a := slateOf t + ((s.tile t).xr f.xs.toNat + f.imm.setWidth 64).toNat / 64 * 64
        let l := vbytes (mapCtx v) (viewOf v t 5) a 64
        a + 64 ≤ slateOf t + slateSize → drillFault v t (s.tile t) a l = none →
          let d := parseDrill l
          let e := drillExt v t d
          let T := s.tile t
          ∃ u, exec (.drill t f) s = .next u ∧ Enqueued s u t 1 f.w0 f.sync (.drill T.aba.iFused l e (cardOf T d.inC) (cardOf T d.outC)
              (cardOf T d.op2C) (cardOf T d.auxC) (cardOf T (wfld e 5 0 5)) (cardOf T (wfld e 5 8 5)) (cardOf T (wfld e 5 16 5)) T.step T.seed) ∧
            (u.tile t).aba = T.aba))

/-- Every Rod instruction whose range check (VLD, VST, VGATHER, VSCATTER) or K check (TOPK) passes stands at the tail of queue 2
with its fields, X[XS] and TILE_SEED; no V or P register changes at issue (R108, R140, R151, R152). Conventions of the model it
rests on: log entry 6. -/
def Obligations.RodIssue : Prop :=
  ∀ (t : TileNo) (f : RodForm) (s : State), ReadyQ s t 2 f.sync [f.xs.toNat] false [] →
    ∀ (i : Instr) (op : Nat) (legal : RodForm → Bool),
      (i, op, legal) ∈ ([
        (.vadd t f, 0x60, legalVarith), (.vsub t f, 0x61, legalVarith), (.vmul t f, 0x62, legalVarith), (.vfma t f, 0x63, legalVfma),
        (.vmin t f, 0x64, legalVminmax), (.vmax t f, 0x65, legalVminmax), (.vcmp t f, 0x66, legalVcmp), (.vsel t f, 0x67, legalVsel),
        (.vand t f, 0x68, legalVbit), (.vor t f, 0x69, legalVbit), (.vxor t f, 0x6A, legalVbit), (.vshl t f, 0x6B, legalVbit),
        (.vshr t f, 0x6C, legalVbit), (.vperm t f, 0x6D, legalVperm), (.vperm2 t f, 0x6E, legalVperm2), (.vred t f, 0x6F, legalVred),
        (.vld t f, 0x70, legalVld), (.vst t f, 0x71, legalVst), (.vgather t f, 0x72, legalVgather),
        (.vscatter t f, 0x73, legalVscatter), (.vbcast t f, 0x74, legalVbcast), (.pset t f, 0x75, legalPset),
        (.topk t f, 0x76, legalTopk), (.bisect t f, 0x77, legalBisect), (.sample t f, 0x78, legalSample),
        (.vcvt t f, 0x79, legalVcvt)] : List (Instr × Nat × (RodForm → Bool))) →
      legal f = true → rodFault (s.tile t) op f = none →
        ∃ u, exec i s = .next u ∧
          Enqueued s u t 2 (f.w0 (BitVec.ofNat 8 op)) f.sync (.rod op f ((s.tile t).xr f.xs.toNat) (s.tile t).seed)

/-- MOVE and PACK that pass their checks stand at the tail of queue 3: MOVE with its two cards, PACK with the 64 bytes of its
descriptor and the Slate offset of its result word (R108, R154, R155). Their starts, where a read finds what memory holds: a MODE 0 MOVE
between cards of one KIND, FORMAT and exponent without lifts is to write to each element of DD the bits of the element of DS with its index
(R180); a PACK of an empty list writes a header of no pieces and a zero result word, and of one entry that fits the first micro-batch one
piece that is its last, with one entry placed in full (R245). Conventions of the model it rests on: log entries 6, 15, 33 and 35. -/
def Obligations.MoverIssue : Prop :=
  ∀ (t : TileNo) (s : State),
    (∀ f : MoveForm, legalMove f = true → ReadyQ s t 3 f.sync [] false [] → moveFault (atIssue s t f.sync.ext) (s.tile t) f = none →
      ∃ u, exec (.move t f) s = .next u ∧ Enqueued s u t 3 f.w0 f.sync
        (.move f.mode.toNat (cardOf (s.tile t) f.ds.toNat) (cardOf (s.tile t) f.dd.toNat))) ∧
    (∀ f : PackForm, legalPack f = true → ReadyQ s t 3 f.sync [f.xs.toNat, f.xr.toNat] false [] →
      let v := atIssue s t f.sync.ext
      let a := slateOf t + ((s.tile t).xr f.xs.toNat).toNat / 64 * 64
      let r := ((s.tile t).xr f.xr.toNat).toNat / 8 * 8
      let l := vbytes (mapCtx v) (viewOf v t 5) a 64
      a + 64 ≤ slateOf t + slateSize → r + 8 ≤ slateSize → recordFaultAt v a 64 = none → packRange l = none →
        ∃ u, exec (.pack t f) s = .next u ∧ Enqueued s u t 3 f.w0 f.sync (.pack l r)) ∧
    (∀ i : QInstr, Startable s t 3 i → PlainMemory s →
      (∀ a b, i.op = .move 0 a b → a.kind = b.kind → (a.kind = 0 → a.eff = b.fmt ∧ a.exp = b.exp ∧ a.lax = b.lax) → a.lifted = false → b.lifted = false →
        ∃ u, exec (.instructionStart t 3) s = .next u ∧ (u.tile t).v = (s.tile t).v ∧
          Starts s u t 3 i ((List.range a.size).flatMap (fun k => writeCode (mapCtx s) b (a.ix k) (readCode (mapCtx s) (memGet s.m) a (a.ix k))))) ∧
      (∀ d r, i.op = .pack d r →
        let o := (packLists d).2.1
        (wfld d 0 24 24 = 0 → ∃ u, exec (.instructionStart t 3) s = .next u ∧
          Starts s u t 3 i (putBytes (mapCtx s) (slateOf t + o) (leBytes 8 0 ++ leBytes 8 0) ++ putBytes (mapCtx s) (slateOf t + r) (leBytes 8 0))) ∧
        (∀ j : Job, jobOf s (s.tile t).ctx.toNat = some j → wfld d 0 24 24 = 1 →
          let e := vbytes (mapCtx s) (memGet s.m) (slateOf t + (packLists d).1.1) 16
          let ceil := if wfld d 2 0 24 = 0 then j.mbCeil else Nat.min (wfld d 2 0 24) j.mbCeil / j.page * j.page
          0 < wfld e 0 32 24 → wfld e 0 32 24 ≤ ceil → wfld e 1 0 24 % j.page = 0 → j.page ≤ ceil → 0 < wfld d 1 24 24 → 0 < wfld d 2 24 16 →
          ∃ u, exec (.instructionStart t 3) s = .next u ∧
            Starts s u t 3 i (putBytes (mapCtx s) (slateOf t + o) (leBytes 8 (1 + 2 ^ 32) ++ leBytes 8 0 ++
                leBytes 8 (wfld e 0 0 32 + wfld e 1 0 24 * 2 ^ 32) ++ leBytes 8 (wfld e 0 32 24 + (if 0 < wfld e 1 0 24 then 2 ^ 40 else 0) + 2 ^ 41)) ++
              putBytes (mapCtx s) (slateOf t + r) (leBytes 8 (2 ^ 16))))))

/-- PUT, GET, RRING, COLL and BARRIER that pass their checks stand at the tail of queue 4 with the seat or the class list that
their X register names, their cards and their scalar operands (R108, R156 to R159). Their starts, with an ACTIVE seat: PUT sends WRITE flits
and an end flit that names how many they were, a ring of its own where RREM puts it at the seat; GET sends READ_REQ flits; RRING sends one
ring; all to the seat, kept until they are answered (R157, R216, R221). COLL takes its list's next sequence, and BARRIER counts this seat's
arrival; both wait (R119, R228). Conventions of the model it rests on: log entries 6, 40 and 42. -/
def Obligations.LinkIssue : Prop :=
  ∀ (t : TileNo) (f : LinkForm) (s : State),
    let T := s.tile t
    let seat := (T.xr f.c.toNat).toNat % 1024
    (legalPut f = true → ReadyQ s t 4 f.sync [f.c.toNat] (f.low.getLsbD 39) [] →
      firstFault (putChecks (atIssue s t f.sync.ext) T f) = none →
        ∃ u, exec (.put t f) s = .next u ∧ Enqueued s u t 4 (f.w0 0x90) f.sync
          (.put seat (f.low.getLsbD 39) (cardOf T f.a.toNat) (cardOf T f.b.toNat))) ∧
    (legalGet f = true → ReadyQ s t 4 f.sync [f.c.toNat] false [] → firstFault (getChecks (atIssue s t f.sync.ext) T f) = none →
        ∃ u, exec (.get t f) s = .next u ∧ Enqueued s u t 4 (f.w0 0x91) f.sync
          (.get seat (cardOf T f.a.toNat) (cardOf T f.b.toNat))) ∧
    (legalRring f = true → ReadyQ s t 4 f.sync [f.c.toNat] false [] → seatFault s seat = none →
        ∃ u, exec (.rring t f) s = .next u ∧ Enqueued s u t 4 (f.w0 0x92) f.sync
          (.rring seat (f.low.extractLsb' 0 19) (f.low.extractLsb' 19 8))) ∧
    (let op := (f.low.extractLsb' 37 3).toNat
     let nx := (f.low.extractLsb' 31 5).toNat
     legalColl f = true → ReadyQ s t 4 f.sync ([f.c.toNat, nx] ++ if op = 4 ∨ op = 5 then [nx + 1] else []) false [] →
      firstFault (collChecks (atIssue s t f.sync.ext) T f) = none →
        ∃ u, exec (.coll t f) s = .next u ∧ Enqueued s u t 4 (f.w0 0x93) f.sync
          (.coll ((T.xr f.c.toNat).toNat % 4096) op (f.low.getLsbD 36) (cardOf T f.a.toNat) (cardOf T f.b.toNat) (T.xr nx)
            (if op = 4 ∨ op = 5 then T.xr (nx + 1) else 0))) ∧
    (legalBarrier f = true → ReadyQ s t 4 f.sync [f.a.toNat] false [f.low.extractLsb' 0 19] →
      listFault s ((T.xr f.a.toNat).toNat % 4096) = none →
        ∃ u, exec (.barrier t f) s = .next u ∧ Enqueued s u t 4 (f.w0 0x94) f.sync
          (.barrier ((T.xr f.a.toNat).toNat % 4096) (f.low.extractLsb' 0 19))) ∧
    (∀ i : QInstr, Startable s t 4 i →
      (∀ n rrem a b, i.op = .put n rrem a b → seatState s n = 1 → PlainMemory s →
        ∃ u y ws last, exec (.instructionStart t 4) s = .next u ∧ Begins s u t 4 y ∧ y.i = i ∧ y.ready = false ∧ y.held = ws ++ [last] ∧ ws ≠ [] ∧
          (∀ g ∈ ws, g.ty = 0 ∧ g.dstSeat = BitVec.ofNat 10 n) ∧ last.dstSeat = BitVec.ofNat 10 n ∧
          (match i.ring with
           | some (bell, inc) => if rrem then last.ty = 3 ∧ last.body = .ringB bell inc ws.length else last.ty = 6 ∧ last.body = .endB ws.length
           | none => last.ty = 6 ∧ last.body = .endB ws.length)) ∧
      (∀ n a b, i.op = .get n a b → seatState s n = 1 →
        ∃ u y, exec (.instructionStart t 4) s = .next u ∧ Begins s u t 4 y ∧ y.i = i ∧ y.ready = false ∧ y.held ≠ [] ∧ y.tags = y.held.map (·.tag) ∧
          ∀ g ∈ y.held, g.ty = 1 ∧ g.dstSeat = BitVec.ofNat 10 n) ∧
      (∀ n bell inc, i.op = .rring n bell inc → seatState s n = 1 →
        ∃ u y g, exec (.instructionStart t 4) s = .next u ∧ Begins s u t 4 y ∧ y.i = i ∧ y.ready = false ∧ y.held = [g] ∧ y.tags = [g.tag] ∧
          g.ty = 3 ∧ g.dstSeat = BitVec.ofNat 10 n ∧ g.body = .ringB bell inc 0) ∧
      (∀ cl op exact a b n x1 l, i.op = .coll cl op exact a b n x1 → listAt s cl = some l → PlainMemory s →
        ∃ u, exec (.instructionStart t 4) s = .next u ∧ Begins s u t 4 { i := i, ready := false } ∧ listAt u cl = some { l with seq := l.seq + 1 }) ∧
      (∀ cl bell l, i.op = .barrier cl bell → listAt s cl = some l → l.waiting = false → l.members ≠ [] →
        ∃ u, exec (.instructionStart t 4) s = .next u ∧ Begins s u t 4 { i := i, ready := false } ∧ listAt u cl = some { l with waiting := true }))

/-- GATE, COMMIT and CHG stand at the tail of queue 4 with their class list, the Slate offset of their result word (bits [2:0]
ignored) and TILE_STEP as it is at issue (R108, R140, R156, R159). Their starts, once every earlier instruction of the tile has completed:
without a job GATE and COMMIT complete at once with the status 0x0110, and CHG to the layout in force at once with 0, each in its result word
(R159, R248, R257); a COMMIT for NEXT whose attempt runs counts toward the seat's readiness and waits (R253). Conventions of the model it rests on:
log entries 6, 42 and 44. -/
def Obligations.CommitControlIssue : Prop :=
  ∀ (t : TileNo) (f : LinkForm) (s : State),
    let T := s.tile t
    let cl := (T.xr f.a.toNat).toNat % 4096
    let r := (T.xr f.b.toNat).toNat / 8 * 8
    r + 8 ≤ slateSize →
    (legalGate f = true → ReadyQ s t 4 f.sync [f.a.toNat, f.b.toNat] false [] → listFault s cl = none →
      (∃ u, exec (.gate t f) s = .next u ∧ Enqueued s u t 4 (f.w0 0x95) f.sync (.gate cl r T.step)) ∧
      (∃ u, exec (.commit t f) s = .next u ∧ Enqueued s u t 4 (f.w0 0x96) f.sync (.commit cl r T.step))) ∧
    (legalChg f = true → ReadyQ s t 4 f.sync [f.b.toNat] false [] →
      ∃ u, exec (.chg t f) s = .next u ∧ Enqueued s u t 4 (f.w0 0x97) f.sync (.chg (f.low.getLsbD 0) r T.step)) ∧
    (∀ (i : QInstr), Startable s t 4 i →
      let Ends (n : Nat) (word : Nat) : Prop := ∃ u, exec (.instructionStart t 4) s = .next u ∧ (u.tile t).queue 4 = (T.queue 4).tail ∧
        ((u.tile t).startedQ 4).map (·.i) = (T.startedQ 4).map (·.i) ∧ Lands s u (putBytes (mapCtx s) (slateOf t + n) (leBytes 8 word)) ∧ (u.tile t).x = T.x
      (∀ c n step, (i.op = .gate c n step ∨ i.op = .commit c n step) → n + 8 ≤ slateSize → earlierDone T i.seq = true → jobOf s T.ctx.toNat = none →
        Ends n (0x0110 + step.toNat * 2 ^ 24)) ∧
      (∀ (j : Job) layout n step, i.op = .chg layout n step → n + 8 ≤ slateSize → jobOf s T.ctx.toNat = some j → j.layout = layout → Ends n (step.toNat * 2 ^ 24)) ∧
      (∀ (j : Job) c n step, i.op = .commit c n step → earlierDone T i.seq = true → jobOf s T.ctx.toNat = some j → j.layout = false → j.stopped = false →
        step.toNat = j.next → j.ended i = none → ∃ u, exec (.instructionStart t 4) s = .next u ∧ Begins s u t 4 { i := i, ready := false } ∧
          jobOf u T.ctx.toNat = some { j with commits := j.commits + 1 }))

/-! ### Engine events -/

/-- INSTRUCTION_START of ABMODE sets the mode and clears every cell, mark, anchor and chain counter, OVF unchanged; of LADD and
MMUL sets the slot's anchor where a chain begins and keeps it where one goes on, counts the operation into the slot's chain, and leaves
the cells of the other slots as they were (R60 to R63, R70, R75). Where a read finds what memory holds, each cell of the slot then holds, modulo
2^160, what it held (0 at the beginning of a chain) and the products of its finite pairs of elements, or its long image; a pair with a
non-finite element, a marked image and a sum outside the guard range mark the cell, and the last sets OVF (R61, R64, R66, R67, R70). A DRILL with
SRC 4 and no SCATTER is to write each cell's image in cell-index order and leaves the Abacus as it is (R69, R81); an ATT of a Roster entry that sits out
leaves its slot without a valid anchor and is to write its RESULT alone (R296). Conventions of the model it rests on: log entries 8, 15, 19 and 56. -/
def Obligations.MatrixStartEffect : Prop :=
  ∀ (t : TileNo) (s : State),
    let A := (s.tile t).aba
    let mc := mapCtx s
    let Others (B : Abacus) (sl : Nat) : Prop := ∀ c, (c < sl * 8192 ∨ (if A.fused then 32768 else (sl + 1) * 8192) ≤ c) →
      tget 0 B.cells c = tget 0 A.cells c ∧ tget false B.marks c = tget false A.marks c
    let start (sl : Nat) (fresh : Bool) (c : Nat) : Int := if fresh then 0 else (tget 0 A.cells (sl * 8192 + c)).toInt
    let marked (sl : Nat) (fresh : Bool) (c : Nat) : Bool := !fresh && tget false A.marks (sl * 8192 + c)
    let fin (v : FVal) : Bool := match v with | .fin .. => true | _ => false
    (∀ i : QInstr, Startable s t 0 i →
      (∀ f, i.op = .abmode f → ∃ u, exec (.instructionStart t 0) s = .next u ∧ Starts s u t 0 i [] ∧
        (u.tile t).aba = { A with fused := f, cells := [], marks := [], anchor := [], valid := [], chain := [] }) ∧
      (∀ sl acc a b k0 k, i.op = .mmul sl acc a b k0 k → rangesError s true (a.reach 0 a.rows k0 k ++ b.reach k0 k 0 b.cols) = none →
        ∃ u, exec (.instructionStart t 0) s = .next u ∧ Starts s u t 0 i [] ∧ Others (u.tile t).aba sl ∧
          tget false (u.tile t).aba.valid sl = true ∧
          (acc = false ∨ tget false A.valid sl = false → tget 0 (u.tile t).aba.anchor sl = a.exp + b.exp ∧
            tget 0 (u.tile t).aba.chain sl = min (2 ^ 40 - 1) k) ∧
          (acc = true → tget false A.valid sl = true → (u.tile t).aba.anchor = A.anchor ∧
            tget 0 (u.tile t).aba.chain sl = min (2 ^ 40 - 1) (tget 0 A.chain sl + k)) ∧
          (PlainMemory s → sl < (if A.fused then 1 else 4) →
            let fresh := !acc || !tget false A.valid sl
            let cols := if A.fused then 256 else 128
            let pairs (c : Nat) : List (FVal × FVal) := (List.range k).map (fun e =>
              (readLifted mc (memGet s.m) a (c / cols) (k0 + e), readLifted mc (memGet s.m) b (k0 + e) (c % cols)))
            let sum (c n : Nat) : BitVec 160 := BitVec.ofInt 160 (start sl fresh c +
              ((((pairs c).take n).filter (fun p => fin p.1 && fin p.2)).map (fun p => units (p.1.mul p.2))).sum)
            let leaves (c : Nat) : Prop := ∃ n, ∃ p, (pairs c)[n]? = some p ∧ fin p.1 = true ∧ fin p.2 = true ∧ inGuard (sum c (n + 1)).toInt = false
            (∀ c < cols * cols / 2, tget 0 (u.tile t).aba.cells (sl * 8192 + c) = sum c k ∧
              (tget false (u.tile t).aba.marks (sl * 8192 + c) = true ↔
                marked sl fresh c = true ∨ (∃ p ∈ pairs c, fin p.1 = false ∨ fin p.2 = false) ∨ leaves c)) ∧
            (∀ n < 4, (u.tile t).aba.ovf.getLsbD n = true ↔ A.ovf.getLsbD n = true ∨ (n = sl ∧ ∃ c < cols * cols / 2, leaves c)))) ∧
      (∀ sl c n, i.op = .ladd sl c n → rangesError s true c.runs = none →
        ∃ u, exec (.instructionStart t 0) s = .next u ∧ Starts s u t 0 i [] ∧ Others (u.tile t).aba sl ∧
          tget false (u.tile t).aba.valid sl = true ∧
          (tget false A.valid sl = false → tget 0 (u.tile t).aba.anchor sl = c.expa ∧ tget 0 (u.tile t).aba.chain sl = min (2 ^ 40 - 1) n) ∧
          (tget false A.valid sl = true → (u.tile t).aba.anchor = A.anchor ∧
            tget 0 (u.tile t).aba.chain sl = min (2 ^ 40 - 1) (tget 0 A.chain sl + n)) ∧
          (PlainMemory s → c.size = (if A.fused then 32768 else 8192) → sl < (if A.fused then 1 else 4) →
            let fresh := !tget false A.valid sl
            let img (k : Nat) : Nat := readImage mc (memGet s.m) c k
            let sum (k : Nat) : BitVec 160 := BitVec.ofInt 160 (start sl fresh k + (if img k = 2 ^ 159 then 0 else sgn 160 (img k)))
            let leaves (k : Nat) : Prop := img k ≠ 2 ^ 159 ∧ inGuard (sum k).toInt = false
            (∀ k < c.size, tget 0 (u.tile t).aba.cells (sl * 8192 + k) = sum k ∧
              (tget false (u.tile t).aba.marks (sl * 8192 + k) = true ↔ marked sl fresh k = true ∨ img k = 2 ^ 159 ∨ leaves k)) ∧
            (∀ k < 4, (u.tile t).aba.ovf.getLsbD k = true ↔ A.ovf.getLsbD k = true ∨ (k = sl ∧ ∃ x < c.size, leaves x)))) ∧
      (∀ sl fused off card plist q o st step seed r, i.op = .att sl fused off card plist q o st step seed → attEntry i.op = some r →
        tget false s.counts.sitOut r = true →
        ∃ u, exec (.instructionStart t 0) s = .next u ∧ Starts s u t 0 i (putBytes mc (slateOf t + off + 56) (leBytes 8 3)) ∧
          (u.tile t).aba = { A with valid := tset false A.valid sl false })) ∧
    (∀ (i : QInstr) fused card ext cin cout op2 aux cm cv cw step seed, Startable s t 1 i →
      i.op = .drill fused card ext cin cout op2 aux cm cv cw step seed → (parseDrill card).src = 4 → (parseDrill card).state = false →
      (parseDrill card).scatter = false → PlainMemory s →
      let d := parseDrill card
      let n := (drillShape d fused cin cout).1 * (drillShape d fused cin cout).2
      ∃ u, exec (.instructionStart t 1) s = .next u ∧ (u.tile t).aba = A ∧ (u.tile t).rows = (s.tile t).rows ∧
        Starts s u t 1 i ((List.range n).flatMap (fun k => writeCode mc cout (cout.ix k)
          (if tget false A.marks (d.slot * 8192 + k) then 2 ^ 159 else (tget 0 A.cells (d.slot * 8192 + k)).toNat))))

/-- INSTRUCTION_START of the Rod operations. The lane operations, VPERM with lane numbers that the width has, VBCAST, and VGATHER within Slate give
every governed active lane of V[VD] the result of its operands, an integer one modulo the lane width or saturated, and leave every other
lane; VMIN, VMAX, VCMP and VRED are stated of integer lanes. VSEL selects every lane by P[PR]; VCMP and PSET write one P register; VRED writes the sum, the
extreme or its lowest index into lane 0 and 0 into the others; VCVT converts lanes 0 to 127. VLD loads 512 bytes of Slate; VST and VSCATTER are to write
lanes to Slate when they complete. TOPK of a new list without NaN keeps k lanes in order, none that the row holds before them left out; NAN_SEEN and
NEG_P set where a NaN, or for BISECT and SAMPLE a negative too, is met. Every other V and P register is as it was, and nothing is written to
memory (R99 to R104, R151 to R153, R426). Conventions of the model it rests on: log entries 13, 15 and 19. -/
def Obligations.RodLaneStartResult : Prop :=
  ∀ (t : TileNo) (s : State) (i : QInstr) (opc : Nat) (f : RodForm) (x seed : BitVec 64), Startable s t 2 i → i.op = .rod opc f x seed →
    let T := s.tile t
    let w := if f.w32 then 32 else 16
    let n := if f.w32 then 128 else 256
    let on (j : Nat) : Bool := !f.pen || (T.prd f.pr.toNat).getLsbD j
    let a (j : Nat) : Nat := lane w (T.vr f.va.toNat) j
    let b (j : Nat) : Nat := lane w (T.vr f.vb.toNat) j
    let c (j : Nat) : Nat := lane w (T.vr f.vc.toNat) j
    let int (v : Nat) : Int := if f.ty = 1 then sgn w v else v
    let clamp (v : Int) : Int := if f.sat = false then v else if f.ty = 1 then max (-(2 ^ (w - 1))) (min (2 ^ (w - 1) - 1) v) else max 0 (min (2 ^ w - 1) v)
    let arith (gf : FVal → FVal → FVal) (gi : Int → Int → Int) (j : Nat) : Nat :=
      if f.ty = 0 then laneOf w (gf (laneVal w (a j)) (laneVal w (b j))) else (clamp (gi (int (a j)) (int (b j))) % 2 ^ w).toNat
    let Only (u : State) (v p : List Nat) : Prop := (∀ r, r ∉ v → (u.tile t).vr r = T.vr r) ∧ (∀ r, r ∉ p → (u.tile t).prd r = T.prd r)
    let Does (P : State → Prop) : Prop := ∃ u, exec (.instructionStart t 2) s = .next u ∧ Starts s u t 2 i [] ∧ P u
    let Lanes (w n : Nat) (g : Nat → Nat) : Prop := Does (fun u => Only u [f.vd.toNat] [] ∧
      ∀ j < n, lane w ((u.tile t).vr f.vd.toNat) j = if on j then g j % 2 ^ w else lane w (T.vr f.vd.toNat) j)
    (∀ g, (opc, g) ∈ ([(0x60, arith FVal.add (· + ·)), (0x61, arith (fun y z => y.add z.neg) (· - ·)), (0x62, arith FVal.mul (· * ·)),
        (0x63, fun j => laneOf w (((laneVal w (a j)).mul (laneVal w (b j))).add (laneVal w (c j)))),
        (0x68, fun j => a j &&& b j), (0x69, fun j => a j ||| b j), (0x6A, fun j => a j ^^^ b j),
        (0x6B, fun j => a j * 2 ^ (b j % w)), (0x6C, fun j => if f.ty = 1 then (sgn w (a j) / 2 ^ (b j % w) % 2 ^ w).toNat else a j / 2 ^ (b j % w)),
        (0x74, fun _ => x.toNat)] : List (Nat × (Nat → Nat))) → Lanes w n g) ∧
    (f.ty ≠ 0 → (opc = 0x64 → Lanes w n (fun j => if int (b j) < int (a j) then b j else a j)) ∧
      (opc = 0x65 → Lanes w n (fun j => if int (b j) < int (a j) then a j else b j))) ∧
    ((∀ j < n, on j = true → b j % 256 < n) → (opc = 0x6D → Lanes w n (fun j => a (b j % 256))) ∧
      (opc = 0x6E → Lanes w n (fun j => if (b j).testBit 8 then c (b j % 256) else a (b j % 256)))) ∧
    (opc = 0x67 → Does (fun u => Only u [f.vd.toNat] [] ∧
      ∀ j < n, lane w ((u.tile t).vr f.vd.toNat) j = if (T.prd f.pr.toNat).getLsbD j then a j else b j)) ∧
    (opc = 0x66 → f.ty ≠ 0 → ∀ (k : Nat) (r : Int → Int → Bool), f.fn.toNat = k →
      (k, r) ∈ ([(0, fun y z => decide (y = z)), (1, fun y z => decide (y ≠ z)), (2, fun y z => decide (y < z)), (3, fun y z => decide (y ≤ z)),
        (4, fun y z => decide (z < y)), (5, fun y z => decide (z ≤ y))] : List (Nat × (Int → Int → Bool))) →
      Does (fun u => Only u [] [f.vd.toNat % 8] ∧ ∀ j < 256, ((u.tile t).prd (f.vd.toNat % 8)).getLsbD j =
        if decide (j < n) && on j then r (int (a j)) (int (b j)) else (T.prd (f.vd.toNat % 8)).getLsbD j)) ∧
    (opc = 0x75 → ∀ (k : Nat) (p : BitVec 256), f.fn.toNat = k →
      (k, p) ∈ ([(0, BitVec.allOnes 256), (1, 0), (2, T.prd (f.va.toNat % 8) &&& T.prd (f.vb.toNat % 8)), (3, T.prd (f.va.toNat % 8) ||| T.prd (f.vb.toNat % 8)),
        (4, ~~~(T.prd (f.va.toNat % 8))), (5, BitVec.ofNat 256 (2 ^ min x.toNat n - 1))] : List (Nat × BitVec 256)) →
      Does (fun u => Only u [] [f.vd.toNat % 8] ∧ (u.tile t).prd (f.vd.toNat % 8) = p)) ∧
    (opc = 0x6F → f.ty ≠ 0 → (∃ j < n, on j = true) → Does (fun u => Only u [f.vd.toNat] [] ∧
      (∀ j, 0 < j → j < n → lane w ((u.tile t).vr f.vd.toNat) j = 0) ∧
      let r := lane w ((u.tile t).vr f.vd.toNat) 0
      let best (le : Int → Int → Prop) (j : Nat) : Prop := j < n ∧ on j = true ∧ ∀ k < n, on k = true → le (int (a k)) (int (a j))
      let first (j : Nat) : Prop := ∀ k < j, on k = true → int (a k) ≠ int (a j)
      (f.fn = 0 → r = (((List.range n).filter on).map a).sum % 2 ^ w) ∧
      (f.fn = 1 → ∃ j, best (· ≤ ·) j ∧ r = a j) ∧ (f.fn = 2 → ∃ j, best (· ≥ ·) j ∧ r = a j) ∧
      (f.fn = 3 → ∃ j, best (· ≤ ·) j ∧ first j ∧ r = j) ∧ (f.fn = 4 → ∃ j, best (· ≥ ·) j ∧ first j ∧ r = j))) ∧
    (opc = 0x79 → (f.fn = 0 → Lanes 32 128 (fun j => laneOf 32 (laneVal 16 (lane 16 (T.vr f.va.toNat) j)))) ∧
      (f.fn = 1 → Lanes 16 256 (fun j => if j < 128 then laneOf 16 (laneVal 32 (lane 32 (T.vr f.va.toNat) j)) else 0))) ∧
    (let o := (x + f.imm.setWidth 64).toNat / 512 * 512
     o + 512 ≤ slateSize →
      (opc = 0x70 → PlainMemory s → Does (fun u => Only u [f.vd.toNat] [] ∧
        ∀ k < 512, ((u.tile t).vr f.vd.toNat).extractLsb' (8 * k) 8 = memGet s.m (slateOf t + o + k))) ∧
      (opc = 0x71 → ∃ u, exec (.instructionStart t 2) s = .next u ∧ Only u [] [] ∧
        Starts s u t 2 i (putBytes (mapCtx s) (slateOf t + o) (leBytes 512 (T.vr f.va.toNat).toNat)))) ∧
    (let at_ (j : Nat) : Nat := (x.toNat + f.imm.toNat + b j * (w / 8)) % 2 ^ 64
     (∀ j < n, on j = true → at_ j + w / 8 ≤ slateSize) →
      (opc = 0x72 → PlainMemory s → Lanes w n (fun j => leNat ((List.range (w / 8)).map (fun k => memGet s.m (slateOf t + at_ j + k))))) ∧
      (opc = 0x73 → ∃ u, exec (.instructionStart t 2) s = .next u ∧ Only u [] [] ∧
        Starts s u t 2 i (((List.range n).filter on).flatMap (fun j => putBytes (mapCtx s) (slateOf t + at_ j) (leBytes (w / 8) (a j)))))) ∧
    (let k := f.imm.toNat % 512
     let seg (j : Nat) : Nat × Nat := (lane 16 (T.vr f.va.toNat) j, (x.toNat + j) % 2 ^ 32)
     opc = 0x76 → f.vc.toNat % 2 = 0 → f.vd.toNat / 2 ≠ f.vc.toNat / 2 → Does (fun u => Only u [f.vd.toNat, f.vc.toNat, f.vc.toNat + 1] [] ∧
      ((u.tile t).eng.nanSeen = true ↔ T.eng.nanSeen = true ∨ ∃ j < 256, nan16 (seg j).1 = true) ∧
      (f.fn.getLsbD 0 = true → 1 ≤ k → k ≤ 256 → (∀ j < 256, nan16 (seg j).1 = false) →
        let out (j : Nat) : Nat × Nat := (lane 16 ((u.tile t).vr f.vd.toNat) j,
          if j < 128 then lane 32 ((u.tile t).vr f.vc.toNat) j else lane 32 ((u.tile t).vr (f.vc.toNat + 1)) (j - 128))
        (∀ j, j + 1 < k → topBefore (out (j + 1)) (out j) = false) ∧ (∀ j < k, (∃ l < 256, out j = seg l) ∨ out j = (0xFC00, 0xFFFFFFFF)) ∧
        (∀ l < 256, (∃ j < k, out j = seg l) ∨ topBefore (seg l) (out (k - 1)) = false)))) ∧
    (opc = 0x77 ∨ opc = 0x78 → Does (fun u => Only u [f.vd.toNat] [] ∧
      ((u.tile t).eng.negP = true ↔ T.eng.negP = true ∨ ∃ j < 256, negP16 (lane 16 (T.vr f.va.toNat) j) = true)))

/-- INSTRUCTION_COMPLETE of a started instruction without a fault, every home of its writes answering: its writes are in memory and no
other byte changes, its ring is applied to its Bell, on a die that is not in reset, and to no other, and it is no longer started; an
in-order engine retires its oldest instruction, the Mover any but a MOVE beyond the 16 that advance (R12, R110, R113, R138, R183).
Conventions of the model it rests on: log entries 15, 19 and 32. -/
def Obligations.InstructionCompleteEffect : Prop :=
  ∀ (t : TileNo) (q : Fin 5) (k : Nat) (s : State) (x : Started),
    (((s.tile t).startedQ q.val).drop k).head? = some x → x.fail = none → x.ready = true → (q.val < 3 → k = 0) →
    (q.val = 3 → isMove x.i.op = true → ((((s.tile t).startedQ 3).take k).filter (fun y => isMove y.i.op)).length < 16) →
    (∀ w ∈ x.writes, taken s w = true) → tileQuiet s t = false → dieDead s (dieOf t) = false →
      ∃ u, exec (.instructionComplete t q k .clean) s = .next u ∧ Lands s u x.writes ∧ SameOutside s u ∧
        (∀ c, bellGet u c = match localRing x.i with
          | some (b, n) => if c = b ∧ s.sys.dieReset ≠ some (b.toNat / 65536) then bellGet s c + BitVec.ofNat 32 n.toNat else bellGet s c
          | none => bellGet s c) ∧
        ((u.tile t).startedQ q.val).map (·.i) = (((s.tile t).startedQ q.val).eraseIdx k).map (·.i) ∧
        (u.tile t).queues = (s.tile t).queues ∧ (u.tile t).x = (s.tile t).x ∧ (u.tile t).pc = (s.tile t).pc

/-- INSTRUCTION_COMPLETE of an instruction that its engine advances and that found a fault at its start, of any code, or that ends with a memory
error: the tile stops issue and holds its queues, the fault is recorded with the instruction's queue and address, the instruction is no
longer started, and its ring is not applied (R110, R123, R124, R127, R183). After FLT_OPT_NONFINITE and the scatter faults 0x40 to 0x42 the groups
written stand and DRL_FAULT names code, row and, for 0x40, element (R96 to R98, R127); after FLT_MEM_ERROR bytes outside its writes are as they were.
The same of one whose write meets a die in reset: FLT_MEM_ERROR (R12, R126). FLT_BELL_TIMEOUT of the head of a queue whose Bell has not reached its
target, on a tile whose TILE_WAIT_LIMIT is not 0: fault 0x44 at execution with the Bell and the target; the instruction stays in its queue, and
Bells and memory are as they were (R118). Conventions of the model it rests on: log entries 15, 19 and 22. -/
def Obligations.EngineFaultEffect : Prop :=
  (∀ (t : TileNo) (q : Fin 5) (k : Nat) (s : State) (x : Started) (f : ExecFault) (e : Ending),
      (((s.tile t).startedQ q.val).drop k).head? = some x → advances (s.tile t) q.val k x = true →
      x.ready = true → tileQuiet s t = false → dieDead s (dieOf t) = false →
        let Stops (u : State) (g : ExecFault) : Prop := u.bells = s.bells ∧ (u.tile t).run = false ∧ (u.tile t).halt = .hold ∧
          Records (s.tile t) (u.tile t) g.code true (BitVec.ofNat 3 q.val) x.i.pc g.info0 g.info1 x.i.seq ∧ (u.tile t).queues = (s.tile t).queues ∧
          ((u.tile t).startedQ q.val).map (·.i) = (((s.tile t).startedQ q.val).eraseIdx k).map (·.i) ∧
          (∀ a, (∀ w ∈ x.writes, w.addr ≠ a) → memGet u.m a = memGet s.m a)
        (x.fail = some f → ∃ u, exec (.instructionComplete t q k e) s = .next u ∧ Stops u f ∧
          (f.code ≠ 0x43 → (∀ w ∈ x.writes, taken s w = true) → Lands s u x.writes) ∧
          (f.code = 0x40 ∨ f.code = 0x41 ∨ f.code = 0x42 → (u.tile t).eng.drlCode = f.info0.extractLsb' 0 8 ∧
            (u.tile t).eng.drlRow = f.info0.extractLsb' 8 16 ∧ (u.tile t).eng.drlElem = (if f.code = 0x40 then f.info1 else (s.tile t).eng.drlElem))) ∧
        (x.fail = none → ∀ a c, ∃ u, exec (.instructionComplete t q k (.memError a c)) s = .next u ∧ Stops u ⟨0x43, a.setWidth 64, c.setWidth 64⟩) ∧
        (x.fail = none → (∃ w ∈ x.writes, taken s w = false) → (s.tile t).fault.valid = false →
          ∃ u g, exec (.instructionComplete t q k .clean) s = .next u ∧ Stops u g ∧ g.code = 0x43 ∧ g.info1 = 6)) ∧
  (∀ (t : TileNo) (q : Fin 6) (s : State) (i : QInstr) (b : BitVec 19) (v : BitVec 32), q.val < 5 →
      ((s.tile t).queue q.val).head? = some i → i.wait = some (b, v) → 2 ^ 31 ≤ (bellGet s b - v).toNat →
      (s.tile t).waitLimit ≠ 0 → canStart s t = true →
        ∃ u, exec (.fltBellTimeout t q) s = .next u ∧ u.bells = s.bells ∧ (∀ a, memGet u.m a = memGet s.m a) ∧
          Records (s.tile t) (u.tile t) 0x44 true (BitVec.ofNat 3 q.val) i.pc (b.setWidth 64) (v.setWidth 64) i.seq ∧
          (u.tile t).queues = (s.tile t).queues ∧ (u.tile t).run = false ∧ (u.tile t).halt = .hold)

/-! ### Tile control -/

/-- GO, STOP, RESUME and FLUSH of a tile that is neither quiet, in reset nor in a preemption, and TILE_DRAIN_END: what TILE_STATUS,
the queues and the fault record hold afterwards; nothing else of the machine changes. GO after a FLUSH that still waits for the drain, and
RESUME and FLUSH while an instruction is started, wait for the drain, and a FLUSH that has waited acts once DRAINED is 1, before issue resumes
(R122, R125, R133). Conventions of the model it rests on: log entries 23 and 27. -/
def Obligations.TileControlEffect : Prop :=
  ∀ (t : TileNo) (s : State), ctlLive s t = true →
    let T := s.tile t
    let Flushed : Tile := { T with
      queues := [], waits := [], met := [], bwait := none, pendFlush := false,
      aba := { T.aba with iFused := T.aba.fused, iAnchor := T.aba.anchor, iValid := T.aba.valid } }
    let Gone (U : Tile) : Tile := { U with
      run := true, stopped := false, halt := .none, bwait := none, pendResume := false, lost := false, bellLate := false }
    (T.run = false →
      (∃ u, exec (.tileGo t) s = .next u ∧ TileOnly s u t ∧
        u.tile t = if T.pendFlush = false then Gone T else if drained T then Gone Flushed else { T with pendResume := true }) ∧
      (drained T = false →
        (∃ u, exec (.tileResume t) s = .next u ∧ TileOnly s u t ∧ u.tile t = { T with pendResume := true }) ∧
        (∃ u, exec (.tileFlush t) s = .next u ∧ TileOnly s u t ∧ u.tile t = { T with pendFlush := true })) ∧
      (drained T = true →
        (∃ u, exec (.tileResume t) s = .next u ∧ TileOnly s u t ∧ u.tile t = Gone (if T.pendFlush then Flushed else T)) ∧
        (∃ u, exec (.tileFlush t) s = .next u ∧ TileOnly s u t ∧ (∀ q, (u.tile t).queue q = []) ∧ u.tile t = Flushed) ∧
        (T.restart = none → T.access = [] → T.halt = .hold ∨ T.halt = .drain ∧ (∀ q, T.queue q = []) →
          ∃ u, exec (.tileDrainEnd t) s = .next u ∧ TileOnly s u t ∧
            let U : Tile := { (if T.pendFlush then Flushed else T) with stopped := true }
            u.tile t = if T.pendResume then Gone U else U))) ∧
    (T.run = true →
      (∃ u, exec (.tileStop t) s = .next u ∧ TileOnly s u t ∧
        u.tile t = { T with run := false, bwait := none, halt := if T.halt = .hold then .hold else .drain })) ∧
    (∃ u, exec (.tileFaultClear t) s = .next u ∧ TileOnly s u t ∧
      u.tile t = { T with fault := { T.fault with code := 0, more := 0, valid := false } })

/-- PREEMPT stops issue and clears SAVED; the drain then ends with every stage entry idle; RESTORE takes a tile that can be
commanded out of service until its image has been read (R128 to R130, R203). PREEMPT_LIMIT_EXPIRY of a preemption that is still
draining, on a tile of no Classroom switch: PREEMPT_FAIL sets and issue resumes as it was (R129). PREEMPT_SAVED of a tile whose
image place is populated and answers: SAVED sets, the tile holds no work, its image of 7,143,424 bytes at TILE_SAVE_BASE begins with
the version 1, TILE_CTX and the tile's number, holds the V registers from byte 4096, and no other byte changes (R129, R131). Conventions of the model it rests on: log entries 22 and 24. -/
def Obligations.PreemptionStages : Prop :=
  (∀ (t : TileNo) (s : State),
      (ctlLive s t = true →
        (∃ u, exec (.tilePreempt t) s = .next u ∧ TileOnly s u t ∧
          u.tile t = { s.tile t with pre := .asked, wasRun := (s.tile t).run, run := false, saved := false, bwait := none }) ∧
        (∃ u, exec (.tileRestore t) s = .next u ∧ TileOnly s u t ∧ (u.tile t).pre = .restoring ∧ (u.tile t).run = false ∧
          (∀ q, (u.tile t).queue q = [] ∧ (u.tile t).startedQ q = []) ∧ (u.tile t).x = (s.tile t).x)) ∧
      ((s.tile t).pre = .asked → preDrained (s.tile t) = true → (s.tile t).startedQ 3 = [] → tileQuiet s t = false →
        ∃ u, exec (.preemptSave t) s = .next u ∧ TileOnly s u t ∧ (u.tile t).pre = .saving ∧ (u.tile t).x = (s.tile t).x ∧
          (u.tile t).queues = (s.tile t).queues ∧ (∀ n, ((u.tile t).stage n).state = 0))) ∧
  (∀ (t : TileNo) (s : State), switchOf s (roomOf s t) = none →
      ((s.tile t).pre = .asked → (s.tile t).preLimit ≠ 0 → tileQuiet s t = false →
        ∃ u, exec (.preemptLimitExpiry t) s = .next u ∧ (∀ a, memGet u.m a = memGet s.m a) ∧
          u.tile t = { s.tile t with pre := .idle, run := (s.tile t).wasRun, preFail := true }) ∧
      ((s.tile t).pre = .saving → tileQuiet s t = false → imageError s t false = none →
        ∃ u, exec (.preemptSaved t) s = .next u ∧ (u.tile t).saved = true ∧ (u.tile t).run = false ∧ (u.tile t).stopped = true ∧
          (∀ q, (u.tile t).queue q = [] ∧ (u.tile t).startedQ q = []) ∧ (u.tile t).x = (s.tile t).x ∧ u.bells = s.bells ∧ u.regs = s.regs ∧
          ∃ l : List Byte, l.length = 7143424 ∧ Lands s u (putBytes (mapCtx s) (s.tile t).saveBase.toNat l) ∧
            l.take 18 = leBytes 8 1 ++ leBytes 8 (tileCtx s t).toNat ++ leBytes 2 t.val ∧
            (∀ i < 64, (l.drop (4096 + 512 * i)).take 512 = leBytes 512 ((s.tile t).vr i).toNat)))

/-- RESTORE_DONE of a sound image of the same context and tile: the V registers are those of the image, and where the model has saved it
the tile's scalar state, queues and fault record are those saved, and issue goes on as it was when the preemption was asked for (R130);
an image that no save of this module wrote restores too. Another version or context is FLT_RESTORE_IMAGE, the tile as a reset leaves it.
An image that another tile saved has no defined result: the model stops by name (R131). Conventions of the model it rests on: log entry
24. -/
def Obligations.RestoreDoneEffect : Prop :=
  ∀ (t : TileNo) (s : State), (s.tile t).pre = .restoring → tileQuiet s t = false → imageError s t true = none →
    let b := (s.tile t).saveBase.toNat
    (imageNat s b 0 4 ≠ 1 ∨ imageNat s b 8 8 % 512 ≠ (s.tile t).ctx.toNat → ∃ u, exec (.restoreDone t) s = .next u ∧
      (u.tile t).fault.code = 0x46 ∧ (u.tile t).fault.atExec = true ∧ (u.tile t).run = false ∧ (u.tile t).x = [] ∧ (∀ q, (u.tile t).queue q = []) ∧
      (u.tile t).ctx = (s.tile t).ctx ∧ u.bells = s.bells) ∧
    (imageNat s b 0 4 = 1 → imageNat s b 8 8 % 512 = (s.tile t).ctx.toNat →
      (imageNat s b 16 2 ≠ t.val → exec (.restoreDone t) s = .fault .restoredOnOtherTile) ∧
      (imageNat s b 16 2 = t.val → ∃ u, exec (.restoreDone t) s = .next u ∧ (u.tile t).pre = .idle ∧ u.bells = s.bells ∧ u.regs = s.regs ∧
        (∀ i < 64, ((u.tile t).vr i).toNat = imageNat s b (4096 + 512 * i) 512) ∧
        (∀ n S, s.saves.find? (fun e => decide (e.1 = imageNat s b 24 8)) = some (n, S) →
          (u.tile t).x = S.x ∧ (u.tile t).d = S.d ∧ (u.tile t).p = S.p ∧ (u.tile t).pc = S.pc ∧ (u.tile t).step = S.step ∧
            (u.tile t).seed = S.seed ∧ (u.tile t).queues = S.queues ∧ (u.tile t).fault = S.fault ∧ (u.tile t).run = S.wasRun)))

/-! ### Registers and stage entries -/

/-- A register write acts only on the bytes that it covers. Writes whose covered bytes agree have the same outcome, whoever sends them and
wherever they go. A write from firmware to a plain register of the map takes the covered bytes into its RW fields, clears the W1C bits that they
write 1, and leaves every other bit, the RO registers and every other register; one that covers no byte of a writable field changes nothing. A WO
bit in an uncovered byte does not act: GO of MGT_RESET, PET, ARM and ACK, the command bits of TILE_CTRL and MOV_STGn_CTL. An RW field across
covered and uncovered bytes takes the written ones and keeps the others, as PREEMPT_LIMIT, TILE_STEP and TILE_SEED do; a value out of range
keeps MGT_PWR_CAP and THROTTLE_C. A read of BAR0 returns the bytes that it covers as they stand in the whole registers (R421). -/
def Obligations.RegisterWriteAccessCodes : Prop :=
  (∀ (who : Agent) (a : BitVec 48) (be : BitVec 8) (v w : BitVec 64) (s : State),
      (∀ k < 8, be.getLsbD k = true → v.extractLsb' (8 * k) 8 = w.extractLsb' (8 * k) 8) →
        exec (.registerWrite who a be v) s = exec (.registerWrite who a be w) s) ∧
  (∀ (a : BitVec 48) (be : BitVec 8) (v : BitVec 64) (s : State),
      let i : Instr := .registerWrite .firmware a be v
      let old := rget s a.toNat
      let Plain (rw w1c : Nat) : Prop := ∃ u, exec i s = .next u ∧ u = { s with regs := u.regs } ∧ (∀ b, b ≠ a.toNat → rget u b = rget s b) ∧
        ∀ k < 64, (rget u a.toNat).getLsbD k = if be.getLsbD (k / 8) then (if rw.testBit k then v.getLsbD k
          else if w1c.testBit k then old.getLsbD k && !v.getLsbD k else old.getLsbD k) else old.getLsbD k
      (∀ base stride count rw w1c n, (base, stride, count, rw, w1c) ∈ ([
          (mgtBlk, 8, 3, 0, 0), (mgtBlk + 0x100, 8, 16, 0, 0), (mgtBlk + 0x818, 8, 1, 0, 0), (mgtBlk + 0x828, 8, 1, 0, bmask 16 1),
          (mgtBlk + 0x908, 8, 1, 0, bmask 40 2), (mgtBlk + 0x918, 8, 1, 0, bmask 34 1),
          (hstBlk, 8, 1, 1, 0), (hstBlk + 8, 8, 1, 0, 0), (hstBlk + 0x1018, 64, 513, 0, 0), (hstBlk + 0x1028, 64, 513, 0, 0),
          (lnkBlk + 8, 64, 36, 0, bmask 2 3), (lnkBlk + 16, 64, 36, 0, 0), (lnkBlk + 0x5000, 8, 2048, bmask 0 30, 0), (lnkBlk + 0x9000, 8, 1, bmask 0 7, 0),
          (lnkBlk + 0x9008, 8, 1, 0, 2), (lnkBlk + 0x9010, 8, 2, bmask 0 32, 0),
          (rosBlk + 8, 8, 1, 0, 2), (rosBlk + 0x1000, 32, 512, bmask 0 64, 0), (rosBlk + 0x1008, 32, 512, bmask 0 16, 0), (rosBlk + 0x1010, 32, 512, 0, 0),
          (rosBlk + 0x5000, 32, 512, bmask 12 52, 0), (rosBlk + 0x5010, 32, 512, 0, 0), (rosBlk + 0x5018, 32, 512, bmask 0 25, 0),
          (ckpBlk + 8, 8, 1, 0, bmask 35 3), (ckpBlk + 0x20, 8, 1, bmask 0 32, 0), (ckpBlk + 0x28, 8, 1, 0, 0),
          (clsBlk + 0x100, 32, 16, bmask 0 16, 0), (clsBlk + 0x110, 32, 16, 0, bmask 16 1), (clsBlk + 0x2008, 32, 512, 0, 0), (clsBlk + 0x2010, 32, 512, 0, 0),
          (clsBlk + 0x2018, 32, 512, 0, 0),
          (talBlk, 8, 1, bmask 0 64, 0), (talBlk + 0x10, 8, 1, 0, bmask 19 1 + bmask 21 1), (talBlk + 0x18, 8, 1, 0, 0), (talBlk + 0x100, 8, 9, 0, 0),
          (talBlk + 0x1000, 64, 512, bmask 12 52, 0), (talBlk + 0x1010, 64, 512, 0, 0), (talBlk + 0x1018, 64, 512, bmask 0 25, 0),
          (talBlk + 0x1020, 64, 512, 0, 0)] : List (Nat × Nat × Nat × Nat × Nat)) → n < count → a.toNat = base + stride * n → Plain rw w1c) ∧
      (∀ sp, regSpec a.toNat = some sp → (∀ k < 64, be.getLsbD (k / 8) = true → (sp.rw ||| sp.w1c ||| sp.wo).testBit k = false) → exec i s = .next s) ∧
      (a.toNat = mgtBlk + 0x820 → be.getLsbD 1 = false → exec i s = .next s) ∧
      (a.toNat = mgtBlk + 0x808 → be.getLsbD 2 = false → ∃ u, exec i s = .next u ∧ u = { s with regs := u.regs }) ∧
      (a.toNat = talBlk + 8 → be.getLsbD 2 = false → ∃ u, exec i s = .next u ∧ u = { s with regs := u.regs } ∧
        ∀ b, b ≠ talBlk + 8 → rget u b = rget s b) ∧
      (be = 0xFF →
        (a.toNat = mgtBlk + 0x900 → ∃ u, exec i s = .next u ∧ u = { s with regs := u.regs } ∧ (∀ b, b ≠ a.toNat → rget u b = rget s b) ∧
          fld (rget u a.toNat) 0 10 = (if 200 ≤ fld v 0 10 ∧ fld v 0 10 ≤ 720 then fld v 0 10 else fld old 0 10) ∧
          fld (rget u a.toNat) 16 13 = (if 3000 ≤ fld v 16 13 ∧ fld v 16 13 ≤ 7600 then fld v 16 13 else fld old 16 13) ∧
          fld (rget u a.toNat) 10 6 = fld old 10 6 ∧ fld (rget u a.toNat) 29 35 = fld old 29 35) ∧
        (a.toNat = mgtBlk + 0x910 → ∃ u, exec i s = .next u ∧ u = { s with regs := u.regs } ∧ (∀ b, b ≠ a.toNat → rget u b = rget s b) ∧
          fld (rget u a.toNat) 24 8 = (if 80 ≤ fld v 24 8 ∧ fld v 24 8 ≤ 95 then fld v 24 8 else fld old 24 8) ∧
          fld (rget u a.toNat) 0 24 = fld old 0 24 ∧ flag (rget u a.toNat) 32 = (flag old 32 && !flag v 32))) ∧
      (∀ t : TileNo,
        let T := s.tile t
        let merge (n : Nat) (x y old : BitVec 64) : Prop := ∀ k < n, x.extractLsb' (8 * k) 8 = if be.getLsbD k then y.extractLsb' (8 * k) 8 else old.extractLsb' (8 * k) 8
        (a.toNat = pageBase t + 0x20 → ∃ u, exec i s = .next u ∧ TileOnly s u t ∧ u.tile t = { T with seed := (u.tile t).seed } ∧ merge 8 (u.tile t).seed v T.seed) ∧
        (a.toNat = pageBase t + 0x18 → ∃ u, exec i s = .next u ∧ TileOnly s u t ∧ u.tile t = { T with step := (u.tile t).step } ∧
          merge 4 ((u.tile t).step.setWidth 64) v (T.step.setWidth 64)) ∧
        (a.toNat = pageBase t + 0x08 → be.getLsbD 0 = false → ∃ u, exec i s = .next u ∧ TileOnly s u t ∧ u.tile t = { T with preLimit := (u.tile t).preLimit } ∧
          ∀ k < 2, (u.tile t).preLimit.extractLsb' (8 * k) 8 = if be.getLsbD (2 + k) then v.extractLsb' (16 + 8 * k) 8 else T.preLimit.extractLsb' (8 * k) 8) ∧
        ((a.toNat = pageBase t ∧ be.getLsbD 0 = false) ∨ (a.toNat = pageBase t + 0x48 ∧ be.getLsbD 1 = false) ∨
          (a.toNat = pageBase t + 0x10 ∧ be.extractLsb' 0 6 = 0) → exec i s = .next s) ∧
        ((a.toNat = pageBase t + 0x400 ∨ a.toNat = pageBase t + 0x500 ∨ a.toNat = pageBase t + 0x600) ∧ be.getLsbD 1 = false ∨
          a.toNat = pageBase t + 0x580 ∧ be.getLsbD 0 = false → ∃ u, exec i s = .next u ∧ TileOnly s u t ∧ u.tile t = T) ∧
        (∀ n : Fin 64, a.toNat = pageBase t + 0x818 + 32 * n.val → be.getLsbD 0 = false → ∃ u, exec i s = .next u ∧ TileOnly s u t ∧
          ((u.tile t).stage n).state = (T.stage n).state ∧ ((u.tile t).stage n).wasLate = (T.stage n).wasLate ∧
          ((u.tile t).stage n).disarm = (T.stage n).disarm ∧ ((u.tile t).stage n).err = (T.stage n).err))) ∧
  (∀ (s : State) (x n : Nat), moduleQuiet s = false → ready s = true → inWindows (pageBase 0 + x) = true → inWindows (pageBase 0 + x + n - 1) = true →
      deadPage s (pageBase 0 + x) n = false → x + n ≤ 2 ^ 40 →
      ∃ u, exec (.hostBarAccess 0 0 (BitVec.ofNat 64 x) (.read n)) s = .next u ∧ u = { s with reply := u.reply } ∧
        u.reply = .data ((List.range n).map (fun k => (regRead s ((pageBase 0 + x + k) / 8 * 8)).extractLsb' (8 * ((pageBase 0 + x + k) % 8)) 8)))

/-- STAGE_GO and STAGE_DISARM on an idle, a copying and a finished entry: an accepted GO puts the entry into state 1 with its SHEETS and SITOUT
and clears WAS_LATE and ERR, and its copy is under way where fewer than four are and none waits before it; a rejected GO leaves its
reason in ERR, 4 on an entry that is copying or finished; DISARM with GO acts first, so that a finished entry starts again and a copying one goes
on; a DISARM makes the entry idle, at once or when the copy ends (R197, R198, R202, R209). An entry whose copy is under way
on a live tile: STAGE_COPY_DONE copies LOW to UP and ends in state 2, or in state 3 at the first sheet that answers with error; STAGE_COPY_FAIL copies the
sheets before the failed one, poisons a word of it and ends in state 3 (idle in both where a DISARM waits); STAGE_DEADLINE of a copying entry past its
deadline sets WAS_LATE once for a copy and moves no byte (R198 to R202, R207). Conventions of the model it rests on: log entry 31. -/
def Obligations.StageEntryCommandAndCopy : Prop :=
  (∀ (t : TileNo) (n : Fin 64) (sheets : BitVec 16) (sitout : Bool) (s : State),
      let e := (s.tile t).stage n
      let e' := { e with sheets := sheets, sitout := sitout, state := 0 }
      let Only (u : State) : Prop := ∀ k, k ≠ n.val → (u.tile t).stage k = { (s.tile t).stage k with active := ((u.tile t).stage k).active }
      let Goes (disarm : Bool) (g : Stage) : Prop := ∃ u, exec (.stageGo t n sheets sitout disarm) s = .next u ∧ TileOnly s u t ∧ Only u ∧
        (u.tile t).stage n = { g with active := ((u.tile t).stage n).active }
      let go : Stage := { e' with state := 1, wasLate := false, err := 0, disarm := false, told := false }
      (e.state = 0 → ∀ disarm,
        (stageErr s t n e' = 0 → Goes disarm go ∧ ((∀ x ∈ (s.tile t).stages, x.2.state = 1 → x.2.active = true) →
          ((s.tile t).stages.filter (fun x => decide (x.2.state = 1) && x.2.active)).length < 4 →
            ∃ u, exec (.stageGo t n sheets sitout disarm) s = .next u ∧ ((u.tile t).stage n).active = true)) ∧
        (stageErr s t n e' ≠ 0 → Goes disarm { e' with err := BitVec.ofNat 4 (stageErr s t n e') })) ∧
      (e.state = 1 → ∀ disarm, Goes disarm { e with sitout := sitout, err := 4, disarm := e.disarm || disarm }) ∧
      (e.state = 2 ∨ e.state = 3 → Goes false { e with sitout := sitout, err := 4 } ∧
        (stageErr s t n e' = 0 → Goes true go) ∧ (stageErr s t n e' ≠ 0 → Goes true { e' with err := BitVec.ofNat 4 (stageErr s t n e') })) ∧
      (∃ u, exec (.stageDisarm t n) s = .next u ∧ TileOnly s u t ∧ Only u ∧
        (u.tile t).stage n = if e.state = 1 then { e with disarm := true, active := ((u.tile t).stage n).active } else { e with state := 0 })) ∧
  (∀ (t : TileNo) (n : Fin 64) (s : State),
      let e := (s.tile t).stage n
      let mc := mapCtx s
      let copied (k : Nat) := putBytes mc e.up.toNat (vbytes mc (viewOut s) e.low.toNat (4096 * k))
      let Ended (u : State) (st : BitVec 2) : Prop :=
        (u.tile t).stage n = { e with state := if e.disarm then 0 else st, active := false, disarm := false } ∧ (u.tile t).x = (s.tile t).x
      e.state = 1 → stageLive s t = true →
      (e.active = true → (∀ w ∈ copied (e.sheets.toNat + 1), taken s w = true) →
        (stageBad s e = none → ∃ u, exec (.stageCopyDone t n) s = .next u ∧ Lands s u (copied (e.sheets.toNat + 1)) ∧ Ended u 2) ∧
        (∀ k, stageBad s e = some k → ∃ u, exec (.stageCopyDone t n) s = .next u ∧ Lands s u (copied k) ∧ Ended u 3) ∧
        (∀ k ≤ e.sheets.toNat, ∃ u, ∃ r < 4096, exec (.stageCopyFail t n k) s = .next u ∧ Lands s u (copied k) ∧ Ended u 3 ∧
          (let w := canon mc (e.low.toNat + 4096 * k) + r
           protSize w ≤ tget 0 u.m.poison (w / protSize w * protSize w)))) ∧
      (e.dl.toNat ≤ s.now.toNat →
        (e.told = false → ∃ u, exec (.stageDeadline t n) s = .next u ∧ (∀ a, memGet u.m a = memGet s.m a) ∧
          (u.tile t).stage n = { e with wasLate := true, told := true } ∧ (∀ k, k ≠ n.val → (u.tile t).stage k = (s.tile t).stage k)) ∧
        (e.told = true → exec (.stageDeadline t n) s = .next s)))

/-- PATROL_SCRUB of a word of stacked DRAM or the Cupboard on a living die: an uncorrectable one is poisoned and no byte changes; a corrected
one adds one to the tally of its tier, 0x120 or 0x128, and memory stays (R207, R383). ARCHIVE_EXTENT_DONE with no set being written: a write
puts 2^20 bytes of memory into the Archive at the extent, a read puts the extent's bytes into memory, and a failed transfer of either
direction moves nothing and ends with 0x0151 (R205); after the Quiet State of the module the one in progress completes, and no other (R413). Conventions of the model it rests on: log entries 32, 66 and 82. -/
def Obligations.ScrubAndArchiveEffect : Prop :=
  ∀ (addr : BitVec 48) (s : State),
    (let a := canon (mapCtx s) addr.toNat
     (niBase ≤ a ∧ a < niBase + dramEnd) ∨ (cupBase ≤ a ∧ a < cupEnd) → (∀ d, homeDie a = some d → dieDead s d = false) →
      (∃ u, exec (.patrolScrub addr ⟨true, false⟩) s = .next u ∧ u = { s with m := u.m } ∧ (∀ b, memGet u.m b = memGet s.m b) ∧
        (∀ k, tget 0 u.m.poison k = if k = a / protSize a * protSize a then max (protSize a) (tget 0 s.m.poison k) else tget 0 s.m.poison k)) ∧
      (let r := talBlk + (if niBase ≤ a ∧ a < niBase + dramEnd then 0x120 else 0x128)
       ∃ u, exec (.patrolScrub addr ⟨false, false⟩) s = .next u ∧ u = { s with regs := u.regs, host := u.host } ∧
        fld (rget u r) 0 48 = (fld (rget s r) 0 48 + 1) % 2 ^ 48 ∧
        (fld (rget s r) 0 48 < 2 ^ 48 - 1 → ∀ b, b ≠ r → rget u b = rget s b))) ∧
    (moduleQuiet s = true → s.sys.lastExtent = true → ∀ w x ok, exec (.archiveExtentDone w x addr ok) s = .next s) ∧
    (∀ (x : Nat), x * 2 ^ 20 + 2 ^ 20 ≤ 32000000000000 → firmRange s addr.toNat (2 ^ 20) = true → s.ward.writing = none →
      (moduleQuiet s = true → s.sys.rails = true ∧ s.sys.lastExtent = false) →
      (accessError s true addr.toNat (2 ^ 20) = none → ∃ u, exec (.archiveExtentDone true x addr true) s = .next u ∧
        (∀ b, memGet u.m b = memGet s.m b) ∧
        (∀ k, tget 0 u.archive k = if x * 2 ^ 20 ≤ k ∧ k < x * 2 ^ 20 + 2 ^ 20 then (dmaRead s addr.toNat (2 ^ 20)).getD (k - x * 2 ^ 20) 0
          else tget 0 s.archive k)) ∧
      (let ws := putBytes (mapCtx s) addr.toNat ((List.range (2 ^ 20)).map (fun k => tget 0 s.archive (x * 2 ^ 20 + k)))
       accessError s false addr.toNat (2 ^ 20) = none → (∀ w ∈ ws, taken s w = true) → ∃ u, exec (.archiveExtentDone false x addr true) s = .next u ∧
        Lands s u ws ∧ u.archive = s.archive ∧ u.reply = .status 0) ∧
      (∀ w, exec (.archiveExtentDone w x addr false) s = .next { s with sys := { s.sys with lastExtent := moduleQuiet s }, reply := .status 0x0151 }))

/-! ### Resets, the Quiet State and the Report Card -/

/-- TILE_RESET of a tile that no reset contains makes it quiet and resets it, and MGT_RESET_STATUS shows BUSY and the request;
TILE_RESET_DONE leaves the state of R132 and nothing else changed in memory, Bells or other tiles; a reset that takes too long
makes the die quiet with reason 8 and sets FAILED (R132, R361, R362). Contexts without a job: nothing restarts a tile. DIE_RESET of
a die that no reset contains: it starts, or waits behind the die that is in reset with result 3; DIE_RESET_DONE, with no die
waiting and no new cause, leaves every tile and Slate of the die as R132 says, its Bells at zero and the die awake, and touches no tile and no Bell of
another die where no tile of the die was started by CTX_GO; DIE_RESET_TIMEOUT makes the module quiet with reason 3 and sets FAILED (R361 to R363). Conventions of the model it rests on:
log entries 26, 70 and 71. -/
def Obligations.TileAndDieReset : Prop :=
  (∀ (t : TileNo) (s : State), NoJobs s →
      (inReset s 0 t = false → ∃ u, exec (.tileReset t) s = .next u ∧ (u.tile t).resetting = true ∧ tileQuiet u t = true ∧
        (u.tile t).x = (s.tile t).x ∧ (u.tile t).pc = (s.tile t).pc ∧ Requested u 0 t 1 ∧ flag (rget u resetStatus) 0 = true ∧ u.bells = s.bells) ∧
      ((s.tile t).resetting = true → ∃ u, exec (.tileResetDone t) s = .next u ∧ ResetTile s u t ∧ (∀ k, k ≠ t.val → u.tile k = s.tile k) ∧
        (∀ a, (∀ k < slateSize, a ≠ slateOf t + k) → memGet u.m a = memGet s.m a) ∧ u.bells = s.bells ∧ u.archive = s.archive) ∧
      ((s.tile t).resetting = true → dieQuiet s (dieOf t) = false → resetting s (dieOf t) = false → flag (rget s hangCfg) 34 = false →
        ∃ u, exec (.tileResetTimeout t) s = .next u ∧ dieQuiet u (dieOf t) = true ∧ fld (rget u whyReg) (4 * dieOf t) 4 = 8 ∧
          flag (rget u resetStatus) 16 = true ∧ u.bells = s.bells)) ∧
  (∀ (d : DieNo) (s : State), NoJobs s →
      (inReset s 2 d = false →
        (s.sys.dieReset = none → ∃ u, exec (.dieReset d) s = .next u ∧ u.sys.dieReset = some d.val ∧ dieQuiet u d = true ∧ Requested u 2 d 1 ∧
          flag (rget u resetStatus) 0 = true) ∧
        (s.sys.dieReset ≠ none → ∃ u, exec (.dieReset d) s = .next u ∧ Requested u 2 d 3 ∧
          u = { s with regs := u.regs, sys := { s.sys with dieWait := s.sys.dieWait ++ [d.val] } })) ∧
      (s.sys.dieReset = some d.val →
        (s.sys.dieWait = [] → moduleQuiet s = false → tget 0 s.sys.newQuiet d = 0 → ∃ u, exec (.dieResetDone d) s = .next u ∧ u.sys.dieReset = none ∧ dieQuiet u d = false ∧
          ((∀ t, dieOf t = d → (s.tile t).entry = none) → (∀ t, dieOf t = d → ResetTile s u t) ∧ (∀ t, dieOf t ≠ d → u.tile t = s.tile t)) ∧
          (∀ b : BitVec 19, bellGet u b = if b.toNat / 65536 = d then 0 else bellGet s b)) ∧
        (moduleQuiet s = false → s.sys.modReset = false → tget 0 s.sys.newQuiet 8 = 0 → flag (rget s hangCfg) 35 = false → ∃ u, exec (.dieResetTimeout d) s = .next u ∧ moduleQuiet u = true ∧
          fld (rget u whyReg) 32 4 = 3 ∧ flag (rget u resetStatus) 16 = true)))

/-- MODULE_RESET of a powered module in which no module reset runs clears tiles, Bells, jobs and all memory but the Report Cards,
and starts at stage 3; while one runs it is absorbed with result 2, and while the input is out of range it waits with result 3; after a power-up or
a reset that failed at a stage it begins again, at stage 1 where the rails are off. MODULE_RESET_TIMEOUT before READY sets FAILED and changes no
tile or byte. PORT_RESET clears the port and its STATUS; an enabled port trains, and PORT_RESET ends at once where ENABLE is 0 or the port failed
its calibration (R361 to R363, R404, R412). Conventions of the model it rests on: log entries 70, 71, 72 and 77. -/
def Obligations.ModuleAndPortResetEffect : Prop :=
  ∀ (s : State),
    (s.sys.rails = true → s.sys.resetFailed = false → s.sys.modReset = false →
      (s.sys.inputOk = true → ∃ u, exec .moduleReset s = .next u ∧ u.sys.modReset = true ∧
        stageOf u = 3 ∧ Requested u 3 0 1 ∧ flag (rget u resetStatus) 0 = true ∧ u.tiles = [] ∧ u.bells = [] ∧ u.jobs = [] ∧
        u.serve = {} ∧ u.adapters = [] ∧ (∀ a, cardByte a = false → memGet u.m a = 0)) ∧
      (s.sys.inputOk = false → ∃ u, exec .moduleReset s = .next u ∧ Requested u 3 0 3 ∧ u = { s with regs := u.regs, sys := { s.sys with modWait := true } })) ∧
    (s.sys.rails = true → s.sys.resetFailed = false → s.sys.modReset = true → bootErr s = 0 → tget 0 s.sys.newQuiet 8 = 0 →
      ∃ u, exec .moduleReset s = .next u ∧ Requested u 3 0 2 ∧ u = { s with regs := u.regs }) ∧
    (bootErr s ≠ 0 → s.sys.modEn = true → s.sys.inputOk = true → s.sys.resetFailed = false →
      ∃ u, exec .moduleReset s = .next u ∧ u.sys.modReset = true ∧ stageOf u = (if s.sys.rails then 3 else 1) ∧ Requested u 3 0 1 ∧ u.tiles = []) ∧
    (s.sys.modReset = true → ready s = false → s.sys.resetFailed = false → ∃ u, exec .moduleResetTimeout s = .next u ∧ u.sys.resetFailed = true ∧
      flag (rget u resetStatus) 16 = true ∧ u.tiles = s.tiles ∧ u.m = s.m ∧ u.bells = s.bells) ∧
    (∀ p : PortNo, inReset s 1 p = false →
      (flag (rget s (portCfg p)) 0 = false ∨ tget false s.sys.phyBad p = true → ∃ u, exec (.portReset p) s = .next u ∧ portAt u p = {} ∧
        rget u (portStatus p) = 0 ∧ Requested u 1 p 0 ∧ u.tiles = s.tiles) ∧
      (flag (rget s (portCfg p)) 0 = true → tget false s.sys.phyBad p = false → ∃ u, exec (.portReset p) s = .next u ∧ portAt u p = {} ∧ portState u p = 1 ∧
        Requested u 1 p 1 ∧ flag (rget u resetStatus) 0 = true ∧ u.tiles = s.tiles))

/-- What makes a die or the module quiet, with its reason: an uncorrectable control error 6, a rail's overcurrent 7, a junction of the die at 105 °C
or a stack at 95 °C 7, both Monitor cores silent 2, a request 1; the watchdog 4, coolant flow below 4 L/min 7, an I/O die at 105 °C 7 and an I/O die
that can no longer serve 5. Every tile of the scope stops where it stands, no Bell
changes, no tile of another die stops, and a quiet module signals vector 0 and the SMBus alert. With AUTO_DIE 1 the reset of the die follows, with
AUTO_MODULE 1 that of the module (R13, R348, R352 to R358, R362, R364, R416, R418). Conventions of the model it rests on: log entries 70, 75 and 78. -/
def Obligations.QuietCauses : Prop :=
  ∀ (s : State), NoJobs s → moduleQuiet s = false → s.sys.modReset = false →
    (∀ (d : DieNo) (i : Instr) (r : Nat), dieQuiet s d = false → s.sys.dieReset ≠ some d.val →
      (i, r) ∈ ([(.dieControlUncorrectable d, 6), (.ocp ⟨d.val, Nat.lt_trans d.isLt (by decide)⟩, 7), (.dieReq (1#8 <<< d.val), 1)] : List (Instr × Nat)) ∨
        (∃ c : Fin 2, i = .monitorHeartbeatLoss d c ∧ r = 2 ∧ tget false s.sys.monDown (2 * d.val + (1 - c.val)) = true) ∨
        (∃ c, i = .thermalReading (.die d c) ∧ r = 7 ∧ 105 ≤ c ∧ c < 115) ∨ (∃ k c, i = .thermalReading (.stack d k c) ∧ r = 7 ∧ 95 ≤ c ∧ c < 115) →
      (flag (rget s hangCfg) 34 = false → ∃ u, exec i s = .next u ∧ dieQuiet u d = true ∧ moduleQuiet u = false ∧ fld (rget u whyReg) (4 * d.val) 4 = r ∧
        u.bells = s.bells ∧ (∀ t, dieOf t = d → (s.tile t).quiet = false → Frozen s u t) ∧ (∀ t, dieOf t ≠ d → (u.tile t).run = (s.tile t).run)) ∧
      (flag (rget s hangCfg) 34 = true → inReset s 2 d = false → s.sys.dieReset = none → ∃ u, exec i s = .next u ∧ dieQuiet u d = true ∧
        u.sys.dieReset = some d.val ∧ Requested u 2 d 1 ∧ flag (rget u resetStatus) 0 = true)) ∧
    (∀ (i : Instr) (r : Nat), tget 0 s.sys.newQuiet 8 = 0 →
      (i = .moduleReq ∧ r = 1) ∨ (i = .wdogExpiry ∧ r = 4 ∧ wdogDue s = true) ∨
        (i = .flowFailure ∧ r = 7 ∧ fld (rget s coolReg) 0 16 < 400 ∧ s.sys.rails = true) ∨ (i = .ocp 8 ∧ r = 7) ∨ (i = .ocp 9 ∧ r = 7) ∨
        (∃ c, i = .thermalReading (.io c) ∧ r = 7 ∧ 105 ≤ c ∧ c < 115) ∨
        (∃ k : Fin 16, i = .evtPrefectLost k ∧ r = 5 ∧ flag (rget s (prefectReg k)) 8 = true ∧ ioDieLost (losePrefect s k) k = true) →
      (flag (rget s hangCfg) 35 = false → ∃ u, exec i s = .next u ∧ moduleQuiet u = true ∧ fld (rget u whyReg) 32 4 = r ∧ u.bells = s.bells ∧
        u.sys.smbAlert = true ∧ (0, 0) ∈ u.host.msix ∧ (∀ t < 768, tileQuiet s t = false → Frozen s u t)) ∧
      (flag (rget s hangCfg) 35 = true → s.sys.rails = true → s.sys.inputOk = true → s.sys.resetFailed = false →
        ∃ u, exec i s = .next u ∧ u.sys.modReset = true ∧ stageOf u = 3 ∧ Requested u 3 0 1 ∧ u.tiles = []))

/-- Detectors that stop less than a die: a lost Prefect core is halted, counted and its services go to a living core of its I/O die; its reset brings it back; a
hung engine makes its tile quiet; a hung port is reported; a pet starts the watchdog's count again (R349 to R353, R362). With
AUTO_TILE and AUTO_PORT 0. Conventions of the model it rests on: log entries 74 and 75. -/
def Obligations.DetectorEffect : Prop :=
  ∀ (s : State),
    (∀ k : Fin 16,
      (flag (rget s (prefectReg k)) 8 = true → ioDieLost (losePrefect s k) k = false → ∃ u, exec (.evtPrefectLost k) s = .next u ∧
        flag (rget u (prefectReg k)) 8 = false ∧ fld (rget u (prefectReg k)) 0 8 = 0 ∧
        fld (rget u (prefectReg k)) 16 8 = min 255 (fld (rget s (prefectReg k)) 16 8 + 1) ∧
        (∃ j : Fin 16, j ≠ k ∧ j.val / 8 = k.val / 8 ∧ flag (rget s (prefectReg j)) 8 = true ∧
          fld (rget u (prefectReg j)) 0 8 = fld (rget s (prefectReg j)) 0 8 ||| fld (rget s (prefectReg k)) 0 8) ∧
        u.tiles = s.tiles ∧ u.m = s.m ∧ u.bells = s.bells) ∧
      (tget false s.sys.preDown k = true → ∃ u, exec (.prefectResetDone k) s = .next u ∧ flag (rget u (prefectReg k)) 8 = true ∧
        tget false u.sys.preDown k = false ∧ u.tiles = s.tiles ∧ u.m = s.m ∧ u.bells = s.bells)) ∧
    (∀ (t : TileNo) (q : Fin 6), NoJobs s → fld (rget s hangCfg) 0 24 ≠ 0 → tileQuiet s t = false → inReset s 0 t = false → watched s t q = true →
      recentResets s t < fld (rget s hangCfg) 36 4 → flag (rget s hangCfg) 32 = false →
      ∃ u, exec (.engineHang t q) s = .next u ∧ (u.tile t).quiet = true ∧ Frozen s u t ∧ u.bells = s.bells ∧
        (∀ d, dieQuiet u d = dieQuiet s d)) ∧
    (∀ p : PortNo, fld (rget s hangCfg) 24 8 ≠ 0 → flag (rget s (portStatus p)) 4 = true → portLive s p = true → flag (rget s hangCfg) 33 = false →
      ∃ u, exec (.evtPortHang p) s = .next u ∧ u = { s with regs := u.regs, host := u.host } ∧
        u.host.oob = s.host.oob ++ [⟨0x35, s.now, BitVec.ofNat 64 p.val, 0⟩]) ∧
    (exec .wdogPet s = .next { s with sys := { s.sys with wdogFrom := s.now } })

/-- REPORT_CARD_CAPTURE of a quiet tile, die or module not yet collected writes the record inside the Report Card areas only, sets
PENDING of the right MGT_RCd and is done once; a tile's record holds its registers from byte 0x40, or all ones where one does not answer; RC_ACK clears PENDING (R359,
R360). Conventions of the model it rests on: log entry 73. -/
def Obligations.ReportCardEffect : Prop :=
  ∀ (s : State),
    (∀ (sc : Scope) (k : Fin 9), (Scope.code sc).1 ≠ 1 → scopeQuiet s (Scope.code sc).1 (Scope.code sc).2 = true →
      k.val = (match sc with | .tile t => t.val / 96 | .die d => d.val | _ => 8) →
      tget false s.sys.card (cardBit (Scope.code sc).1 (Scope.code sc).2) = false →
      ∃ u, exec (.reportCardCapture sc) s = .next u ∧ (∀ a, cardByte a = false → memGet u.m a = memGet s.m a) ∧ u.tiles = s.tiles ∧
        flag (rget u (rcReg k)) 16 = true ∧ tget false u.sys.card (cardBit (Scope.code sc).1 (Scope.code sc).2) = true ∧
        exec (.reportCardCapture sc) u = .next u ∧
        (∀ t : TileNo, sc = .tile t → ∀ (i : Fin 16) (b : Fin 8),
          memGet u.m (cardArea (dieOf t) + t.val % 96 * 4096 + 0x40 + 8 * i.val + b.val) = if Config.silent s.free i.val then 0xFF
            else ((pageRead s t (cardRegs.getD i.val 0)).getD 0).extractLsb' (8 * b.val) 8)) ∧
    (∀ k : Fin 9, ∃ u, exec (.rcAck k) s = .next u ∧ u = { s with regs := u.regs } ∧ (∀ a, a ≠ rcReg k → rget u a = rget s a) ∧
      ∀ b < 64, (rget u (rcReg k)).getLsbD b = ((rget s (rcReg k)).getLsbD b && !decide (b = 16)))

/-! ### Power, clocks and sensors -/

/-- POWER_UP starts stage 1; each stage that is done starts the next, with the rails at 2, MOD_PWRGD at 3, the calibration check at
4, and READY with every Prefect core running after 8 (or BOOT_ERR 9 with no good firmware); a die that has become quiet meanwhile stays quiet (R358), and a
module that has become quiet goes no further. BOOT_STAGE_TIMEOUT leaves BOOT_ERR and
BOOT_UNIT and the Quiet State with no reason; at stage 5 a port's failure is a warning in BOOT_UNIT that leaves the port DOWN, which no retraining ends
(R403, R404, R411). With AUTO_DIE 0. Conventions of the model it rests on: log entries 72 and 77. -/
def Obligations.PowerUpSequence : Prop :=
  ∀ (s : State),
    (s.sys.rails = false → stageOf s = 0 → s.sys.modWait = false → ∃ u, exec .powerUp s = .next u ∧ stageOf u = 1 ∧ u.sys.inputOk = true ∧ u.sys.modEn = true ∧
      u.tiles = s.tiles ∧ u.m = s.m) ∧
    (bootErr s = 0 → s.sys.resetFailed = false → s.sys.standby = false → s.sys.leakOff = false → (moduleQuiet s = false ∨ s.sys.modReset = true) →
      tget 0 s.sys.newQuiet 8 = 0 →
      (stageOf s = 1 → flag (rget s coolReg) 33 = false → ∃ u, exec .powerUpStageDone s = .next u ∧ stageOf u = 2 ∧ u.sys.rails = true) ∧
      (stageOf s = 2 → ∃ u, exec .powerUpStageDone s = .next u ∧ stageOf u = 3 ∧ u.sys.pwrgd = true) ∧
      (stageOf s = 3 → ∃ u, exec .powerUpStageDone s = .next u ∧ stageOf u = 4 ∧ flag (rget u mgtStatus) 5 = !calGood s) ∧
      (∀ n, 4 ≤ n → n ≤ 7 → stageOf s = n → ∃ u, exec .powerUpStageDone s = .next u ∧ stageOf u = n + 1 ∧ u.sys = s.sys) ∧
      (stageOf s = 8 → s.sys.fwGood = true → flag (rget s hangCfg) 34 = false → ∃ u, exec .powerUpStageDone s = .next u ∧ stageOf u = 15 ∧ ready u = true ∧
        moduleQuiet u = false ∧ (∀ d, d < 8 → dieQuiet u d = if s.sys.modReset then decide (tget 0 s.sys.newQuiet d ≠ 0) else dieQuiet s d) ∧
        (∀ k : Fin 16, flag (rget u (prefectReg k)) 8 = true) ∧ u.sys.modReset = false ∧ u.tiles = s.tiles) ∧
      (stageOf s = 8 → s.sys.fwGood = false → NoJobs s → s.sys.modReset = false → ∃ u, exec .powerUpStageDone s = .next u ∧ bootErr u = 9 ∧ moduleQuiet u = true)) ∧
    (moduleQuiet s = true → s.sys.modReset = false → exec .powerUpStageDone s = .next s) ∧
    (bootErr s = 0 → s.sys.resetFailed = false → NoJobs s →
      (∀ err unit : BitVec 8, 1 ≤ err.toNat → err.toNat ≤ 8 → stageOf s = err.toNat → (s.sys.modReset = false ∨ moduleQuiet s = true) →
        ∃ u, exec (.bootStageTimeout err unit) s = .next u ∧
        bootErr u = err.toNat ∧ fld (rget u mgtStatus) 16 8 = unit.toNat ∧ moduleQuiet u = true ∧ fld (rget u whyReg) 32 4 = 0 ∧ ready u = ready s) ∧
      (∀ unit : BitVec 8, stageOf s = 5 → unit.toNat < 36 → ∃ u, exec (.bootStageTimeout 0 unit) s = .next u ∧
        flag (rget u mgtStatus) (16 + (Config.bootBit unit.toNat).val) = true ∧ bootErr u = 0 ∧ portState u unit.toNat = 0 ∧ u.tiles = s.tiles ∧ u.m = s.m ∧
        ∀ p : PortNo, p.val = unit.toNat → exec (.retrainTimer p) u = .next u))

/-- Loss of power: below 44 V, after MOD_EN low, after a leak and at the thermal trip every volatile store is lost, and the host's
memory, the Archive and the calibration store stay; below 40 V and at overvoltage the management domain is lost too. Undervoltage,
MOD_EN low and a leak first make the module quiet; with AUTO_MODULE 1 the reset after undervoltage waits until the input is back in range, and then
begins; MOD_EN high powers a module in Standby again (R411 to R413, R418). Conventions of the model it
rests on: log entries 70, 72 and 77. -/
def Obligations.PowerLossEffect : Prop :=
  ∀ (s : State),
    (let Lost (u : State) := u.sys.rails = false ∧ u.sys.pwrgd = false ∧ u.tiles = [] ∧ u.bells = [] ∧ u.jobs = [] ∧ u.m = {} ∧ u.serve = {} ∧
       u.fab = {} ∧ u.host.mem = s.host.mem ∧ u.archive = s.archive ∧ u.sys.cal = s.sys.cal ∧ u.pending = s.pending
     (powered s = true → ∃ u, exec .inputBelow44v s = .next u ∧ Lost u ∧ u.sys.inputOk = false) ∧
     (s.sys.standby = true → s.sys.modEn = false → ∃ u, exec .standbyRailsOff s = .next u ∧ Lost u) ∧
     (s.sys.leakOff = true → ∃ u, exec .leakRailsOff s = .next u ∧ Lost u) ∧
     (s.sys.rails = true → ∃ u, exec .thermalTrip s = .next u ∧ Lost u ∧ flag (rget u thermReg) 32 = true) ∧
     (∃ u, exec .inputBelow40v s = .next u ∧ Lost u ∧ u.regs = [] ∧ u.sys.aux = false) ∧
     (∃ u, exec .inputOvervoltage s = .next u ∧ Lost u ∧ u.regs = [] ∧ u.sys.aux = false ∧ u.sys.disconnected = true)) ∧
    (exec .auxRailUp s = .next { s with sys := { s.sys with aux := true, disconnected := false } }) ∧
    (NoJobs s → moduleQuiet s = false → s.sys.rails = true → s.sys.modReset = false →
      (tget 0 s.sys.newQuiet 8 = 0 →
        ∃ u, exec .inputUndervoltage s = .next u ∧ moduleQuiet u = true ∧ fld (rget u whyReg) 32 4 = 7 ∧ flag (rget u pwrStatus) 40 = true ∧
        u.sys.rails = true ∧ u.sys.inputOk = false ∧ u.bells = s.bells ∧ (flag (rget s hangCfg) 35 = true → s.sys.resetFailed = false → u.sys.modWait = true)) ∧
      (∃ u, exec .modEnLow s = .next u ∧ moduleQuiet u = true ∧ fld (rget u whyReg) 32 4 = 1 ∧ u.sys.standby = true ∧ u.sys.modEn = false ∧
        u.sys.rails = true ∧ u.bells = s.bells) ∧
      (∃ u, exec .leakDetected s = .next u ∧ moduleQuiet u = true ∧ fld (rget u whyReg) 32 4 = 7 ∧ u.sys.leakOff = true ∧
        flag (rget u coolReg) 33 = true ∧ flag (rget u coolReg) 34 = true ∧ u.sys.rails = true ∧ u.bells = s.bells)) ∧
    (∀ w v : Nat, s.sys.modWait = true → s.sys.rails = true → 500 ≤ v → v ≤ 580 → ∃ u, exec (.thermalReading (.input w v)) s = .next u ∧
      u.sys.modReset = true ∧ u.sys.modWait = false ∧ stageOf u = 3 ∧ u.tiles = []) ∧
    (powered s = false → s.sys.inputOk = true → flag (rget s coolReg) 33 = false → ∃ u, exec .modEnHigh s = .next u ∧ stageOf u = 2 ∧
      u.sys.rails = true ∧ u.sys.modEn = true)

/-- One millisecond of a die's power cap: the cap is DIE_W less what the excess over MODULE_W has taken from it so far, a die over it slows
one step of 25 MHz down to 0.8 GHz, and one below 95 % of it rises a step. A junction at THROTTLE_C slows the die likewise until it is 2 K cooler. The
clock is the lowest of what software, heat, the cap and low coolant flow allow, and THROTTLED shows the dies below the clock that software asked for. The
readings of sensors stand in MGT_PWR_STATUS, MGT_THERM and MGT_COOL and throttle or refresh where they pass their limits; low
coolant flow caps every clock at 0.8 GHz; an input back in range is noted (R412, R415, R418). Conventions of the model it rests on: log entry 78. -/
def Obligations.PowerCapAndReadings : Prop :=
  ∀ (s : State),
    let Clock (u : State) (d heat cap : Nat) : Prop :=
      clkOf u d = min (min (clkReq s d) (if flag (rget s coolReg) 32 then 800 else 100000)) (min heat cap) ∧
        ∀ e < 8, flag (rget u pwrStatus) (32 + e) = decide (clkOf u e < clkReq s e)
    let down (limit req : Nat) : Nat := max 800 (min limit req - 25)
    let rise (limit req : Nat) : Nat := if req ≤ limit + 25 then 100000 else limit + 25
    (∀ (d : DieNo) (watts total : Nat),
      let lim := fld (rget s pwrCap) 16 13
      let full := 8 * fld (rget s pwrCap) 0 10
      let was := tget 0 s.sys.cut d
      let cut := if lim < total then min full (was + (total - lim)) else if 100 * total < 95 * lim then was - (lim - total) else was
      let old := clkLimit s.sys.clkCap d
      let new := if full - cut < 8 * watts then down old (clkReq s d) else if 100 * (8 * watts) < 95 * (full - cut) then rise old (clkReq s d) else old
      ∃ u, exec (.powerCapStep d watts total) s = .next u ∧
        u = { s with regs := u.regs, sys := { s.sys with cut := u.sys.cut, clkCap := u.sys.clkCap } } ∧
        tget 0 u.sys.cut d = cut ∧ clkLimit u.sys.clkCap d = new ∧ Clock u d (clkLimit s.sys.clkHeat d) new ∧
        (∀ e, e ≠ d.val → tget 0 u.sys.cut e = tget 0 s.sys.cut e ∧ clkOf u e = clkOf s e) ∧ fld (rget u pwrStatus) 0 16 = total % 2 ^ 16) ∧
    (∀ (d : DieNo) (c : Nat), c < 105 →
      let hot := decide (fld (rget s thermReg) 24 8 ≤ c) || (tget false s.sys.hot d && decide (fld (rget s thermReg) 24 8 < c + 2))
      let old := clkLimit s.sys.clkHeat d
      let new := if hot then down old (clkReq s d) else rise old (clkReq s d)
      ∃ u, exec (.thermalReading (.die d c)) s = .next u ∧ tget 0 u.sys.temp d = c ∧ u.tiles = s.tiles ∧ u.m = s.m ∧ tget false u.sys.hot d = hot ∧
        clkLimit u.sys.clkHeat d = new ∧ Clock u d new (clkLimit s.sys.clkCap d)) ∧
    (∀ c : Nat, c < 105 → ∃ u, exec (.thermalReading (.io c)) s = .next u ∧ fld (rget u thermReg) 16 8 = c ∧
      u = { s with regs := u.regs, sys := { s.sys with temp := u.sys.temp } }) ∧
    (∀ (d : DieNo) (k : Fin 4) (c : Nat), c < 95 → ∃ u, exec (.thermalReading (.stack d k c)) s = .next u ∧ tget 0 u.sys.temp (16 + 4 * d.val + k.val) = c ∧
      tget false u.sys.refresh2 (4 * d.val + k.val) = decide (85 ≤ c) ∧ u.tiles = s.tiles ∧ u.m = s.m) ∧
    (∀ flow inlet outlet : Nat, ∃ u, exec (.thermalReading (.coolant flow inlet outlet)) s = .next u ∧ u = { s with regs := u.regs } ∧
      fld (rget u coolReg) 0 16 = flow % 2 ^ 16 ∧ fld (rget u coolReg) 16 8 = inlet % 256 ∧ fld (rget u coolReg) 24 8 = outlet % 256 ∧
      flag (rget u coolReg) 32 = (flag (rget s coolReg) 32 && !decide (outlet ≤ 60 ∧ 800 ≤ flow))) ∧
    (∀ w v : Nat, s.sys.modWait = false → ∃ u, exec (.thermalReading (.input w v)) s = .next u ∧ fld (rget u pwrStatus) 0 16 = w % 2 ^ 16 ∧
      fld (rget u pwrStatus) 16 12 = v % 2 ^ 12 ∧ u = { s with regs := u.regs, sys := { s.sys with inputOk := u.sys.inputOk } } ∧
      u.sys.inputOk = (s.sys.inputOk || (powered s && decide (500 ≤ v ∧ v ≤ 580)))) ∧
    (∃ u, exec (.thermalReading .dry) s = .next u ∧ u = { s with regs := u.regs } ∧ flag (rget u coolReg) 33 = false) ∧
    (60 < fld (rget s coolReg) 24 8 ∨ fld (rget s coolReg) 0 16 < 800 → ∃ u, exec .lowFlow s = .next u ∧ flag (rget u coolReg) 32 = true ∧
      u = { s with regs := u.regs } ∧ (∀ d, d < 8 → clkOf u d = min 800 (clkOf s d)))

/-! ### Host interface, management and test port -/

/-- HOST_BAR_ACCESS of the PF on a module that is READY and not quiet: a read of BAR0, outside the pages of a die in reset, gives the registers and changes nothing else;
a write of BAR2 lands its bytes on living dies and a read of settled, sound memory gives its bytes; a range that holds no memory is
refused and counted. A quiet module refuses a read of BAR2, and before READY a write of BAR2 is refused (R357, R392,
R393). A host write of a register outside the MGT block while the module is quiet is discarded: only MGT_QUIET.DROPS counts it, and
sticks at its largest value (R357). Conventions of the model it rests on: log entry 83. -/
def Obligations.HostBarAndQuietModuleAccess : Prop :=
  (∀ (s : State) (a n : Nat) (l : List Byte), a + n ≤ 2 ^ 46 →
      (moduleQuiet s = false → ready s = true →
        (inWindows (pageBase 0 + a) = true → inWindows (pageBase 0 + a + n - 1) = true → deadPage s (pageBase 0 + a) n = false → a + n ≤ 2 ^ 40 →
          exec (.hostBarAccess 0 0 (BitVec.ofNat 64 a) (.read n)) s = .next { s with reply := .data (regReadBytes s (pageBase 0 + a) n) }) ∧
        (l ≠ [] → mapped (mapCtx s) a l.length = true → accessError s false a l.length = none → a + l.length ≤ 2 ^ 46 →
          ∃ u, exec (.hostBarAccess 0 2 (BitVec.ofNat 64 a) (.write l)) s = .next u ∧
            Lands s u (liveWrites s (putBytes (mapCtx s) a l)) ∧ u.reply = .none ∧ u.regs = s.regs ∧ u.bells = s.bells) ∧
        (0 < n → inMirror a n = false → mapped (mapCtx s) a n = true → accessError s true a n = none → Settled s a n →
          ∃ u, exec (.hostBarAccess 0 2 (BitVec.ofNat 64 a) (.read n)) s = .next u ∧ u.reply = .data ((List.range n).map (fun k => localByte s (a + k))) ∧
            (∀ b, memGet u.m b = memGet s.m b) ∧ u.tiles = s.tiles ∧ u.regs = s.regs) ∧
        (inMirror a n = false → mapped (mapCtx s) a n = false → ∃ u, exec (.hostBarAccess 0 2 (BitVec.ofNat 64 a) (.read n)) s = .next u ∧
          u.reply = .abort ∧ u = { s with regs := u.regs, reply := u.reply } ∧
          fld (rget u hstStatus) 32 32 = min (2 ^ 32 - 1) (fld (rget s hstStatus) 32 32 + 1))) ∧
      (moduleQuiet s = true → inMirror a n = false →
        exec (.hostBarAccess 0 2 (BitVec.ofNat 64 a) (.read n)) s = .next { s with reply := .abort }) ∧
      (moduleQuiet s = false → ready s = false → ∃ u, exec (.hostBarAccess 0 2 (BitVec.ofNat 64 a) (.write l)) s = .next u ∧
        u = { s with regs := u.regs, reply := .none } ∧ (∀ r, r ≠ hstStatus → rget u r = rget s r))) ∧
  (∀ (a : BitVec 48) (be : BitVec 8) (v : BitVec 64) (s : State), moduleQuiet s = true → inMgt a.toNat = false →
      ∃ u, exec (.registerWrite .host a be v) s = .next u ∧ u = { s with regs := u.regs } ∧
        (∀ b, b ≠ quietReg → rget u b = rget s b) ∧ (rget u quietReg).extractLsb' 0 32 = (rget s quietReg).extractLsb' 0 32 ∧
        ((rget u quietReg).extractLsb' 32 32).toNat = min (2 ^ 32 - 1) (((rget s quietReg).extractLsb' 32 32).toNat + 1))

/-- PCIE_LINK_DOWN stops every queue set and discards the completions not yet written; a function-level reset does so for one queue
set; PCIE_LINK_UP shows the link; PERST_DEASSERT after MOD_PWRGD starts the configuration of the ports (R396, R399, R403).
Management while the auxiliary rail is up: both paths read the sensors and the event log and stage a firmware image; Redfish alone
reads registers of the MGT block and asks for a module reset; without the rail nothing answers and management writes no register (R401). Conventions of the model it
rests on: log entries 82 and 85. -/
def Obligations.LinksAndManagement : Prop :=
  (∀ (s : State),
      (∃ u, exec .pcieLinkDown s = .next u ∧ (∀ q < 513, qEnabled u q = false) ∧ flag (rget u hstStatus) 0 = false ∧
        u.host.cmds = s.host.cmds.filter (fun r => r.status.isNone) ∧ u.tiles = s.tiles ∧ u.m = s.m ∧ u.jobs = s.jobs) ∧
      (∀ p : Fin 2, ∃ u, exec (.pcieLinkUp p) s = .next u ∧ flag (rget u hstStatus) p = true ∧ u = { s with regs := u.regs } ∧
        ∀ r, r ≠ hstStatus → rget u r = rget s r) ∧
      (∀ vf : Fin 512, ∃ u, exec (.functionLevelReset vf) s = .next u ∧ qEnabled u (vf + 1) = false ∧ (∀ q, q ≠ vf.val + 1 → qEnabled u q = qEnabled s q) ∧
        u.host.cmds = s.host.cmds.filter (fun r => !(decide (r.c.q.val = vf.val + 1) && r.status.isSome)) ∧ u.tiles = s.tiles ∧ u.jobs = s.jobs ∧
        u.m = s.m) ∧
      (s.sys.pwrgd = true → exec .perstDeassert s = .next { s with sys := { s.sys with portConfig := true } })) ∧
  (∀ (s : State),
      (s.sys.aux = true →
        (∀ i : MgmtReq → Instr, i = .mctpMessage ∨ i = .redfishRequest →
          exec (i .sensors) s = .next { s with reply := .data (sensorBytes s) } ∧ exec (i .events) s = .next { s with reply := .events s.host.oob } ∧
          ∀ ok, exec (i (.stageFirmware ok)) s = .next { s with sys := { s.sys with fwStaged := some ok }, reply := .status 0 }) ∧
        (∀ a : BitVec 48, inMgt a.toNat = true → exec (.redfishRequest (.readReg a)) s = .next { s with reply := .value (regRead s a.toNat) } ∧
          exec (.mctpMessage (.readReg a)) s = .next { s with reply := .abort }) ∧
        (∀ a : BitVec 48, inMgt a.toNat = false → exec (.redfishRequest (.readReg a)) s = .next { s with reply := .abort }) ∧
        (s.sys.rails = true → s.sys.resetFailed = false → s.sys.modReset = false → s.sys.inputOk = true →
          ∃ u, exec (.redfishRequest .reset) s = .next u ∧ u.sys.modReset = true ∧ u.tiles = [] ∧ Requested u 3 0 1) ∧
        (s.sys.calJob = none → ∃ u, exec (.redfishRequest .calRead) s = .next u ∧ u.reply = .data (calBytes s) ∧ u.sys = s.sys)) ∧
      (s.sys.aux = false → (∀ r, exec (.mctpMessage r) s = .next { s with reply := .none } ∧ exec (.redfishRequest r) s = .next { s with reply := .none }) ∧
        ∀ a be v, exec (.registerWrite .management a be v) s = .next s))

/-- The test port takes BYPASS, IDCODE, SAMPLE/PRELOAD and EXTEST, each with no effect but the selection and the answer: IDCODE
reads 0x1328_02AB, which is version 0x1, part 0x3280, manufacturer field 0x155 and bit 0 = 1; EXTEST is accepted while
MGT_STATUS.STAGE is below 3, and behaves as BYPASS otherwise (R402). How the selected instruction is held is the model's (log entry
85); the statement names no code of it. -/
def Obligations.TestPortInstructions : Prop :=
  ∀ (s : State),
    (∀ i ∈ ([.bypass, .idcode, .samplePreload, .extest] : List Instr), ∃ u, exec i s = .next u ∧
      u = { s with sys := { s.sys with jtag := u.sys.jtag }, reply := u.reply } ∧
      (i = .idcode → ∃ v : BitVec 64, u.reply = .value v ∧ v.extractLsb' 28 36 = 1 ∧ v.extractLsb' 12 16 = 0x3280 ∧ v.extractLsb' 1 11 = 0x155 ∧
        v.getLsbD 0 = true)) ∧
    (stageOf s < 3 → exec .extest s ≠ exec .bypass s) ∧ (3 ≤ stageOf s → exec .extest s = exec .bypass s)

/-! ### Host commands -/

/-- Every host command: where the command service does not run or the queue set is disabled nothing happens; a command marked PF
that a VF sends ends with 0x0161 and one with a reserved bit of word 0 set with 0x0160, and neither has any other effect; CLASS_SET with its extension
slot takes two slots of its ring (R396, R397). Conventions of the model it rests on: log entries 61 and 82. -/
def Obligations.HostCommandCommonChecks : Prop :=
  ∀ (s : State) (c : HostCmd),
    (∀ (f : HostCmd → Instr) (op : BitVec 16) (pf : Bool),
      (f, op, pf) ∈ ([(.create, 0x01, false), (.createFrom, 0x02, false), (.destroy, 0x03, false), (.resume, 0x04, false), (.skip, 0x05, false),
        (.remap, 0x06, false), (.replan, 0x07, false), (.replace, 0x08, false), (.replaceResume, 0x09, false), (.adapterLoad, 0x0A, false),
        (.adapterUnload, 0x0B, false), (.admitCmd, 0x10, false), (.evict, 0x11, false), (.dmaIn, 0x18, false), (.dmaOut, 0x19, false),
        (.ctxGo, 0x1A, false), (.ctxSet, 0x20, true), (.steerLoad, 0x22, true), (.steerUnload, 0x23, true), (.ckpStoreSet, 0x24, true),
        (.calRead, 0x30, true), (.calWrite, 0x31, true), (.calCapture, 0x32, true)] : List ((HostCmd → Instr) × BitVec 16 × Bool)) →
      (serviceRuns s = false ∨ qEnabled s c.q.val = false → exec (f c) s = .next s) ∧
      (serviceRuns s = true → qEnabled s c.q.val = true →
        (pf = true → c.q.val ≠ 0 → ∃ u, exec (f c) s = .next u ∧ Ended s u op c 0x0161 0 ∧ RegsHost s u) ∧
        ((pf = true → c.q.val = 0) → c.zero ≠ 0 → ∃ u, exec (f c) s = .next u ∧ Ended s u op c 0x0160 0 ∧ RegsHost s u))) ∧
    (∀ e : HostCmd,
      let Refuses (status : BitVec 16) : Prop := ∃ u, exec (.classSet c e) s = .next u ∧ RegsHost s u ∧
        u.host.cmds = s.host.cmds ++ [{ op := 0x21, c := c, status := some status, result := 0 }] ∧
        rget u (qreg c.q.val 24) = BitVec.ofNat 64 ((fld (rget s (qreg c.q.val 24)) 0 12 + if flag c.w1 9 then 2 else 1) % 2 ^ fld (rget s (qreg c.q.val 8)) 0 4)
      (serviceRuns s = false ∨ qEnabled s c.q.val = false → exec (.classSet c e) s = .next s) ∧
      (serviceRuns s = true → qEnabled s c.q.val = true → (c.q.val ≠ 0 → Refuses 0x0161) ∧ (c.q.val = 0 → c.zero ≠ 0 → Refuses 0x0160)))

/-- The job commands of a context whose job has nothing to tell: CREATE and CREATE_FROM make the job and wait for its landing, or
end with the first failed check, and CREATE_FROM stands after its set's step or, with a BASE, replays up to it; DESTROY ends the job; RESUME and SKIP take an abandoned step out of its stop; REMAP and REPLAN are
refused (R256, R259, R333, R338, R345, R396). Conventions of the model it rests on: log entries 54 and 67. -/
def Obligations.JobCommandEffect : Prop :=
  ∀ (s : State) (c : HostCmd), (∀ j, jobOf s (cmdCtx c) = some j → j.rcv.tell = false) →
    (Takes s c false [] true →
      (∃ u, exec (.remap c) s = .next u ∧ Ended s u 0x06 c 0x0130 0 ∧ RegsHost s u) ∧
      (∃ u, exec (.replan c) s = .next u ∧ Ended s u 0x07 c 0x0130 0 ∧ RegsHost s u) ∧
      (∀ j, jobOf s (cmdCtx c) = some j → ∃ u, exec (.destroy c) s = .next u ∧ Ended s u 0x03 c 0 0 ∧ jobOf u (cmdCtx c) = none ∧
        (∀ b, memGet u.m b = memGet s.m b) ∧ u.bells = s.bells) ∧
      (∀ j, jobOf s (cmdCtx c) = some j → j.stopped = true → ∃ u k, exec (.skip c) s = .next u ∧ Ended s u 0x05 c 0 0 ∧
        jobOf u (cmdCtx c) = some k ∧ k.next = j.next + 1 ∧ k.stopped = false ∧ k.attempt = 0 ∧ k.ls = j.ls ∧ k.tensors = j.tensors ∧
        k.rcv.journal.length = j.rcv.journal.length + 1 ∧ u.m = s.m ∧ u.tiles = s.tiles)) ∧
    (Takes s c false [1 + bmask 8 8] true → ∀ j, jobOf s (cmdCtx c) = some j → j.stopped = true →
      (flag c.w1 0 = true → j.lsMin ≤ sgn 8 (fld c.w1 8 8) ∧ sgn 8 (fld c.w1 8 8) ≤ j.lsMax) →
      ∃ u k, exec (.resume c) s = .next u ∧ Ended s u 0x04 c 0 0 ∧ jobOf u (cmdCtx c) = some k ∧ k.stopped = false ∧ k.attempt = 0 ∧ k.aborts = 0 ∧
        k.next = j.next ∧ k.ls = (if flag c.w1 0 then sgn 8 (fld c.w1 8 8) else j.ls) ∧ k.tensors = j.tensors ∧ u.m = s.m) ∧
    (Takes s c false createMasks true → jobOf s (cmdCtx c) = none →
      ∃ u, exec (.create c) s = .next u ∧
        match createCheck (headOn s c.q.val 1) c with
        | .error e => Ended s u 0x01 c e 0 ∧ RegsHost s u
        | .ok j => Running s u 0x01 c ∧ ∃ k, jobOf u (cmdCtx c) = some k ∧ k.rcv.creating = true ∧ k.acked = false ∧ k.tt = j.tt ∧ k.next = 0 ∧
            k.ls = j.lsInit ∧ k.epoch = BitVec.ofNat 32 (fld c.w3 0 32)) ∧
    (∀ tier, tier = 1 ∨ tier = 2 → fld c.w5 0 2 = tier → Takes s c false (createMasks ++ [bmask 0 2 + bmask 32 32]) true → jobOf s (cmdCtx c) = none →
      ∃ u, exec (.createFrom c) s = .next u ∧
        match createCheck (headOn s c.q.val 1) c with
        | .error e => Ended s u 0x02 c e 0 ∧ RegsHost s u
        | .ok j => if Config.setHeld s.now tier (fld c.w5 32 32) = false then Ended s u 0x02 c 0x0153 0 ∧ RegsHost s u
          else match Config.setFails s.now tier (fld c.w5 32 32) with
            | some seat => Ended s u 0x02 c 0x0151 (seat.setWidth 64) ∧ RegsHost s u
            | none => Running s u 0x02 c ∧ ∃ k, jobOf u (cmdCtx c) = some k ∧ k.rcv.creating = true ∧ k.tt = j.tt ∧ k.acked = j.recites ∧
                (j.recites = false → k.next = fld c.w5 32 32 + 1 ∧ k.rcv.replay = none) ∧ (j.recites = true → k.rcv.replay = some (fld c.w5 32 32 + 1)))

/-- DMA_IN copies host memory into module memory and DMA_OUT the other way, each within one window of its context, where memory answers
without error, or refused with 0x0161 outside the windows; CTX_GO starts the context's stopped tiles at a program counter, once a FLUSH that waits for their drain has acted, and counts them; CTX_SET makes a context with its windows;
CKP_STORE_SET takes the store's queue pair; COMMAND_COMPLETION writes the oldest ended command of a queue set to its ring and
signals (R396, R397, R399). Conventions of the model it rests on: log entries 80 and 82. -/
def Obligations.MemoryAndContextCommandEffect : Prop :=
  ∀ (s : State) (c : HostCmd),
    (Takes s c false dmaMasks (decide (c.w3.toNat % 32 = 0)) →
      (inWindow s (cmdCtx c) c.w2.toNat c.w3.toNat = true → memRange s c.w2.toNat c.w3.toNat = true →
        (accessError s false c.w2.toNat c.w3.toNat = none → ∃ u, exec (.dmaIn c) s = .next u ∧ Ended s u 0x18 c 0 0 ∧ u.bells = s.bells ∧
          Lands s u (liveWrites s (putBytes (mapCtx s) c.w2.toNat (hostBytes s.host c.w1.toNat c.w3.toNat)))) ∧
        (accessError s true c.w2.toNat c.w3.toNat = none → ∃ u, exec (.dmaOut c) s = .next u ∧ Ended s u 0x19 c 0 0 ∧ hostBytes u.host c.w1.toNat c.w3.toNat = dmaRead s c.w2.toNat c.w3.toNat ∧
          (∀ a, a < c.w1.toNat ∨ c.w1.toNat + c.w3.toNat ≤ a → hostGet u.host a = hostGet s.host a) ∧ (∀ a, memGet u.m a = memGet s.m a) ∧
          u.tiles = s.tiles)) ∧
      (inWindow s (cmdCtx c) c.w2.toNat c.w3.toNat = false →
        (∃ u, exec (.dmaIn c) s = .next u ∧ Ended s u 0x18 c 0x0161 0 ∧ RegsHost s u) ∧
        (∃ u, exec (.dmaOut c) s = .next u ∧ Ended s u 0x19 c 0x0161 0 ∧ RegsHost s u))) ∧
    (Takes s c false [bmask 3 45, bmask 0 16] true → ctxValid s (cmdCtx c) = true → inWindow s (cmdCtx c) c.w1.toNat 8 = true →
      let l := goTiles s (cmdCtx c) (fld c.w2 0 16)
      ∃ u, exec (.ctxGo c) s = .next u ∧ Ended s u 0x1A c 0 (BitVec.ofNat 64 l.length) ∧ u.m = s.m ∧
        (∀ t ∈ l, (u.tile t).run = (!(s.tile t).pendFlush || drained (s.tile t)) ∧ (u.tile t).pc = c.w1 ∧ (u.tile t).x = (s.tile t).x ∧
          (u.tile t).entry = some c.w1) ∧
        (∀ t, t ∉ l → u.tile t = s.tile t)) ∧
    (Takes s c true [bmask 0 50, bmask 0 48] true → ctxBad s c.ctx.toNat c.w1 = false → ctxValid s c.ctx.toNat = false →
      ∃ u, exec (.ctxSet c) s = .next u ∧ Ended s u 0x20 c 0 0 ∧ rget u (ctxReg c.ctx.toNat 0) = c.w1 ∧ u.tiles = s.tiles ∧ u.m = s.m ∧
        tget [] u.rooms.windows c.ctx.toNat = if flag c.w1 16 then readWindows s c.w2.toNat else []) ∧
    (Takes s c true [bmask 0 48, 1] true → ∃ u, exec (.ckpStoreSet c) s = .next u ∧ Ended s u 0x24 c 0 0 ∧
      u.ward.store = dmaRead s c.w1.toNat Config.roceBytes ∧ u.ward.port = flag c.w2 0 ∧ u.m = s.m ∧ u.tiles = s.tiles) ∧
    (∀ (q : Nat) (r : CmdRec), moduleQuiet s = false → qEnabled s q = true →
      s.host.cmds.find? (fun r => r.status.isSome && decide (r.c.q.val = q)) = some r →
      let prod := fld (rget s (qreg q 0x28)) 0 12
      ∃ u, exec (.commandCompletion q) s = .next u ∧ RegsHost s u ∧
        u.host.cmds = s.host.cmds.eraseP (fun r => r.status.isSome && decide (r.c.q.val = q)) ∧
        hostBytes u.host (fld (rget s (qreg q 0x20)) 6 58 * 64 + 16 * prod) 16 =
          leBytes 8 (r.c.tag.toNat + (r.status.getD 0).toNat * 2 ^ 16 + (if tget false s.host.compLap q then 0 else 2 ^ 32)) ++ leBytes 8 r.result.toNat ∧
        rget u (qreg q 0x28) = BitVec.ofNat 64 ((prod + 1) % 2 ^ fld (rget s (qreg q 8)) 0 4) ∧ (q, 1) ∈ u.host.msix)

/-- The calibration commands of the PF: CAL_READ gives the store; CAL_WRITE and CAL_CAPTURE begin to program it, or end with 0x0163
while it is programmed, 0x0164 when it is worn and 0x0162 for a bad image; CAL_WRITE_DONE leaves the image in the store with
CAL_PENDING set and ends the commands that waited (R396, R405, R406). Conventions of the model it rests on: log entry 76. -/
def Obligations.CalibrationEffect : Prop :=
  ∀ (s : State) (c : HostCmd),
    (Takes s c true [wholeWord] true →
      (s.sys.calJob = none →
        (∃ u, exec (.calRead c) s = .next u ∧ Ended s u 0x30 c 0 0 ∧ hostBytes u.host c.w1.toNat calSize = calBytes s ∧ u.sys = s.sys ∧ u.m = s.m) ∧
        (∃ u, exec (.calWrite c) s = .next u ∧
          if calWrites s ≥ 10000 then Ended s u 0x31 c 0x0164 0 ∧ u.sys = s.sys
          else if calImageOk (hostBytes s.host c.w1.toNat calSize) = false then Ended s u 0x31 c 0x0162 0 ∧ u.sys = s.sys
          else Running s u 0x31 c ∧ u.sys.calTorn = true ∧ flag (rget u mgtStatus) 7 = true ∧
            ∃ j, u.sys.calJob = some j ∧ j.image.drop 64 = (hostBytes s.host c.w1.toNat calSize).drop 64)) ∧
      (s.sys.calJob ≠ none →
        (∃ u, exec (.calRead c) s = .next u ∧ Ended s u 0x30 c 0x0163 0 ∧ RegsHost s u) ∧
        (∃ u, exec (.calWrite c) s = .next u ∧ Ended s u 0x31 c 0x0163 0 ∧ RegsHost s u))) ∧
    (Takes s c true [] true → ∃ u, exec (.calCapture c) s = .next u ∧
      if s.sys.calJob ≠ none then Ended s u 0x32 c 0x0163 0 ∧ RegsHost s u
      else if calWrites s ≥ 10000 then Ended s u 0x32 c 0x0164 0 ∧ u.sys = s.sys
      else Running s u 0x32 c ∧ u.sys.calTorn = true ∧ flag (rget u mgtStatus) 7 = true ∧ ∃ j, u.sys.calJob = some j ∧ j.origin = 2) ∧
    (∀ j, s.sys.calJob = some j → ∃ u, exec .calWriteDone s = .next u ∧ u.sys.calJob = none ∧ u.sys.calTorn = false ∧ u.sys.calWritten = true ∧
      (∀ k < j.image.length, tget 0 u.sys.cal k = j.image.getD k 0) ∧ flag (rget u mgtStatus) 7 = false ∧ flag (rget u mgtStatus) 6 = true ∧
      (∀ r ∈ u.host.cmds, r.op = 0x31 ∨ r.op = 0x32 → r.status.isSome = true) ∧ u.m = s.m ∧ u.tiles = s.tiles)

/-! ### Flits -/

/-- Remote memory: a WRITE to memory of this module lands its bytes under their masks; a READ_REQ changes no byte, and one from this module
itself gets the bytes back under its tag; a ring whose counted flits are none rings a Bell that some context's range holds, on a die
neither quiet nor in reset, and one that has been applied before does nothing more (R12, R156, R157, R184, R214 to R216, R354). Conventions of the model it rests on: log entry 40. -/
def Obligations.RemoteMemoryEffect : Prop :=
  ∀ (p : BitVec 6) (f : Flit) (s : State), f.partner = false →
    (∀ a data mask, Delivers s p f 0 → f.body = .bytes a data mask none → data ≠ [] → mapped (mapCtx s) a.toNat data.length = true →
      accessError s false a.toNat data.length = none →
      ∃ u, exec (.writeFlit p f) s = .next u ∧ Lands s u (flitWrites s a.toNat data mask) ∧ u.sys = s.sys) ∧
    (∀ a n, Delivers s p f 1 → f.body = .readReq a n none → mapped (mapCtx s) a.toNat n = true → accessError s true a.toNat n = none →
      ∃ u, exec (.readReqFlit p f) s = .next u ∧ (∀ b, memGet u.m b = memGet s.m b) ∧ u.tiles = s.tiles ∧ u.bells = s.bells ∧
        (f.srcPm = selfPm s → Settled s a.toNat n → (∀ h : Flit, h.dstPm = selfPm s → routedHere s h = true) → ∃ g, u.fab.localq = (takenIn s p f).fab.localq ++ [g] ∧ g.ty = 2 ∧ g.tag = f.tag ∧
          g.body = .bytes a ((List.range n).map (fun k => localByte s (a.toNat + k))) [] none)) ∧
    (∀ b n, Delivers s p f 3 → f.body = .ringB b n 0 → isDup s f = false → s.fab.rings = [] →
      ∃ u, exec (.ringFlit p f) s = .next u ∧ (∀ a, memGet u.m a = memGet s.m a) ∧ u.tiles = s.tiles ∧
        (∀ c, bellGet u c = if c = b ∧ remoteBell s b = true ∧ dieDead s (b.toNat / 65536) = false then bellGet s c + BitVec.ofNat 32 n.toNat
          else bellGet s c)) ∧
    (isDup s f = true → Delivers s p f 3 → (∃ b n k, f.body = .ringB b n k) →
      ∃ u, exec (.ringFlit p f) s = .next u ∧ u = takenIn s p f)

/-- Replies: READ_DATA with the last bytes of a GET, DONE without an error and a RETURN each settle the instruction that waits for
them, with FLT_MEM_ERROR of the reply's class where it names one, or let it wait for a seat in HOLD (R157, R216, R221, R223).
Conventions of the model it rests on: log entries 40 and 42. -/
def Obligations.ReplyEffect : Prop :=
  ∀ (p : BitVec 6) (f : Flit) (s : State) (t k : Nat) (x : Started), f.partner = false → tileQuiet s t = false →
    ((s.tile t).startedQ 4)[k]? = some x →
    (∀ a data m c, Delivers s p f 2 → f.body = .bytes a data m c → waiterOf s f.srcPm f.tag = some (t, k, x) → x.tags = [f.tag] →
      ∃ u y, exec (.readDataFlit p f) s = .next u ∧ ((u.tile t).startedQ 4)[k]? = some y ∧ y.ready = true ∧ y.i = x.i ∧ y.fail = x.fail ∧
        y.got = x.got ++ (data.zip (upto a.toNat data.length)).map (fun e => { addr := e.2, mask := 0xFF, val := e.1 }) ∧
        (∀ b, memGet u.m b = memGet s.m b) ∧ u.bells = s.bells) ∧
    (∀ c a r, Delivers s p f 6 → f.body = .done c a r → isDup s f = false → waiterOf s f.srcPm r = some (t, k, x) →
      ∃ u y, exec (.doneFlit p f) s = .next u ∧ ((u.tile t).startedQ 4)[k]? = some y ∧ y.ready = true ∧ y.i = x.i ∧
        (c = 0 → y = { x with ready := true }) ∧ (c ≠ 0 → y.fail = some ⟨0x43, linkAddr x a, c.setWidth 64⟩) ∧ (∀ b, memGet u.m b = memGet s.m b) ∧ u.bells = s.bells) ∧
    (∀ ty vc pm seat hops len tag arg reason, Delivers s p f 7 → f.body = .returned ty vc pm seat hops len tag arg reason → ty ≠ 2 → ty ≠ 4 → ty ≠ 5 →
      (∀ g ∈ s.fab.kept, ¬ (g.ty = ty ∧ g.dstPm = pm ∧ g.tag = tag)) → waiterOf s pm tag = some (t, k, x) →
      ∃ u y, exec (.returnFlit p f) s = .next u ∧ ((u.tile t).startedQ 4)[k]? = some y ∧ y.i = x.i ∧ (∀ b, memGet u.m b = memGet s.m b) ∧
        u.bells = s.bells ∧
        (seatState s seat.toNat = 2 → y = { x with parked := true, tags := [] }) ∧
        (seatState s seat.toNat ≠ 2 → y.ready = true ∧ y.fail = some ⟨0x43, linkAddr x 0, reason.setWidth 64⟩))

/-- Messages of a class list: a member's parameters reach rank 0; a verdict with an error class (but for 0x29) ends the collective on its
issuer; a barrier's release raises the generation and the release Bell and completes the one BARRIER that waits; the ROLL of the route
table whose turn it is writes its entry (R119, R120, R224, R228, R232, R234). Conventions of the model it rests on: log entries 41 and 43. -/
def Obligations.GroupMessageEffect : Prop :=
  ∀ (p : BitVec 6) (f : Flit) (s : State), isDup s f = false →
    (∀ cl q ch l r op exact count anchor dst, Delivers s p f 4 → f.body = .coll cl q ch (.params op exact count anchor dst) →
      listAt s cl.toNat = some l → l.rank = 0 → rankOf l f.srcSeat = some r →
      ∃ u, exec (.collFlit p f) s = .next u ∧ tget none (collAt u (collKey cl.toNat q)).params r = some ⟨op, exact, count, anchor, dst⟩ ∧ u.m = s.m ∧
        u.tiles = s.tiles ∧ u.bells = s.bells) ∧
    (∀ cl q ch l r c t i x a b cnt x1 co op exact, Delivers s p f 4 → f.body = .coll cl q ch (.verdict c) → c ≠ 0 → c ≠ 0x29 →
      listAt s cl.toNat = some l → rankOf l f.srcSeat = some r → collInstr s (collAt s (collKey cl.toNat q)) = some (t, i, x) →
      x.i.op = .coll co op exact a b cnt x1 → ((s.tile t).startedQ 4)[i]? = some x → tileQuiet s t = false →
      ∃ u y, exec (.collFlit p f) s = .next u ∧ ((u.tile t).startedQ 4)[i]? = some y ∧ y.ready = true ∧ y.i = x.i ∧
        (∀ b, memGet u.m b = memGet s.m b) ∧ u.bells = s.bells ∧ ∃ addr, y.fail = some ⟨0x43, addr, c.setWidth 64⟩) ∧
    (∀ cl gen l t k x co b, Delivers s p f 5 → f.body = .barrier cl gen true → listAt s cl.toNat = some l → l.waiting = true →
      barrierWaiters s cl.toNat = [(t, k, x)] → x.i.op = .barrier co b → ((s.tile t).startedQ 4)[k]? = some x → tileQuiet s t = false → BellLives s b →
      ∃ u, exec (.barrierFlit p f) s = .next u ∧ listAt u cl.toNat = some { l with waiting := false, gen := l.gen + 1 } ∧
        ((u.tile t).startedQ 4)[k]? = some { x with ready := true } ∧ (∀ c, bellGet u c = if c = b then bellGet s c + 1 else bellGet s c) ∧
        (∀ a, memGet u.m a = memGet s.m a)) ∧
    (∀ i v ms e, Delivers s p f 10 → f.body = .roll 1 i v ms e → e = s.fab.rollNext → s.fab.rolls = [] →
      (∀ c j, jobOf s c = some j → j.rcv.swap = none) →
      ∃ u, exec (.rollFlit p f) s = .next u ∧ u.fab.rollNext = e + 1 ∧ u.fab.rolls = [] ∧ u.m = s.m ∧ u.tiles = s.tiles ∧
        rget u (routeReg (i % 2048)) = ((v &&& BitVec.ofNat 64 (bmask 0 30)) ||| (rget s (routeReg (i % 2048)) &&& ~~~BitVec.ofNat 64 (bmask 0 30))) ∧
        (∀ a, a ≠ routeReg (i % 2048) → rget u a = rget s a))

/-! ### Ports, time and class lists -/

/-- Flits between ports: the next flit of a link that is for another module leaves by the port that its route entry gives, with one more
hop, and its place in the receive buffer is free again; one whose HCRC fails is discarded with a replay requested, and so is one of a
reserved TYPE, which is counted if it persists; one with a bad end and one with another number are discarded; a replay puts the flits from a
number onward on the link again; a credit and an acknowledgement come back; an IDLE flit is taken (R214, R215, R218, R222, R223).
Conventions of the model it rests on: log entries 38 and 40. -/
def Obligations.LinkTransferEffect : Prop :=
  ∀ (p : PortNo) (s : State), portLive s p = true →
    let OnlyPort (u : State) (P : Port) : Prop := u = { s with fab := { s.fab with ports := u.fab.ports } } ∧ portAt u p = P ∧
      (∀ k, k ≠ p.val → portAt u k = portAt s k)
    (∀ (f : Flit), portTakes s p f = true → linkLocal f = false →
      (∀ (alt q : Nat), InOrder s p f → f.hcrcOk = true → reservedType f = false →
        f.hops ≠ 15 → pickAlt s f = some (alt, q) → q < 36 → isTwin s q = false → flag (rget s (routeReg f.dstPm.toNat)) (24 + alt) = false →
        (portAt s q).free f.vc.toNat = true →
        ∃ u, exec (.flitForward p f) s = .next u ∧ u = { s with fab := { s.fab with ports := u.fab.ports } } ∧
          portAt u q = (if q = p.val then (portAt s q).accept f else portAt s q).transmit { f with hops := f.hops + 1 } ∧
          (q ≠ p.val → portAt u p = (portAt s p).accept f) ∧ (∀ k, k ≠ q → k ≠ p.val → portAt u k = portAt s k)) ∧
      (routedHere s f = false ∨ reservedType f = true →
        (InOrder s p f → f.hcrcOk = false → ∃ u, exec (.flitForward p f) s = .next u ∧ OnlyPort u { portAt s p with ask := true }) ∧
        (InOrder s p f → f.hcrcOk = true → reservedType f = true → ∃ u, exec (.flitForward p f) s = .next u ∧
          OnlyPort u (if (portAt s p).ask then { (portAt s p).accept f with reserved := (portAt s p).reserved + 1 } else { portAt s p with ask := true })) ∧
        (f.num = (portAt s p).got → f.badEnd = true → ∃ u, exec (.flitForward p f) s = .next u ∧ OnlyPort u ((portAt s p).accept f)) ∧
        (f.num ≠ (portAt s p).got → exec (.flitForward p f) s = .next s))) ∧
    (∀ num, ∃ u, exec (.flitReplay p num) s = .next u ∧
      OnlyPort u { portAt s p with line := (portAt s p).line ++ (portAt s p).sent.dropWhile (fun e => decide (e.1 ≠ num)) }) ∧
    (∀ vc acked, 2 ≤ portState s p → (portAt s p).held = [] →
      ∃ u, exec (.creditReturn p vc acked) s = .next u ∧ (portAt u p).sent = (portAt s p).sent.drop acked ∧
        tget 0 (portAt u p).used vc.toNat = tget 0 (portAt s p).used vc.toNat - 1 ∧ (portAt u p).line = (portAt s p).line ∧
        flag (rget u (portStatus p)) 4 = false ∧ (∀ k, k ≠ p.val → portAt u k = portAt s k)) ∧
    (∀ f, f.ty = 11 → f.hcrcOk = true → InOrder s p f → ∃ u, exec (.idleFlit p f) s = .next u ∧ OnlyPort u ((portAt s p).accept f))

/-- The states of a port: ENABLE and a retrain train a DOWN port whose PHY is calibrated, training ends, or leaves the port DOWN with its
warning, a HELLO makes it UP and names the neighbour, ACTIVE is software's, eight missed HELLOs bring it DOWN; a stalled VC and a HELLO in
service are shown (R220, R225, R226, R404, R409). Conventions of the model it rests on: log entries 38 and 77. -/
def Obligations.PortStateEffect : Prop :=
  ∀ (p : PortNo) (s : State),
    let Trains (u : State) : Prop := portState u p = if tget false s.sys.phyBad p then 0 else 1
    let Taken (u : State) (f : Flit) : Prop := portAt u p = (portAt s p).accept f ∧ (∀ k, k ≠ p.val → portAt u k = portAt s k) ∧
      u = { s with fab := { s.fab with ports := u.fab.ports }, regs := u.regs, host := u.host }
    (portState s p = 0 → ∃ u, exec (.portEnable p) s = .next u ∧ Trains u ∧ flag (rget u (portCfg p)) 0 = true ∧ u.tiles = s.tiles ∧ u.m = s.m) ∧
    (portState s p = 0 → flag (rget s (portCfg p)) 0 = true → portLive s p = true → ∃ u, exec (.retrainTimer p) s = .next u ∧ Trains u ∧
      u = { s with regs := u.regs }) ∧
    (portState s p = 1 →
      (∃ u, exec (.portTrained p true) s = .next u ∧ (portAt u p).trained = true ∧ portState u p = 1 ∧ tget false u.sys.portReset p = false ∧
        u.tiles = s.tiles ∧ u.m = s.m) ∧
      (∃ u, exec (.portTrained p false) s = .next u ∧ portState u p = 0 ∧ flag (rget u mgtStatus) (16 + (Config.bootBit p).val) = true ∧
        tget false u.sys.portReset p = false ∧ u.tiles = s.tiles ∧ u.m = s.m)) ∧
    (∀ f pm port twin time, portLive s p = true → f.hcrcOk = true → InOrder s p f → f.ty = 8 → f.body = .hello pm port twin time →
      (portState s p = 1 → (portAt s p).trained = true → ∃ u, exec (.helloFlit p f) s = .next u ∧ portState u p = 2 ∧
        rget u (portNbr p) = helloNbr pm port twin ∧ Taken u f) ∧
      (2 ≤ portState s p → rget s (portNbr p) = helloNbr pm port twin → ∃ u, exec (.helloFlit p f) s = .next u ∧ u.regs = s.regs ∧ u.host = s.host ∧
        Taken u f) ∧
      (2 ≤ portState s p → rget s (portNbr p) ≠ helloNbr pm port twin → ∃ u, exec (.helloFlit p f) s = .next u ∧ portState u p = 2 ∧
        flag (rget u (portStatus p)) 2 = true ∧ rget u (portNbr p) = helloNbr pm port twin ∧ Taken u f)) ∧
    (2 ≤ portState s p → flag (rget s (portCfg p)) 0 = true → ∃ u, exec (.portActive p) s = .next u ∧ portState u p = 3 ∧
      flag (rget u (portCfg p)) 3 = true ∧ u = { s with regs := u.regs }) ∧
    (2 ≤ portState s p → ∃ u, exec (.helloTimeout p) s = .next u ∧ portState u p = 0 ∧ flag (rget u (portStatus p)) 3 = true ∧
      portAt u p = { line := (portAt s p).line, reserved := (portAt s p).reserved } ∧ u.tiles = s.tiles ∧ u.m = s.m) ∧
    (2 ≤ portState s p → portLive s p = true → (portAt s p).free 0 = true → ∃ u g, exec (.helloTimer p) s = .next u ∧
      portAt u p = (portAt s p).transmit g ∧ g.ty = 8 ∧ g.vc = 0 ∧ g.body = .hello (selfPm s) (BitVec.ofNat 6 p.val) (isTwin s p) s.now ∧
      u = { s with fab := { s.fab with ports := u.fab.ports } }) ∧
    (∀ vc : BitVec 4, rget s (lnkBlk + 0x9010) ≠ 0 → (portAt s p).stalled vc.toNat = true → ∃ u, exec (.evtLinkStall p vc) s = .next u ∧
      flag (rget u (portStatus p)) 4 = true ∧ u = { s with regs := u.regs, host := u.host } ∧
      u.host.oob.length = s.host.oob.length + 1)

/-- Module time against its parent: the exchange goes out at the parent port and a child's is answered with the times at which it came and
went; the estimate from the four times is kept, locks
after 16 within 10 ns in a row and unlocks above 100 ns; only an unlocked module on which no context runs steps its time. The hold
limit ends the link instruction that waits for a seat in HOLD with class 0x23 (R221, R235). Conventions of the model it rests on:
log entries 39 and 40. -/
def Obligations.TimeAndHoldEffect : Prop :=
  ∀ (s : State),
    (fabricLive s = true → flag (rget s timeCfg) 6 = true → fld (rget s timeCfg) 0 6 < 36 → 2 ≤ portState s (fld (rget s timeCfg) 0 6) →
      (portAt s (fld (rget s timeCfg) 0 6)).free 0 = true →
      ∃ u g, exec .timeExchange s = .next u ∧ portAt u (fld (rget s timeCfg) 0 6) = (portAt s (fld (rget s timeCfg) 0 6)).transmit g ∧ g.ty = 9 ∧
        g.body = .time s.now 0 0 ∧
        u = { s with fab := { s.fab with ports := u.fab.ports } }) ∧
    (∀ (p : PortNo) (f : Flit) (t1 t2 t3 : BitVec 64), portLive s p = true → f.hcrcOk = true → InOrder s p f → f.ty = 9 → f.body = .time t1 t2 t3 →
      2 ≤ portState s p →
      let off : Int := ((t2 - t1).toInt + (t3 - s.now).toInt) / 2
      (fld (rget s timeCfg) 0 6 ≠ p → (portAt s p).free 0 = true → ∃ u g, exec (.timeFlit p f) s = .next u ∧
        portAt u p = ((portAt s p).accept f).transmit g ∧ g.ty = 9 ∧ g.body = .time t1 s.now s.now ∧
        u = { s with fab := { s.fab with ports := u.fab.ports } }) ∧
      (fld (rget s timeCfg) 0 6 = p → flag (rget s timeCfg) 6 = true → -32767 ≤ off → off ≤ 32767 →
        ∃ u, exec (.timeFlit p f) s = .next u ∧ fld (rget u timeStatus) 16 16 = unsgn 16 off ∧ u.tiles = s.tiles ∧ u.m = s.m ∧
          (flag (rget s timeStatus) 0 = true → u.now = s.now ∧ flag (rget u timeStatus) 0 = decide (off.natAbs ≤ 100) ∧
            (100 < off.natAbs → flag (rget u timeStatus) 1 = true)) ∧
          (flag (rget s timeStatus) 0 = false →
            flag (rget u timeStatus) 0 = (decide (off.natAbs ≤ 10) && decide (15 ≤ s.fab.good)) ∧
            u.now = if noneRuns s then s.now + BitVec.ofInt 64 off else s.now))) ∧
    (∀ (t : TileNo) (i : QInstr) (seat : Nat), rget s (lnkBlk + 0x9018) ≠ 0 → canStart s t = true → ((s.tile t).queue 4).head? = some i →
      opSeat i.op = some seat → seatState s seat = 2 → i.wait = none →
      ∃ u, exec (.holdLimitExpiry t) s = .next u ∧ (u.tile t).queue 4 = ((s.tile t).queue 4).tail ∧ u.bells = s.bells ∧
        (∀ a, memGet u.m a = memGet s.m a) ∧ Records (s.tile t) (u.tile t) 0x43 true 4 i.pc (linkAddr { i := i } 0) 0x23 i.seq)

/-- Class lists: creation under the number asked for or the lowest free one, refused with ST_NO_GROUP when 4096 are in use;
deletion; and, with no job, the removal of a member, which starts the list's barrier afresh (R121, R227, R234). Conventions of the model it rests
on: log entry 43. -/
def Obligations.ClassListEffect : Prop :=
  ∀ (s : State),
    (∀ (n : Option (BitVec 12)) (members : List (BitVec 10)) (rank experts : Nat),
      (listsUsed s < 4096 → ∀ k, (match n with | some k => some k.toNat | none => freeList s) = some k →
        ∃ u, exec (.classListCreate n members rank experts) s = .next u ∧ listAt u k = some { members := members, rank := rank, experts := experts } ∧
          (∀ m, m ≠ k → listAt u m = listAt s m) ∧ u.reply = .value (BitVec.ofNat 64 k) ∧ u.tiles = s.tiles ∧ u.m = s.m) ∧
      (4096 ≤ listsUsed s → exec (.classListCreate n members rank experts) s = .next { s with reply := .status 0x0170 })) ∧
    (∀ n : BitVec 12, ∃ u, exec (.classListDelete n) s = .next u ∧ listAt u n.toNat = none ∧ (∀ m, m ≠ n.toNat → listAt u m = listAt s m) ∧
      u = { s with fab := { s.fab with lists := u.fab.lists } }) ∧
    (∀ (n : BitVec 12) (seat : BitVec 10) (l : ClassList), listAt s n.toNat = some l →
      (seat ∉ l.members → exec (.classListMemberRemove n seat) s = .next s) ∧
      (NoJobs s → seat ∈ l.members →
        ∃ u l', exec (.classListMemberRemove n seat) s = .next u ∧ listAt u n.toNat = some l' ∧ l'.members = l.members.erase seat ∧ l'.gen = l.gen ∧
          l'.arrived = [] ∧ l'.waiting = false ∧ (∀ m, m ≠ n.toNat → listAt u m = listAt s m) ∧ (∀ a, memGet u.m a = memGet s.m a) ∧
          u.bells = s.bells))

/-! ### The training step -/

/-- The end of an attempt: a released gate passes or retries with the loss scale lowered; at the commit point the step is committed,
with the loss scale of its streak, or fails and asks for a restore; an abort repeats the attempt and the fourth one abandons the
step; a step whose COMMITs have not all issued by its deadline is told once (R45, R251 to R256, R258). No byte of memory and no Bell
changes. PARTNER_RESTORE_DONE of a job that restores outside a seat swap, with the one sheet that it needs, lands it and lets the
attempt go on; with nothing to bring it only ends the restore (R254, R339). Conventions of the model it rests on: log entries 45,
46, 47 and 68. -/
def Obligations.AttemptAndRestoreEnd : Prop :=
  (∀ (ctx : CtxNo) (s : State) (j : Job), jobOf s ctx.toNat = some j → j.layout = false → j.stopped = false →
      let Quiet (u : State) : Prop := (∀ a, memGet u.m a = memGet s.m a) ∧ u.bells = s.bells
      (∀ (other : BitVec 4) (amax : List (BitVec 30 × Int)), j.outcome = none → j.gateTiles ≤ j.gates → other.toNat ≤ 2 →
        (combineVerdict (seatVerdict j.final j) other.toNat = 0 → ∃ u, exec (.gateOutcomeRelease ctx other amax) s = .next u ∧
          jobOf u ctx.toNat = some { j with outcome := some 0 } ∧ Quiet u) ∧
        (combineVerdict (seatVerdict j.final j) other.toNat ≠ 0 → ∃ u k, exec (.gateOutcomeRelease ctx other amax) s = .next u ∧
          jobOf u ctx.toNat = some k ∧ k.next = j.next ∧ k.attempt = (if j.attempt = 8 then 8 else j.attempt + 1) ∧ k.stopped = decide (j.attempt = 8) ∧
          k.ls = (if j.ls > j.lsMin then j.ls - 1 else j.lsMin) ∧ k.streak = 0 ∧ k.gates = 0 ∧ k.outcome = none ∧ Quiet u)) ∧
      (∀ (amax : List (BitVec 30 × Int)), j.outcome = some 0 → j.optFail = false → j.gateTiles ≤ j.commits → j.rcv.replay = none →
        ∃ u k, exec (.commitPoint ctx amax false) s = .next u ∧ jobOf u ctx.toNat = some k ∧ k.next = j.next + 1 ∧ k.attempt = 0 ∧ k.aborts = 0 ∧
          k.acked = false ∧ k.committed = true ∧ k.outcome = none ∧
          k.ls = (if j.streak + 1 < j.lsStreak then j.ls else if j.ls < j.lsMax then j.ls + 1 else j.lsMax) ∧
          k.streak = (if j.streak + 1 < j.lsStreak then j.streak + 1 else 0) ∧ Quiet u) ∧
      (∀ (amax : List (BitVec 30 × Int)), j.outcome = some 0 → j.attempt < 8 →
        ∃ u k, exec (.commitPoint ctx amax true) s = .next u ∧ jobOf u ctx.toNat = some k ∧ k.next = j.next ∧ k.attempt = j.attempt + 1 ∧
          k.rcv.restoring = true ∧ k.outcome = none ∧ Quiet u) ∧
      (j.stateStarted = false → ∃ u k, exec (.attemptAbort ctx) s = .next u ∧ jobOf u ctx.toNat = some k ∧ k.next = j.next ∧ k.attempt = j.attempt ∧
        k.stopped = decide (j.aborts + 1 = 4) ∧ (j.aborts + 1 ≠ 4 → k.aborts = j.aborts + 1) ∧ k.gates = 0 ∧ k.commits = 0 ∧ k.ls = j.ls ∧
        Quiet u) ∧
      (j.late = false → j.commits + queuedCommits s ctx.toNat j.next < j.gateTiles → j.deadline < (s.now - j.start).toNat →
        ∃ u, exec (.evtStepLate ctx) s = .next u ∧
          jobOf u ctx.toNat = some { j with late := true } ∧ u = { s with regs := u.regs, host := u.host, jobs := u.jobs })) ∧
  (∀ (ctx : CtxNo) (s : State) (j : Job), jobOf s ctx.toNat = some j → j.rcv.restoring = true → j.rcv.rollback = false → j.rcv.swap = none →
      (restoreSheets s j = [] → ∃ u k, exec (.partnerRestoreDone ctx [] []) s = .next u ∧ jobOf u ctx.toNat = some k ∧ k.rcv.restoring = false ∧
        k.next = j.next ∧ k.attempt = j.attempt ∧ (∀ a, memGet u.m a = memGet s.m a) ∧ u.bells = s.bells) ∧
      (∀ (a : BitVec 48) (data : List Byte), restoreSheets s j = [a.toNat] → data.length = 4096 →
        (∀ w ∈ putBytes (mapCtx s) a.toNat data, taken s w = true) → ∃ u k, exec (.partnerRestoreDone ctx [(a, data)] []) s = .next u ∧
        Lands s u (putBytes (mapCtx s) a.toNat data) ∧ jobOf u ctx.toNat = some k ∧ k.rcv.restoring = false ∧ k.next = j.next ∧ u.bells = s.bells))

/-- A Changeover: its start of a plan whose entries stay on the seat records their bytes and moves none; the seat's report, with no
transfer to wait for, lands them, each byte of its source as it was or as it is; a failed read ends it with its rank and address; the switch point enters the
other layout, with the next weight epoch where a step has committed (R263 to R270). Conventions of the model it rests on: log
entries 52 and 53. -/
def Obligations.ChangeoverEffect : Prop :=
  ∀ (ctx : CtxNo) (s : State) (j : Job), jobOf s ctx.toNat = some j →
    (chgReady s ctx.toNat j (!j.layout) = true → (∀ e ∈ ownEntries s j (!j.layout), e.dstRank = e.srcRank ∧ accessError s true e.src e.len = none) →
      ∃ u, exec (.chgStart ctx) s = .next u ∧ (∀ a, memGet u.m a = memGet s.m a) ∧ u.tiles = s.tiles ∧ u.bells = s.bells ∧
        jobOf u ctx.toNat = some { j with change := some { layout := !j.layout, writes := (ownEntries s j (!j.layout)).flatMap (localCopy s) } }) ∧
    (∀ x, j.change = some x → x.done = false →
      (x.awaits = [] → (∀ w ∈ x.writes, taken s (landedByte s ctx.toNat w) = true) → ∃ u, exec (.chgSeatDone ctx none) s = .next u ∧ Lands s u (x.writes.map (landedByte s ctx.toNat)) ∧ u.bells = s.bells ∧
        ∃ k, jobOf u ctx.toNat = some k ∧ k.change = some { x with writes := [], done := true } ∧ k.layout = j.layout) ∧
      (∀ r a, ∃ u k, exec (.chgSeatDone ctx (some (r, a))) s = .next u ∧ jobOf u ctx.toNat = some k ∧ k.change = none ∧ k.chgReport = some (r, a) ∧
        k.layout = j.layout ∧ k.rcv.restoring = true ∧ u.bells = s.bells)) ∧
    (∀ x, j.change = some x → x.done = true → ∃ u k, exec (.chgSwitchPoint ctx) s = .next u ∧ jobOf u ctx.toNat = some k ∧ k.layout = x.layout ∧
      k.change = none ∧ k.next = j.next ∧ k.epoch = (if x.layout = true ∧ j.committed = true then j.epoch + 1 else j.epoch) ∧
      k.committed = (if x.layout then false else j.committed))

/-- Weight replacement: REPLACE passes its checks in order and begins, or ends with the first that fails, or during a replacement ends or
waits by a free choice; REPLACE_RESUME gives a stalled layer a new source; a layer received counts and arms the cut; the front installs
a layer under EPOCH_k; a failed GET is tried again, and
after a second the front stalls (R271 to R275). Conventions of the model it rests on: log entries 50 and 51. -/
def Obligations.ReplacementEffect : Prop :=
  ∀ (s : State) (j : Job),
    (∀ c : HostCmd, jobOf s (cmdCtx c) = some j → j.rcv.tell = false → Takes s c false [wholeWord, bmask 0 32] true →
      (∃ u, exec (.replace c) s = .next u ∧
        if (j.repl.desc = none ∧ inWindow s (cmdCtx c) c.w1.toNat Config.replBytes = false) ∨ inWindow s (cmdCtx c) c.w3.toNat Config.sourceBytes = false then
          Ended s u 0x08 c 0x0161 0 ∧ RegsHost s u
        else if j.layout = false then Ended s u 0x08 c 0x0137 0 ∧ RegsHost s u
        else if j.repl.state ≠ 0 then (Ended s u 0x08 c 0x0135 0 ∨ Running s u 0x08 c) ∧ u = { s with regs := u.regs, host := u.host, free := u.free }
        else if newer 32 (fld c.w2 0 32) j.epoch.toNat = false then Ended s u 0x08 c 0x0136 0 ∧ RegsHost s u
        else if j.repl.desc = none ∧ replOk s (dmaRead s c.w1.toNat Config.replBytes) = false then Ended s u 0x08 c 0x013A 0 ∧ RegsHost s u
        else Running s u 0x08 c ∧ ∃ k, jobOf u (cmdCtx c) = some k ∧ k.repl.state = 1 ∧ k.repl.eNew = BitVec.ofNat 32 (fld c.w2 0 32) ∧
          k.repl.eOld = j.epoch ∧ k.repl.received = 0 ∧ k.repl.front = 0 ∧ k.epoch = j.epoch) ∧
      (∃ u, exec (.replaceResume c) s = .next u ∧
        if inWindow s (cmdCtx c) c.w3.toNat Config.sourceBytes = false then Ended s u 0x09 c 0x0161 0 ∧ RegsHost s u
        else if j.repl.state ≠ 3 then Ended s u 0x09 c 0x0135 0 ∧ RegsHost s u
        else Ended s u 0x09 c 0 0 ∧ ∃ k, jobOf u (cmdCtx c) = some k ∧ k.repl.failing = false ∧ k.repl.state = (if j.repl.received = 0 then 1 else 2) ∧
          k.repl.received = j.repl.received)) ∧
    (∀ ctx : CtxNo, jobOf s ctx.toNat = some j →
      (∀ (d data : List Byte), j.repl.desc = some d → ∃ u, exec (.replaceLayerReceived ctx data) s = .next u ∧ u.bells = s.bells ∧
        if j.repl.state = 0 ∨ j.repl.state = 3 ∨ Config.replLayers d ≤ j.repl.received ∨ j.repl.front + 1 < j.repl.received ∨ data.length ≠ layerBytes d j.repl.received
        then u = s
        else ∃ k, jobOf u ctx.toNat = some k ∧ k.repl.received = j.repl.received + 1 ∧ k.repl.state = 2 ∧ k.repl.failing = false ∧
          k.repl.cut = (if j.repl.received = 0 then bellGet s (startBell d) else j.repl.cut)) ∧
      (∀ d : List Byte, j.repl.desc = some d → BellLives s (epochBell d j.repl.front) →
        (s.host.cmds.filter (fun r => decide (r.op = 0x08 ∧ cmdCtx r.c = ctx.toNat) && r.status.isNone)).length ≤ 1 →
        ∃ u, exec (.replaceInstall ctx) s = .next u ∧
        if j.repl.state = 0 ∨ j.repl.received ≤ j.repl.front ∨ bellMet s (leaveBell d j.repl.front) j.repl.cut = false then u = s
        else (∀ b, bellGet u b = if b = epochBell d j.repl.front then j.repl.eNew else bellGet s b) ∧
          ∃ k, jobOf u ctx.toNat = some k ∧ k.repl.front = j.repl.front + 1 ∧
            (if j.repl.front + 1 = Config.replLayers d then k.repl.state = 0 ∧ k.epoch = j.repl.eNew
             else k.repl.state = j.repl.state ∧ k.epoch = j.epoch)) ∧
      (j.repl.state = 1 ∨ j.repl.state = 2 → exec (.replaceRetry ctx) s = .next (setJob s ctx.toNat (some { j with repl := { j.repl with failing := true } }))) ∧
      (j.repl.failing = true → j.repl.state ≠ 3 → ∃ u k, exec (.evtReplaceStall ctx) s = .next u ∧ jobOf u ctx.toNat = some k ∧ k.repl.state = 3 ∧
        k.repl.received = j.repl.received ∧ k.epoch = j.epoch ∧ u.bells = s.bells))

/-! ### Checkpoints -/

/-- At a seat: the acknowledgement of the last commit moves the acknowledged record on; a commit not acknowledged in time is told
once; a new buddy makes a job re-protect, at once where its regions hold a committed step; a replay runs the journal's steps in order, consumes skipped ones, and ends at its last
or stops where it diverges (R331, R332, R338, R341). Conventions of the model it rests on: log entries 65 and 68. -/
def Obligations.SeatCheckpointEffect : Prop :=
  ∀ (s : State),
    (∀ (ctx : CtxNo) (step : BitVec 32) (j : Job), jobOf s ctx.toNat = some j → j.rcv.creating = false → j.rcv.reprotect = false → j.acked = false →
      (step.toNat + 1) % 2 ^ 32 = j.rcv.sent.next % 2 ^ 32 →
      ∃ u k, exec (.ckpAckRelease ctx step) s = .next u ∧ jobOf u ctx.toNat = some k ∧ k.acked = true ∧ k.rcv.ack = j.rcv.sent ∧ k.rcv.landing = [] ∧
        k.next = j.next ∧ fld (rget u ckpStatus) 0 32 = step.toNat ∧ flag (rget u ckpStatus) 32 = true ∧
        (∀ b, memGet u.m b = memGet s.m b) ∧ u.bells = s.bells ∧
        u.ward.release = (if wardLive s = true ∧ s.ward.held = some step.toNat then some step.toNat else s.ward.release)) ∧
    (∀ (ctx : CtxNo) (j : Job), jobOf s ctx.toNat = some j →
      (j.acked = false → j.rcv.creating = false → j.rcv.late = false → fld (rget s (ckpBlk + 0x20)) 0 32 ≠ 0 →
        fld (rget s (ckpBlk + 0x20)) 0 32 * 1000000 ≤ (s.now - commitTime j).toNat →
        ∃ u k, exec (.evtCkpLate ctx) s = .next u ∧ jobOf u ctx.toNat = some k ∧ k.rcv.late = true ∧ flag (rget u ckpStatus) 35 = true ∧
          u = { s with regs := u.regs, host := u.host, jobs := u.jobs }) ∧
      (∀ a, j.rcv.replay = some a → j.stopped = false → j.rcv.restoring = false → j.rcv.creating = false → j.rcv.swap = none →
        (j.rcv.ran = false → a ≤ j.next → ∃ u k, exec (.replayStep ctx) s = .next u ∧ jobOf u ctx.toNat = some k ∧ k.rcv.replay = none ∧
          flag (rget u ckpStatus) 34 = false ∧ k.next = j.next ∧ k.layout = j.rcv.genNext ∧
          (j.rcv.genNext = false → ∀ b, memGet u.m b = memGet s.m b)) ∧
        (∀ r, j.rcv.ran = false → j.next < a → journalOf j j.next = some r → ∃ u k, exec (.replayStep ctx) s = .next u ∧ jobOf u ctx.toNat = some k ∧
          k.rcv.replay = some a ∧ u.bells = s.bells ∧
          (if wfld r 0 36 2 = 1 then k.next = j.next + 1 ∧ k.ls = j.ls ∧ k.rcv.ran = false
           else k.next = j.next ∧ k.attempt = 0 ∧ k.ls = sgn 8 (wfld r 1 0 8) ∧ k.rcv.ran = true)) ∧
        (j.rcv.ran = true → j.next ≠ j.rcv.before.next → replayAgrees j = false → ∃ u k, exec (.replayStep ctx) s = .next u ∧
          jobOf u ctx.toNat = some k ∧ k.stopped = true ∧ k.rcv.diverged = true ∧ k.rcv.replay = none ∧ k.next = j.rcv.before.next ∧
          flag (rget u ckpStatus) 36 = true))) ∧
    (∀ (buddy : BitVec 11) (valid : Bool),
      (NoJobs s → ∃ u, exec (.buddyWrite buddy valid) s = .next u ∧ fld (rget u ckpBlk) 0 11 = buddy.toNat ∧ flag (rget u ckpBlk) 11 = valid ∧
        u = { s with regs := u.regs }) ∧
      (∀ c j, s.jobs = [(c, some j)] → j.rcv.creating = false → ∃ u k, exec (.buddyWrite buddy true) s = .next u ∧ jobOf u c = some k ∧
        k.rcv.reprotect = true ∧ k.next = j.next ∧ k.rcv.unsent = !atCommitted s j ∧ flag (rget u ckpStatus) 33 = atCommitted s j ∧
        fld (rget u ckpBlk) 0 11 = buddy.toNat ∧ u.tiles = s.tiles ∧
        (∀ a, memGet u.m a = memGet s.m a)))

/-- At a buddy: the partner area is armed, and for another ward than before without Archive sets, or refused; a complete landing is held,
and the end of its apply frees it; a durable Archive set, which
none becomes in the Quiet State of the module, is recorded with its step, its slot and whether it is to be uploaded; uploads end, fail and are tried again (R327, R331, R343, R344,
R413). Conventions of the model it rests on: log entries 64 and 66. -/
def Obligations.BuddyCheckpointEffect : Prop :=
  ∀ (s : State),
    (∀ v : BitVec 64, flag (rget s (ckpBlk + 0x10)) 58 = false → flag v 58 = true → s.jobs = [] →
      (planRange s (fld v 12 36 * 4096) (wardSheets s * 4096) = true → ∃ u, exec (.wardArm v) s = .next u ∧
        rget u (ckpBlk + 0x10) = v &&& BitVec.ofNat 64 (bmask 12 47) ∧ u = { s with regs := u.regs, ward := u.ward } ∧
        u.ward.seat = some (fld v 48 10) ∧
        (s.ward.seat = some (fld v 48 10) → u.ward = s.ward) ∧ (s.ward.seat ≠ some (fld v 48 10) → u.ward.sets = [] ∧ rget u (ckpBlk + 0x28) = 0)) ∧
      (planRange s (fld v 12 36 * 4096) (wardSheets s * 4096) = false → ∃ u, exec (.wardArm v) s = .next u ∧
        rget u (ckpBlk + 0x10) = rget s (ckpBlk + 0x10) ∧ flag (rget u ckpStatus) 37 = true ∧ u = { s with regs := u.regs })) ∧
    (∀ step : BitVec 32, wardLive s = true → s.ward.release = none →
      exec (.ckpHeld step) s = .next { s with ward := { s.ward with held := some step.toNat } }) ∧
    (∀ step, wardLive s = true → s.ward.release = some step → s.ward.writing = none → ∃ u, exec .landingApplyDone s = .next u ∧ u.ward.release = none ∧
      u.ward.acked = some step ∧ u.ward.sets = s.ward.sets ∧ u.bells = s.bells ∧ u.m.dirty = s.m.dirty) ∧
    (moduleQuiet s = true → exec .archiveSetDone s = .next s) ∧
    (∀ k step l, s.ward.writing = some (k, step, l) → moduleQuiet s = false → ∃ u, exec .archiveSetDone s = .next u ∧ u.ward.writing = none ∧ u.ward.count = s.ward.count + 1 ∧
      (∃ x, tget none u.ward.sets k = some x ∧ x.step = step ∧ x.number = s.ward.count + 1 ∧
        x.upload = decide ((wardJob s).storeEvery ≠ 0 ∧ (s.ward.count + 1) % (wardJob s).storeEvery = 0)) ∧ (∀ i, i ≠ k → tget none u.ward.sets i = tget none s.ward.sets i) ∧
      rget u (ckpBlk + 0x28) = BitVec.ofNat 64 (step % 2 ^ 32 + 2 ^ 32) ∧ u.m = s.m ∧ u.tiles = s.tiles ∧
      (∀ i < l.length, tget 0 u.archive (k * setSlot (wardJob s) + i) = l.getD i 0)) ∧
    (∀ k x, uploadSlot s.ward = some (k, x) → s.ward.failed = false →
      (s.ward.qpError = false → ∃ u, exec (.storeUploadDone true) s = .next u ∧ tget none u.ward.sets k = some { x with upload := false } ∧ u = { s with ward := u.ward }) ∧
      (∃ u, exec (.storeUploadDone false) s = .next u ∧ u.ward = { s.ward with failed := true } ∧ u.host.oob.length = s.host.oob.length + 1 ∧ u.m = s.m)) ∧
    (exec .storeRetry s = .next { s with ward := { s.ward with failed := false } })

/-! ### Serving -/

/-- Adapter commands: a flip whose time has come acts before them, and with no flip due ADAPTER_LOAD is refused where its version is not
newer than that of a LIVE slot or of a load of the same cycle, else takes the lowest FREE slot, waits or ends with 0x0138; ADAPTER_UNLOAD
frees an unpinned slot at once, drains a pinned one and finds the others; a due flip makes its slot LIVE; a load that has waited too
long ends with 0x0138 (R276 to R279). Conventions of the model it rests on: log entry 57. -/
def Obligations.AdapterEffect : Prop :=
  ∀ (s : State),
    (∀ c : HostCmd, (∀ k, (adapterAt s k).state = .loading → s.now.toNat < (adapterAt s k).flip.toNat) →
      (Takes s c false [bmask 0 48, bmask 12 36] (decide (1 ≤ fld c.w1 40 7 ∧ fld c.w1 40 7 ≤ 64)) →
        inWindow s (cmdCtx c) (fld c.w2 12 36 * 4096) 4096 = true →
        let Old : Prop := ∃ e ∈ s.adapters, e.2.id = fld c.w1 0 24 ∧ (e.2.state = .live ∨ (e.2.state = .loading ∧ e.2.flip = s.now + 2000)) ∧
          newer 16 (fld c.w1 24 16) e.2.version.toNat = false
        (Old → ∃ u, exec (.adapterLoad c) s = .next u ∧ Ended s u 0x0A c 0x0136 0 ∧ RegsHost s u) ∧
        (¬ Old →
          (∀ k < 1024, (adapterAt s k).state = .free → (∀ i < k, (adapterAt s i).state ≠ .free) → ∃ u, exec (.adapterLoad c) s = .next u ∧
            Ended s u 0x0A c 0 (BitVec.ofNat 64 k) ∧ (∀ i, i ≠ k → adapterAt u i = adapterAt s i) ∧ u.m = s.m ∧ u.tiles = s.tiles ∧
            adapterAt u k = { state := .loading, id := fld c.w1 0 24, rank := fld c.w1 40 7, version := BitVec.ofNat 16 (fld c.w1 24 16),
                              base := fld c.w2 12 36 * 4096, flip := s.now + 2000 }) ∧
          ((∀ k < 1024, (adapterAt s k).state ≠ .free) → ∃ u, exec (.adapterLoad c) s = .next u ∧ RegsHost s u ∧
            if flag c.w1 47 then Ended s u 0x0A c 0x0138 0 else Running s u 0x0A c))) ∧
      (Takes s c false [bmask 0 48] true →
        (∀ k, adapterIn s (fld c.w1 0 24) .live = some k → (adapterAt s k).state = .live → (adapterAt s k).id = fld c.w1 0 24 →
          ((adapterAt s k).refs = 0 → (∀ r ∈ s.host.cmds, r.op = 0x0A → r.status.isSome = true) →
            ∃ u, exec (.adapterUnload c) s = .next u ∧ adapterAt u k = {} ∧ (∀ i, i ≠ k → adapterAt u i = adapterAt s i) ∧ Ended s u 0x0B c 0 (BitVec.ofNat 64 k)) ∧
          ((adapterAt s k).refs ≠ 0 → ∃ u, exec (.adapterUnload c) s = .next u ∧ adapterAt u k = { adapterAt s k with state := .draining } ∧
            (∀ i, i ≠ k → adapterAt u i = adapterAt s i) ∧ Ended s u 0x0B c 0x0139 (BitVec.ofNat 64 k))) ∧
        (adapterIn s (fld c.w1 0 24) .live = none → ∃ u, exec (.adapterUnload c) s = .next u ∧ RegsHost s u ∧
          match adapterIn s (fld c.w1 0 24) .draining with
          | some k => Ended s u 0x0B c 0x0139 (BitVec.ofNat 64 k)
          | none => Ended s u 0x0B c 0 0))) ∧
    (∀ (c : HostCmd) (k : Nat), (adapterAt s k).state = .loading → (adapterAt s k).flip.toNat ≤ s.now.toNat → adapterIn s (adapterAt s k).id .live = none →
      (∀ i, i ≠ k → (adapterAt s i).state = .loading → s.now.toNat < (adapterAt s i).flip.toNat) →
      let live := setAdapter s k { adapterAt s k with state := .live }
      (Takes s c false [bmask 0 48, bmask 12 36] (decide (1 ≤ fld c.w1 40 7 ∧ fld c.w1 40 7 ≤ 64)) → exec (.adapterLoad c) s = exec (.adapterLoad c) live) ∧
      (Takes s c false [bmask 0 48] true → exec (.adapterUnload c) s = exec (.adapterUnload c) live) ∧
      (Takes s c false [bmask 0 26 + bmask 40 24, wholeWord, wholeWord, wholeWord, wholeWord] (decide (fld c.w5 0 3 = 0)) →
        exec (.admitCmd c) s = exec (.admitCmd c) live)) ∧
    (∀ slot : BitVec 10, (adapterAt s slot.toNat).state = .loading → (adapterAt s slot.toNat).flip.toNat ≤ s.now.toNat →
      adapterIn s (adapterAt s slot.toNat).id .live = none → ∃ u, exec (.adapterFlip slot) s = .next u ∧
      adapterAt u slot.toNat = { adapterAt s slot.toNat with state := .live } ∧ u = { s with adapters := u.adapters }) ∧
    (∀ (q : Fin 513) (tag : BitVec 16), ∃ u, exec (.adapterWaitLimit q tag) s = .next u ∧ u = { s with host := u.host } ∧
      u.host.cmds.length = s.host.cmds.length ∧ (∀ r ∈ u.host.cmds, r.op = 0x0A → r.c.q = q → r.c.tag = tag → r.status.isSome = true) ∧
      (∀ r ∈ s.host.cmds, r.status = none → r.op = 0x0A → r.c.q = q → r.c.tag = tag → { r with status := some 0x0138, result := 0 } ∈ u.host.cmds))

/-- Roster commands while no adapter flip is due: ADMIT makes the lowest FREE entry of its die ADMITTED, or ends with the first failed
check of R322, in its order; on a die that serves with no batch out the entry of a tenant with budget runs at once, as an item of a new
batch, and READY is rung; EVICT ends an entry outside the batch, and marks one of the batch; CLASS_SET, STEER_LOAD and STEER_UNLOAD keep what
they were given or are refused (R301, R305, R307, R309, R310, R314, R319, R322, R323). Conventions of the model it rests on: log entries 59
to 61 and 82. -/
def Obligations.RosterCommandEffect : Prop :=
  ∀ (s : State) (c : HostCmd), (∀ k, (adapterAt s k).state = .loading → s.now.toNat < (adapterAt s k).flip.toNat) →
    (Takes s c false [bmask 0 26 + bmask 40 24, wholeWord, wholeWord, wholeWord, wholeWord] (decide (fld c.w5 0 3 = 0)) →
      let t := cmdCtx c
      let d := fld c.w1 12 3
      let stream := fld c.w1 10 2
      let entries := dieEntries s d
      let failed : Option (BitVec 16) := match tget none s.serve.classes (d * 64 + fld c.w1 0 6) with
        | none => some 0x0140
        | some k => (([(decide (nfld k.tenants t 1 = 0), 0x0140),
            (decide (fld c.w2 0 32 > k.maxPrompt ∨ fld c.w2 32 32 > k.maxOut ∨ fld c.w2 32 32 = 0 ∨ stream = 3) ||
              (decide (stream = 1 ∨ stream = 2) && decide (c.w4.toNat % 64 ≠ 0 ∨ nfld (leNat (hostBytes s.host (c.w4.toNat + 16) 8)) 0 4 < 6)), 0x0141),
            (decide ((entries.filter (fun e => decide (e.2.cls = fld c.w1 0 6))).length ≥ k.maxActive), 0x0142),
            (decide (entries.length ≥ 16384), 0x0143),
            (decide (fld c.w1 40 24 ≠ 0xFFFFFF) && (adapterIn s (fld c.w1 40 24) .live).isNone, 0x0144),
            (flag c.w1 24 && (tget [] s.counts.steer (fld c.w1 15 9)).isEmpty, 0x0145)] : List (Bool × BitVec 16)).find? (·.1)).map (·.2)
      (inWindow s t (fld c.w5 0 48) (Nat.max 1 (4 * fld c.w5 48 16)) = false → ∃ u, exec (.admitCmd c) s = .next u ∧ Ended s u 0x10 c 0x0161 0 ∧ RegsHost s u) ∧
      (inWindow s t (fld c.w5 0 48) (Nat.max 1 (4 * fld c.w5 48 16)) = true →
        (∀ st, failed = some st → ∃ u, exec (.admitCmd c) s = .next u ∧ Ended s u 0x10 c st 0 ∧ RegsHost s u) ∧
        (∀ i, failed = none → d * 16384 ≤ i → i < d * 16384 + 16384 → (entry s i).state = .free → (∀ x, d * 16384 ≤ x → x < i → (entry s x).state ≠ .free) →
          (serving s d = false ∨ (dieServe s d).batch ≠ [] ∨ dieDead s d = true → ∃ u, exec (.admitCmd c) s = .next u ∧
            Ended s u 0x10 c 0 (BitVec.ofNat 64 ((entry u i).ident i)) ∧ (entry u i).state = .admitted ∧ (entry u i).gen = (entry s i).gen + 1 ∧
            (entry u i).tenant = t ∧ (entry u i).cls = fld c.w1 0 6 ∧ (entry u i).prompt = fld c.w2 0 32 ∧ (entry u i).maxNew = fld c.w2 32 32 ∧
            (entry u i).prio = fld c.w1 6 4 ∧ (entry u i).stream = stream ∧ (entry u i).tAdmit = s.now.toNat ∧ (entry u i).plist = fld c.w5 0 48 ∧
            (entry u i).npages = fld c.w5 48 16 ∧ (entry u i).pos = 0 ∧ (∀ x, x ≠ i → entry u x = entry s x) ∧ u.m = s.m ∧ u.tiles = s.tiles) ∧
          (∀ k, serving s d = true → (dieServe s d).batch = [] → dieDead s d = false → entries = [] → (∀ j, jobOf s t = some j → j.layout = true) →
            tget none s.serve.classes (d * 64 + fld c.w1 0 6) = some k → 1 ≤ k.pfSlots → 1 ≤ batchMax s d → 0 < level (refillAll s) t →
            ∃ u it, exec (.admitCmd c) s = .next u ∧ Ended s u 0x10 c 0 (BitVec.ofNat 64 ((entry u i).ident i)) ∧ (entry u i).state = .prefill ∧
              (dieServe u d).batch = [it] ∧ it.entry = i ∧ it.ident = (entry u i).ident i ∧ it.decode = false ∧ it.pos = 0 ∧ it.ntok = Nat.min k.chunk (fld c.w2 0 32) ∧
              bellGet u (readyBell s d) = bellGet s (readyBell s d) + 1 ∧ (∀ b, b ≠ readyBell s d → bellGet u b = bellGet s b))))) ∧
    (Takes s c false [bmask 0 32] true →
      let i := fld c.w1 0 32 % 2 ^ 17
      let e := entry s i
      (e.state = .free ∨ e.gen.toNat ≠ fld c.w1 0 32 / 2 ^ 17 → ∃ u, exec (.evict c) s = .next u ∧ Ended s u 0x11 c 0x0146 0 ∧ RegsHost s u) ∧
      (e.state ≠ .free → e.gen.toNat = fld c.w1 0 32 / 2 ^ 17 →
        (e.tenant ≠ cmdCtx c → ∃ u, exec (.evict c) s = .next u ∧ Ended s u 0x11 c 0x0161 0 ∧ RegsHost s u) ∧
        (e.tenant = cmdCtx c → e.open_ = true → e.aslot = none → ∃ u, exec (.evict c) s = .next u ∧ Ended s u 0x11 c 0 0 ∧ (∀ x, x ≠ i → entry u x = entry s x) ∧
          if (dieServe s (i / 16384)).batch.any (fun it => decide (it.entry = i)) then entry u i = { e with evict := true } else (entry u i).state = .evicted))) ∧
    (∀ e : HostCmd, Takes s c true [bmask 0 10] true → flag c.w1 9 = false →
      let d := fld c.w1 0 3
      let n := d * 64 + fld c.w1 3 6
      ∃ (u : State) (k : ServeClass), exec (.classSet c e) s = .next u ∧ k.maxActive = fld c.w2 0 16 ∧ k.pfSlots = fld c.w2 16 16 ∧ k.chunk = fld c.w2 32 32 ∧
        k.maxPrompt = fld c.w3 0 32 ∧ k.maxOut = fld c.w3 32 32 ∧ k.d = c.w4.toNat ∧
        let s' := { s with serve := { s.serve with classes := tset none s.serve.classes n (some k) } }
        let st := classStatus s (classesOf s' d) (batchMax s d) (pfMax s d) (tDie s d)
        Ended s u 0x21 c st 0 ∧ u.serve = if st = 0 then s'.serve else s.serve) ∧
    (Takes s c true [bmask 0 9, bmask 0 48] (memRange s c.w2.toNat 16384) → ∃ u, exec (.steerLoad c) s = .next u ∧ (∀ a, memGet u.m a = memGet s.m a) ∧
      if steerRefs s (fld c.w1 0 9) ≠ 0 then Ended s u 0x22 c 0x0149 0 ∧ u.counts = s.counts
      else if steerCardOk (dmaRead s c.w2.toNat 16384) = false then Ended s u 0x22 c 0x014A 0 ∧ u.counts = s.counts
      else Ended s u 0x22 c 0 0 ∧ tget [] u.counts.steer (fld c.w1 0 9) = dmaRead s c.w2.toNat 16384) ∧
    (Takes s c true [bmask 0 9] true → ∃ u, exec (.steerUnload c) s = .next u ∧ u.m = s.m ∧
      if steerRefs s (fld c.w1 0 9) ≠ 0 then Ended s u 0x23 c 0x0149 0 ∧ u.counts = s.counts
      else Ended s u 0x23 c 0 0 ∧ tget [] u.counts.steer (fld c.w1 0 9) = [])

/-- Steps of a die: ENABLE starts serving at step 0 with every bucket refilled from now, and ENABLE 0 only stops the next batch. A
tick of a die with no batch out, or in the learning layout, ends every entry whose deadline has passed, lets the others go on, and
where it serves offers them: a batch that it forms rings READY, and one ADMITTED entry with budget makes one, its cost taken from LEVEL. A
tick with a batch out, or on a die that does not answer, does nothing. The boundary, once DONE has counted the step, ends the step and
clears its sit-outs; on a die that serves the one result in order of one DECODE entry is applied to it and to its bucket, refilled since, and
reported, and step k + 1 is formed of it with READY rung, or the entry is held for its budget. MODE changes only with no entry live; a
step over T_DIE is told once (R300, R304, R306, R308 to R311, R313, R314, R324). Conventions of the model it rests on: log entries 58 to 60. -/
def Obligations.ServingStepEffect : Prop :=
  ∀ (d : DieNo) (s : State),
    let Rung (u : State) : Prop := ∀ b, bellGet u b = if b = readyBell s d then bellGet s b + 1 else bellGet s b
    (serving s d = false → dieEntries s d = [] → (dieServe s d).batch = [] → ∃ u, exec (.servingEnable d true) s = .next u ∧ serving u d = true ∧
      (dieServe u d).step = 0 ∧ (dieServe u d).batch = [] ∧ u.bells = s.bells ∧ u.m = s.m ∧ (∀ t < 512, (tenant u t).refill.isSome = true)) ∧
    (∃ u, exec (.servingEnable d false) s = .next u ∧ serving u d = false ∧ u = { s with regs := u.regs }) ∧
    (dieDead s d = true ∨ ((dieServe s d).batch ≠ [] ∧ learning s d = false) → exec (.rosterTick d) s = .next s) ∧
    (Canon s → dieDead s d = false → (dieServe s d).batch = [] ∨ learning s d = true → ∃ u, exec (.rosterTick d) s = .next u ∧
      (∀ i, entry u i = entry s i ∨ (d.val * 16384 ≤ i ∧ i < d.val * 16384 + 16384)) ∧
      (∀ i, d.val * 16384 ≤ i → i < d.val * 16384 + 16384 → (entry s i).open_ = true →
        ((entry s i).deadline < s.now.toNat → (entry u i).state = .free ∨ (entry u i).state = if (entry s i).evict then .evicted else .expired) ∧
        (s.now.toNat ≤ (entry s i).deadline → (entry u i).open_ = true ∧ (entry u i).gen = (entry s i).gen ∧ (entry u i).pos = (entry s i).pos ∧
          (entry u i).emitted = (entry s i).emitted)) ∧
      (dieServe u d).step = (dieServe s d).step ∧
      ((dieServe s d).batch = [] → if (dieServe u d).batch = [] then u.bells = s.bells else serving s d = true ∧ Rung u)) ∧
    (∀ (i : Nat) (e : Entry) (k : ServeClass), dieDead s d = false → learning s d = false → serving s d = true → (dieServe s d).batch = [] →
      (dieServe s d).ended = [] → dieEntries s d = [(i, e)] → entry s i = e → e.state = .admitted → s.now.toNat ≤ e.deadline → e.cls < 64 →
      tget none s.serve.classes (d.val * 64 + e.cls) = some k → 1 ≤ k.pfSlots → 1 ≤ batchMax s d → 0 < level (refillAll s) e.tenant →
      ∃ u it, exec (.rosterTick d) s = .next u ∧ entry u i = { e with state := .prefill } ∧ (dieServe u d).batch = [it] ∧ it.entry = i ∧
        it.ident = e.ident i ∧ it.decode = false ∧ it.pos = e.pos ∧ it.ntok = Nat.min k.chunk (e.prompt - e.pos) ∧
        level u e.tenant = max (-(2 ^ 47) : Int) (level (refillAll s) e.tenant - (it.ntok * fld (rget s (rosBkt e.tenant 8)) 0 16 : Nat)) ∧ Rung u) ∧
    ((dieServe s d).batch ≠ [] → dieDead s d = false → learning s d = false → bellMet s (doneBell s d) ((dieServe s d).step + 1) = true → serving s d = false →
      ∃ u, exec (.rosterBoundary d) s = .next u ∧ (dieServe u d).step = (dieServe s d).step + 1 ∧ (dieServe u d).batch = [] ∧ u.bells = s.bells ∧
        (∀ a, memGet u.m a = memGet s.m a) ∧ (∀ i, d.val * 16384 ≤ i → i < d.val * 16384 + 16384 → tget false u.counts.sitOut i = false)) ∧
    (∀ (i : Nat) (e : Entry) (it : BatchItem), dieDead s d = false → learning s d = false → serving s d = true → (dieServe s d).batch = [it] →
      bellMet s (doneBell s d) ((dieServe s d).step + 1) = true → (dieServe s d).ended = [] → 1 ≤ batchMax s d →
      dieEntries s d = [(i, e)] → entry s i = e → e.state = .decode → e.evict = false → s.now.toNat ≤ e.deadline → e.stream = 0 → tget false s.counts.sitOut i = false →
      it.entry = i → it.ident = e.ident i → it.decode = true → s.serve.tenants.map (·.1) = [e.tenant] → (tenant s e.tenant).refill.isSome = true →
      digestRoom s e.tenant 3 = true → Settled s (resultAddr s d (dieServe s d).step.toNat) 80 →
      let b := (List.range 80).map (fun k => localByte s (resultAddr s d (dieServe s d).step.toNat + k))
      wfld b 0 0 64 = it.ident → wfld b 1 16 4 = 1 → 1 ≤ it.remain → wfld b 1 20 12 = 0 → e.emitted + 1 < e.maxNew →
      let now := level (refill (setLevel s e.tenant (level s e.tenant + it.cost - 256)) e.tenant) e.tenant
      ∃ u, exec (.rosterBoundary d) s = .next u ∧ (dieServe u d).step = (dieServe s d).step + 1 ∧ (entry u i).gen = e.gen ∧ (entry u i).pos = e.pos + 1 ∧
        (entry u i).emitted = e.emitted + 1 ∧ (entry u i).npages = wfld b 1 0 16 ∧ (entry u i).epoch = BitVec.ofNat 32 (wfld b 1 32 32) ∧
        rget u (dring e.tenant 16) = BitVec.ofNat 64 ((fld (rget s (dring e.tenant 16)) 0 25 + 3) % 2 ^ 25) ∧
        if 0 < now then (entry u i).state = .decode ∧ level u e.tenant = max (-(2 ^ 47) : Int) (now - 256) ∧ Rung u ∧
          ∃ it', (dieServe u d).batch = [it'] ∧ it'.entry = i ∧ it'.ident = it.ident ∧ it'.decode = true ∧ it'.pos = e.pos + 1 ∧ it'.ntok = 1 ∧
            it'.remain = e.maxNew - (e.emitted + 1) ∧ it'.cost = 256
        else (entry u i).state = .held ∧ (entry u i).why = 2 ∧ (dieServe u d).batch = [] ∧ u.bells = s.bells) ∧
    (∀ mode, (rosterLive s = false → ∃ u, exec (.rosModeWrite mode) s = .next u ∧ flag (rget u rosCfg) 0 = mode ∧ u = { s with regs := u.regs }) ∧
      (rosterLive s = true → ∃ u, exec (.rosModeWrite mode) s = .next u ∧ flag (rget u rosStatus) 1 = true ∧ rget u rosCfg = rget s rosCfg ∧
        u = { s with regs := u.regs })) ∧
    ((dieServe s d).batch ≠ [] → (dieServe s d).late = false → tDie s d < (s.now - (dieServe s d).formed).toNat → ∃ u, exec (.evtServeLate d) s = .next u ∧
      dieServe u d = { dieServe s d with late := true } ∧ u = { s with regs := u.regs, host := u.host, serve := u.serve })

/-! ### Classrooms, Study Hall and Roll Call -/

/-- SLOT_START is that of the slot which module time lies in, once for each of its starts: at a new cycle the table takes its writes;
the slot is named; where it names another valid context than the resident, the switch begins: every tile of the Classroom is preempted
and nothing in memory changes; where it names the resident nothing else happens; for another slot, a start taken already and an ignored
Classroom it does nothing (R371, R373). The end of a save in a switch: with no context coming in the Classroom has none resident, and a
context whose area holds its image is restored by every tile; the end of the restore makes it resident (R373, R375). A Study Hall bubble
that has lasted SH_THRESHOLD and the end of its slice each begin a switch; SPLIT changes only on a die that no valid context uses
(R244, R368, R369, R376). Conventions of the model it rests on: log entry 79. -/
def Obligations.ClassroomSlotAndSwitch : Prop :=
  (∀ (c : Fin 16) (k : Fin 32) (s : State),
      (roomIgnored s c = true → exec (.slotStart c k) s = .next s) ∧
      (roomIgnored s c = false → newCycle s c = true → ∃ u, exec (.slotStart c k) s = .next u ∧ ∀ i < 32, activeSlot u c i = rget s (slotReg c i)) ∧
      (roomIgnored s c = false → newCycle s c = false →
        (slotDue s c = none → exec (.slotStart c k) s = .next s) ∧
        (∀ i t, slotDue s c = some (i, t) →
          i ≠ k.val ∨ (fld (rget s (roomReg c 16)) 10 5 = k.val ∧ tget none s.rooms.slotAt c = some (BitVec.ofNat 64 t)) → exec (.slotStart c k) s = .next s)) ∧
      (∀ n t, roomIgnored s c = false → newCycle s c = false → slotDue s c = some (k.val, t) →
        fld (rget s (roomReg c 16)) 10 5 ≠ k.val ∨ tget none s.rooms.slotAt c ≠ some (BitVec.ofNat 64 t) → switchOf s c = none →
        sliceOf s c = none → resident s c = some n → ctxValid s (slotCtx (activeSlot s c k)) = true →
        (slotCtx (activeSlot s c k) = n → ∃ u, exec (.slotStart c k) s = .next u ∧ fld (rget u (roomReg c 16)) 10 5 = k.val ∧ resident u c = some n ∧
          u = { s with regs := u.regs, rooms := u.rooms } ∧ switchOf u c = none ∧ tget none u.rooms.slotAt c = some (BitVec.ofNat 64 t)) ∧
        (slotCtx (activeSlot s c k) ≠ n → roomHeld s c = false → (∀ t ∈ roomTiles s c, ctlLive s t = true) →
          ∃ u, exec (.slotStart c k) s = .next u ∧ fld (rget u (roomReg c 16)) 10 5 = k.val ∧ resident u c = some n ∧
            switchOf u c = some { incoming := some (BitVec.ofNat 9 (slotCtx (activeSlot s c k))), start := BitVec.ofNat 64 t } ∧
            (∀ t ∈ roomTiles s c, (u.tile t).pre = .asked ∧ (u.tile t).run = false ∧ (u.tile t).x = (s.tile t).x) ∧
            (∀ t, t ∉ roomTiles s c → u.tile t = s.tile t) ∧ u.m = s.m ∧ u.bells = s.bells))) ∧
  (∀ (s : State),
      (∀ (c : Fin 16) (w : Switch), switchOf s c = some w → w.restoring = false → roomHeld s c = false →
        (∀ t ∈ roomTiles s c, (s.tile t).saved = true ∧ (s.tile t).pre = .idle ∧ ctlLive s t = true) →
        (w.incoming = none → (let v := activeSlot s c (fld (rget s (roomReg c 16)) 10 5); slotValid v = false ∨ ctxValid s (slotCtx v) = false) →
          ∃ u, exec (.slotSaveDone c) s = .next u ∧ resident u c = none ∧ switchOf u c = none ∧ u.tiles = s.tiles ∧ u.m = s.m) ∧
        (∀ i : BitVec 9, w.incoming = some i → ctxValid s i.toNat = true → areaFresh s c i.toNat = false →
          (∀ a b, (resident s c).bind (lowestSlot s c) = some a → lowestSlot s c i.toNat = some b → a ≠ b) →
          ∃ u, exec (.slotSaveDone c) s = .next u ∧ switchOf u c = some { w with restoring := true } ∧ u.m = s.m ∧
            (∀ t ∈ roomTiles s c, (u.tile t).pre = .restoring ∧ (u.tile t).ctx = i ∧ (u.tile t).run = false) ∧
            (∀ t, t ∉ roomTiles s c → u.tile t = s.tile t))) ∧
      (∀ (c : Fin 16) (w : Switch) (i : BitVec 9), switchOf s c = some w → w.restoring = true → w.back = false → w.study = false → w.incoming = some i →
        ctxValid s i.toNat = true → sliceOf s c = none → (∀ t ∈ roomTiles s c, (s.tile t).pre = .idle) →
        slotCtx (activeSlot s c (fld (rget s (roomReg c 16)) 10 5)) = i.toNat →
        ∃ u, exec (.slotRestoreDone c) s = .next u ∧ resident u c = some i.toNat ∧ switchOf u c = none ∧ u.m = s.m ∧
          (∀ t ∈ roomTiles s c, (u.tile t).ctx = i ∧ (u.tile t).x = (s.tile t).x ∧ (u.tile t).pc = (s.tile t).pc)) ∧
      (∀ (c : Fin 16) (n h : Nat), resident s c = some n → switchOf s c = none → sliceOf s c = none → shOf s n = some h →
        fld (rget s (roomReg c 0)) 0 16 ≠ 0 → fld (rget s (roomReg c 0)) 0 16 * 1000 ≤ bubbleNs s c n → roomIgnored s c = false → (lowestSlot s c h).isSome = true → ctxValid s h = true → h ≠ n →
        roomHeld s c = false → isBubble s c n = true → (∀ t ∈ roomTiles s c, ctlLive s t = true) →
        ∃ u, exec (.studyHallBubble c) s = .next u ∧ sliceOf u c = some (BitVec.ofNat 9 n) ∧
          switchOf u c = some { incoming := some (BitVec.ofNat 9 h), start := s.now, study := true } ∧ (∀ t ∈ roomTiles s c, (u.tile t).pre = .asked) ∧
          u.m = s.m ∧ u.bells = s.bells) ∧
      (∀ (c : Fin 16) (n : Nat) (j : BitVec 9), resident s c = some n → switchOf s c = none → sliceOf s c = some j → sliceOver s c j = true → (∀ t ∈ roomTiles s c, ctlLive s t = true) →
        ∃ u, exec (.studyHallSliceEnd c) s = .next u ∧ switchOf u c = some { incoming := some j, start := s.now, study := true } ∧
          (∀ t ∈ roomTiles s c, (u.tile t).pre = .asked) ∧ u.m = s.m ∧ u.bells = s.bells) ∧
      (∀ (d : DieNo) (v : Bool), isSplit s d ≠ v →
        ((∀ n < 512, ctxValid s n = true → inMask (ctxMask s n) (2 * d) = false ∧ inMask (ctxMask s n) (2 * d + 1) = false) →
          ∃ u, exec (.splitWrite d v) s = .next u ∧ isSplit u d = v ∧ u = { s with regs := u.regs }) ∧
        (∀ n < 512, ctxValid s n = true → inMask (ctxMask s n) (2 * d) = true →
          ∃ u, exec (.splitWrite d v) s = .next u ∧ isSplit u d = isSplit s d ∧ flag (rget u (clsBlk + 8 * d)) 1 = true ∧ u = { s with regs := u.regs })))

/-- Roll Call: an arm is refused over an unread snapshot unless it may overwrite, and moved where it comes too soon; the latch at
its time puts every tally into its shadow at once, RUN_NS of a resident context with the time since its restore, with the ID and the time; the acknowledgement frees the snapshot (R384 to R387).
Conventions of the model it rests on: log entry 81. -/
def Obligations.RollCallEffect : Prop :=
  ∀ (s : State),
    (∀ (id : BitVec 16) (ow : Bool),
      (flag (rget s rcStatus) 18 = true → ow = false → ∃ u, exec (.rollCallArm id ow) s = .next u ∧ u = { s with regs := u.regs } ∧
        flag (rget u rcStatus) 21 = true ∧ u.rollCall = s.rollCall ∧ (∀ a, a ≠ rcStatus → rget u a = rget s a)) ∧
      (flag (rget s rcStatus) 18 = false ∨ ow = true → ∃ u, exec (.rollCallArm id ow) s = .next u ∧ flag (rget u rcStatus) 16 = true ∧
        (if (rget s rcTime).toNat < s.now.toNat + 5000 then u.rollCall = some (s.now + 5000, id) ∧ flag (rget u rcStatus) 19 = true
         else u.rollCall = some (rget s rcTime, id) ∧ flag (rget u rcStatus) 19 = flag (rget s rcStatus) 19) ∧
        u = { s with regs := u.regs, rollCall := u.rollCall })) ∧
    (∀ t id, s.rollCall = some (t, id) → t.toNat ≤ s.now.toNat → ∃ u, exec .rollCallLatch s = .next u ∧ u.rollCall = none ∧
      fld (rget u rcStatus) 0 16 = id.toNat ∧ flag (rget u rcStatus) 16 = false ∧ flag (rget u rcStatus) 17 = true ∧ flag (rget u rcStatus) 18 = true ∧
      rget u rcLatched = t ∧ u.tiles = s.tiles ∧ u.m = s.m ∧ u.bells = s.bells ∧
      (∀ (k : TileNo) (o : Nat), o ∈ tileTallies → tget 0 u.shadow (pageBase k + o) = (pageRead s k o).getD 0) ∧
      (Canon s → (∀ e ∈ s.tiles, e.1 < 768) →
        (∀ c < 16, ∀ n, resident s c = some n → tget 0 u.shadow (ctxReg n 8) = runNow s n) ∧
        (∀ a, mgtBlk ≤ a → (∀ c < 16, ∀ n, resident s c = some n → a ≠ ctxReg n 8) → tget 0 u.shadow a = rget s a &&& BitVec.ofNat 64 (tallyBits a)))) ∧
    (∃ u, exec .rollCallAck s = .next u ∧ flag (rget u rcStatus) 18 = false ∧ u = { s with regs := u.regs } ∧ ∀ a, a ≠ rcStatus → rget u a = rget s a)

/-! ### The whole machine -/

/-- A step runs the command at the front of the queue on the state with the queue's rest; with no command waiting one nanosecond of
module time passes and nothing else differs (the empty queue is the model's choice, log 2). -/
def Obligations.StepRunsFrontCommand : Prop :=
  (∀ (i : Instr) (rest : List Instr) (s : State), s.pending = i :: rest → step s = exec i { s with pending := rest }) ∧
    (∀ s : State, s.pending = [] → step s = .next { s with now := s.now + 1 })

/-- Every step takes exactly the command at the front: commands that come later wait in their order. The queue and its one sender
are the model's (log entry 5). -/
def Obligations.StepConsumesQueueInOrder : Prop :=
  ∀ s s' : State, step s = .next s' → s'.pending = s.pending.tail

/-- From every state whose byte stores, dirty bits, poisoned words, Bells, registers and Roster are in canonical form, every step leaves
them so: keys strictly rising and no entry equal to what an unlisted key reads as. The canonical form and the zero of unlisted
bytes are the model's (log entry 1). -/
def Obligations.StepKeepsCanonicalStores : Prop :=
  ∀ s s' : State, Canon s → step s = .next s' → Canon s'

/-- The state after reset: canonical stores, no command waiting, every byte, Bell and tile register zero, every tile stopped with
TILE_WAIT_LIMIT 100,000 and PREEMPT_LIMIT 1000, and the registers at the values their rows give. MODEL'S CHOICE, not the spec's:
memory, Bells and X registers that read 0 and the module without power (log entries 1, 3 and 63). -/
def Obligations.ResetState : Prop :=
  Canon State.reset ∧ State.reset.pending = [] ∧ (∀ a, memGet State.reset.m a = 0) ∧ (∀ b, bellGet State.reset b = 0) ∧
    (∀ t, (State.reset.tile t).run = false ∧ (State.reset.tile t).stopped = true ∧ (State.reset.tile t).waitLimit = 100000 ∧ (State.reset.tile t).preLimit = 1000 ∧
      (∀ r, (State.reset.tile t).xr r = 0) ∧ (State.reset.tile t).pc = 0 ∧ (∀ q, (State.reset.tile t).queue q = [])) ∧
    rget State.reset hangCfg = 0x3701002710 ∧ rget State.reset wdogReg = 0x3E8 ∧ rget State.reset pwrCap = 0x1DB002D0 ∧
    (∀ q < 513, rget State.reset (qreg q 8) = 4 ∧ rget State.reset (qreg q 0x38) = 6) ∧ rget State.reset timeCfg = 63 ∧
    (∀ p < 2048, rget State.reset (routeReg p) = 0xFFFFFF)
end

