-- ==== Sys2Proof/Laws/Tab.lean ====
section
/-! SUPPORT. The laws of the sparse table: what a lookup reads after an update, and that every operation keeps the canonical
form. -/
namespace Sys2Proof.Laws
open Sys2Proof.Machine

@[simp] theorem tget_nil {α : Type} (d : α) (k : Nat) : tget d ([] : Tab α) k = d := rfl

variable {α : Type} [DecidableEq α]

/-- Keys of a table in canonical form lie at or above its bound. -/
theorem twfFrom_mono {d : Nat → α} {lo lo' : Nat} {t : Tab α} (hl : lo' ≤ lo) (h : twfFrom d lo t = true) : twfFrom d lo' t = true := by
  cases t with
  | nil => rfl
  | cons e r =>
    simp only [twfFrom, Bool.and_eq_true, decide_eq_true_eq] at h ⊢
    exact ⟨⟨Nat.le_trans hl h.1.1, h.1.2⟩, h.2⟩

/-- A key below the bound reads the default. -/
theorem tget_below {d : Nat → α} {d' : α} {lo k : Nat} {t : Tab α} (h : twfFrom d lo t = true) (hk : k < lo) : tget d' t k = d' := by
  induction t generalizing lo with
  | nil => rfl
  | cons e r ih =>
    simp only [twfFrom, Bool.and_eq_true, decide_eq_true_eq] at h
    have hne : ¬ e.1 = k := by omega
    simp only [tget, hne, if_false]
    exact ih h.2 (by omega)

omit [DecidableEq α] in
theorem tget_tput (d v : α) (t : Tab α) (k k' : Nat) : tget d (tput t k v) k' = if k' = k then v else tget d t k' := by
  induction t with
  | nil => simp only [tput, tget]; grind
  | cons e r ih => simp only [tput]; grind [tget]

omit [DecidableEq α] in
theorem tget_filter (d : α) (t : Tab α) (k k' : Nat) :
    tget d (t.filter (fun e => decide (e.1 ≠ k))) k' = if k' = k then d else tget d t k' := by
  induction t with
  | nil => simp
  | cons e r ih => simp only [List.filter_cons]; grind [tget]

/-- What a lookup reads after an update. -/
theorem tget_tset (d v : α) (t : Tab α) (k k' : Nat) : tget d (tset d t k v) k' = if k' = k then v else tget d t k' := by
  unfold tset; split
  · next h => rw [tget_filter, h]
  · exact tget_tput ..

/-- A lookup of another key is unchanged by an update. -/
theorem tget_tset_ne (d d' v : α) (t : Tab α) {k k' : Nat} (h : k' ≠ k) : tget d' (tset d t k v) k' = tget d' t k' := by
  unfold tset; split
  · rw [tget_filter, if_neg h]
  · rw [tget_tput, if_neg h]

/-- A lookup of the key that was set reads the value. -/
@[simp] theorem tget_tset_self (d v : α) (t : Tab α) (k : Nat) : tget d (tset d t k v) k = v := by rw [tget_tset, if_pos rfl]

/-- Dropping entries keeps the canonical form. -/
theorem twfFrom_filter {df : Nat → α} {t : Tab α} {lo : Nat} (p : Nat × α → Bool) (h : twfFrom df lo t = true) :
    twfFrom df lo (t.filter p) = true := by
  induction t generalizing lo with
  | nil => rfl
  | cons e r ih =>
    simp only [twfFrom, Bool.and_eq_true, decide_eq_true_eq] at h
    simp only [List.filter_cons]
    split
    · simp only [twfFrom, Bool.and_eq_true, decide_eq_true_eq]; exact ⟨h.1, ih h.2⟩
    · exact twfFrom_mono (by omega) (ih h.2)

theorem twf_filter {df : Nat → α} {t : Tab α} (p : Nat × α → Bool) (h : twf df t = true) : twf df (t.filter p) = true :=
  twfFrom_filter p h

theorem twf_tclear {df : Nat → α} {t : Tab α} (lo hi : Nat) (h : twf df t = true) : twf df (tclear t lo hi) = true :=
  twf_filter _ h

/-- An update keeps the canonical form. -/
theorem twfFrom_tput {df : Nat → α} {t : Tab α} {lo k : Nat} {v : α} (hv : v ≠ df k) (hlo : lo ≤ k) (h : twfFrom df lo t = true) :
    twfFrom df lo (tput t k v) = true := by
  induction t generalizing lo with
  | nil => simp [tput, twfFrom, hlo, hv]
  | cons e r ih =>
    simp only [twfFrom, Bool.and_eq_true, decide_eq_true_eq] at h
    simp only [tput]; split
    · next hlt =>
      simp only [twfFrom, Bool.and_eq_true, decide_eq_true_eq]
      exact ⟨⟨hlo, hv⟩, ⟨hlt, h.1.2⟩, h.2⟩
    · split
      · next hk => subst hk; simp only [twfFrom, Bool.and_eq_true, decide_eq_true_eq]; exact ⟨⟨hlo, hv⟩, h.2⟩
      · next hk =>
        simp only [twfFrom, Bool.and_eq_true, decide_eq_true_eq]
        exact ⟨h.1, ih (by omega) h.2⟩

theorem twfFrom_tset {df : Nat → α} {t : Tab α} {lo k : Nat} (v : α) (hlo : lo ≤ k) (h : twfFrom df lo t = true) :
    twfFrom df lo (tset (df k) t k v) = true := by
  unfold tset; split
  · exact twfFrom_filter _ h
  · next hv => exact twfFrom_tput hv hlo h

theorem twf_tset {df : Nat → α} {t : Tab α} (k : Nat) (v : α) (h : twf df t = true) : twf df (tset (df k) t k v) = true :=
  twfFrom_tset v (Nat.zero_le k) h

/-- A run of updates keeps the canonical form. -/
theorem twf_foldl_tset {β : Type} {df : Nat → α} (l : List β) (key : β → Nat) (val : Tab α → β → α) {t : Tab α} (h : twf df t = true) :
    twf df (l.foldl (fun m b => tset (df (key b)) m (key b) (val m b)) t) = true := by
  induction l generalizing t with
  | nil => exact h
  | cons b l ih => exact ih (twf_tset _ _ h)

end Sys2Proof.Laws
end

