-- ==== Sys2Proof/Laws/State.lean ====
section
/-! SUPPORT. What each field reads after each update of the state: tiles, registers, Bells, memory. -/
namespace Sys2Proof.Laws
open Sys2Proof.Machine

/-! ### Tiles -/

theorem tile_setTile (s : State) (t : Nat) (T : Tile) (k : Nat) : (s.setTile t T).tile k = if k = t then T else s.tile k :=
  tget_tset ..
@[simp] theorem tile_setTile_self (s : State) (t : Nat) (T : Tile) : (s.setTile t T).tile t = T := by simp [tile_setTile]
theorem tile_setTile_ne (s : State) {t k : Nat} (T : Tile) (h : k ≠ t) : (s.setTile t T).tile k = s.tile k := by simp [tile_setTile, h]
theorem tile_onTile (s : State) (t : Nat) (f : Tile → Tile) (k : Nat) : (s.onTile t f).tile k = if k = t then f (s.tile t) else s.tile k :=
  tget_tset ..
@[simp] theorem tile_onTile_self (s : State) (t : Nat) (f : Tile → Tile) : (s.onTile t f).tile t = f (s.tile t) := by simp [tile_onTile]
theorem tile_onTile_ne (s : State) {t k : Nat} (f : Tile → Tile) (h : k ≠ t) : (s.onTile t f).tile k = s.tile k := by simp [tile_onTile, h]

section
variable (s : State) (t : Nat) (T : Tile) (f : Tile → Tile)
@[simp] theorem setTile_pending : (s.setTile t T).pending = s.pending := rfl
@[simp] theorem setTile_now : (s.setTile t T).now = s.now := rfl
@[simp] theorem setTile_free : (s.setTile t T).free = s.free := rfl
@[simp] theorem setTile_bells : (s.setTile t T).bells = s.bells := rfl
@[simp] theorem setTile_m : (s.setTile t T).m = s.m := rfl
@[simp] theorem setTile_regs : (s.setTile t T).regs = s.regs := rfl
@[simp] theorem setTile_host : (s.setTile t T).host = s.host := rfl
@[simp] theorem setTile_fab : (s.setTile t T).fab = s.fab := rfl
@[simp] theorem setTile_sys : (s.setTile t T).sys = s.sys := rfl
@[simp] theorem setTile_jobs : (s.setTile t T).jobs = s.jobs := rfl
@[simp] theorem setTile_rooms : (s.setTile t T).rooms = s.rooms := rfl
@[simp] theorem setTile_counts : (s.setTile t T).counts = s.counts := rfl
@[simp] theorem setTile_serve : (s.setTile t T).serve = s.serve := rfl
@[simp] theorem setTile_adapters : (s.setTile t T).adapters = s.adapters := rfl
@[simp] theorem setTile_shadow : (s.setTile t T).shadow = s.shadow := rfl
@[simp] theorem setTile_rollCall : (s.setTile t T).rollCall = s.rollCall := rfl
@[simp] theorem setTile_saves : (s.setTile t T).saves = s.saves := rfl
@[simp] theorem setTile_ward : (s.setTile t T).ward = s.ward := rfl
@[simp] theorem setTile_archive : (s.setTile t T).archive = s.archive := rfl
@[simp] theorem setTile_reply : (s.setTile t T).reply = s.reply := rfl
@[simp] theorem onTile_pending : (s.onTile t f).pending = s.pending := rfl
@[simp] theorem onTile_now : (s.onTile t f).now = s.now := rfl
@[simp] theorem onTile_free : (s.onTile t f).free = s.free := rfl
@[simp] theorem onTile_bells : (s.onTile t f).bells = s.bells := rfl
@[simp] theorem onTile_m : (s.onTile t f).m = s.m := rfl
@[simp] theorem onTile_regs : (s.onTile t f).regs = s.regs := rfl
@[simp] theorem onTile_host : (s.onTile t f).host = s.host := rfl
@[simp] theorem onTile_fab : (s.onTile t f).fab = s.fab := rfl
@[simp] theorem onTile_sys : (s.onTile t f).sys = s.sys := rfl
@[simp] theorem onTile_jobs : (s.onTile t f).jobs = s.jobs := rfl
@[simp] theorem onTile_rooms : (s.onTile t f).rooms = s.rooms := rfl
@[simp] theorem onTile_counts : (s.onTile t f).counts = s.counts := rfl
@[simp] theorem onTile_serve : (s.onTile t f).serve = s.serve := rfl
@[simp] theorem onTile_adapters : (s.onTile t f).adapters = s.adapters := rfl
@[simp] theorem onTile_shadow : (s.onTile t f).shadow = s.shadow := rfl
@[simp] theorem onTile_rollCall : (s.onTile t f).rollCall = s.rollCall := rfl
@[simp] theorem onTile_saves : (s.onTile t f).saves = s.saves := rfl
@[simp] theorem onTile_ward : (s.onTile t f).ward = s.ward := rfl
@[simp] theorem onTile_archive : (s.onTile t f).archive = s.archive := rfl
@[simp] theorem onTile_reply : (s.onTile t f).reply = s.reply := rfl
@[simp] theorem mapCtx_setTile : mapCtx (s.setTile t T) = mapCtx s := rfl
@[simp] theorem mapCtx_onTile : mapCtx (s.onTile t f) = mapCtx s := rfl
end

/-! ### Tile registers -/

theorem xr_setX (T : Tile) (i : Nat) (v : BitVec 64) (r : Nat) : (T.setX i v).xr r = if r = 0 then 0 else if r = i then v else T.xr r := by
  unfold Tile.setX Tile.xr
  by_cases h : i = 0
  · subst h; simp only [if_pos]; split <;> rfl
  · simp only [if_neg h, tget_tset]; split <;> rfl
theorem dr_setD (T : Tile) (i : Nat) (v : BitVec 256) (r : Nat) : (T.setD i v).dr r = if r = i then v else T.dr r := tget_tset ..
theorem vr_setV (T : Tile) (i : Nat) (v : BitVec 4096) (r : Nat) : (T.setV i v).vr r = if r = i then v else T.vr r := tget_tset ..
theorem prd_setP (T : Tile) (i : Nat) (v : BitVec 256) (r : Nat) : (T.setP i v).prd r = if r = i then v else T.prd r := tget_tset ..
theorem queue_setQueue (T : Tile) (q : Nat) (l : List QInstr) (k : Nat) : (T.setQueue q l).queue k = if k = q then l else T.queue k := tget_tset ..
theorem startedQ_setStarted (T : Tile) (q : Nat) (l : List Started) (k : Nat) :
    (T.setStarted q l).startedQ k = if k = q then l else T.startedQ k := tget_tset ..
theorem stage_setStage (T : Tile) (n : Nat) (e : Stage) (k : Nat) : (T.setStage n e).stage k = if k = n then e else T.stage k := tget_tset ..

/-! ### Registers, Bells, memory -/

theorem bellGet_bellSet (s : State) (b : BitVec 19) (v : BitVec 32) (c : BitVec 19) :
    bellGet (bellSet s b v) c = if s.sys.dieReset ≠ some (b.toNat / 65536) ∧ c = b then v else bellGet s c := by
  unfold bellSet
  by_cases h : s.sys.dieReset = some (b.toNat / 65536)
  · simp [h]
  · simp [h, bellGet, tget_tset, BitVec.toNat_inj]
@[simp] theorem bellSet_tile (s : State) (b : BitVec 19) (v : BitVec 32) (t : Nat) : (bellSet s b v).tile t = s.tile t := by
  unfold bellSet
  split <;> rfl
@[simp] theorem touch_tile (s : State) (t : Nat) (w a : Bool) (r : Nat × Nat) (k : Nat) : (s.touch t w a r).tile k = s.tile k := rfl
@[simp] theorem fresh_tile (s : State) (k : Nat) : s.fresh.tile k = s.tile k := rfl
@[simp] theorem memGet_touch (s : State) (t : Nat) (w al : Bool) (r : Nat × Nat) (a : Nat) : memGet (s.touch t w al r).m a = memGet s.m a := rfl

end Sys2Proof.Laws
end

