-- ==== Sys2Proof/Laws/Events.lean ====
section
/-! SUPPORT. What an event changes: the host side, the queue-set registers and nothing else; and what a register update reads. -/
namespace Sys2Proof.Laws
open Sys2Proof.Machine

/-! ### Registers -/

theorem rget_rset (s : State) (a : Nat) (v : BitVec 64) (b : Nat) : rget (rset s a v) b = if b = a then v else rget s b := by
  unfold rget rset
  by_cases h : b = a
  · subst h; simp
  · simp only [if_neg h]; exact tget_tset_ne _ _ _ _ h
@[simp] theorem rget_rset_self (s : State) (a : Nat) (v : BitVec 64) : rget (rset s a v) a = v := by simp [rget_rset]
theorem rget_rset_ne (s : State) {a b : Nat} (v : BitVec 64) (h : b ≠ a) : rget (rset s a v) b = rget s b := by simp [rget_rset, h]
@[simp] theorem rset_tile (s : State) (a : Nat) (v : BitVec 64) (t : Nat) : (rset s a v).tile t = s.tile t := rfl
@[simp] theorem rset_m (s : State) (a : Nat) (v : BitVec 64) : (rset s a v).m = s.m := rfl
@[simp] theorem rset_bells (s : State) (a : Nat) (v : BitVec 64) : (rset s a v).bells = s.bells := rfl
@[simp] theorem rget_setTile (s : State) (t : Nat) (T : Tile) (a : Nat) : rget (s.setTile t T) a = rget s a := rfl
@[simp] theorem rget_onTile (s : State) (t : Nat) (f : Tile → Tile) (a : Nat) : rget (s.onTile t f) a = rget s a := rfl

/-! ### Events -/

/-- Only the registers of queue sets and the host side differ. -/
structure HostOnly (s u : State) : Prop where
  rest : u = { s with regs := u.regs, host := u.host }
  regs : ∀ a, (∀ q, a ≠ qreg q 0x38) → rget u a = rget s a

theorem HostOnly.refl (s : State) : HostOnly s s := ⟨rfl, fun _ _ => rfl⟩
theorem HostOnly.trans {s t u : State} (a : HostOnly s t) (b : HostOnly t u) : HostOnly s u :=
  ⟨by rw [b.rest, a.rest], fun x h => (b.regs x h).trans (a.regs x h)⟩
theorem HostOnly.setHost {s t : State} (a : HostOnly s t) (h : HostSide) : HostOnly s { t with host := h } :=
  ⟨by rw [a.rest], fun x hx => a.regs x hx⟩

theorem ringEvent_only (s : State) (q : Nat) (e : EvRec) : HostOnly s (ringEvent s q e) := by
  unfold ringEvent
  split
  · exact .refl s
  · dsimp only
    split
    · exact ⟨rfl, fun a h => rget_rset_ne _ _ (h q)⟩
    · exact ⟨rfl, fun a h => rget_rset_ne _ _ (h q)⟩

theorem ringEvents_only (l : List Nat) (e : EvRec) {s t : State} (h : HostOnly s t) :
    HostOnly s (l.foldl (fun s n => ringEvent s (n + 1) e) t) := by
  induction l generalizing t with
  | nil => exact h
  | cons a l ih => exact ih (h.trans (ringEvent_only t (a + 1) e))

/-- An event changes the host side and the event-ring registers only. -/
theorem raise_only (s : State) (code w2 w3 : Nat) (ctxs : List Nat) (die : Option Nat) : HostOnly s (raise s code w2 w3 ctxs die) := by
  have h1 : ∀ e, HostOnly s (if moduleQuiet s then s else ringEvent (ctxs.foldl (fun s n => ringEvent s (n + 1) e) s) 0 e) := by
    intro e; split
    · exact .refl s
    · exact (ringEvents_only ctxs e (.refl s)).trans (ringEvent_only _ 0 e)
  have h2 : ∀ (u : State) (e : EvRec), HostOnly s u → HostOnly s (if ctxs.isEmpty || moduleQuiet u then { u with host := { u.host with oob := u.host.oob ++ [e] } } else u) := by
    intro u e h; split
    · exact h.setHost _
    · exact h
  unfold raise
  exact (h2 _ _ (h1 _)).setHost _

theorem HostOnly.tile {s u : State} (h : HostOnly s u) (t : Nat) : u.tile t = s.tile t := by rw [h.rest]; rfl
theorem HostOnly.m {s u : State} (h : HostOnly s u) : u.m = s.m := by rw [h.rest]
theorem HostOnly.bells {s u : State} (h : HostOnly s u) : u.bells = s.bells := by rw [h.rest]

theorem raiseTile_only (s : State) (t code lo w3 : Nat) : HostOnly s (raiseTile s t code lo w3) := by
  delta raiseTile; exact raise_only ..

/-- A recorded fault: the tile's fault record, then the event. -/
theorem tileFault_only (s : State) (t : Nat) (f : FaultRec) :
    HostOnly (s.onTile t (fun T => { T with fault := recordFault T.fault f })) (tileFault s t f) := by
  delta tileFault; exact raiseTile_only ..

/-- A fault at execution: issue stops, the queues hold, the fault is recorded. -/
theorem execFault_tile (s : State) (t q : Nat) (pc : BitVec 64) (seq : Nat) (f : ExecFault) :
    (execFault s t q pc seq f).tile t = { s.tile t with
      run := false, wasRun := false, halt := .hold,
      fault := recordFault (s.tile t).fault
        { code := f.code, atExec := true, queue := BitVec.ofNat 3 q, valid := true, pc := pc.truncate 48, info0 := f.info0, info1 := f.info1, seq := seq } } := by
  unfold execFault
  rw [(tileFault_only _ _ _).tile]
  simp

/-- A fault at issue: issue stops, the queues drain, the fault is recorded. -/
theorem issueFault_tile (s : State) (t : Nat) (f : IFault) :
    (issueFault s t f).tile t = { s.tile t with
      run := false, bwait := none, halt := if (s.tile t).halt = .hold then .hold else .drain,
      fault := recordFault (s.tile t).fault
        { code := f.code, queue := 5, valid := true, pc := (s.tile t).pc.truncate 48, info0 := f.info0, info1 := f.info1, seq := (s.tile t).seq } } := by
  unfold issueFault
  rw [(tileFault_only _ _ _).tile]
  simp

end Sys2Proof.Laws
end

