-- ==== Sys2Proof/Laws/Issuing.lean ====
section
/-! SUPPORT. What the issue of a legal instruction word does on a tile that is ready for it. -/
namespace Sys2Proof.Laws
open Sys2Proof.Machine Sys2Proof.Safety

/-- A legal word on a ready tile: the body's effect on the state with TILE_PC past the word, then the issue order moves on. -/
theorem issueScalar_ready {s : State} {t : Nat} {ext : Bool} {w0 w1 : BitVec 64} {srcs : List Nat}
    {body : State → Except IFault State} {s' : State} (h : Ready s t ext srcs)
    (hb : body ((fetched s t (s.tile t).pc ext).onTile t (·.advance ext)) = .ok s') :
    issueScalar s t ext w0 w1 srcs true body = s'.onTile t (·.issued (s.tile t).pc w0 w1) := by
  have h2 : firstFault [fetchFault s (s.tile t).pc, if ext then fetchFault s ((s.tile t).pc + 8) else none] = none := by
    cases ext with
    | false => rw [h.fetch]; rfl
    | true => rw [h.fetch, if_pos rfl, h.fetch2 rfl]; rfl
  simp only [issueScalar, issueWord, h.issues, h.noWait, h.noLoad, h2, hb]
  rfl

/-- The same where the body changes only the tile. -/
theorem issueScalar_tile {s : State} {t : Nat} {ext : Bool} {w0 w1 : BitVec 64} {srcs : List Nat}
    {f : Tile → Tile} (h : Ready s t ext srcs) :
    ∃ u, issueScalar s t ext w0 w1 srcs true (fun s => .ok (s.onTile t f)) = u ∧ TileOnly s u t ∧
      u.tile t = (f ((s.tile t).advance ext)).issued (s.tile t).pc w0 w1 := by
  refine ⟨_, issueScalar_ready h rfl, ⟨?_, ?_, fun _ => rfl⟩, ?_⟩
  · rfl
  · intro k hk; simp [tile_onTile_ne _ _ hk, fetched]
  · simp [fetched]

/-- What an engine instruction's body may change of its tile: the issued views only. -/
structure ViewOnly (T T' : Tile) : Prop where
  eq : T' = { T with topkK := T'.topkK, aba := { T.aba with iFused := T'.aba.iFused, iAnchor := T'.aba.iAnchor, iValid := T'.aba.iValid } }

/-- A legal engine instruction that is ready and passes its checks is enqueued. -/
theorem issueEngine_ready {s : State} {t q : Nat} {w0 : BitVec 64} {x : Sync} {srcs : List Nat} {remote : Bool} {bells : List (BitVec 19)}
    {body : State → Tile → Except IFault (EngineOp × Tile)} {op : EngineOp} {T' : Tile} (h : ReadyQ s t q x srcs remote bells)
    (hb : body (atIssue s t x.ext) ((s.tile t).advance x.ext) = .ok (op, T')) (hv : ViewOnly ((s.tile t).advance x.ext) T') :
    Enqueued s (issueEngine s t q w0 x srcs true remote bells body) t q w0 x op ∧
      ((issueEngine s t q w0 x srcs true remote bells body).tile t).aba = T'.aba ∧
      ((issueEngine s t q w0 x srcs true remote bells body).tile t).topkK = T'.topkK := by
  have hT : (atIssue s t x.ext).tile t = (s.tile t).advance x.ext := by simp [atIssue, fetched, Tile.advance]
  have hroom : (decide (((s.tile t).queue q).length ≥ 32) || (decide (q = 3) && decide (moverTags (s.tile t) ≥ 4096))) = false := by
    have h1 : ¬ ((s.tile t).queue q).length ≥ 32 := by have := h.room; omega
    have h2 : ¬ (q = 3 ∧ moverTags (s.tile t) ≥ 4096) := by
      rintro ⟨e, g⟩; have := h.tag e; simp only [moverTags] at g; omega
    rw [decide_eq_false h1, Bool.false_or, ← Bool.decide_and, decide_eq_false h2]
  have hs : syncFault ((s.tile t).advance x.ext) x remote bells = none := h.bells
  have hv' : (fetched s t (s.tile t).pc x.ext).onTile t (fun y => y.advance x.ext) = atIssue s t x.ext := rfl
  have hq : T'.queue q = (s.tile t).queue q := by rw [hv.eq]; rfl
  have hqk : ∀ k, T'.queue k = (s.tile t).queue k := by intro k; rw [hv.eq]; rfl
  have key : ∃ w, issueEngine s t q w0 x srcs true remote bells body = w.onTile t (·.issued (s.tile t).pc w0 x.w1) ∧
      TileOnly s w t ∧ ∃ i : QInstr, w.tile t = { T'.setQueue q (T'.queue q ++ [i]) with waits := (w.tile t).waits } ∧
        i.seq = (s.tile t).seq ∧ i.pc = (s.tile t).pc ∧ i.w0 = w0 ∧ i.w1 = (if x.ext then x.w1 else 0) ∧ i.op = op ∧
        i.wait = syncWait x (s.tile t) ∧ i.ring = syncRing x := by
    have hpc : ((s.tile t).advance x.ext).pc - (if x.ext then 16 else 8) = (s.tile t).pc := by
      simp only [Tile.advance]; split <;> exact BitVec.add_sub_cancel _ _
    let i : QInstr :=
      { seq := (s.tile t).seq, pc := ((s.tile t).advance x.ext).pc - (if x.ext then 16 else 8), w0 := w0, w1 := if x.ext then x.w1 else 0,
        wait := syncWait x (s.tile t), ring := syncRing x, op := op,
        attempt := match jobOf (atIssue s t x.ext) (s.tile t).ctx.toNat with | some j => j.runFor (s.tile t).step | none => 0 }
    unfold issueEngine
    rw [if_neg (by rw [hroom]; simp)]
    refine ⟨?w, issueScalar_ready (s' := ?w) h.ready ?_, ?_⟩
    rotate_left
    · simp only [hv', hT, hs, hb]
      rfl
    · split
      · refine ⟨⟨rfl, ?_, fun _ => rfl⟩, i, ?_, ?_⟩
        · intro k hk; simp [noteHead, tile_onTile_ne _ _ hk, tile_setTile_ne _ _ hk, atIssue, fetched]
        · simp only [noteHead, tile_onTile_self, tile_setTile_self]; rfl
        · exact ⟨rfl, hpc, rfl, rfl, rfl, rfl, rfl⟩
      · refine ⟨⟨rfl, ?_, fun _ => rfl⟩, i, ?_, ?_⟩
        · intro k hk; simp [tile_onTile_ne _ _ hk, tile_setTile_ne _ _ hk, atIssue, fetched]
        · simp only [tile_setTile_self]; rfl
        · exact ⟨rfl, hpc, rfl, rfl, rfl, rfl, rfl⟩
  obtain ⟨w, he, hw, i, hi, h1, h2, h3, h4, h5, h6, h7⟩ := key
  rw [he]
  refine ⟨⟨⟨i, ?_, h1, h2, h3, h4, h5, ?_, ?_⟩, ?_, ?_, ?_, ?_, ?_⟩, ?_, ?_⟩
  · rw [tile_onTile_self, hi, Tile.issued]; exact (queue_setQueue _ _ _ _).trans (by rw [if_pos rfl, hq])
  · rw [h6]; simp [syncWait]
  · rw [h7]; simp [syncRing]
  · intro k hk; rw [tile_onTile_self, hi, Tile.issued]; exact (queue_setQueue _ _ _ _).trans (by rw [if_neg hk, hqk])
  · rw [tile_onTile_self, hi, hv.eq]; rfl
  · rw [hw.rest]; rfl
  · intro k hk; rw [tile_onTile_ne _ _ hk, hw.others k hk]
  · intro a; rw [onTile_m]; exact hw.bytes a
  · rw [tile_onTile_self, hi]; rfl
  · rw [tile_onTile_self, hi]; rfl

end Sys2Proof.Laws
end

