-- ==== Sys2Proof/Laws/Keeps.lean ====
section
/-! SUPPORT. What every operation keeps: the queue of waiting commands, and the canonical form of the stores. -/
namespace Sys2Proof.Laws
open Sys2Proof.Machine Sys2Proof.Safety

/-- `t` holds the queue of `s`, and its stores are in canonical form where those of `s` are. -/
structure Keeps (s t : State) : Prop where
  pending : t.pending = s.pending
  canon : Canon s → Canon t

theorem Keeps.refl (s : State) : Keeps s s := ⟨rfl, id⟩

theorem Keeps.trans {r s t : State} (h : Keeps r s) (k : Keeps s t) : Keeps r t := ⟨k.pending.trans h.pending, k.canon ∘ h.canon⟩

/-- An update of fields that `Keeps` does not speak of. -/
theorem Keeps.upd {r s t : State} (h1 : t.pending = s.pending) (h2 : t.m.cells = s.m.cells) (h3 : t.m.dirty = s.m.dirty)
    (h4 : t.m.poison = s.m.poison) (h5 : t.bells = s.bells) (h6 : t.regs = s.regs) (h7 : t.host.mem = s.host.mem)
    (h8 : t.archive = s.archive) (h9 : t.sys.cal = s.sys.cal) (h : Keeps r s) (h10 : t.serve.entries = s.serve.entries := by rfl) :
    Keeps r t :=
  h.trans ⟨h1, fun c => ⟨by rw [memWf, h2]; exact c.cells, h3 ▸ c.dirty, h4 ▸ c.poison, h5 ▸ c.bells, h6 ▸ c.regs, h7 ▸ c.host, h8 ▸ c.archive,
    h9 ▸ c.cal, h10 ▸ c.entries⟩⟩

/-- The same for a state written out over the fields of another. -/
theorem keeps_mk {r u : State} {now : BitVec 64} {free : Nat} {tiles : Tab Tile} {m : Mem} {shadow : Tab (BitVec 64)}
    {rollCall : Option (BitVec 64 × BitVec 16)} {saves : List (Nat × Tile)} {host : HostSide} {fab : Fabric} {rooms : Rooms} {sys : Sys}
    {counts : Counts} {jobs : Tab (Option Job)} {ward : Ward} {serve : Serve} {adapters : Tab Adapter} {reply : Reply}
    (h2 : m.cells = u.m.cells) (h3 : m.dirty = u.m.dirty) (h4 : m.poison = u.m.poison) (h7 : host.mem = u.host.mem)
    (h9 : sys.cal = u.sys.cal) (h10 : serve.entries = u.serve.entries) :
    Keeps r ⟨u.pending, now, free, tiles, u.bells, m, u.regs, shadow, rollCall, saves, host, fab, rooms, sys, counts, jobs, ward,
      u.archive, serve, adapters, reply⟩ ↔ Keeps r u :=
  ⟨fun h => Keeps.upd (s := ⟨u.pending, now, free, tiles, u.bells, m, u.regs, shadow, rollCall, saves, host, fab, rooms, sys, counts, jobs,
      ward, u.archive, serve, adapters, reply⟩) rfl h2.symm h3.symm h4.symm rfl rfl h7.symm rfl h9.symm h h10.symm,
   fun h => Keeps.upd (s := u) rfl h2 h3 h4 rfl rfl h7 rfl h9 h h10⟩

/-- A fold of kept states is kept. -/
theorem Keeps.foldl {β : Type} {r : State} {f : State → β → State} (l : List β) (hf : ∀ u x, Keeps r u → Keeps r (f u x)) {s : State}
    (h : Keeps r s) : Keeps r (l.foldl f s) := by
  induction l generalizing s with
  | nil => exact h
  | cons x l ih => exact ih (hf s x h)

/-- A fold over pairs of a state and something else. -/
theorem Keeps.foldl_fst {β γ : Type} {r : State} {f : State × γ → β → State × γ} (l : List β)
    (hf : ∀ a x, Keeps r a.1 → Keeps r (f a x).1) {a : State × γ} (h : Keeps r a.1) : Keeps r (l.foldl f a).1 := by
  induction l generalizing a with
  | nil => exact h
  | cons x l ih => exact ih (hf a x h)

theorem Keeps.foldl_snd {β γ : Type} {r : State} {f : γ × State → β → γ × State} (l : List β)
    (hf : ∀ a x, Keeps r a.2 → Keeps r (f a x).2) {a : γ × State} (h : Keeps r a.2) : Keeps r (l.foldl f a).2 := by
  induction l generalizing a with
  | nil => exact h
  | cons x l ih => exact ih (hf a x h)

/-- A change of memory that keeps its canonical form. -/
theorem Keeps.mem {r s : State} {m : Mem} (hm : Canon s → Canon { s with m := m }) (h : Keeps r s) : Keeps r { s with m := m } :=
  h.trans ⟨rfl, hm⟩

theorem Keeps.ite {c : Prop} [Decidable c] {r a b : State} (ha : Keeps r a) (hb : Keeps r b) : Keeps r (if c then a else b) := by
  split <;> assumption

/-! ### Memory -/

/-- Memory in canonical form, with its dirty bits and poisoned words. -/
def MemOk (m : Mem) : Prop := memWf m ∧ twf (fun _ => false) m.dirty = true ∧ twf (fun _ => (0 : Nat)) m.poison = true

theorem memOk_of_canon {s : State} (h : Canon s) : MemOk s.m := ⟨h.cells, h.dirty, h.poison⟩

theorem canon_setMem {s : State} (h : Canon s) {m : Mem} (k : MemOk m) : Canon { s with m := m } :=
  ⟨k.1, k.2.1, k.2.2, h.bells, h.regs, h.host, h.archive, h.cal, h.entries⟩

theorem memPut_ok {m : Mem} (w : PW) (h : MemOk m) : MemOk (memPut m w) := by
  refine ⟨twf_tset (df := fun _ => (0 : Byte)) _ _ h.1, ?_, h.2.2⟩
  unfold memPut
  dsimp only
  split
  · exact twf_tset (df := fun _ => false) _ _ h.2.1
  · exact h.2.1

theorem foldl_memPut_ok {m : Mem} (ws : List PW) (h : MemOk m) : MemOk (ws.foldl memPut m) := by
  induction ws generalizing m with
  | nil => exact h
  | cons w ws ih => exact ih (memPut_ok w h)

theorem memWrite_ok {m : Mem} (ws : List PW) (h : MemOk m) : MemOk (memWrite m ws) :=
  let k := foldl_memPut_ok ws h
  ⟨k.1, k.2.1, twf_filter _ k.2.2⟩

theorem memPoison_ok {m : Mem} (a n : Nat) (h : MemOk m) : MemOk (memPoison m a n) :=
  ⟨h.1, h.2.1, twf_tset (df := fun _ => (0 : Nat)) _ _ h.2.2⟩

theorem memClear_ok {m : Mem} (lo hi : Nat) (h : MemOk m) : MemOk (memClear m lo hi) :=
  ⟨twf_tclear _ _ h.1, twf_tclear _ _ h.2.1, twf_tclear _ _ h.2.2⟩

theorem write_keeps {r s : State} (ws : List PW) (h : Keeps r s) : Keeps r (s.write ws) :=
  h.mem (fun c => canon_setMem c (memWrite_ok ws (memOk_of_canon c)))

theorem poison_keeps {r s : State} (a n : Nat) (h : Keeps r s) : Keeps r { s with m := memPoison s.m a n } :=
  h.mem (fun c => canon_setMem c (memPoison_ok a n (memOk_of_canon c)))

theorem withDirty_keeps {r s t : State} (h : Keeps r s) (k : Keeps r t) : Keeps r (s.withDirty t) :=
  ⟨h.pending, fun c => canon_setMem (h.canon c) ⟨(h.canon c).cells, (k.canon c).dirty, (h.canon c).poison⟩⟩

/-- Dirty bits changed by a fold that keeps their canonical form. -/
theorem Keeps.dirtyFold {β : Type} {r s : State} (l : List β) {f : Tab Bool → β → Tab Bool}
    (hf : ∀ d x, twf (fun _ => false) d = true → twf (fun _ => false) (f d x) = true) (h : Keeps r s) :
    Keeps r { s with m := { s.m with dirty := l.foldl f s.m.dirty } } :=
  h.mem (fun c => canon_setMem c ⟨c.cells, by
    have k : ∀ d, twf (fun _ => false) d = true → twf (fun _ => false) (l.foldl f d) = true := by
      induction l with
      | nil => exact fun _ hd => hd
      | cons x l ih => exact fun d hd => ih _ (hf d x hd)
    exact k _ c.dirty, c.poison⟩)

/-- A poisoned word, with fields changed that `Keeps` does not speak of. -/
theorem keeps_mk_poison {z u : State} {now : BitVec 64} {free : Nat} {tiles : Tab Tile} {a n : Nat} {shadow : Tab (BitVec 64)}
    {rollCall : Option (BitVec 64 × BitVec 16)} {saves : List (Nat × Tile)} {fab : Fabric} {rooms : Rooms} {counts : Counts}
    {jobs : Tab (Option Job)} {ward : Ward} {serve : Serve} {adapters : Tab Adapter} {reply : Reply} (h : Keeps z u)
    (h10 : serve.entries = u.serve.entries := by rfl) :
    Keeps z ⟨u.pending, now, free, tiles, u.bells, memPoison u.m a n, u.regs, shadow, rollCall, saves, u.host, fab, rooms, u.sys, counts,
      jobs, ward, u.archive, serve, adapters, reply⟩ :=
  Keeps.upd (s := { u with m := memPoison u.m a n }) rfl rfl rfl rfl rfl rfl rfl rfl rfl (poison_keeps a n h) h10

/-! ### Registers, Bells, host memory -/

theorem rset_keeps {r s : State} (a : Nat) (v : BitVec 64) (h : Keeps r s) : Keeps r (rset s a v) :=
  h.trans ⟨rfl, fun c => ⟨c.cells, c.dirty, c.poison, c.bells, twf_tset _ _ c.regs, c.host, c.archive, c.cal, c.entries⟩⟩

theorem bellSet_keeps {r s : State} (b : BitVec 19) (v : BitVec 32) (h : Keeps r s) : Keeps r (bellSet s b v) :=
  Keeps.ite h (h.trans
    ⟨rfl, fun c => ⟨c.cells, c.dirty, c.poison, twf_tset (df := fun _ => (0 : BitVec 32)) _ _ c.bells, c.regs, c.host, c.archive, c.cal, c.entries⟩⟩)

theorem hostPut_ok {h : HostSide} (a : Nat) (l : List Byte) (k : twf (fun _ => (0 : Byte)) h.mem = true) :
    twf (fun _ => (0 : Byte)) (hostPut h a l).mem = true :=
  twf_foldl_tset (df := fun _ => (0 : Byte)) (l.zip (upto a l.length)) (fun x => x.2) (fun _ x => x.1) k

/-- Host memory replaced by one in canonical form, with other fields changed. -/
theorem Keeps.hostMem {r s t : State} (h : Keeps r s) {l : List Host.Cell} (hm : Canon s → twf (fun _ => (0 : Byte)) l = true)
    (h1 : t.pending = s.pending) (h2 : t.m.cells = s.m.cells) (h3 : t.m.dirty = s.m.dirty) (h4 : t.m.poison = s.m.poison)
    (h5 : t.bells = s.bells) (h6 : t.regs = s.regs) (h7 : t.host.mem = l) (h8 : t.archive = s.archive) (h9 : t.sys.cal = s.sys.cal)
    (h10 : t.serve.entries = s.serve.entries := by rfl) : Keeps r t :=
  h.trans ⟨h1, fun c => ⟨by rw [memWf, h2]; exact c.cells, h3 ▸ c.dirty, h4 ▸ c.poison, h5 ▸ c.bells, h6 ▸ c.regs, h7 ▸ hm c, h8 ▸ c.archive,
    h9 ▸ c.cal, h10 ▸ c.entries⟩⟩

/-- The state `u` with host side `h` keeps. -/
def KeepsHost (z u : State) (h : HostSide) : Prop := Keeps z { u with host := h }

theorem keeps_mk_host {z u : State} {now : BitVec 64} {free : Nat} {tiles : Tab Tile} {m : Mem} {shadow : Tab (BitVec 64)}
    {rollCall : Option (BitVec 64 × BitVec 16)} {saves : List (Nat × Tile)} {host : HostSide} {fab : Fabric} {rooms : Rooms} {sys : Sys}
    {counts : Counts} {jobs : Tab (Option Job)} {ward : Ward} {serve : Serve} {adapters : Tab Adapter} {reply : Reply}
    (h2 : m.cells = u.m.cells) (h3 : m.dirty = u.m.dirty) (h4 : m.poison = u.m.poison) (h9 : sys.cal = u.sys.cal)
    (h10 : serve.entries = u.serve.entries) :
    Keeps z ⟨u.pending, now, free, tiles, u.bells, m, u.regs, shadow, rollCall, saves, host, fab, rooms, sys, counts, jobs, ward,
      u.archive, serve, adapters, reply⟩ ↔ KeepsHost z u host :=
  ⟨fun h => Keeps.upd (s := ⟨u.pending, now, free, tiles, u.bells, m, u.regs, shadow, rollCall, saves, host, fab, rooms, sys, counts, jobs,
      ward, u.archive, serve, adapters, reply⟩) rfl h2.symm h3.symm h4.symm rfl rfl rfl rfl h9.symm h h10.symm,
   fun h => Keeps.upd (s := { u with host := host }) rfl h2 h3 h4 rfl rfl rfl rfl h9 h h10⟩

theorem keepsHost_self {z u : State} (h : Keeps z u) : KeepsHost z u u.host := h

theorem keepsHost_put {z u : State} {h : HostSide} (a : Nat) (l : List Byte) (k : KeepsHost z u h) : KeepsHost z u (hostPut h a l) :=
  Keeps.hostMem (s := { u with host := h }) k (l := (hostPut h a l).mem) (fun c => hostPut_ok a l c.host) rfl rfl rfl rfl rfl rfl rfl rfl rfl

theorem keepsHost_mk {z u : State} {h : HostSide} {cmds : List CmdRec} {compLap evLap lost msixOn : Tab Bool} {msix : List (Nat × Nat)}
    {oob : List EvRec} {last : Tab (List EvRec)} {srPos : Tab Nat} {srDrop : Tab Bool} :
    KeepsHost z u ⟨h.mem, cmds, compLap, evLap, lost, msixOn, msix, oob, last, srPos, srDrop⟩ ↔ KeepsHost z u h :=
  ⟨fun k => Keeps.upd (s := { u with host := ⟨h.mem, cmds, compLap, evLap, lost, msixOn, msix, oob, last, srPos, srDrop⟩ })
      rfl rfl rfl rfl rfl rfl rfl rfl rfl k,
   fun k => Keeps.upd (s := { u with host := h }) rfl rfl rfl rfl rfl rfl rfl rfl rfl k⟩

theorem keepsHost_foldl {β : Type} {z u : State} {f : HostSide → β → HostSide} (l : List β)
    (hf : ∀ h x, KeepsHost z u h → KeepsHost z u (f h x)) {h : HostSide} (k : KeepsHost z u h) : KeepsHost z u (l.foldl f h) := by
  induction l generalizing h with
  | nil => exact k
  | cons x l ih => exact ih (hf h x k)

/-! ### Results that may be no state -/

/-- The same for the result of a check and an effect: nothing is asked of an error. -/
def KeepsE {ε : Type} (z : State) : Except ε State → Prop
  | .ok v => Keeps z v
  | .error _ => True

/-- The same for an outcome: nothing is asked of a fault or a refusal. -/
def KeepsO (z : State) : Host.Outcome State Fault Refusal → Prop
  | .next v => Keeps z v
  | _ => True

/-- The same for an optional state. -/
def KeepsS (z : State) : Option State → Prop
  | some v => Keeps z v
  | none => True

theorem keepsE_ok {ε : Type} {z v : State} (h : Keeps z v) : KeepsE (ε := ε) z (.ok v) := h
theorem keepsE_error {ε : Type} {z : State} (e : ε) : KeepsE z (.error e) := trivial
theorem keepsO_next {z v : State} (h : Keeps z v) : KeepsO z (.next v) := h
theorem keepsO_fault {z : State} (e : Fault) : KeepsO z (.fault e) := trivial
theorem keepsO_refused {z : State} (e : Refusal) : KeepsO z (.refused e) := trivial
theorem keepsS_some {z v : State} (h : Keeps z v) : KeepsS z (some v) := h
theorem keepsS_none {z : State} : KeepsS z none := trivial

end Sys2Proof.Laws
end

