-- ==== Sys2Proof/Laws/KeepsRegs.lean ====
section
/-! SUPPORT. What the operations of Machine/Regs.lean keep. -/
namespace Sys2Proof.Laws
open Sys2Proof.Machine Sys2Proof.Safety

theorem rfld_keeps {z : State} (s : State) (a lo w x : Nat)  (h : Keeps z s) : Keeps z (rfld s a lo w x) := by
  delta rfld
  repeat' first
    | with_reducible assumption | with_reducible apply rset_keeps

theorem rflag_keeps {z : State} (s : State) (a i : Nat) (b : Bool)  (h : Keeps z s) : Keeps z (rflag s a i b) := by
  delta rflag
  repeat' first
    | with_reducible assumption | with_reducible apply rset_keeps

end Sys2Proof.Laws
end

