-- ==== Sys2Proof/Laws/KeepsOps.lean ====
section
/-! SUPPORT. What the operations of Machine/Ops.lean keep. -/
namespace Sys2Proof.Laws
open Sys2Proof.Machine Sys2Proof.Safety

theorem setTile_keeps {z : State} (s : State) (t : Nat) (T : Tile)  (h : Keeps z s) : Keeps z (State.setTile s t T) := by
  delta State.setTile
  repeat' first
    | with_reducible assumption | simp only [keeps_mk]

theorem onTile_keeps {z : State} (s : State) (t : Nat) (f : Tile → Tile)  (h : Keeps z s) : Keeps z (State.onTile s t f) := by
  delta State.onTile
  repeat' first
    | with_reducible assumption | with_reducible apply setTile_keeps

theorem touch_keeps {z : State} (s : State) (t : Nat) (wr alloc : Bool) (r : Nat × Nat)  (h : Keeps z s) : Keeps z (State.touch s t wr alloc r) := by
  delta State.touch
  repeat' first
    | with_reducible assumption | (extract_lets +onlyGivenNames u; subst u) | dsimp -zeta only | simp only [keeps_mk]

theorem touches_keeps {z : State} (s : State) (t : Nat) (wr : Bool) (l : List (Nat × Nat))  (h : Keeps z s) : Keeps z (State.touches s t wr l) := by
  delta State.touches
  repeat' first
    | with_reducible assumption | with_reducible apply touch_keeps | (apply Keeps.foldl; intro _ _ _)

theorem touchWrites_keeps {z : State} (s : State) (t : Option Nat) (ws : List PW)  (h : Keeps z s) : Keeps z (State.touchWrites s t ws) := by
  delta State.touchWrites
  repeat' first
    | with_reducible assumption | (extract_lets +onlyGivenNames u; subst u) | simp only [keeps_mk]

theorem touchHome_keeps {z : State} (s : State) (wr : Bool) (r : Nat × Nat)  (h : Keeps z s) : Keeps z (State.touchHome s wr r) := by
  delta State.touchHome
  repeat' first
    | with_reducible assumption | (extract_lets +onlyGivenNames u; subst u) | dsimp -zeta only | simp only [keeps_mk]

theorem fresh_keeps {z : State} (s : State)  (h : Keeps z s) : Keeps z (State.fresh s) := by
  delta State.fresh
  repeat' first
    | with_reducible assumption | simp only [keeps_mk]

theorem raceDrop_keeps {z : State} (s : State) (t q : Nat) (ws : List PW)  (h : Keeps z s) : Keeps z (raceDrop s t q ws) := by
  delta raceDrop
  repeat' first
    | with_reducible assumption | dsimp -zeta only | simp only [keeps_mk]

theorem accept_keeps {z : State} (s : State) (ws : List PW) (h : Keeps z s) : Keeps z (s.accept ws) := by
  rw [State.accept]
  refine Keeps.ite h (Keeps.upd (s := { s with m := _ }) rfl rfl rfl rfl rfl rfl rfl rfl rfl (Keeps.dirtyFold ws (fun d w hd => ?_) h))
  split
  · exact twf_tset (df := fun _ => false) _ _ hd
  · exact hd

theorem seen_keeps {z : State} (s : State) (t q : Nat) (rs : List (Nat × Nat)) (h : Keeps z s) : Keeps z (s.seen t q rs) :=
  Keeps.dirtyFold _ (fun _ _ hd => twf_tset (df := fun _ => false) _ _ hd) h

theorem bellAdd_keeps {z : State} (s : State) (b : BitVec 19) (n : Nat)  (h : Keeps z s) : Keeps z (bellAdd s b n) := by
  delta bellAdd
  repeat' first
    | with_reducible assumption | with_reducible apply bellSet_keeps

theorem signal_keeps {z : State} (s : State) (fn vec : Nat)  (h : Keeps z s) : Keeps z (signal s fn vec) := by
  delta signal
  repeat' first
    | with_reducible assumption | (extract_lets +onlyGivenNames u; subst u) | simp only [keeps_mk]

theorem ringEvent_keeps {z : State} (s : State) (q : Nat) (e : EvRec) (h : Keeps z s) : Keeps z (ringEvent s q e) := by
  delta ringEvent
  split
  · exact h
  · extract_lets c size prod s0 src lap lost w0 bytes np s1 h1
    have k : Keeps z s1 := rset_keeps _ _ h
    have k0 : Keeps z s0 := rset_keeps _ _ h
    have hm : Canon s1 → twf (fun _ => (0 : Byte)) h1.mem = true := fun c => hostPut_ok _ _ c.host
    clear_value h1
    clear_value s1
    split
    · exact Keeps.upd (s := s0) rfl rfl rfl rfl rfl rfl rfl rfl rfl k0
    · exact signal_keeps _ _ _ (k.hostMem (hm := hm) rfl rfl rfl rfl rfl rfl rfl rfl rfl)

theorem raise_keeps {z : State} (s : State) (code w2 w3 : Nat) (ctxs : List Nat) (die : Option Nat)  (h : Keeps z s) : Keeps z (raise s code w2 w3 ctxs die) := by
  delta raise
  repeat' first
    | with_reducible assumption
    | (extract_lets +onlyGivenNames u; refine (fun (_ : Keeps z u) => ?_) ?_; clear_value u; rotate_left; subst u)
    | (extract_lets +onlyGivenNames u; subst u) | with_reducible apply ringEvent_keeps | with_reducible apply Keeps.ite
    | simp only [keeps_mk] | (apply Keeps.foldl; intro _ _ _)

theorem countTal_keeps {z : State} (s : State) (o n : Nat)  (h : Keeps z s) : Keeps z (countTal s o n) := by
  delta countTal
  repeat' first
    | with_reducible assumption
    | (extract_lets +onlyGivenNames u; refine (fun (_ : Keeps z u) => ?_) ?_; clear_value u; rotate_left; subst u)
    | (extract_lets +onlyGivenNames u; subst u) | with_reducible apply raise_keeps | with_reducible apply rset_keeps | dsimp -zeta only
    | with_reducible apply Keeps.ite

theorem raiseTile_keeps {z : State} (s : State) (t code lo w3 : Nat)  (h : Keeps z s) : Keeps z (raiseTile s t code lo w3) := by
  delta raiseTile
  repeat' first
    | with_reducible assumption | (extract_lets +onlyGivenNames u; subst u) | with_reducible apply raise_keeps

theorem tileFault_keeps {z : State} (s : State) (t : Nat) (f : FaultRec)  (h : Keeps z s) : Keeps z (tileFault s t f) := by
  delta tileFault
  repeat' first
    | with_reducible assumption
    | (extract_lets +onlyGivenNames u; refine (fun (_ : Keeps z u) => ?_) ?_; clear_value u; rotate_left; subst u)
    | with_reducible apply onTile_keeps | with_reducible apply raiseTile_keeps

theorem issueFault_keeps {z : State} (s : State) (t : Nat) (f : IFault)  (h : Keeps z s) : Keeps z (issueFault s t f) := by
  delta issueFault
  repeat' first
    | with_reducible assumption
    | (extract_lets +onlyGivenNames u; refine (fun (_ : Keeps z u) => ?_) ?_; clear_value u; rotate_left; subst u)
    | (extract_lets +onlyGivenNames u; subst u) | with_reducible apply setTile_keeps | with_reducible apply tileFault_keeps

theorem execFault_keeps {z : State} (s : State) (t q : Nat) (pc : BitVec 64) (seq : Nat) (f : ExecFault)  (h : Keeps z s) : Keeps z (execFault s t q pc seq f) := by
  delta execFault
  repeat' first
    | with_reducible assumption
    | (extract_lets +onlyGivenNames u; refine (fun (_ : Keeps z u) => ?_) ?_; clear_value u; rotate_left; subst u)
    | with_reducible apply onTile_keeps | with_reducible apply tileFault_keeps

end Sys2Proof.Laws
end

