-- ==== Sys2Proof/Laws/KeepsJobs.lean ====
section
/-! SUPPORT. What the operations of Machine/Jobs.lean keep. -/
namespace Sys2Proof.Laws
open Sys2Proof.Machine Sys2Proof.Safety

theorem setJob_keeps {z : State} (s : State) (ctx : Nat) (j : Option Job)  (h : Keeps z s) : Keeps z (setJob s ctx j) := by
  delta setJob
  repeat' first
    | with_reducible assumption | simp only [keeps_mk]

theorem onJob_keeps {z : State} (s : State) (ctx : Nat) (f : Job → Job)  (h : Keeps z s) : Keeps z (onJob s ctx f) := by
  delta onJob
  repeat' first
    | with_reducible assumption | with_reducible apply setJob_keeps | split

theorem countNarrow_keeps {z : State} (s : State) (t : Nat) (step : BitVec 32) (tid fmt : Nat) (E : Int) (vals : List FVal) (c : NCount) (hist : Bool)  (h : Keeps z s) : Keeps z (countNarrow s t step tid fmt E vals c hist) := by
  delta countNarrow
  repeat' first
    | with_reducible assumption
    | (extract_lets +onlyGivenNames u; refine (fun (_ : Keeps z u) => ?_) ?_; clear_value u; rotate_left; subst u)
    | (extract_lets +onlyGivenNames u; subst u) | with_reducible apply raiseTile_keeps | dsimp -zeta only
    | with_reducible apply Keeps.ite | simp only [keeps_mk]

end Sys2Proof.Laws
end

