-- ==== Sys2Proof/Laws/KeepsIssue.lean ====
section
/-! SUPPORT. What the operations of Machine/Issue.lean keep. -/
namespace Sys2Proof.Laws
open Sys2Proof.Machine Sys2Proof.Safety

theorem fetched_keeps {z : State} (s : State) (t : Nat) (pc : BitVec 64) (ext : Bool)  (h : Keeps z s) : Keeps z (fetched s t pc ext) := by
  delta fetched
  repeat' first
    | with_reducible assumption | with_reducible apply touch_keeps

theorem issueWord_keeps {z : State} (s : State) (t : Nat) (ext : Bool) (w0 w1 : BitVec 64) (legal : Bool) (body : State → Except IFault State)
    (hbody : ∀ u, Keeps z u → KeepsE z (body u)) (h : Keeps z s) : Keeps z (issueWord s t ext w0 w1 legal body) := by
  delta issueWord
  extract_lets pc u
  have k : Keeps z (u.onTile t (·.advance ext)) := onTile_keeps _ _ _ (fetched_keeps _ _ _ _ h)
  have hb := hbody _ k
  split
  · exact issueFault_keeps _ _ _ h
  · split
    · exact issueFault_keeps _ _ _ (fetched_keeps _ _ _ _ h)
    · split
      · exact issueFault_keeps _ _ _ (fetched_keeps _ _ _ _ h)
      · next e => rw [e] at hb; exact onTile_keeps _ _ _ hb

theorem issueScalar_keeps {z : State} (s : State) (t : Nat) (ext : Bool) (w0 w1 : BitVec 64) (srcs : List Nat) (legal : Bool) (body : State → Except IFault State) (hbody : ∀ u0, Keeps z u0 → KeepsE z (body u0)) (h : Keeps z s) : Keeps z (issueScalar s t ext w0 w1 srcs legal body) := by
  delta issueScalar
  repeat' first
    | with_reducible assumption | (extract_lets +onlyGivenNames u; subst u) | with_reducible apply issueWord_keeps
    | with_reducible apply Keeps.ite

theorem noteHead_keeps {z : State} (s : State) (t q : Nat)  (h : Keeps z s) : Keeps z (noteHead s t q) := by
  delta noteHead
  repeat' first
    | with_reducible assumption | with_reducible apply onTile_keeps

theorem issueEngine_keeps {z : State} (s : State) (t q : Nat) (w0 : BitVec 64) (x : Sync) (srcs : List Nat) (legal : Bool) (remote : Bool) (bells : List (BitVec 19)) (body : State → Tile → Except IFault (EngineOp × Tile))  (h : Keeps z s) : Keeps z (issueEngine s t q w0 x srcs legal remote bells body) := by
  delta issueEngine
  repeat' first
    | with_reducible assumption | intro _ | (extract_lets +onlyGivenNames u; subst u) | with_reducible apply setTile_keeps
    | with_reducible apply execFault_keeps | with_reducible apply issueScalar_keeps | with_reducible apply noteHead_keeps
    | with_reducible apply keepsE_ok | with_reducible apply keepsE_error | with_reducible apply Keeps.ite | dsimp only | split

end Sys2Proof.Laws
end

