-- ==== Sys2Proof/Laws/KeepsStage.lean ====
section
/-! SUPPORT. What the operations of Machine/Stage.lean keep. -/
namespace Sys2Proof.Laws
open Sys2Proof.Machine Sys2Proof.Safety

theorem land_keeps {z : State} (s : State) (t q : Nat) (ws : List PW)  (h : Keeps z s) : Keeps z (State.land s t q ws) := by
  delta State.land
  repeat' first
    | with_reducible assumption | (extract_lets +onlyGivenNames u; subst u) | with_reducible apply fresh_keeps
    | with_reducible apply write_keeps | with_reducible apply raceDrop_keeps | with_reducible apply Keeps.ite

theorem pass_keeps {z : State} (s : State) (wr : Bool) (r : Nat × Nat)  (h : Keeps z s) : Keeps z (State.pass s wr r) := by
  delta State.pass
  repeat' first
    | with_reducible assumption | with_reducible apply touch_keeps

theorem countLate_keeps {z : State} (s : State) (t : Nat)  (h : Keeps z s) : Keeps z (countLate s t) := by
  delta countLate
  repeat' first
    | with_reducible assumption
    | (extract_lets +onlyGivenNames u; refine (fun (_ : Keeps z u) => ?_) ?_; clear_value u; rotate_left; subst u)
    | with_reducible apply onTile_keeps | with_reducible apply raiseTile_keeps | dsimp -zeta only | with_reducible apply Keeps.ite

theorem stageCtl_keeps {z : State} (s : State) (t n : Nat) (clearLate go disarm : Bool) (sheets : BitVec 16) (sitout : Bool)  (h : Keeps z s) : Keeps z (stageCtl s t n clearLate go disarm sheets sitout) := by
  delta stageCtl
  repeat' first
    | with_reducible assumption | (extract_lets +onlyGivenNames u; subst u) | with_reducible apply onTile_keeps

theorem stageCopy_keeps {z : State} (s : State) (t n k : Nat)  (h : Keeps z s) : Keeps z (stageCopy s t n k) := by
  delta stageCopy
  repeat' first
    | with_reducible assumption | (extract_lets +onlyGivenNames u; subst u) | with_reducible apply land_keeps
    | with_reducible apply pass_keeps

theorem stageEnd_keeps {z : State} (s : State) (t n : Nat) (st : BitVec 2)  (h : Keeps z s) : Keeps z (stageEnd s t n st) := by
  delta stageEnd
  repeat' first
    | with_reducible assumption | with_reducible apply onTile_keeps

theorem stageFail_keeps {z : State} (s : State) (t n k : Nat)  (h : Keeps z s) : Keeps z (stageFail s t n k) := by
  delta stageFail
  repeat' first
    | with_reducible assumption | with_reducible apply stageCopy_keeps | with_reducible apply stageEnd_keeps

theorem stageLate_keeps {z : State} (s : State) (t n : Nat)  (h : Keeps z s) : Keeps z (stageLate s t n) := by
  delta stageLate
  repeat' first
    | with_reducible assumption | with_reducible apply onTile_keeps | with_reducible apply raiseTile_keeps
    | with_reducible apply Keeps.ite

theorem execStageGo_keeps {z : State} (t : TileNo) (n : Fin 64) (sheets : BitVec 16) (sitout disarm : Bool) (s : State) (h : Keeps z s) : KeepsO z (execStageGo t n sheets sitout disarm s) := by
  delta execStageGo
  repeat' first
    | with_reducible assumption | with_reducible apply stageCtl_keeps | with_reducible apply keepsO_next

theorem execStageDisarm_keeps {z : State} (t : TileNo) (n : Fin 64) (s : State) (h : Keeps z s) : KeepsO z (execStageDisarm t n s) := by
  delta execStageDisarm
  repeat' first
    | with_reducible assumption | (extract_lets +onlyGivenNames u; subst u) | with_reducible apply stageCtl_keeps
    | with_reducible apply keepsO_next

theorem execStageCopyDone_keeps {z : State} (t : TileNo) (n : Fin 64) (s : State) (h : Keeps z s) : KeepsO z (execStageCopyDone t n s) := by
  delta execStageCopyDone
  repeat' first
    | with_reducible assumption | (extract_lets +onlyGivenNames u; subst u) | with_reducible apply stageCopy_keeps
    | with_reducible apply stageEnd_keeps | with_reducible apply stageFail_keeps | with_reducible apply keepsO_next | split

theorem execStageCopyFail_keeps {z : State} (t : TileNo) (n : Fin 64) (sheet : Nat) (s : State) (h : Keeps z s) : KeepsO z (execStageCopyFail t n sheet s) := by
  delta execStageCopyFail
  repeat' first
    | with_reducible assumption
    | (extract_lets +onlyGivenNames u; refine (fun (_ : Keeps z u) => ?_) ?_; clear_value u; rotate_left; subst u)
    | (extract_lets +onlyGivenNames u; subst u) | with_reducible apply stageFail_keeps | with_reducible apply keepsO_next
    | simp only [keeps_mk] | split | with_reducible apply keeps_mk_poison

theorem execStageDeadline_keeps {z : State} (t : TileNo) (n : Fin 64) (s : State) (h : Keeps z s) : KeepsO z (execStageDeadline t n s) := by
  delta execStageDeadline
  repeat' first
    | with_reducible assumption | (extract_lets +onlyGivenNames u; subst u) | with_reducible apply stageLate_keeps
    | with_reducible apply keepsO_next | split

theorem pageWrite_keeps {z : State} (s : State) (t o : Nat) (be : BitVec 8) (v0 : BitVec 64)  (h : Keeps z s) : Keeps z (pageWrite s t o be v0) := by
  delta pageWrite
  repeat' first
    | with_reducible assumption | (extract_lets +onlyGivenNames u; subst u) | with_reducible apply onTile_keeps
    | with_reducible apply stageCtl_keeps | dsimp -zeta only | with_reducible apply Keeps.ite | dsimp only | split

end Sys2Proof.Laws
end

