-- ==== Sys2Proof/Laws/KeepsMatrix.lean ====
section
/-! SUPPORT. What the operations of Machine/Matrix.lean keep. -/
namespace Sys2Proof.Laws
open Sys2Proof.Machine Sys2Proof.Safety

theorem issueMmul_keeps {z : State} (t : Nat) (f : MmulForm) (s : State)  (h : Keeps z s) : Keeps z (issueMmul t f s) := by
  delta issueMmul
  repeat' first
    | with_reducible assumption | (extract_lets +onlyGivenNames u; subst u) | with_reducible apply issueEngine_keeps

theorem overflowEvent_keeps {z : State} (s : State) (t slot : Nat) (l : List Cell)  (h : Keeps z s) : Keeps z (overflowEvent s t slot l) := by
  delta overflowEvent
  repeat' first
    | with_reducible assumption | with_reducible apply raiseTile_keeps | split

theorem startMmul_keeps {z : State} (s : State) (t : Nat) (vw : View) (slot : Nat) (acc : Bool) (a b : Card) (k0 k : Nat)  (h : Keeps z s) : Keeps z (startMmul s t vw slot acc a b k0 k).s := by
  delta startMmul
  repeat' first
    | with_reducible assumption | (extract_lets +onlyGivenNames u; subst u) | with_reducible apply onTile_keeps
    | with_reducible apply overflowEvent_keeps

theorem issueLadd_keeps {z : State} (t : Nat) (f : LaddForm) (s : State)  (h : Keeps z s) : Keeps z (issueLadd t f s) := by
  delta issueLadd
  repeat' first
    | with_reducible assumption | (extract_lets +onlyGivenNames u; subst u) | with_reducible apply issueEngine_keeps

theorem startLadd_keeps {z : State} (s : State) (t : Nat) (vw : View) (slot : Nat) (c : Card) (n : Nat)  (h : Keeps z s) : Keeps z (startLadd s t vw slot c n).s := by
  delta startLadd
  repeat' first
    | with_reducible assumption
    | (extract_lets +onlyGivenNames u; refine (fun (_ : Keeps z u) => ?_) ?_; clear_value u; rotate_left; subst u)
    | (extract_lets +onlyGivenNames u; subst u) | with_reducible apply onTile_keeps | with_reducible apply overflowEvent_keeps

theorem issueAbmode_keeps {z : State} (t : Nat) (f : AbmodeForm) (s : State)  (h : Keeps z s) : Keeps z (issueAbmode t f s) := by
  delta issueAbmode
  repeat' first
    | with_reducible assumption | with_reducible apply issueEngine_keeps

theorem startAbmode_keeps {z : State} (s : State) (t : Nat) (fused : Bool)  (h : Keeps z s) : Keeps z (startAbmode s t fused).s := by
  delta startAbmode
  repeat' first
    | with_reducible assumption | with_reducible apply onTile_keeps

theorem execMmul_keeps {z : State} (t : TileNo) (f : MmulForm) (s : State) (h : Keeps z s) : KeepsO z (execMmul t f s) := by
  delta execMmul
  repeat' first
    | with_reducible assumption | with_reducible apply issueMmul_keeps | with_reducible apply keepsO_next

theorem execLadd_keeps {z : State} (t : TileNo) (f : LaddForm) (s : State) (h : Keeps z s) : KeepsO z (execLadd t f s) := by
  delta execLadd
  repeat' first
    | with_reducible assumption | with_reducible apply issueLadd_keeps | with_reducible apply keepsO_next

theorem execAbmode_keeps {z : State} (t : TileNo) (f : AbmodeForm) (s : State) (h : Keeps z s) : KeepsO z (execAbmode t f s) := by
  delta execAbmode
  repeat' first
    | with_reducible assumption | with_reducible apply issueAbmode_keeps | with_reducible apply keepsO_next

end Sys2Proof.Laws
end

