-- ==== Sys2Proof/Laws/KeepsDrill.lean ====
section
/-! SUPPORT. What the operations of Machine/Drill.lean keep. -/
namespace Sys2Proof.Laws
open Sys2Proof.Machine Sys2Proof.Safety

theorem issueDrill_keeps {z : State} (t : Nat) (f : DrillForm) (s : State)  (h : Keeps z s) : Keeps z (issueDrill t f s) := by
  delta issueDrill
  repeat' first
    | with_reducible assumption | with_reducible apply issueEngine_keeps

theorem countRaw_keeps {z : State} (s : State) (t : Nat) (step : BitVec 32) (tid n bad : Nat)  (h : Keeps z s) : Keeps z (countRaw s t step tid n bad) := by
  delta countRaw
  repeat' first
    | with_reducible assumption | with_reducible apply countNarrow_keeps

theorem addStalls_keeps {z : State} (s : State) (k total stalled : Nat)  (h : Keeps z s) : Keeps z (addStalls s k total stalled) := by
  delta addStalls
  repeat' first
    | with_reducible assumption | (extract_lets +onlyGivenNames u; subst u) | simp only [keeps_mk]

theorem runOpt_keeps {z : State} (s : State) (t : Nat) (vw : View) (d : DCard) (ext : List Byte) (cm cv cw : Card)
    (xs : List (List D32)) (step : BitVec 32) (seed : BitVec 64) (h : Keeps z s) :
    Keeps z (runOpt s t vw d ext cm cv cw xs step seed).s := by
  delta runOpt
  extract_lets mc ctx ls algo rows cols el inf bad limit lifted out ms vs sums ws st s1 cnt s2 s3
  have kc : ∀ u c tid l hist, Keeps z u → Keeps z (cnt u c tid l hist) := fun u c tid l hist k =>
    Keeps.ite k (countNarrow_keeps _ _ _ _ _ _ _ _ _ k)
  have k1 : Keeps z s1 := onTile_keeps _ _ _ h
  exact addStalls_keeps _ _ _ _ (kc _ _ _ _ _ (kc _ _ _ _ _ (kc _ _ _ _ _ k1)))

theorem rawOut_keeps {z : State} (s : State) (t : Nat) (d : DCard) (cout : Card) (aux : List Int) (ws : List Nat)  (h : Keeps z s) : Keeps z (rawOut s t d cout aux ws).s := by
  delta rawOut
  repeat' first
    | with_reducible assumption | dsimp -zeta only | split

theorem cellsOut_keeps {z : State} (s : State) (t : Nat) (d : DCard) (cout : Card) (aux : List Int) (rows cols : Nat)  (h : Keeps z s) : Keeps z (cellsOut s t d cout aux rows cols).s := by
  delta cellsOut
  repeat' first
    | with_reducible assumption | (extract_lets +onlyGivenNames u; subst u) | dsimp -zeta only | dsimp only | split

theorem writeOut_keeps {z : State} (s : State) (t : Nat) (d : DCard) (cout : Card) (aux : List Int) (ys : List (List D32)) (step : BitVec 32) (seed : BitVec 64)  (h : Keeps z s) : Keeps z (writeOut s t d cout aux ys step seed).s := by
  delta writeOut
  repeat' first
    | with_reducible assumption
    | (extract_lets +onlyGivenNames u; refine (fun (_ : Keeps z u) => ?_) ?_; clear_value u; rotate_left; subst u)
    | (extract_lets +onlyGivenNames u; subst u) | with_reducible apply countNarrow_keeps | with_reducible apply countRaw_keeps
    | with_reducible apply rawOut_keeps | dsimp -zeta only | split

theorem optTaps_keeps {z : State} (s : State) (t : Nat) (d : DCard) (cleared : List RowEntry) (av : List Int) (cols : Nat)  (h : Keeps z s) : Keeps z (optTaps s t d cleared av cols) := by
  delta optTaps
  repeat' first
    | with_reducible assumption
    | (extract_lets +onlyGivenNames u; refine (fun (_ : Keeps z u) => ?_) ?_; clear_value u; rotate_left; subst u)
    | (extract_lets +onlyGivenNames u; subst u) | with_reducible apply onTile_keeps | simp only [keeps_mk]

theorem effect_ite {c : Prop} [Decidable c] {z : State} {a b : Effect} (ha : Keeps z a.s) (hb : Keeps z b.s) :
    Keeps z (if c then a else b).s := by
  split <;> assumption

theorem startDrill_keeps {z : State} (s : State) (t : Nat) (vw : View) (fused : Bool) (card ext : List Byte)
    (cin cout op2 aux cm cv cw : Card) (step : BitVec 32) (seed : BitVec 64) (h : Keeps z s) :
    Keeps z (startDrill s t vw fused card ext cin cout op2 aux cm cv cw step seed).s := by
  delta startDrill
  extract_lets mc d T
  rcases drillShape d fused cin cout with ⟨rows, cols⟩
  dsimp only
  refine effect_ite (cellsOut_keeps _ _ _ _ _ _ _ h) (effect_ite ?_ (effect_ite
    (rawOut_keeps _ _ _ _ _ _ (countRaw_keeps _ _ _ _ _ _ (onTile_keeps _ _ _ h)))
    (effect_ite (runOpt_keeps _ _ _ _ _ _ _ _ _ _ _ ?_) (writeOut_keeps _ _ _ _ _ _ _ _ ?_))))
  · dsimp only; exact onTile_keeps _ _ _ h
  · exact Keeps.ite (optTaps_keeps _ _ _ _ _ _ (onTile_keeps _ _ _ h)) (onTile_keeps _ _ _ h)
  · exact Keeps.ite (onTile_keeps _ _ _ (onTile_keeps _ _ _ h)) (onTile_keeps _ _ _ h)

theorem execDrill_keeps {z : State} (t : TileNo) (f : DrillForm) (s : State) (h : Keeps z s) : KeepsO z (execDrill t f s) := by
  delta execDrill
  repeat' first
    | with_reducible assumption | with_reducible apply issueDrill_keeps | with_reducible apply keepsO_next

end Sys2Proof.Laws
end

