-- ==== Sys2Proof/Laws/KeepsRod.lean ====
section
/-! SUPPORT. What the operations of Machine/Rod.lean keep. -/
namespace Sys2Proof.Laws
open Sys2Proof.Machine Sys2Proof.Safety

set_option maxRecDepth 20000 in
theorem startRod_keeps {z : State} (s : State) (t : Nat) (vw : View) (opc : Nat) (f : RodForm) (x seed : BitVec 64) (h : Keeps z s) :
    Keeps z (startRod s t vw opc f x seed).s := by
  delta startRod
  extract_lets T mc fr fw w n va vb vc put
  have k : ∀ T', Keeps z (put T').s := fun T' => fresh_keeps _ (setTile_keeps _ _ _ h)
  clear_value put
  split <;> first | exact k _ | exact h | (split <;> first | exact k _ | exact h)

theorem issueRod_keeps {z : State} (t opc : Nat) (legal : RodForm → Bool) (f : RodForm) (s : State)  (h : Keeps z s) : Keeps z (issueRod t opc legal f s) := by
  delta issueRod
  repeat' first
    | with_reducible assumption | with_reducible apply issueEngine_keeps

theorem execVadd_keeps {z : State} (t : TileNo) (f : RodForm) (s : State) (h : Keeps z s) : KeepsO z (execVadd t f s) := by
  delta execVadd
  repeat' first
    | with_reducible assumption | with_reducible apply issueRod_keeps | with_reducible apply keepsO_next

theorem execVsub_keeps {z : State} (t : TileNo) (f : RodForm) (s : State) (h : Keeps z s) : KeepsO z (execVsub t f s) := by
  delta execVsub
  repeat' first
    | with_reducible assumption | with_reducible apply issueRod_keeps | with_reducible apply keepsO_next

theorem execVmul_keeps {z : State} (t : TileNo) (f : RodForm) (s : State) (h : Keeps z s) : KeepsO z (execVmul t f s) := by
  delta execVmul
  repeat' first
    | with_reducible assumption | with_reducible apply issueRod_keeps | with_reducible apply keepsO_next

theorem execVfma_keeps {z : State} (t : TileNo) (f : RodForm) (s : State) (h : Keeps z s) : KeepsO z (execVfma t f s) := by
  delta execVfma
  repeat' first
    | with_reducible assumption | with_reducible apply issueRod_keeps | with_reducible apply keepsO_next

theorem execVmin_keeps {z : State} (t : TileNo) (f : RodForm) (s : State) (h : Keeps z s) : KeepsO z (execVmin t f s) := by
  delta execVmin
  repeat' first
    | with_reducible assumption | with_reducible apply issueRod_keeps | with_reducible apply keepsO_next

theorem execVmax_keeps {z : State} (t : TileNo) (f : RodForm) (s : State) (h : Keeps z s) : KeepsO z (execVmax t f s) := by
  delta execVmax
  repeat' first
    | with_reducible assumption | with_reducible apply issueRod_keeps | with_reducible apply keepsO_next

theorem execVcmp_keeps {z : State} (t : TileNo) (f : RodForm) (s : State) (h : Keeps z s) : KeepsO z (execVcmp t f s) := by
  delta execVcmp
  repeat' first
    | with_reducible assumption | with_reducible apply issueRod_keeps | with_reducible apply keepsO_next

theorem execVsel_keeps {z : State} (t : TileNo) (f : RodForm) (s : State) (h : Keeps z s) : KeepsO z (execVsel t f s) := by
  delta execVsel
  repeat' first
    | with_reducible assumption | with_reducible apply issueRod_keeps | with_reducible apply keepsO_next

theorem execVand_keeps {z : State} (t : TileNo) (f : RodForm) (s : State) (h : Keeps z s) : KeepsO z (execVand t f s) := by
  delta execVand
  repeat' first
    | with_reducible assumption | with_reducible apply issueRod_keeps | with_reducible apply keepsO_next

theorem execVor_keeps {z : State} (t : TileNo) (f : RodForm) (s : State) (h : Keeps z s) : KeepsO z (execVor t f s) := by
  delta execVor
  repeat' first
    | with_reducible assumption | with_reducible apply issueRod_keeps | with_reducible apply keepsO_next

theorem execVxor_keeps {z : State} (t : TileNo) (f : RodForm) (s : State) (h : Keeps z s) : KeepsO z (execVxor t f s) := by
  delta execVxor
  repeat' first
    | with_reducible assumption | with_reducible apply issueRod_keeps | with_reducible apply keepsO_next

theorem execVshl_keeps {z : State} (t : TileNo) (f : RodForm) (s : State) (h : Keeps z s) : KeepsO z (execVshl t f s) := by
  delta execVshl
  repeat' first
    | with_reducible assumption | with_reducible apply issueRod_keeps | with_reducible apply keepsO_next

theorem execVshr_keeps {z : State} (t : TileNo) (f : RodForm) (s : State) (h : Keeps z s) : KeepsO z (execVshr t f s) := by
  delta execVshr
  repeat' first
    | with_reducible assumption | with_reducible apply issueRod_keeps | with_reducible apply keepsO_next

theorem execVperm_keeps {z : State} (t : TileNo) (f : RodForm) (s : State) (h : Keeps z s) : KeepsO z (execVperm t f s) := by
  delta execVperm
  repeat' first
    | with_reducible assumption | with_reducible apply issueRod_keeps | with_reducible apply keepsO_next

theorem execVperm2_keeps {z : State} (t : TileNo) (f : RodForm) (s : State) (h : Keeps z s) : KeepsO z (execVperm2 t f s) := by
  delta execVperm2
  repeat' first
    | with_reducible assumption | with_reducible apply issueRod_keeps | with_reducible apply keepsO_next

theorem execVred_keeps {z : State} (t : TileNo) (f : RodForm) (s : State) (h : Keeps z s) : KeepsO z (execVred t f s) := by
  delta execVred
  repeat' first
    | with_reducible assumption | with_reducible apply issueRod_keeps | with_reducible apply keepsO_next

theorem execVld_keeps {z : State} (t : TileNo) (f : RodForm) (s : State) (h : Keeps z s) : KeepsO z (execVld t f s) := by
  delta execVld
  repeat' first
    | with_reducible assumption | with_reducible apply issueRod_keeps | with_reducible apply keepsO_next

theorem execVst_keeps {z : State} (t : TileNo) (f : RodForm) (s : State) (h : Keeps z s) : KeepsO z (execVst t f s) := by
  delta execVst
  repeat' first
    | with_reducible assumption | with_reducible apply issueRod_keeps | with_reducible apply keepsO_next

theorem execVgather_keeps {z : State} (t : TileNo) (f : RodForm) (s : State) (h : Keeps z s) : KeepsO z (execVgather t f s) := by
  delta execVgather
  repeat' first
    | with_reducible assumption | with_reducible apply issueRod_keeps | with_reducible apply keepsO_next

theorem execVscatter_keeps {z : State} (t : TileNo) (f : RodForm) (s : State) (h : Keeps z s) : KeepsO z (execVscatter t f s) := by
  delta execVscatter
  repeat' first
    | with_reducible assumption | with_reducible apply issueRod_keeps | with_reducible apply keepsO_next

theorem execVbcast_keeps {z : State} (t : TileNo) (f : RodForm) (s : State) (h : Keeps z s) : KeepsO z (execVbcast t f s) := by
  delta execVbcast
  repeat' first
    | with_reducible assumption | with_reducible apply issueRod_keeps | with_reducible apply keepsO_next

theorem execPset_keeps {z : State} (t : TileNo) (f : RodForm) (s : State) (h : Keeps z s) : KeepsO z (execPset t f s) := by
  delta execPset
  repeat' first
    | with_reducible assumption | with_reducible apply issueRod_keeps | with_reducible apply keepsO_next

theorem execTopk_keeps {z : State} (t : TileNo) (f : RodForm) (s : State) (h : Keeps z s) : KeepsO z (execTopk t f s) := by
  delta execTopk
  repeat' first
    | with_reducible assumption | with_reducible apply issueRod_keeps | with_reducible apply keepsO_next

theorem execBisect_keeps {z : State} (t : TileNo) (f : RodForm) (s : State) (h : Keeps z s) : KeepsO z (execBisect t f s) := by
  delta execBisect
  repeat' first
    | with_reducible assumption | with_reducible apply issueRod_keeps | with_reducible apply keepsO_next

theorem execSample_keeps {z : State} (t : TileNo) (f : RodForm) (s : State) (h : Keeps z s) : KeepsO z (execSample t f s) := by
  delta execSample
  repeat' first
    | with_reducible assumption | with_reducible apply issueRod_keeps | with_reducible apply keepsO_next

theorem execVcvt_keeps {z : State} (t : TileNo) (f : RodForm) (s : State) (h : Keeps z s) : KeepsO z (execVcvt t f s) := by
  delta execVcvt
  repeat' first
    | with_reducible assumption | with_reducible apply issueRod_keeps | with_reducible apply keepsO_next

end Sys2Proof.Laws
end

