-- ==== Sys2Proof/Laws/KeepsMover.lean ====
section
/-! SUPPORT. What the operations of Machine/Mover.lean keep. -/
namespace Sys2Proof.Laws
open Sys2Proof.Machine Sys2Proof.Safety

theorem countMove_keeps {z : State} (s : State) (t : Nat) (c : MovCount)  (h : Keeps z s) : Keeps z (countMove s t c) := by
  delta countMove
  repeat' first
    | with_reducible assumption
    | (extract_lets +onlyGivenNames u; refine (fun (_ : Keeps z u) => ?_) ?_; clear_value u; rotate_left; subst u)
    | (extract_lets +onlyGivenNames u; subst u) | with_reducible apply onTile_keeps | with_reducible apply raiseTile_keeps
    | dsimp -zeta only | with_reducible apply Keeps.ite | (apply Keeps.foldl; intro _ _ _)

theorem issueMove_keeps {z : State} (t : Nat) (f : MoveForm) (s : State)  (h : Keeps z s) : Keeps z (issueMove t f s) := by
  delta issueMove
  repeat' first
    | with_reducible assumption | with_reducible apply issueEngine_keeps

theorem startMove_keeps {z : State} (s : State) (t : Nat) (vw : View) (mode : Nat) (a b : Card)  (h : Keeps z s) : Keeps z (startMove s t vw mode a b).s := by
  delta startMove
  repeat' first
    | with_reducible assumption | with_reducible apply countMove_keeps

theorem issuePack_keeps {z : State} (t : Nat) (f : PackForm) (s : State)  (h : Keeps z s) : Keeps z (issuePack t f s) := by
  delta issuePack
  repeat' first
    | with_reducible assumption | with_reducible apply issueEngine_keeps

theorem startPack_keeps {z : State} (s : State) (t : Nat) (vw : View) (d : List Byte) (res : Nat)  (h : Keeps z s) : Keeps z (startPack s t vw d res).s := by
  delta startPack
  repeat' first
    | with_reducible assumption

theorem execMove_keeps {z : State} (t : TileNo) (f : MoveForm) (s : State) (h : Keeps z s) : KeepsO z (execMove t f s) := by
  delta execMove
  repeat' first
    | with_reducible assumption | with_reducible apply issueMove_keeps | with_reducible apply keepsO_next

theorem execPack_keeps {z : State} (t : TileNo) (f : PackForm) (s : State) (h : Keeps z s) : KeepsO z (execPack t f s) := by
  delta execPack
  repeat' first
    | with_reducible assumption | with_reducible apply issuePack_keeps | with_reducible apply keepsO_next

end Sys2Proof.Laws
end

