-- ==== Sys2Proof/Laws/KeepsAttention.lean ====
section
/-! SUPPORT. What the operations of Machine/Attention.lean keep. -/
namespace Sys2Proof.Laws
open Sys2Proof.Machine Sys2Proof.Safety

theorem issueAtt_keeps {z : State} (t : Nat) (f : AttForm) (s : State)  (h : Keeps z s) : Keeps z (issueAtt t f s) := by
  delta issueAtt
  repeat' first
    | with_reducible assumption | with_reducible apply issueEngine_keeps

theorem attFinish_keeps {z : State} (s : State) (t : Nat) (c : ACard) (o st : Card) (rows : List AttRow) (step : BitVec 32) (seed : BitVec 64)  (h : Keeps z s) : Keeps z (attFinish s t c o st rows step seed).1 := by
  delta attFinish
  repeat' first
    | with_reducible assumption
    | (extract_lets +onlyGivenNames u; refine (fun (_ : Keeps z u) => ?_) ?_; clear_value u; rotate_left; subst u)
    | (extract_lets +onlyGivenNames u; subst u) | with_reducible apply fresh_keeps | with_reducible apply countNarrow_keeps

theorem attLeave_keeps {z : State} (s : State) (t slot : Nat) (ao : Int) (l : List Cell)  (h : Keeps z s) : Keeps z (attLeave s t slot ao l) := by
  delta attLeave
  repeat' first
    | with_reducible assumption
    | (extract_lets +onlyGivenNames u; refine (fun (_ : Keeps z u) => ?_) ?_; clear_value u; rotate_left; subst u)
    | with_reducible apply fresh_keeps | with_reducible apply onTile_keeps | with_reducible apply overflowEvent_keeps

theorem setReadInf_keeps {z : State} (s : State) (t : Nat) (b : Bool)  (h : Keeps z s) : Keeps z (setReadInf s t b) := by
  delta setReadInf
  repeat' first
    | with_reducible assumption | with_reducible apply onTile_keeps

theorem startAttOut_keeps {z : State} (s : State) (t slot off res : Nat)  (h : Keeps z s) : Keeps z (startAttOut s t slot off res).s := by
  delta startAttOut
  repeat' first
    | with_reducible assumption | with_reducible apply onTile_keeps

theorem startAtt_keeps {z : State} (s : State) (t : Nat) (vw : View) (slot : Nat) (fused : Bool) (off : Nat) (card plist : List Byte) (q o st : Card) (step : BitVec 32) (seed : BitVec 64)  (h : Keeps z s) : Keeps z (startAtt s t vw slot fused off card plist q o st step seed).s := by
  delta startAtt
  repeat' first
    | with_reducible assumption
    | (extract_lets +onlyGivenNames u; refine (fun (_ : Keeps z u) => ?_) ?_; clear_value u; rotate_left; subst u)
    | (extract_lets +onlyGivenNames u; subst u) | with_reducible apply onTile_keeps | with_reducible apply attFinish_keeps
    | with_reducible apply attLeave_keeps | with_reducible apply countNarrow_keeps | with_reducible apply setReadInf_keeps
    | dsimp -zeta only | with_reducible apply Keeps.ite | dsimp only | split

theorem execAtt_keeps {z : State} (t : TileNo) (f : AttForm) (s : State) (h : Keeps z s) : KeepsO z (execAtt t f s) := by
  delta execAtt
  repeat' first
    | with_reducible assumption | with_reducible apply issueAtt_keeps | with_reducible apply keepsO_next

end Sys2Proof.Laws
end

