-- ==== Sys2Proof/Laws/KeepsLinks.lean ====
section
/-! SUPPORT. What the operations of Machine/Links.lean keep. -/
namespace Sys2Proof.Laws
open Sys2Proof.Machine Sys2Proof.Safety

theorem setPort_keeps {z : State} (s : State) (p : Nat) (P : Port)  (h : Keeps z s) : Keeps z (setPort s p P) := by
  delta setPort
  repeat' first
    | with_reducible assumption | (extract_lets +onlyGivenNames u; subst u) | simp only [keeps_mk]

theorem setList_keeps {z : State} (s : State) (cl : Nat) (c : Option ClassList)  (h : Keeps z s) : Keeps z (setList s cl c) := by
  delta setList
  repeat' first
    | with_reducible assumption | (extract_lets +onlyGivenNames u; subst u) | simp only [keeps_mk]

theorem leaveBuffer_keeps {z : State} (s : State) (f : Flit)  (h : Keeps z s) : Keeps z (leaveBuffer s f) := by
  delta leaveBuffer
  repeat' first
    | with_reducible assumption | with_reducible apply setPort_keeps | split

theorem portSend_keeps {z : State} (s : State) (p : Nat) (f : Flit)  (h : Keeps z s) : Keeps z (portSend s p f) := by
  delta portSend
  repeat' first
    | with_reducible assumption | (extract_lets +onlyGivenNames u; subst u) | with_reducible apply leaveBuffer_keeps
    | with_reducible apply setPort_keeps | with_reducible apply Keeps.ite

theorem localSend_keeps {z : State} (s : State) (f : Flit)  (h : Keeps z s) : Keeps z (localSend s f) := by
  delta localSend
  repeat' first
    | with_reducible assumption
    | (extract_lets +onlyGivenNames u; refine (fun (_ : Keeps z u) => ?_) ?_; clear_value u; rotate_left; subst u)
    | (extract_lets +onlyGivenNames u; subst u) | with_reducible apply leaveBuffer_keeps | simp only [keeps_mk]

theorem takeFlit_keeps {z : State} (s : State) (p : Nat) (f : Flit) (k : State → State) (hk : ∀ u0, Keeps z u0 → Keeps z (k u0)) (h : Keeps z s) : Keeps z (takeFlit s p f k) := by
  delta takeFlit
  repeat' first
    | with_reducible assumption | (extract_lets +onlyGivenNames u; subst u) | with_reducible apply hk
    | with_reducible apply setPort_keeps | with_reducible apply Keeps.ite

theorem consume_keeps {z : State} (s : State) (p : Nat) (f : Flit)  (h : Keeps z s) : Keeps z (consume s p f) := by
  delta consume
  repeat' first
    | with_reducible assumption | with_reducible apply setPort_keeps

theorem takeTag_keeps {z : State} (s : State) (pm : BitVec 11)  (h : Keeps z s) : Keeps z (takeTag s pm).2 := by
  delta takeTag
  repeat' first
    | with_reducible assumption | (extract_lets +onlyGivenNames u; subst u) | dsimp -zeta only | simp only [keeps_mk]

theorem routeTry_keeps {z : State} (s : State) (f : Flit) (h : Keeps z s) : KeepsE z (routeTry s f) := by
  delta routeTry
  repeat' first
    | with_reducible assumption | with_reducible apply localSend_keeps | with_reducible apply portSend_keeps
    | with_reducible apply keepsE_ok | with_reducible apply keepsE_error | dsimp only | split

theorem routeTry_ok {z : State} {s : State} {f : Flit} {v : State} (h : Keeps z s) (e : routeTry s f = .ok v) : Keeps z v := by
  have k := routeTry_keeps s f h
  rw [e] at k
  exact k

theorem returnOf_keeps {z : State} (s : State) (f : Flit) (reason : BitVec 8)  (h : Keeps z s) : Keeps z (returnOf s f reason).2 := by
  delta returnOf
  repeat' first
    | with_reducible assumption | with_reducible apply takeTag_keeps

theorem routeOut_keeps {z : State} (s : State) (f : Flit)  (h : Keeps z s) : Keeps z (routeOut s f) := by
  delta routeOut
  repeat' first
    | with_reducible assumption
    | (extract_lets +onlyGivenNames u; refine (fun (_ : Keeps z u) => ?_) ?_; clear_value u; rotate_left; subst u)
    | with_reducible apply leaveBuffer_keeps | with_reducible apply localSend_keeps | with_reducible apply returnOf_keeps
    | (rename _ = Except.ok _ => e; refine routeTry_ok ?_ e) | dsimp -zeta only | with_reducible apply Keeps.ite | split

theorem seatFlit_keeps {z : State} (s : State) (ty vc : BitVec 4) (seat : BitVec 10) (len : Nat) (b : FlitBody)  (h : Keeps z s) : Keeps z (seatFlit s ty vc seat len b).2 := by
  delta seatFlit
  repeat' first
    | with_reducible assumption | (extract_lets +onlyGivenNames u; subst u) | with_reducible apply takeTag_keeps

theorem emitSeat_keeps {z : State} (s : State) (f : Flit)  (h : Keeps z s) : Keeps z (emitSeat s f) := by
  delta emitSeat
  repeat' first
    | with_reducible assumption | (extract_lets +onlyGivenNames u; subst u) | with_reducible apply localSend_keeps
    | with_reducible apply returnOf_keeps | with_reducible apply routeOut_keeps | dsimp -zeta only | simp only [keeps_mk] | split

theorem keepFlit_keeps {z : State} (s : State) (f : Flit)  (h : Keeps z s) : Keeps z (keepFlit s f) := by
  delta keepFlit
  repeat' first
    | with_reducible assumption | (extract_lets +onlyGivenNames u; subst u) | simp only [keeps_mk]

theorem sendSeat_keeps {z : State} (s : State) (ty vc : BitVec 4) (seat : BitVec 10) (len : Nat) (b : FlitBody)  (h : Keeps z s) : Keeps z (sendSeat s ty vc seat len b) := by
  delta sendSeat
  repeat' first
    | with_reducible assumption | with_reducible apply emitSeat_keeps | with_reducible apply seatFlit_keeps

theorem sendSpread_keeps {z : State} (s : State) (ports : BitVec 6) (ty vc : BitVec 4) (seat : BitVec 10) (len : Nat) (b : FlitBody)  (h : Keeps z s) : Keeps z (sendSpread s ports ty vc seat len b) := by
  delta sendSpread
  repeat' first
    | with_reducible assumption | with_reducible apply emitSeat_keeps | with_reducible apply keepFlit_keeps
    | with_reducible apply seatFlit_keeps

theorem sendKept_keeps {z : State} (s : State) (ty vc : BitVec 4) (seat : BitVec 10) (len : Nat) (b : FlitBody)  (h : Keeps z s) : Keeps z (sendKept s ty vc seat len b) := by
  delta sendKept
  repeat' first
    | with_reducible assumption | with_reducible apply sendSpread_keeps

theorem renewKept_keeps {z : State} (s : State) (f g : Flit)  (h : Keeps z s) : Keeps z (renewKept s f g) := by
  delta renewKept
  repeat' first
    | with_reducible assumption | (extract_lets +onlyGivenNames u; subst u) | dsimp -zeta only | simp only [keeps_mk]

theorem unparkFlits_keeps {z : State} (s : State) (seat : Nat)  (h : Keeps z s) : Keeps z (unparkFlits s seat) := by
  delta unparkFlits
  repeat' first
    | with_reducible assumption | (extract_lets +onlyGivenNames u; subst u) | with_reducible apply renewKept_keeps
    | with_reducible apply routeOut_keeps | with_reducible apply takeTag_keeps | dsimp -zeta only | dsimp only | simp only [keeps_mk]
    | split | (apply Keeps.foldl; intro _ _ _)

theorem retag_keeps {z : State} (s : State) (pm : BitVec 11) (l : List Flit)  (h : Keeps z s) : Keeps z (retag s pm l).2 := by
  delta retag
  repeat' first
    | with_reducible assumption | with_reducible apply takeTag_keeps | dsimp -zeta only | (apply Keeps.foldl_snd; intro _ _ _)

theorem resend_keeps {z : State} (s : State) (t k : Nat)  (h : Keeps z s) : Keeps z (resend s t k) := by
  delta resend
  repeat' first
    | with_reducible assumption | with_reducible apply onTile_keeps | with_reducible apply retag_keeps
    | with_reducible apply routeOut_keeps | dsimp -zeta only | with_reducible apply Keeps.ite | dsimp only | split
    | (apply Keeps.foldl; intro _ _ _)

theorem unpark_keeps {z : State} (s : State) (seat : Nat)  (h : Keeps z s) : Keeps z (unpark s seat) := by
  delta unpark
  repeat' first
    | with_reducible assumption | with_reducible apply resend_keeps | with_reducible apply unparkFlits_keeps
    | with_reducible apply Keeps.ite | (apply Keeps.foldl; intro _ _ _)

end Sys2Proof.Laws
end

