-- ==== Sys2Proof/Laws/KeepsColl.lean ====
section
/-! SUPPORT. What the operations of Machine/Coll.lean keep. -/
namespace Sys2Proof.Laws
open Sys2Proof.Machine Sys2Proof.Safety

theorem countColl_keeps {z : State} (s : State) (n : NCount)  (h : Keeps z s) : Keeps z (countColl s n) := by
  delta countColl
  repeat' first
    | with_reducible assumption | with_reducible apply countTal_keeps

end Sys2Proof.Laws
end

