-- ==== Sys2Proof/Laws/KeepsSteps.lean ====
section
/-! SUPPORT. What the operations of Machine/Steps.lean keep. -/
namespace Sys2Proof.Laws
open Sys2Proof.Machine Sys2Proof.Safety

theorem raiseJob_keeps {z : State} (s : State) (ctx code lo w3 : Nat)  (h : Keeps z s) : Keeps z (raiseJob s ctx code lo w3) := by
  delta raiseJob
  repeat' first
    | with_reducible assumption | with_reducible apply raise_keeps

theorem gatePoint_keeps {z : State} (s : State) (ctx : Nat)  (h : Keeps z s) : Keeps z (gatePoint s ctx) := by
  delta gatePoint
  repeat' first
    | with_reducible assumption | with_reducible apply raiseJob_keeps | with_reducible apply setJob_keeps
    | with_reducible apply Keeps.ite | dsimp only | split | (apply Keeps.foldl; intro _ _ _)

theorem clearSteps_keeps {z : State} (s : State) (ctx step n : Nat)  (h : Keeps z s) : Keeps z (clearSteps s ctx step n) := by
  delta clearSteps
  repeat' first
    | with_reducible assumption | (extract_lets +onlyGivenNames u; subst u) | simp only [keeps_mk]

theorem clearCounts_keeps {z : State} (s : State) (ctx : Nat)  (h : Keeps z s) : Keeps z (clearCounts s ctx) := by
  delta clearCounts
  repeat' first
    | with_reducible assumption | with_reducible apply clearSteps_keeps

theorem putTensor_keeps {z : State} (s : State) (ctx tid : Nat) (t : TensorSt) (clamp fwd : Bool)  (h : Keeps z s) : Keeps z (putTensor s ctx tid t clamp fwd) := by
  delta putTensor
  repeat' first
    | with_reducible assumption
    | (extract_lets +onlyGivenNames u; refine (fun (_ : Keeps z u) => ?_) ?_; clear_value u; rotate_left; subst u)
    | with_reducible apply onJob_keeps | with_reducible apply raiseJob_keeps | with_reducible apply Keeps.ite

theorem failExps_keeps {z : State} (s : State) (ctx : Nat) (j : Job) (amax : List (BitVec 30 × Int))  (h : Keeps z s) : Keeps z (failExps s ctx j amax) := by
  delta failExps
  repeat' first
    | with_reducible assumption | with_reducible apply putTensor_keeps | dsimp -zeta only | with_reducible apply Keeps.ite
    | dsimp only | (apply Keeps.foldl; intro _ _ _)

theorem commitExps_keeps {z : State} (s : State) (ctx : Nat) (j : Job) (amax : List (BitVec 30 × Int))  (h : Keeps z s) : Keeps z (commitExps s ctx j amax) := by
  delta commitExps
  repeat' first
    | with_reducible assumption | with_reducible apply putTensor_keeps | dsimp -zeta only | with_reducible apply Keeps.ite
    | dsimp only | (apply Keeps.foldl; intro _ _ _)

theorem ctxSignal_keeps {z : State} (s : State) (n vfVec pfVec : Nat)  (h : Keeps z s) : Keeps z (ctxSignal s n vfVec pfVec) := by
  delta ctxSignal
  repeat' first
    | with_reducible assumption | with_reducible apply signal_keeps | with_reducible apply Keeps.ite

theorem putRecord_keeps {z : State} (s : State) (n : Nat) (r : List Byte)  (h : Keeps z s) : Keeps z (putRecord s n r) := by
  delta putRecord
  repeat' first
    | with_reducible assumption
    | (extract_lets +onlyGivenNames u; refine (fun (_ : Keeps z u) => ?_) ?_; clear_value u; rotate_left; subst u)
    | (extract_lets +onlyGivenNames u; subst u) | with_reducible apply countTal_keeps | with_reducible apply ctxSignal_keeps
    | with_reducible apply raiseJob_keeps | with_reducible apply rset_keeps | with_reducible apply keepsHost_put
    | with_reducible apply keepsHost_self | with_reducible apply Keeps.ite | simp only [keeps_mk] | simp only [keeps_mk_host]
    | simp only [keepsHost_mk] | (apply keepsHost_foldl; intro _ _ _)

theorem putHists_keeps {z : State} (s : State) (ctx step : Nat) (j : Job)  (h : Keeps z s) : Keeps z (putHists s ctx step j) := by
  delta putHists
  repeat' first
    | with_reducible assumption | with_reducible apply putRecord_keeps | with_reducible apply Keeps.ite
    | (apply Keeps.foldl; intro _ _ _)

end Sys2Proof.Laws
end

