-- ==== Sys2Proof/Laws/KeepsLinkOps.lean ====
section
/-! SUPPORT. What the operations of Machine/LinkOps.lean keep. -/
namespace Sys2Proof.Laws
open Sys2Proof.Machine Sys2Proof.Safety

theorem issuePut_keeps {z : State} (t : Nat) (f : LinkForm) (s : State)  (h : Keeps z s) : Keeps z (issuePut t f s) := by
  delta issuePut
  repeat' first
    | with_reducible assumption | (extract_lets +onlyGivenNames u; subst u) | with_reducible apply issueEngine_keeps

theorem issueGet_keeps {z : State} (t : Nat) (f : LinkForm) (s : State)  (h : Keeps z s) : Keeps z (issueGet t f s) := by
  delta issueGet
  repeat' first
    | with_reducible assumption | with_reducible apply issueEngine_keeps

theorem issueRring_keeps {z : State} (t : Nat) (f : LinkForm) (s : State)  (h : Keeps z s) : Keeps z (issueRring t f s) := by
  delta issueRring
  repeat' first
    | with_reducible assumption | with_reducible apply issueEngine_keeps

theorem issueColl_keeps {z : State} (t : Nat) (f : LinkForm) (s : State)  (h : Keeps z s) : Keeps z (issueColl t f s) := by
  delta issueColl
  repeat' first
    | with_reducible assumption | (extract_lets +onlyGivenNames u; subst u) | with_reducible apply issueEngine_keeps

theorem issueBarrier_keeps {z : State} (t : Nat) (f : LinkForm) (s : State)  (h : Keeps z s) : Keeps z (issueBarrier t f s) := by
  delta issueBarrier
  repeat' first
    | with_reducible assumption | (extract_lets +onlyGivenNames u; subst u) | with_reducible apply issueEngine_keeps

theorem issueGate_keeps {z : State} (t : Nat) (opc : BitVec 8) (mk : Nat → Nat → BitVec 32 → EngineOp) (f : LinkForm) (s : State)  (h : Keeps z s) : Keeps z (issueGate t opc mk f s) := by
  delta issueGate
  repeat' first
    | with_reducible assumption | with_reducible apply issueEngine_keeps

theorem issueChg_keeps {z : State} (t : Nat) (f : LinkForm) (s : State)  (h : Keeps z s) : Keeps z (issueChg t f s) := by
  delta issueChg
  repeat' first
    | with_reducible assumption | with_reducible apply issueEngine_keeps

/-- What starting a link instruction keeps. -/
def KeepsL (z : State) : LinkStart → Prop
  | .go v _ _ => Keeps z v
  | .wait => True

theorem keepsL_go {z v : State} {x : Started} {o : Bool} (h : Keeps z v) : KeepsL z (.go v x o) := h
theorem keepsL_wait {z : State} : KeepsL z .wait := trivial

theorem linkError_keeps {z : State} (s : State) (i : QInstr) (seat a cls : Nat) (h : Keeps z s) : KeepsL z (linkError s i seat a cls) := h

theorem withSeat_keeps {z : State} (s : State) (i : QInstr) (seat a : Nat) (k : BitVec 11 → LinkStart) (hk : ∀ pm, KeepsL z (k pm))
    (h : Keeps z s) : KeepsL z (withSeat s i seat a k) := by
  delta withSeat
  split
  · exact hk _
  · exact h
  · trivial

theorem tagFlits_keeps {z : State} (s : State) (pm : BitVec 11) (mk : List (BitVec 16 → Flit))  (h : Keeps z s) : Keeps z (tagFlits s pm mk).2 := by
  delta tagFlits
  repeat' first
    | with_reducible assumption | with_reducible apply takeTag_keeps | dsimp -zeta only | (apply Keeps.foldl_snd; intro _ _ _)

theorem startPut_keeps {z : State} (s : State) (t : Nat) (vw : View) (err : Option ExecFault) (i : QInstr) (seat : Nat) (rrem : Bool)
    (a b : Card) (h : Keeps z s) : KeepsL z (startPut s t vw err i seat rrem a b) := by
  delta startPut
  refine withSeat_keeps _ _ _ _ _ (fun pm => ?_) h
  dsimp only
  split
  · exact h
  · exact keepsL_go (Keeps.foldl _ (fun u x k => routeOut_keeps _ _ k) (tagFlits_keeps _ _ _ (fresh_keeps _ h)))

theorem startGet_keeps {z : State} (s : State) (t : Nat) (i : QInstr) (seat : Nat) (a : Card) (h : Keeps z s) :
    KeepsL z (startGet s t i seat a) := by
  delta startGet
  refine withSeat_keeps _ _ _ _ _ (fun pm => ?_) h
  exact keepsL_go (Keeps.foldl _ (fun u x k => routeOut_keeps _ _ k) (tagFlits_keeps _ _ _ h))

theorem startRring_keeps {z : State} (s : State) (t : Nat) (i : QInstr) (seat : Nat) (bell : BitVec 19) (inc : BitVec 8) (h : Keeps z s) : KeepsL z (startRring s t i seat bell inc) := by
  delta startRring
  repeat' first
    | with_reducible assumption | intro _ | with_reducible apply routeOut_keeps | with_reducible apply tagFlits_keeps
    | with_reducible apply withSeat_keeps | dsimp -zeta only | (apply Keeps.foldl; intro _ _ _)

theorem setColl_keeps {z : State} (s : State) (k : Nat) (c : Option Coll)  (h : Keeps z s) : Keeps z (setColl s k c) := by
  delta setColl
  repeat' first
    | with_reducible assumption | (extract_lets +onlyGivenNames u; subst u) | simp only [keeps_mk]

theorem sendColl_keeps {z : State} (s : State) (vc : BitVec 4) (l : ClassList) (cl : Nat) (q : BitVec 16) (r len ch : Nat) (m : CollBody)  (h : Keeps z s) : Keeps z (sendColl s vc l cl q r len ch m) := by
  delta sendColl
  repeat' first
    | with_reducible assumption | (extract_lets +onlyGivenNames u; subst u) | with_reducible apply emitSeat_keeps
    | with_reducible apply seatFlit_keeps | with_reducible apply setColl_keeps | dsimp -zeta only | dsimp only | split

theorem sendData_keeps {z : State} (s : State) (vc : BitVec 4) (l : ClassList) (cl : Nat) (q : BitVec 16) (r ch : Nat) (fin : Bool) (d : List Byte)  (h : Keeps z s) : Keeps z (sendData s vc l cl q r ch fin d) := by
  delta sendData
  repeat' first
    | with_reducible assumption | (extract_lets +onlyGivenNames u; subst u) | with_reducible apply sendColl_keeps
    | (apply Keeps.foldl; intro _ _ _)

theorem startColl_keeps {z : State} (s : State) (t : Nat) (err : Option ExecFault) (es : List (Nat × Stage)) (i : QInstr) (cl op : Nat) (exact : Bool) (a b : Card) (cnt : BitVec 64) (h : Keeps z s) : KeepsL z (startColl s t err es i cl op exact a b cnt) := by
  delta startColl
  repeat' first
    | with_reducible assumption | (extract_lets +onlyGivenNames u; subst u) | with_reducible apply sendColl_keeps
    | with_reducible apply setColl_keeps | with_reducible apply setList_keeps | dsimp only | split | with_reducible apply keepsL_go
    | with_reducible exact keepsL_wait

theorem startBarrier_keeps {z : State} (s : State) (i : QInstr) (cl : Nat) (h : Keeps z s) : KeepsL z (startBarrier s i cl) := by
  delta startBarrier
  repeat' first
    | with_reducible assumption | with_reducible apply sendSeat_keeps | with_reducible apply setList_keeps | dsimp only | split
    | with_reducible apply keepsL_go | with_reducible exact keepsL_wait

theorem ctlOnce_keeps {z : State} (s : State) (t : Nat) (i : QInstr) (res status outcome : Nat) (step : BitVec 32) (h : Keeps z s) : KeepsL z (ctlOnce s t i res status outcome step) := by
  delta ctlOnce
  repeat' first
    | with_reducible assumption | with_reducible apply keepsL_go

theorem startGate_keeps {z : State} (s : State) (t : Nat) (i : QInstr) (res : Nat) (step : BitVec 32) (j : Job) (h : Keeps z s) : KeepsL z (startGate s t i res step j) := by
  delta startGate
  repeat' first
    | with_reducible assumption | (extract_lets +onlyGivenNames u; subst u) | with_reducible apply ctlOnce_keeps
    | with_reducible apply gatePoint_keeps | with_reducible apply setJob_keeps | split | with_reducible apply keepsL_go

theorem startCommit_keeps {z : State} (s : State) (t : Nat) (i : QInstr) (res : Nat) (step : BitVec 32) (j : Job) (h : Keeps z s) : KeepsL z (startCommit s t i res step j) := by
  delta startCommit
  repeat' first
    | with_reducible assumption | with_reducible apply ctlOnce_keeps | with_reducible apply setJob_keeps | split
    | with_reducible apply keepsL_go

theorem startCtl_keeps {z : State} (s : State) (t : Nat) (i : QInstr) (res : Nat) (step : BitVec 32) (k : Job → LinkStart)
    (hk : ∀ j, KeepsL z (k j)) (h : Keeps z s) : KeepsL z (startCtl s t i res step k) := by
  rw [startCtl]
  split
  · trivial
  · split
    · exact hk _
    · exact ctlOnce_keeps _ _ _ _ _ _ _ h
    · trivial

theorem startChg_keeps {z : State} (s : State) (t : Nat) (i : QInstr) (layout : Bool) (res : Nat) (step : BitVec 32) (h : Keeps z s) : KeepsL z (startChg s t i layout res step) := by
  delta startChg
  repeat' first
    | with_reducible assumption | with_reducible apply fresh_keeps | with_reducible apply ctlOnce_keeps | split
    | with_reducible apply keepsL_go

theorem startLink_keeps {z : State} (s : State) (t : Nat) (vw : View) (err : Option ExecFault) (es : List (Nat × Stage)) (i : QInstr) (h : Keeps z s) : KeepsL z (startLink s t vw err es i) := by
  delta startLink
  repeat' first
    | with_reducible assumption | intro _ | with_reducible apply startBarrier_keeps | with_reducible apply startChg_keeps
    | with_reducible apply startColl_keeps | with_reducible apply startCommit_keeps | with_reducible apply startCtl_keeps
    | with_reducible apply startGate_keeps | with_reducible apply startGet_keeps | with_reducible apply startPut_keeps
    | with_reducible apply startRring_keeps | split | with_reducible exact keepsL_wait

theorem startLink_ok {z s v : State} {t : Nat} {vw : View} {err : Option ExecFault} {es : List (Nat × Stage)} {i : QInstr} {x : Started} {o : Bool} (h : Keeps z s) (e : startLink s t vw err es i = .go v x o) : Keeps z v := by
  have k := startLink_keeps s t vw err es i h
  rw [e] at k
  exact k

theorem execPut_keeps {z : State} (t : TileNo) (f : LinkForm) (s : State) (h : Keeps z s) : KeepsO z (execPut t f s) := by
  delta execPut
  repeat' first
    | with_reducible assumption | with_reducible apply issuePut_keeps | with_reducible apply keepsO_next

theorem execGet_keeps {z : State} (t : TileNo) (f : LinkForm) (s : State) (h : Keeps z s) : KeepsO z (execGet t f s) := by
  delta execGet
  repeat' first
    | with_reducible assumption | with_reducible apply issueGet_keeps | with_reducible apply keepsO_next

theorem execRring_keeps {z : State} (t : TileNo) (f : LinkForm) (s : State) (h : Keeps z s) : KeepsO z (execRring t f s) := by
  delta execRring
  repeat' first
    | with_reducible assumption | with_reducible apply issueRring_keeps | with_reducible apply keepsO_next

theorem execColl_keeps {z : State} (t : TileNo) (f : LinkForm) (s : State) (h : Keeps z s) : KeepsO z (execColl t f s) := by
  delta execColl
  repeat' first
    | with_reducible assumption | with_reducible apply issueColl_keeps | with_reducible apply keepsO_next

theorem execBarrier_keeps {z : State} (t : TileNo) (f : LinkForm) (s : State) (h : Keeps z s) : KeepsO z (execBarrier t f s) := by
  delta execBarrier
  repeat' first
    | with_reducible assumption | with_reducible apply issueBarrier_keeps | with_reducible apply keepsO_next

theorem execGate_keeps {z : State} (t : TileNo) (f : LinkForm) (s : State) (h : Keeps z s) : KeepsO z (execGate t f s) := by
  delta execGate
  repeat' first
    | with_reducible assumption | with_reducible apply issueGate_keeps | with_reducible apply keepsO_next

theorem execCommit_keeps {z : State} (t : TileNo) (f : LinkForm) (s : State) (h : Keeps z s) : KeepsO z (execCommit t f s) := by
  delta execCommit
  repeat' first
    | with_reducible assumption | with_reducible apply issueGate_keeps | with_reducible apply keepsO_next

theorem execChg_keeps {z : State} (t : TileNo) (f : LinkForm) (s : State) (h : Keeps z s) : KeepsO z (execChg t f s) := by
  delta execChg
  repeat' first
    | with_reducible assumption | with_reducible apply issueChg_keeps | with_reducible apply keepsO_next

end Sys2Proof.Laws
end

