-- ==== Sys2Proof/Laws/KeepsFlits.lean ====
section
/-! SUPPORT. What the operations of Machine/Flits.lean keep. -/
namespace Sys2Proof.Laws
open Sys2Proof.Machine Sys2Proof.Safety

theorem noteTag_keeps {z : State} (s : State) (f : Flit)  (h : Keeps z s) : Keeps z (noteTag s f) := by
  delta noteTag
  repeat' first
    | with_reducible assumption | (extract_lets +onlyGivenNames u; subst u) | dsimp -zeta only | simp only [keeps_mk]

theorem once_keeps {z : State} (s : State) (f : Flit) (k : State → State) (hk : ∀ u0, Keeps z u0 → Keeps z (k u0)) (h : Keeps z s) : Keeps z (once s f k) := by
  delta once
  repeat' first
    | with_reducible assumption | with_reducible apply hk | with_reducible apply noteTag_keeps | with_reducible apply Keeps.ite

theorem forward_keeps {z : State} (s : State) (f : Flit)  (h : Keeps z s) : Keeps z (forward s f) := by
  delta forward
  repeat' first
    | with_reducible assumption
    | (extract_lets +onlyGivenNames u; refine (fun (_ : Keeps z u) => ?_) ?_; clear_value u; rotate_left; subst u)
    | with_reducible apply leaveBuffer_keeps | with_reducible apply returnOf_keeps | with_reducible apply routeOut_keeps
    | dsimp -zeta only | with_reducible apply Keeps.ite

theorem arrive_keeps {z : State} (s : State) (p : BitVec 6) (ty : BitVec 4) (f : Flit) (k : State → State) (hk : ∀ u0, Keeps z u0 → Keeps z (k u0)) (h : Keeps z s) : Keeps z (arrive s p ty f k) := by
  delta arrive
  repeat' first
    | with_reducible assumption | intro _ | (extract_lets +onlyGivenNames u; subst u) | with_reducible apply hk
    | with_reducible apply consume_keeps | with_reducible apply forward_keeps | with_reducible apply localSend_keeps
    | with_reducible apply returnOf_keeps | with_reducible apply routeOut_keeps | with_reducible apply takeFlit_keeps
    | dsimp -zeta only | with_reducible apply Keeps.ite | simp only [keeps_mk] | split

theorem doneReply_keeps {z : State} (s : State) (f : Flit) (cls : BitVec 8) (addr : BitVec 48)  (h : Keeps z s) : Keeps z (doneReply s f cls addr) := by
  delta doneReply
  repeat' first
    | with_reducible assumption | (extract_lets +onlyGivenNames u; subst u) | with_reducible apply keepFlit_keeps
    | with_reducible apply routeOut_keeps | with_reducible apply takeTag_keeps

theorem remoteRing_keeps {z : State} (s : State) (b : BitVec 19) (n : BitVec 8) (src : BitVec 10) (h : Keeps z s) :
    Keeps z (remoteRing s b n src) := by
  delta remoteRing
  split
  · exact bellAdd_keeps _ _ _ h
  · exact raise_keeps _ _ _ _ _ _ h

theorem endTransfer_keeps {z : State} (s : State) (f : Flit)  (h : Keeps z s) : Keeps z (endTransfer s f) := by
  delta endTransfer
  repeat' first
    | with_reducible assumption
    | (extract_lets +onlyGivenNames u; refine (fun (_ : Keeps z u) => ?_) ?_; clear_value u; rotate_left; subst u)
    | (extract_lets +onlyGivenNames u; subst u) | with_reducible apply doneReply_keeps | with_reducible apply remoteRing_keeps
    | simp only [keeps_mk] | split

theorem settle_keeps {z : State} (s : State)  (h : Keeps z s) : Keeps z (settle s) := by
  delta settle
  repeat' first
    | with_reducible assumption | with_reducible apply endTransfer_keeps | with_reducible apply Keeps.ite | dsimp only
    | simp only [keeps_mk] | (apply Keeps.foldl; intro _ _ _)

theorem writeArrive_keeps {z : State} (s : State) (f : Flit)  (h : Keeps z s) : Keeps z (writeArrive s f) := by
  delta writeArrive
  repeat' first
    | with_reducible assumption | (extract_lets +onlyGivenNames u; subst u) | with_reducible apply land_keeps
    | with_reducible apply touchHome_keeps | with_reducible apply withDirty_keeps | with_reducible apply doneReply_keeps
    | with_reducible apply settle_keeps | dsimp -zeta only | with_reducible apply Keeps.ite | dsimp only | simp only [keeps_mk] | split

theorem endArrive_keeps {z : State} (s : State) (f : Flit)  (h : Keeps z s) : Keeps z (endArrive s f) := by
  delta endArrive
  repeat' first
    | with_reducible assumption | intro _ | with_reducible apply once_keeps | with_reducible apply settle_keeps | dsimp only
    | simp only [keeps_mk] | split

theorem readArrive_keeps {z : State} (s : State) (f : Flit)  (h : Keeps z s) : Keeps z (readArrive s f) := by
  delta readArrive
  repeat' first
    | with_reducible assumption | with_reducible apply fresh_keeps | with_reducible apply touchHome_keeps
    | with_reducible apply doneReply_keeps | with_reducible apply keepFlit_keeps | with_reducible apply routeOut_keeps | dsimp only
    | split

theorem setLink_keeps {z : State} (s : State) (t k : Nat) (x : Started)  (h : Keeps z s) : Keeps z (setLink s t k x) := by
  delta setLink
  repeat' first
    | with_reducible assumption | with_reducible apply accept_keeps | with_reducible apply onTile_keeps
    | with_reducible apply Keeps.ite

theorem failLink_keeps {z : State} (s : State) (t k : Nat) (x : Started) (a : BitVec 64) (cls : Nat)  (h : Keeps z s) : Keeps z (failLink s t k x a cls) := by
  delta failLink
  repeat' first
    | with_reducible assumption | with_reducible apply fresh_keeps | with_reducible apply setLink_keeps

theorem dataArrive_keeps {z : State} (s : State) (f : Flit)  (h : Keeps z s) : Keeps z (dataArrive s f) := by
  delta dataArrive
  repeat' first
    | with_reducible assumption | with_reducible apply fresh_keeps | with_reducible apply setLink_keeps | dsimp -zeta only
    | with_reducible apply Keeps.ite | dsimp only | split

theorem endWhere_keeps {z : State} (s : State) (sel : CmdRec → Bool) (status : BitVec 16) (result : BitVec 64)  (h : Keeps z s) : Keeps z (endWhere s sel status result) := by
  delta endWhere
  repeat' first
    | with_reducible assumption | (extract_lets +onlyGivenNames u; subst u) | dsimp -zeta only | simp only [keeps_mk]

theorem endCmds_keeps {z : State} (s : State) (ops : List (BitVec 16)) (ctx : Nat) (status : BitVec 16) (result : BitVec 64)  (h : Keeps z s) : Keeps z (endCmds s ops ctx status result) := by
  delta endCmds
  repeat' first
    | with_reducible assumption | with_reducible apply endWhere_keeps

theorem partnerRefused_keeps {z : State} (s : State)  (h : Keeps z s) : Keeps z (partnerRefused s) := by
  delta partnerRefused
  repeat' first
    | with_reducible assumption | with_reducible apply endCmds_keeps | with_reducible apply setJob_keeps
    | (apply Keeps.foldl; intro _ _ _)

theorem planAcked_keeps {z : State} (s : State) (seat : Nat)  (h : Keeps z s) : Keeps z (planAcked s seat) := by
  delta planAcked
  repeat' first
    | with_reducible assumption | (extract_lets +onlyGivenNames u; subst u) | with_reducible apply onJob_keeps | dsimp -zeta only
    | split

theorem doneArrive_keeps {z : State} (s : State) (f : Flit)  (h : Keeps z s) : Keeps z (doneArrive s f) := by
  delta doneArrive
  repeat' first
    | with_reducible assumption | intro _ | with_reducible apply endArrive_keeps | with_reducible apply failLink_keeps
    | with_reducible apply once_keeps | with_reducible apply partnerRefused_keeps | with_reducible apply planAcked_keeps
    | with_reducible apply setLink_keeps | with_reducible apply Keeps.ite | split

theorem collAll_keeps {z : State} (s : State) (vc : BitVec 4) (l : ClassList) (cl : Nat) (q : BitVec 16) (len : Nat) (m : CollBody)  (h : Keeps z s) : Keeps z (collAll s vc l cl q len m) := by
  delta collAll
  repeat' first
    | with_reducible assumption | with_reducible apply sendColl_keeps | (apply Keeps.foldl; intro _ _ _)

theorem collParams_keeps {z : State} (s : State) (l : ClassList) (cl : Nat) (q : BitVec 16) (r : Nat) (p : CollParams) (vc : BitVec 4)  (h : Keeps z s) : Keeps z (collParams s l cl q r p vc) := by
  delta collParams
  repeat' first
    | with_reducible assumption
    | (extract_lets +onlyGivenNames u; refine (fun (_ : Keeps z u) => ?_) ?_; clear_value u; rotate_left; subst u)
    | (extract_lets +onlyGivenNames u; subst u) | with_reducible apply collAll_keeps | with_reducible apply setColl_keeps
    | with_reducible apply Keeps.ite

theorem collOver_keeps {z : State} (s : State) (k : Nat)  (h : Keeps z s) : Keeps z (collOver s k) := by
  delta collOver
  repeat' first
    | with_reducible assumption | with_reducible apply setColl_keeps

theorem collFail_keeps {z : State} (s : State) (k : Nat) (cls : Nat)  (h : Keeps z s) : Keeps z (collFail s k cls) := by
  delta collFail
  repeat' first
    | with_reducible assumption | (extract_lets +onlyGivenNames u; subst u) | with_reducible apply fresh_keeps
    | with_reducible apply land_keeps | with_reducible apply collOver_keeps | with_reducible apply setLink_keeps | dsimp only | split

theorem collMove_keeps {z : State} (s : State) (l : ClassList) (cl : Nat) (q : BitVec 16)  (h : Keeps z s) : Keeps z (collMove s l cl q) := by
  delta collMove
  repeat' first
    | with_reducible assumption | (extract_lets +onlyGivenNames u; subst u) | with_reducible apply sendData_keeps
    | with_reducible apply setColl_keeps | with_reducible apply Keeps.ite | dsimp only | split | (apply Keeps.foldl; intro _ _ _)

theorem collFinish_keeps {z : State} (s : State) (l : ClassList) (cl : Nat) (q : BitVec 16)  (h : Keeps z s) : Keeps z (collFinish s l cl q) := by
  delta collFinish
  repeat' first
    | with_reducible assumption | (extract_lets +onlyGivenNames u; subst u) | with_reducible apply fresh_keeps
    | with_reducible apply collOver_keeps | with_reducible apply countColl_keeps | with_reducible apply raiseTile_keeps
    | with_reducible apply setLink_keeps | dsimp -zeta only | with_reducible apply Keeps.ite | dsimp only | split

theorem collGo_keeps {z : State} (s : State) (l : ClassList) (cl : Nat) (q : BitVec 16) (cls : BitVec 8)  (h : Keeps z s) : Keeps z (collGo s l cl q cls) := by
  delta collGo
  repeat' first
    | with_reducible assumption
    | (extract_lets +onlyGivenNames u; refine (fun (_ : Keeps z u) => ?_) ?_; clear_value u; rotate_left; subst u)
    | (extract_lets +onlyGivenNames u; subst u) | with_reducible apply fresh_keeps | with_reducible apply collAll_keeps
    | with_reducible apply collFail_keeps | with_reducible apply sendData_keeps | with_reducible apply setColl_keeps
    | with_reducible apply Keeps.ite | dsimp only | split | (apply Keeps.foldl; intro _ _ _)

theorem dropUnstarted_keeps {z : State} (s : State) (n : Nat)  (h : Keeps z s) : Keeps z (dropUnstarted s n) := by
  delta dropUnstarted
  repeat' first
    | with_reducible assumption | (extract_lets +onlyGivenNames u; subst u) | simp only [keeps_mk]

theorem collArrive_keeps {z : State} (s : State) (f : Flit)  (h : Keeps z s) : Keeps z (collArrive s f) := by
  delta collArrive
  repeat' first
    | with_reducible assumption | intro _ | with_reducible apply collFinish_keeps | with_reducible apply collGo_keeps
    | with_reducible apply collMove_keeps | with_reducible apply collParams_keeps | with_reducible apply once_keeps
    | with_reducible apply setColl_keeps | with_reducible apply Keeps.ite | dsimp only | split

theorem barrierRelease_keeps {z : State} (s : State) (cl : Nat) (l : ClassList)  (h : Keeps z s) : Keeps z (barrierRelease s cl l) := by
  delta barrierRelease
  repeat' first
    | with_reducible assumption
    | (extract_lets +onlyGivenNames u; refine (fun (_ : Keeps z u) => ?_) ?_; clear_value u; rotate_left; subst u)
    | with_reducible apply bellAdd_keeps | with_reducible apply setLink_keeps | with_reducible apply setList_keeps | dsimp -zeta only
    | with_reducible apply Keeps.ite | split | (apply Keeps.foldl; intro _ _ _)

theorem barrierMeet_keeps {z : State} (s : State) (cl : Nat) (l : ClassList) (seat : BitVec 10)  (h : Keeps z s) : Keeps z (barrierMeet s cl l seat) := by
  delta barrierMeet
  repeat' first
    | with_reducible assumption | (extract_lets +onlyGivenNames u; subst u) | with_reducible apply sendSeat_keeps
    | with_reducible apply setList_keeps | with_reducible apply Keeps.ite | (apply Keeps.foldl; intro _ _ _)

theorem barrierArrive_keeps {z : State} (s : State) (f : Flit)  (h : Keeps z s) : Keeps z (barrierArrive s f) := by
  delta barrierArrive
  repeat' first
    | with_reducible assumption | intro _ | with_reducible apply barrierMeet_keeps | with_reducible apply barrierRelease_keeps
    | with_reducible apply once_keeps | with_reducible apply Keeps.ite | split

theorem abortBarriers_keeps {z : State} (s : State) (n : Nat) (gen : BitVec 16)  (h : Keeps z s) : Keeps z (abortBarriers s n gen) := by
  delta abortBarriers
  repeat' first
    | with_reducible assumption | with_reducible apply setLink_keeps | dsimp -zeta only | (apply Keeps.foldl; intro _ _ _)

theorem returnedGroup_keeps {z : State} (s : State) (ty : BitVec 4) (seat : BitVec 10) (dstPm : BitVec 11) (tag : BitVec 16) (arg : BitVec 40) (reason : BitVec 8)  (h : Keeps z s) : Keeps z (returnedGroup s ty seat dstPm tag arg reason) := by
  delta returnedGroup
  repeat' first
    | with_reducible assumption | (extract_lets +onlyGivenNames u; subst u) | with_reducible apply collFail_keeps
    | with_reducible apply emitSeat_keeps | with_reducible apply failLink_keeps | with_reducible apply seatFlit_keeps
    | dsimp -zeta only | with_reducible apply Keeps.ite | split | (apply Keeps.foldl; intro _ _ _)

theorem returnArrive_keeps {z : State} (s : State) (f : Flit)  (h : Keeps z s) : Keeps z (returnArrive s f) := by
  delta returnArrive
  repeat' first
    | with_reducible assumption | (extract_lets +onlyGivenNames u; subst u) | with_reducible apply failLink_keeps
    | with_reducible apply partnerRefused_keeps | with_reducible apply returnedGroup_keeps | with_reducible apply setLink_keeps
    | with_reducible apply Keeps.ite | dsimp only | simp only [keeps_mk] | split

theorem writeSeat_keeps {z : State} (s : State) (i : Nat) (v : BitVec 64)  (h : Keeps z s) : Keeps z (writeSeat s i v) := by
  delta writeSeat
  repeat' first
    | with_reducible assumption | with_reducible apply rset_keeps | with_reducible apply unpark_keeps

theorem execWriteFlit_keeps {z : State} (p : BitVec 6) (f : Flit) (s : State) (h : Keeps z s) : KeepsO z (execWriteFlit p f s) := by
  delta execWriteFlit
  repeat' first
    | with_reducible assumption | intro _ | with_reducible apply arrive_keeps | with_reducible apply writeArrive_keeps
    | with_reducible apply keepsO_next | with_reducible apply Keeps.ite

theorem execReadReqFlit_keeps {z : State} (p : BitVec 6) (f : Flit) (s : State) (h : Keeps z s) : KeepsO z (execReadReqFlit p f s) := by
  delta execReadReqFlit
  repeat' first
    | with_reducible assumption | intro _ | with_reducible apply arrive_keeps | with_reducible apply readArrive_keeps
    | with_reducible apply keepsO_next

theorem execReadDataFlit_keeps {z : State} (p : BitVec 6) (f : Flit) (s : State) (h : Keeps z s) : KeepsO z (execReadDataFlit p f s) := by
  delta execReadDataFlit
  repeat' first
    | with_reducible assumption | intro _ | with_reducible apply arrive_keeps | with_reducible apply dataArrive_keeps
    | with_reducible apply keepsO_next

theorem execRingFlit_keeps {z : State} (p : BitVec 6) (f : Flit) (s : State) (h : Keeps z s) : KeepsO z (execRingFlit p f s) := by
  delta execRingFlit
  repeat' first
    | with_reducible assumption | intro _ | with_reducible apply arrive_keeps | with_reducible apply endArrive_keeps
    | with_reducible apply keepsO_next

theorem execCollFlit_keeps {z : State} (p : BitVec 6) (f : Flit) (s : State) (h : Keeps z s) : KeepsO z (execCollFlit p f s) := by
  delta execCollFlit
  repeat' first
    | with_reducible assumption | intro _ | with_reducible apply arrive_keeps | with_reducible apply collArrive_keeps
    | with_reducible apply keepsO_next

theorem execBarrierFlit_keeps {z : State} (p : BitVec 6) (f : Flit) (s : State) (h : Keeps z s) : KeepsO z (execBarrierFlit p f s) := by
  delta execBarrierFlit
  repeat' first
    | with_reducible assumption | intro _ | with_reducible apply arrive_keeps | with_reducible apply barrierArrive_keeps
    | with_reducible apply keepsO_next

theorem execDoneFlit_keeps {z : State} (p : BitVec 6) (f : Flit) (s : State) (h : Keeps z s) : KeepsO z (execDoneFlit p f s) := by
  delta execDoneFlit
  repeat' first
    | with_reducible assumption | intro _ | with_reducible apply arrive_keeps | with_reducible apply doneArrive_keeps
    | with_reducible apply keepsO_next

theorem execReturnFlit_keeps {z : State} (p : BitVec 6) (f : Flit) (s : State) (h : Keeps z s) : KeepsO z (execReturnFlit p f s) := by
  delta execReturnFlit
  repeat' first
    | with_reducible assumption | intro _ | with_reducible apply arrive_keeps | with_reducible apply returnArrive_keeps
    | with_reducible apply keepsO_next

end Sys2Proof.Laws
end

