-- ==== Sys2Proof/Laws/KeepsCopy.lean ====
section
/-! SUPPORT. What the operations of Machine/Copy.lean keep. -/
namespace Sys2Proof.Laws
open Sys2Proof.Machine Sys2Proof.Safety

theorem sendPartner_keeps {z : State} (s : State) (off : Nat) (data : List Byte)  (h : Keeps z s) : Keeps z (sendPartner s off data) := by
  delta sendPartner
  repeat' first
    | with_reducible assumption | with_reducible apply localSend_keeps | with_reducible apply returnOf_keeps
    | with_reducible apply routeOut_keeps | with_reducible apply takeTag_keeps | dsimp -zeta only | dsimp only | simp only [keeps_mk]
    | split | (apply Keeps.foldl; intro _ _ _)

theorem sendLanding_keeps {z : State} (s : State) (j : Job) (l : List Landed)  (h : Keeps z s) : Keeps z (sendLanding s j l) := by
  delta sendLanding
  repeat' first
    | with_reducible assumption
    | (extract_lets +onlyGivenNames u; refine (fun (_ : Keeps z u) => ?_) ?_; clear_value u; rotate_left; subst u)
    | (extract_lets +onlyGivenNames u; subst u) | with_reducible apply sendPartner_keeps | dsimp -zeta only
    | (apply Keeps.foldl; intro _ _ _)

theorem dropLanded_keeps {z : State} (s : State)  (h : Keeps z s) : Keeps z (dropLanded s) := by
  delta dropLanded
  repeat' first
    | with_reducible assumption | (extract_lets +onlyGivenNames u; subst u) | simp only [keeps_mk]

theorem clearDirty_keeps {z : State} (s : State) (j : Job) (h : Keeps z s) : Keeps z (clearDirty s j) :=
  h.mem (fun c => canon_setMem c ⟨c.cells, twf_filter _ c.dirty, c.poison⟩)

theorem copybook_keeps {z : State} (s : State) (ctx : Nat) (j : Job)  (h : Keeps z s) : Keeps z (copybook s ctx j) := by
  delta copybook
  repeat' first
    | with_reducible assumption
    | (extract_lets +onlyGivenNames u; refine (fun (_ : Keeps z u) => ?_) ?_; clear_value u; rotate_left; subst u)
    | (extract_lets +onlyGivenNames u; subst u) | with_reducible apply fresh_keeps | with_reducible apply pass_keeps
    | with_reducible apply clearDirty_keeps | with_reducible apply onJob_keeps | with_reducible apply sendLanding_keeps
    | with_reducible apply sendPartner_keeps | with_reducible apply Keeps.ite | split | (apply Keeps.foldl; intro _ _ _)

theorem sendWhole_keeps {z : State} (s : State) (ctx : Nat) (j : Job) (r : JobRec)  (h : Keeps z s) : Keeps z (sendWhole s ctx j r) := by
  delta sendWhole
  repeat' first
    | with_reducible assumption
    | (extract_lets +onlyGivenNames u; refine (fun (_ : Keeps z u) => ?_) ?_; clear_value u; rotate_left; subst u)
    | (extract_lets +onlyGivenNames u; subst u) | with_reducible apply fresh_keeps | with_reducible apply pass_keeps
    | with_reducible apply onJob_keeps | with_reducible apply sendLanding_keeps | with_reducible apply sendPartner_keeps
    | (apply Keeps.foldl; intro _ _ _)

theorem showReprotect_keeps {z : State} (s : State)  (h : Keeps z s) : Keeps z (showReprotect s) := by
  delta showReprotect
  repeat' first
    | with_reducible assumption | with_reducible apply rflag_keeps

theorem sendLate_keeps {z : State} (s : State) (ctx : Nat) (j : Job) (r : JobRec)  (h : Keeps z s) : Keeps z (sendLate s ctx j r) := by
  delta sendLate
  repeat' first
    | with_reducible assumption | with_reducible apply sendWhole_keeps | with_reducible apply showReprotect_keeps

theorem commitLists_keeps {z : State} (s : State) (j : Job)  (h : Keeps z s) : Keeps z (commitLists s j) := by
  delta commitLists
  repeat' first
    | with_reducible assumption | with_reducible apply setList_keeps | split | (apply Keeps.foldl; intro _ _ _)

theorem restoreLists_keeps {z : State} (s : State) (j : Job)  (h : Keeps z s) : Keeps z (restoreLists s j) := by
  delta restoreLists
  repeat' first
    | with_reducible assumption | with_reducible apply dropUnstarted_keeps | with_reducible apply setList_keeps | split
    | (apply Keeps.foldl; intro _ _ _)

theorem loadLists_keeps {z : State} (s : State) (r : JobRec)  (h : Keeps z s) : Keeps z (loadLists s r) := by
  delta loadLists
  repeat' first
    | with_reducible assumption | with_reducible apply dropUnstarted_keeps | with_reducible apply setList_keeps | split
    | (apply Keeps.foldl; intro _ _ _)

end Sys2Proof.Laws
end

