-- ==== Sys2Proof/Laws/KeepsScalar.lean ====
section
/-! SUPPORT. What the operations of Machine/Scalar.lean keep. -/
namespace Sys2Proof.Laws
open Sys2Proof.Machine Sys2Proof.Safety

theorem scalarR_keeps {z : State} (t : Nat) (op : BitVec 8) (f : RForm) (g : BitVec 64 → BitVec 64 → BitVec 64) (s : State)  (h : Keeps z s) : Keeps z (scalarR t op f g s) := by
  delta scalarR
  repeat' first
    | with_reducible assumption | intro _ | with_reducible apply onTile_keeps | with_reducible apply issueScalar_keeps
    | with_reducible apply keepsE_ok

theorem scalarI_keeps {z : State} (t : Nat) (op : BitVec 8) (f : IForm) (legal : Bool) (g : BitVec 64 → BitVec 64 → BitVec 64) (s : State)  (h : Keeps z s) : Keeps z (scalarI t op f legal g s) := by
  delta scalarI
  repeat' first
    | with_reducible assumption | intro _ | with_reducible apply onTile_keeps | with_reducible apply issueScalar_keeps
    | with_reducible apply keepsE_ok

theorem scalarBr_keeps {z : State} (t : Nat) (op : BitVec 8) (f : BForm) (c : BitVec 64 → BitVec 64 → Bool) (s : State)  (h : Keeps z s) : Keeps z (scalarBr t op f c s) := by
  delta scalarBr
  repeat' first
    | with_reducible assumption | intro _ | with_reducible apply onTile_keeps | with_reducible apply issueScalar_keeps
    | with_reducible apply keepsE_ok

theorem execNop_keeps {z : State} (t : TileNo) (f : RForm) (s : State) (h : Keeps z s) : KeepsO z (execNop t f s) := by
  delta execNop
  repeat' first
    | with_reducible assumption | intro _ | with_reducible apply issueScalar_keeps | with_reducible apply keepsE_ok
    | with_reducible apply keepsO_next

theorem execAdd_keeps {z : State} (t : TileNo) (f : RForm) (s : State) (h : Keeps z s) : KeepsO z (execAdd t f s) := by
  delta execAdd
  repeat' first
    | with_reducible assumption | with_reducible apply scalarR_keeps | with_reducible apply keepsO_next

theorem execSub_keeps {z : State} (t : TileNo) (f : RForm) (s : State) (h : Keeps z s) : KeepsO z (execSub t f s) := by
  delta execSub
  repeat' first
    | with_reducible assumption | with_reducible apply scalarR_keeps | with_reducible apply keepsO_next

theorem execAnd_keeps {z : State} (t : TileNo) (f : RForm) (s : State) (h : Keeps z s) : KeepsO z (execAnd t f s) := by
  delta execAnd
  repeat' first
    | with_reducible assumption | with_reducible apply scalarR_keeps | with_reducible apply keepsO_next

theorem execOr_keeps {z : State} (t : TileNo) (f : RForm) (s : State) (h : Keeps z s) : KeepsO z (execOr t f s) := by
  delta execOr
  repeat' first
    | with_reducible assumption | with_reducible apply scalarR_keeps | with_reducible apply keepsO_next

theorem execXor_keeps {z : State} (t : TileNo) (f : RForm) (s : State) (h : Keeps z s) : KeepsO z (execXor t f s) := by
  delta execXor
  repeat' first
    | with_reducible assumption | with_reducible apply scalarR_keeps | with_reducible apply keepsO_next

theorem execShl_keeps {z : State} (t : TileNo) (f : RForm) (s : State) (h : Keeps z s) : KeepsO z (execShl t f s) := by
  delta execShl
  repeat' first
    | with_reducible assumption | with_reducible apply scalarR_keeps | with_reducible apply keepsO_next

theorem execShr_keeps {z : State} (t : TileNo) (f : RForm) (s : State) (h : Keeps z s) : KeepsO z (execShr t f s) := by
  delta execShr
  repeat' first
    | with_reducible assumption | with_reducible apply scalarR_keeps | with_reducible apply keepsO_next

theorem execSra_keeps {z : State} (t : TileNo) (f : RForm) (s : State) (h : Keeps z s) : KeepsO z (execSra t f s) := by
  delta execSra
  repeat' first
    | with_reducible assumption | with_reducible apply scalarR_keeps | with_reducible apply keepsO_next

theorem execMul_keeps {z : State} (t : TileNo) (f : RForm) (s : State) (h : Keeps z s) : KeepsO z (execMul t f s) := by
  delta execMul
  repeat' first
    | with_reducible assumption | with_reducible apply scalarR_keeps | with_reducible apply keepsO_next

theorem execMin_keeps {z : State} (t : TileNo) (f : RForm) (s : State) (h : Keeps z s) : KeepsO z (execMin t f s) := by
  delta execMin
  repeat' first
    | with_reducible assumption | with_reducible apply scalarR_keeps | with_reducible apply keepsO_next

theorem execMax_keeps {z : State} (t : TileNo) (f : RForm) (s : State) (h : Keeps z s) : KeepsO z (execMax t f s) := by
  delta execMax
  repeat' first
    | with_reducible assumption | with_reducible apply scalarR_keeps | with_reducible apply keepsO_next

theorem execSlt_keeps {z : State} (t : TileNo) (f : RForm) (s : State) (h : Keeps z s) : KeepsO z (execSlt t f s) := by
  delta execSlt
  repeat' first
    | with_reducible assumption | with_reducible apply scalarR_keeps | with_reducible apply keepsO_next

theorem execSltu_keeps {z : State} (t : TileNo) (f : RForm) (s : State) (h : Keeps z s) : KeepsO z (execSltu t f s) := by
  delta execSltu
  repeat' first
    | with_reducible assumption | with_reducible apply scalarR_keeps | with_reducible apply keepsO_next

theorem execAddi_keeps {z : State} (t : TileNo) (f : IForm) (s : State) (h : Keeps z s) : KeepsO z (execAddi t f s) := by
  delta execAddi
  repeat' first
    | with_reducible assumption | with_reducible apply scalarI_keeps | with_reducible apply keepsO_next

theorem execAndi_keeps {z : State} (t : TileNo) (f : IForm) (s : State) (h : Keeps z s) : KeepsO z (execAndi t f s) := by
  delta execAndi
  repeat' first
    | with_reducible assumption | with_reducible apply scalarI_keeps | with_reducible apply keepsO_next

theorem execOri_keeps {z : State} (t : TileNo) (f : IForm) (s : State) (h : Keeps z s) : KeepsO z (execOri t f s) := by
  delta execOri
  repeat' first
    | with_reducible assumption | with_reducible apply scalarI_keeps | with_reducible apply keepsO_next

theorem execXori_keeps {z : State} (t : TileNo) (f : IForm) (s : State) (h : Keeps z s) : KeepsO z (execXori t f s) := by
  delta execXori
  repeat' first
    | with_reducible assumption | with_reducible apply scalarI_keeps | with_reducible apply keepsO_next

theorem execShli_keeps {z : State} (t : TileNo) (f : IForm) (s : State) (h : Keeps z s) : KeepsO z (execShli t f s) := by
  delta execShli
  repeat' first
    | with_reducible assumption | with_reducible apply scalarI_keeps | with_reducible apply keepsO_next

theorem execShri_keeps {z : State} (t : TileNo) (f : IForm) (s : State) (h : Keeps z s) : KeepsO z (execShri t f s) := by
  delta execShri
  repeat' first
    | with_reducible assumption | with_reducible apply scalarI_keeps | with_reducible apply keepsO_next

theorem execSrai_keeps {z : State} (t : TileNo) (f : IForm) (s : State) (h : Keeps z s) : KeepsO z (execSrai t f s) := by
  delta execSrai
  repeat' first
    | with_reducible assumption | with_reducible apply scalarI_keeps | with_reducible apply keepsO_next

theorem execLi_keeps {z : State} (t : TileNo) (f : IForm) (s : State) (h : Keeps z s) : KeepsO z (execLi t f s) := by
  delta execLi
  repeat' first
    | with_reducible assumption | intro _ | with_reducible apply onTile_keeps | with_reducible apply issueScalar_keeps
    | with_reducible apply keepsE_ok | with_reducible apply keepsO_next

theorem execLd_keeps {z : State} (t : TileNo) (f : IForm) (s : State) (h : Keeps z s) : KeepsO z (execLd t f s) := by
  delta execLd
  repeat' first
    | with_reducible assumption | intro _
    | (extract_lets +onlyGivenNames u; refine (fun (_ : Keeps z u) => ?_) ?_; clear_value u; rotate_left; subst u)
    | (extract_lets +onlyGivenNames u; subst u) | with_reducible apply fresh_keeps | with_reducible apply onTile_keeps
    | with_reducible apply seen_keeps | with_reducible apply touch_keeps | with_reducible apply issueScalar_keeps
    | with_reducible apply keepsE_ok | with_reducible apply keepsO_next | with_reducible apply Keeps.ite

theorem execSt_keeps {z : State} (t : TileNo) (f : BForm) (s : State) (h : Keeps z s) : KeepsO z (execSt t f s) := by
  delta execSt
  repeat' first
    | with_reducible assumption | intro _
    | (extract_lets +onlyGivenNames u; refine (fun (_ : Keeps z u) => ?_) ?_; clear_value u; rotate_left; subst u)
    | (extract_lets +onlyGivenNames u; subst u) | with_reducible apply accept_keeps | with_reducible apply land_keeps
    | with_reducible apply onTile_keeps | with_reducible apply touch_keeps | with_reducible apply issueScalar_keeps
    | with_reducible apply keepsE_ok | with_reducible apply keepsO_next | with_reducible apply Keeps.ite | split

theorem execCrr_keeps {z : State} (t : TileNo) (f : IForm) (s : State) (h : Keeps z s) : KeepsO z (execCrr t f s) := by
  delta execCrr
  repeat' first
    | with_reducible assumption | intro _ | with_reducible apply onTile_keeps | with_reducible apply issueScalar_keeps
    | with_reducible apply keepsE_ok | with_reducible apply keepsO_next

theorem execCrw_keeps {z : State} (t : TileNo) (f : BForm) (s : State) (h : Keeps z s) : KeepsO z (execCrw t f s) := by
  delta execCrw
  repeat' first
    | with_reducible assumption | intro _ | (extract_lets +onlyGivenNames u; subst u) | with_reducible apply issueScalar_keeps
    | with_reducible apply pageWrite_keeps | with_reducible apply keepsE_ok | with_reducible apply keepsE_error
    | with_reducible apply keepsO_next | split

theorem execBeq_keeps {z : State} (t : TileNo) (f : BForm) (s : State) (h : Keeps z s) : KeepsO z (execBeq t f s) := by
  delta execBeq
  repeat' first
    | with_reducible assumption | with_reducible apply scalarBr_keeps | with_reducible apply keepsO_next

theorem execBne_keeps {z : State} (t : TileNo) (f : BForm) (s : State) (h : Keeps z s) : KeepsO z (execBne t f s) := by
  delta execBne
  repeat' first
    | with_reducible assumption | with_reducible apply scalarBr_keeps | with_reducible apply keepsO_next

theorem execBlt_keeps {z : State} (t : TileNo) (f : BForm) (s : State) (h : Keeps z s) : KeepsO z (execBlt t f s) := by
  delta execBlt
  repeat' first
    | with_reducible assumption | with_reducible apply scalarBr_keeps | with_reducible apply keepsO_next

theorem execBge_keeps {z : State} (t : TileNo) (f : BForm) (s : State) (h : Keeps z s) : KeepsO z (execBge t f s) := by
  delta execBge
  repeat' first
    | with_reducible assumption | with_reducible apply scalarBr_keeps | with_reducible apply keepsO_next

theorem execBltu_keeps {z : State} (t : TileNo) (f : BForm) (s : State) (h : Keeps z s) : KeepsO z (execBltu t f s) := by
  delta execBltu
  repeat' first
    | with_reducible assumption | with_reducible apply scalarBr_keeps | with_reducible apply keepsO_next

theorem execBgeu_keeps {z : State} (t : TileNo) (f : BForm) (s : State) (h : Keeps z s) : KeepsO z (execBgeu t f s) := by
  delta execBgeu
  repeat' first
    | with_reducible assumption | with_reducible apply scalarBr_keeps | with_reducible apply keepsO_next

theorem execJmp_keeps {z : State} (t : TileNo) (f : BForm) (s : State) (h : Keeps z s) : KeepsO z (execJmp t f s) := by
  delta execJmp
  repeat' first
    | with_reducible assumption | intro _ | with_reducible apply onTile_keeps | with_reducible apply issueScalar_keeps
    | with_reducible apply keepsE_ok | with_reducible apply keepsO_next

theorem execJal_keeps {z : State} (t : TileNo) (f : IForm) (s : State) (h : Keeps z s) : KeepsO z (execJal t f s) := by
  delta execJal
  repeat' first
    | with_reducible assumption | intro _ | with_reducible apply onTile_keeps | with_reducible apply issueScalar_keeps
    | with_reducible apply keepsE_ok | with_reducible apply keepsO_next

theorem execJr_keeps {z : State} (t : TileNo) (f : IForm) (s : State) (h : Keeps z s) : KeepsO z (execJr t f s) := by
  delta execJr
  repeat' first
    | with_reducible assumption | intro _ | with_reducible apply onTile_keeps | with_reducible apply issueScalar_keeps
    | with_reducible apply keepsE_ok | with_reducible apply keepsO_next

theorem execHalt_keeps {z : State} (t : TileNo) (f : RForm) (s : State) (h : Keeps z s) : KeepsO z (execHalt t f s) := by
  delta execHalt
  repeat' first
    | with_reducible assumption | intro _ | with_reducible apply onTile_keeps | with_reducible apply issueScalar_keeps
    | with_reducible apply keepsE_ok | with_reducible apply keepsO_next

theorem execStep_keeps {z : State} (t : TileNo) (f : RForm) (s : State) (h : Keeps z s) : KeepsO z (execStep t f s) := by
  delta execStep
  repeat' first
    | with_reducible assumption | intro _ | with_reducible apply onTile_keeps | with_reducible apply issueScalar_keeps
    | with_reducible apply keepsE_ok | with_reducible apply keepsO_next

theorem execDld_keeps {z : State} (t : TileNo) (f : IForm) (s : State) (h : Keeps z s) : KeepsO z (execDld t f s) := by
  delta execDld
  repeat' first
    | with_reducible assumption | intro _ | (extract_lets +onlyGivenNames u; subst u) | with_reducible apply fresh_keeps
    | with_reducible apply onTile_keeps | with_reducible apply execFault_keeps | with_reducible apply issueScalar_keeps
    | with_reducible apply keepsE_ok | with_reducible apply keepsE_error | with_reducible apply keepsO_next | split

theorem execDst_keeps {z : State} (t : TileNo) (f : BForm) (s : State) (h : Keeps z s) : KeepsO z (execDst t f s) := by
  delta execDst
  repeat' first
    | with_reducible assumption | intro _ | (extract_lets +onlyGivenNames u; subst u) | with_reducible apply land_keeps
    | with_reducible apply issueScalar_keeps | with_reducible apply keepsE_ok | with_reducible apply keepsE_error
    | with_reducible apply keepsO_next | split

theorem execDadd_keeps {z : State} (t : TileNo) (f : RForm) (s : State) (h : Keeps z s) : KeepsO z (execDadd t f s) := by
  delta execDadd
  repeat' first
    | with_reducible assumption | intro _ | with_reducible apply onTile_keeps | with_reducible apply issueScalar_keeps
    | with_reducible apply keepsE_ok | with_reducible apply keepsO_next

theorem execBring_keeps {z : State} (t : TileNo) (f : IForm) (s : State) (h : Keeps z s) : KeepsO z (execBring t f s) := by
  delta execBring
  repeat' first
    | with_reducible assumption | intro _ | (extract_lets +onlyGivenNames u; subst u) | with_reducible apply onTile_keeps
    | with_reducible apply bellAdd_keeps | with_reducible apply issueScalar_keeps | with_reducible apply keepsE_ok
    | with_reducible apply keepsE_error | with_reducible apply keepsO_next | split

theorem passBwait_keeps {z : State} (s : State) (t : Nat)  (h : Keeps z s) : Keeps z (passBwait s t) := by
  delta passBwait
  repeat' first
    | with_reducible assumption
    | (extract_lets +onlyGivenNames u; refine (fun (_ : Keeps z u) => ?_) ?_; clear_value u; rotate_left; subst u)
    | with_reducible apply onTile_keeps | with_reducible apply countTal_keeps | split

theorem execBwait_keeps {z : State} (t : TileNo) (f : IForm) (s : State) (h : Keeps z s) : KeepsO z (execBwait t f s) := by
  delta execBwait
  repeat' first
    | with_reducible assumption | intro _ | (extract_lets +onlyGivenNames u; subst u) | with_reducible apply onTile_keeps
    | with_reducible apply issueWord_keeps | with_reducible apply passBwait_keeps | with_reducible apply keepsE_ok
    | with_reducible apply keepsE_error | with_reducible apply keepsO_next | split

theorem execBset_keeps {z : State} (t : TileNo) (f : IForm) (s : State) (h : Keeps z s) : KeepsO z (execBset t f s) := by
  delta execBset
  repeat' first
    | with_reducible assumption | intro _ | (extract_lets +onlyGivenNames u; subst u) | with_reducible apply bellSet_keeps
    | with_reducible apply issueScalar_keeps | with_reducible apply keepsE_ok | with_reducible apply keepsE_error
    | with_reducible apply keepsO_next | split

theorem releaseBrings_keeps {z : State} (n : Nat) (s : State) (t : Nat) (h : Keeps z s) : Keeps z (releaseBrings n s t) := by
  induction n generalizing s with
  | zero => exact h
  | succ n ih =>
    simp only [releaseBrings]
    split
    · exact ih _ (bellAdd_keeps _ _ _ (onTile_keeps _ _ _ h))
    · exact h

theorem execScalarAccessComplete_keeps {z : State} (t : TileNo) (e : Ending) (s : State) (h : Keeps z s) : KeepsO z (execScalarAccessComplete t e s) := by
  delta execScalarAccessComplete
  repeat' first
    | with_reducible assumption | with_reducible apply land_keeps | with_reducible apply onTile_keeps
    | with_reducible apply execFault_keeps | with_reducible apply releaseBrings_keeps | with_reducible apply keepsO_next
    | with_reducible apply Keeps.ite | dsimp only | simp only [keeps_mk] | split | with_reducible apply keeps_mk_poison

end Sys2Proof.Laws
end

