-- ==== Sys2Proof/Laws/KeepsEngine.lean ====
section
/-! SUPPORT. What the operations of Machine/Engine.lean keep. -/
namespace Sys2Proof.Laws
open Sys2Proof.Machine Sys2Proof.Safety

theorem waitStages_keeps {z : State} (s : State) (t q : Nat) (es : List (Nat × Stage))  (h : Keeps z s) : Keeps z (waitStages s t q es) := by
  delta waitStages
  repeat' first
    | with_reducible assumption | with_reducible apply onTile_keeps

theorem startOp_keeps {z : State} (s : State) (t : Nat) (vw : View) (op : EngineOp) (h : Keeps z s) : Keeps z (startOp s t vw op).s := by
  cases op <;> simp only [startOp]
  case mmul => exact startMmul_keeps _ _ _ _ _ _ _ _ _ h
  case ladd => exact startLadd_keeps _ _ _ _ _ _ h
  case abmode => exact startAbmode_keeps _ _ _ h
  case att => exact startAtt_keeps _ _ _ _ _ _ _ _ _ _ _ _ _ h
  case drill => exact startDrill_keeps _ _ _ _ _ _ _ _ _ _ _ _ _ _ _ h
  case rod => exact startRod_keeps _ _ _ _ _ _ _ h
  case move => exact startMove_keeps _ _ _ _ _ _ h
  case pack => exact startPack_keeps _ _ _ _ _ h
  all_goals exact h

theorem countStrag_keeps {z : State} (s : State) (t q : Nat)  (h : Keeps z s) : Keeps z (countStrag s t q) := by
  delta countStrag
  repeat' first
    | with_reducible assumption | with_reducible apply countTal_keeps | split

theorem takeHead_keeps {z : State} (s : State) (t q : Nat)  (h : Keeps z s) : Keeps z (takeHead s t q) := by
  delta takeHead
  repeat' first
    | with_reducible assumption | with_reducible apply onTile_keeps | with_reducible apply countStrag_keeps
    | with_reducible apply noteHead_keeps

theorem addStarted_keeps {z : State} (s : State) (t q : Nat) (x : Started)  (h : Keeps z s) : Keeps z (addStarted s t q x) := by
  delta addStarted
  repeat' first
    | with_reducible assumption | with_reducible apply accept_keeps | with_reducible apply onTile_keeps

theorem lateRange_keeps {z : State} (s : State) (t q : Nat) (i : QInstr) (f : IFault)  (h : Keeps z s) : Keeps z (lateRange s t q i f) := by
  delta lateRange
  repeat' first
    | with_reducible assumption
    | (extract_lets +onlyGivenNames u; refine (fun (_ : Keeps z u) => ?_) ?_; clear_value u; rotate_left; subst u)
    | with_reducible apply onTile_keeps | with_reducible apply takeHead_keeps | with_reducible apply tileFault_keeps

theorem beginOp_keeps {z : State} (s : State) (t q : Nat) (i : QInstr) (es : List (Nat × Stage))  (h : Keeps z s) : Keeps z (beginOp s t q i es) := by
  delta beginOp
  repeat' first
    | with_reducible assumption
    | (extract_lets +onlyGivenNames u; refine (fun (_ : Keeps z u) => ?_) ?_; clear_value u; rotate_left; subst u)
    | (extract_lets +onlyGivenNames u; subst u) | with_reducible apply fresh_keeps | with_reducible apply seen_keeps
    | with_reducible apply touches_keeps | with_reducible apply addStarted_keeps | with_reducible apply countLate_keeps
    | with_reducible apply stageLate_keeps | with_reducible apply startOp_keeps | with_reducible apply takeHead_keeps
    | with_reducible apply Keeps.ite | (apply Keeps.foldl; intro _ _ _)

theorem beginSitOut_keeps {z : State} (s : State) (t : Nat) (i : QInstr) (res : Nat) (es : List (Nat × Stage))  (h : Keeps z s) : Keeps z (beginSitOut s t i res es) := by
  delta beginSitOut
  repeat' first
    | with_reducible assumption
    | (extract_lets +onlyGivenNames u; refine (fun (_ : Keeps z u) => ?_) ?_; clear_value u; rotate_left; subst u)
    | (extract_lets +onlyGivenNames u; subst u) | with_reducible apply addStarted_keeps | with_reducible apply countLate_keeps
    | with_reducible apply stageLate_keeps | with_reducible apply startAttOut_keeps | with_reducible apply takeHead_keeps
    | with_reducible apply Keeps.ite | dsimp only | simp only [keeps_mk] | split | (apply Keeps.foldl; intro _ _ _)

theorem dropStarted_keeps {z : State} (s : State) (t q k : Nat)  (h : Keeps z s) : Keeps z (dropStarted s t q k) := by
  delta dropStarted
  repeat' first
    | with_reducible assumption | with_reducible apply onTile_keeps

theorem noteOptFail_keeps {z : State} (s : State) (t : Nat) (f : ExecFault)  (h : Keeps z s) : Keeps z (noteOptFail s t f) := by
  delta noteOptFail
  repeat' first
    | with_reducible assumption | with_reducible apply onJob_keeps | with_reducible apply Keeps.ite

theorem retireFault_keeps {z : State} (s : State) (t q : Nat) (x : Started) (f : ExecFault)  (h : Keeps z s) : Keeps z (retireFault s t q x f) := by
  delta retireFault
  repeat' first
    | with_reducible assumption
    | (extract_lets +onlyGivenNames u; refine (fun (_ : Keeps z u) => ?_) ?_; clear_value u; rotate_left; subst u)
    | (extract_lets +onlyGivenNames u; subst u) | with_reducible apply fresh_keeps | with_reducible apply land_keeps
    | with_reducible apply onTile_keeps | with_reducible apply touchWrites_keeps | with_reducible apply execFault_keeps
    | with_reducible apply noteOptFail_keeps | with_reducible apply Keeps.ite

theorem retireClean_keeps {z : State} (s : State) (t q : Nat) (x : Started)  (h : Keeps z s) : Keeps z (retireClean s t q x) := by
  delta retireClean
  repeat' first
    | with_reducible assumption
    | (extract_lets +onlyGivenNames u; refine (fun (_ : Keeps z u) => ?_) ?_; clear_value u; rotate_left; subst u)
    | with_reducible apply land_keeps | with_reducible apply touchWrites_keeps | with_reducible apply bellAdd_keeps | split

theorem retire_keeps {z : State} (s : State) (t q k : Nat) (e : Ending)  (h : Keeps z s) : Keeps z (retire s t q k e) := by
  delta retire
  repeat' first
    | with_reducible assumption
    | (extract_lets +onlyGivenNames u; refine (fun (_ : Keeps z u) => ?_) ?_; clear_value u; rotate_left; subst u)
    | with_reducible apply dropStarted_keeps | with_reducible apply retireClean_keeps | with_reducible apply retireFault_keeps
    | dsimp only | simp only [keeps_mk] | split | with_reducible apply keeps_mk_poison

theorem beginLink_keeps {z : State} (s : State) (t : Nat) (i : QInstr) (es : List (Nat × Stage))  (h : Keeps z s) : Keeps z (beginLink s t i es) := by
  delta beginLink
  repeat' first
    | with_reducible assumption | (extract_lets +onlyGivenNames u; subst u) | with_reducible apply touches_keeps
    | with_reducible apply addStarted_keeps | with_reducible apply countLate_keeps | with_reducible apply retire_keeps
    | with_reducible apply stageLate_keeps | (rename _ = LinkStart.go _ _ _ => e; refine startLink_ok ?_ e)
    | with_reducible apply takeHead_keeps | with_reducible apply Keeps.ite | dsimp only | split | (apply Keeps.foldl; intro _ _ _)

theorem startHead_keeps {z : State} (s : State) (t q : Nat)  (h : Keeps z s) : Keeps z (startHead s t q) := by
  delta startHead
  repeat' first
    | with_reducible assumption | (extract_lets +onlyGivenNames u; subst u) | with_reducible apply addStarted_keeps
    | with_reducible apply beginLink_keeps | with_reducible apply beginOp_keeps | with_reducible apply beginSitOut_keeps
    | with_reducible apply lateRange_keeps | with_reducible apply onJob_keeps | with_reducible apply takeHead_keeps
    | with_reducible apply waitStages_keeps | with_reducible apply Keeps.ite | dsimp only | split

theorem execInstructionStart_keeps {z : State} (t : TileNo) (q : Fin 5) (s : State) (h : Keeps z s) : KeepsO z (execInstructionStart t q s) := by
  delta execInstructionStart
  repeat' first
    | with_reducible assumption | with_reducible apply startHead_keeps | with_reducible apply keepsO_next

theorem execInstructionComplete_keeps {z : State} (t : TileNo) (q : Fin 5) (k : Nat) (e : Ending) (s : State) (h : Keeps z s) : KeepsO z (execInstructionComplete t q k e s) := by
  delta execInstructionComplete
  repeat' first
    | with_reducible assumption | with_reducible apply retire_keeps | with_reducible apply keepsO_next | split

theorem bellTimeout_keeps {z : State} (s : State) (t q : Nat) (pc : BitVec 64) (seq : Nat) (f : ExecFault)  (h : Keeps z s) : Keeps z (bellTimeout s t q pc seq f) := by
  delta bellTimeout
  repeat' first
    | with_reducible assumption | with_reducible apply onTile_keeps | with_reducible apply execFault_keeps

theorem execFltBellTimeout_keeps {z : State} (t : TileNo) (q : Fin 6) (s : State) (h : Keeps z s) : KeepsO z (execFltBellTimeout t q s) := by
  delta execFltBellTimeout
  repeat' first
    | with_reducible assumption | (extract_lets +onlyGivenNames u; subst u) | with_reducible apply bellTimeout_keeps
    | with_reducible apply keepsO_next | split

end Sys2Proof.Laws
end

