-- ==== Sys2Proof/Laws/KeepsTileCtl.lean ====
section
/-! SUPPORT. What the operations of Machine/TileCtl.lean keep. -/
namespace Sys2Proof.Laws
open Sys2Proof.Machine Sys2Proof.Safety

theorem tileGo_keeps {z : State} (s : State) (t : Nat)  (h : Keeps z s) : Keeps z (tileGo s t) := by
  delta tileGo
  repeat' first
    | with_reducible assumption | (extract_lets +onlyGivenNames u; subst u) | with_reducible apply setTile_keeps
    | with_reducible apply Keeps.ite

theorem tileStop_keeps {z : State} (s : State) (t : Nat)  (h : Keeps z s) : Keeps z (tileStop s t) := by
  delta tileStop
  repeat' first
    | with_reducible assumption | with_reducible apply onTile_keeps | with_reducible apply Keeps.ite

theorem tileResume_keeps {z : State} (s : State) (t : Nat)  (h : Keeps z s) : Keeps z (tileResume s t) := by
  delta tileResume
  repeat' first
    | with_reducible assumption | (extract_lets +onlyGivenNames u; subst u) | with_reducible apply setTile_keeps
    | with_reducible apply Keeps.ite

theorem tileFlush_keeps {z : State} (s : State) (t : Nat)  (h : Keeps z s) : Keeps z (tileFlush s t) := by
  delta tileFlush
  repeat' first
    | with_reducible assumption | (extract_lets +onlyGivenNames u; subst u) | with_reducible apply setTile_keeps
    | with_reducible apply Keeps.ite

theorem restartTile_keeps {z : State} (s : State) (t : Nat) (pc : BitVec 48)  (h : Keeps z s) : Keeps z (restartTile s t pc) := by
  delta restartTile
  repeat' first
    | with_reducible assumption | (extract_lets +onlyGivenNames u; subst u) | with_reducible apply setTile_keeps
    | with_reducible apply Keeps.ite

theorem drainEnd_keeps {z : State} (s : State) (t : Nat)  (h : Keeps z s) : Keeps z (drainEnd s t) := by
  delta drainEnd
  repeat' first
    | with_reducible assumption | (extract_lets +onlyGivenNames u; subst u) | with_reducible apply setTile_keeps
    | with_reducible apply Keeps.ite | split

theorem tilePreempt_keeps {z : State} (s : State) (t : Nat)  (h : Keeps z s) : Keeps z (tilePreempt s t) := by
  delta tilePreempt
  repeat' first
    | with_reducible assumption | with_reducible apply onTile_keeps | with_reducible apply Keeps.ite

theorem moverPoint_keeps {z : State} (s : State) (t : Nat) (k : Nat)  (h : Keeps z s) : Keeps z (moverPoint s t k) := by
  delta moverPoint
  repeat' first
    | with_reducible assumption | with_reducible apply fresh_keeps | with_reducible apply land_keeps
    | with_reducible apply onTile_keeps | dsimp -zeta only | dsimp only | split

theorem preemptSave_keeps {z : State} (s : State) (t : Nat)  (h : Keeps z s) : Keeps z (preemptSave s t) := by
  delta preemptSave
  repeat' first
    | with_reducible assumption
    | (extract_lets +onlyGivenNames u; refine (fun (_ : Keeps z u) => ?_) ?_; clear_value u; rotate_left; subst u)
    | with_reducible apply onTile_keeps | with_reducible apply moverPoint_keeps | with_reducible apply Keeps.ite
    | (apply Keeps.foldl; intro _ _ _)

theorem preemptSaved_keeps {z : State} (s : State) (t : Nat) (h : Keeps z s) : Keeps z (preemptSaved s t) := by
  rw [preemptSaved]
  split
  · exact h
  · split
    · exact execFault_keeps _ _ _ _ _ _ (setTile_keeps _ _ _ h)
    · refine setTile_keeps _ _ _ (fresh_keeps _ (land_keeps _ _ _ _ (pass_keeps _ _ _ ?_)))
      exact Keeps.upd (s := s) rfl rfl rfl rfl rfl rfl rfl rfl rfl h

theorem preemptExpiry_keeps {z : State} (s : State) (t : Nat)  (h : Keeps z s) : Keeps z (preemptExpiry s t) := by
  delta preemptExpiry
  repeat' first
    | with_reducible assumption | (extract_lets +onlyGivenNames u; subst u) | with_reducible apply setTile_keeps
    | with_reducible apply raiseTile_keeps | with_reducible apply Keeps.ite

theorem tileRestore_keeps {z : State} (s : State) (t : Nat)  (h : Keeps z s) : Keeps z (tileRestore s t) := by
  delta tileRestore
  repeat' first
    | with_reducible assumption | with_reducible apply onTile_keeps | with_reducible apply Keeps.ite

theorem clearTile_keeps {z : State} (s : State) (t : Nat) (h : Keeps z s) : Keeps z (clearTile s t) := by
  delta clearTile
  have k : Keeps z { s with m := memClear s.m (slateOf t) (slateOf t + slateSize) } :=
    h.mem (fun c => canon_setMem c (memClear_ok _ _ (memOk_of_canon c)))
  exact Keeps.upd (s := { s with m := memClear s.m (slateOf t) (slateOf t + slateSize) }) rfl rfl rfl rfl rfl rfl rfl rfl rfl k

theorem badImage_keeps {z : State} (s : State) (t : Nat) (f : ExecFault)  (h : Keeps z s) : Keeps z (badImage s t f) := by
  delta badImage
  repeat' first
    | with_reducible assumption | with_reducible apply clearTile_keeps | with_reducible apply execFault_keeps

theorem restoreDone_keeps {z : State} (s : State) (t : Nat) (h : Keeps z s) : KeepsO z (restoreDone s t) := by
  rw [restoreDone]
  split
  · exact h
  · split
    · exact badImage_keeps _ _ _ h
    · split
      · exact badImage_keeps _ _ _ h
      · split
        · trivial
        · exact keepsO_next (fresh_keeps _ (land_keeps _ _ _ _ (setTile_keeps _ _ _ (pass_keeps _ _ _ h))))

theorem faultClear_keeps {z : State} (s : State) (t : Nat)  (h : Keeps z s) : Keeps z (faultClear s t) := by
  delta faultClear
  repeat' first
    | with_reducible assumption | with_reducible apply onTile_keeps

theorem tileCommand_keeps {z : State} (s : State) (t : Nat) (v : BitVec 64)  (h : Keeps z s) : Keeps z (tileCommand s t v) := by
  delta tileCommand
  repeat' first
    | with_reducible assumption | (extract_lets +onlyGivenNames u; subst u) | with_reducible apply tileFlush_keeps
    | with_reducible apply tileGo_keeps | with_reducible apply tilePreempt_keeps | with_reducible apply tileRestore_keeps
    | with_reducible apply tileResume_keeps | with_reducible apply tileStop_keeps | dsimp -zeta only | with_reducible apply Keeps.ite

theorem tileRegWrite_keeps {z : State} (s : State) (t o : Nat) (be : BitVec 8) (v0 : BitVec 64)  (h : Keeps z s) : Keeps z (tileRegWrite s t o be v0) := by
  delta tileRegWrite
  repeat' first
    | with_reducible assumption | (extract_lets +onlyGivenNames u; subst u) | with_reducible apply setTile_keeps
    | with_reducible apply faultClear_keeps | with_reducible apply tileCommand_keeps | dsimp -zeta only
    | with_reducible apply Keeps.ite | split

theorem tilePageWrite_keeps {z : State} (s : State) (t o : Nat) (be : BitVec 8) (v : BitVec 64)  (h : Keeps z s) : Keeps z (tilePageWrite s t o be v) := by
  delta tilePageWrite
  repeat' first
    | with_reducible assumption | with_reducible apply pageWrite_keeps | with_reducible apply tileRegWrite_keeps
    | with_reducible apply Keeps.ite

theorem execTileDrainEnd_keeps {z : State} (t : TileNo) (s : State) (h : Keeps z s) : KeepsO z (execTileDrainEnd t s) := by
  delta execTileDrainEnd
  repeat' first
    | with_reducible assumption | with_reducible apply drainEnd_keeps | with_reducible apply keepsO_next

theorem execTileGo_keeps {z : State} (t : TileNo) (s : State) (h : Keeps z s) : KeepsO z (execTileGo t s) := by
  delta execTileGo
  repeat' first
    | with_reducible assumption | with_reducible apply tileGo_keeps | with_reducible apply keepsO_next

theorem execTileStop_keeps {z : State} (t : TileNo) (s : State) (h : Keeps z s) : KeepsO z (execTileStop t s) := by
  delta execTileStop
  repeat' first
    | with_reducible assumption | with_reducible apply tileStop_keeps | with_reducible apply keepsO_next

theorem execTilePreempt_keeps {z : State} (t : TileNo) (s : State) (h : Keeps z s) : KeepsO z (execTilePreempt t s) := by
  delta execTilePreempt
  repeat' first
    | with_reducible assumption | with_reducible apply tilePreempt_keeps | with_reducible apply keepsO_next

theorem execPreemptSave_keeps {z : State} (t : TileNo) (s : State) (h : Keeps z s) : KeepsO z (execPreemptSave t s) := by
  delta execPreemptSave
  repeat' first
    | with_reducible assumption | with_reducible apply preemptSave_keeps | with_reducible apply keepsO_next

theorem execTileRestore_keeps {z : State} (t : TileNo) (s : State) (h : Keeps z s) : KeepsO z (execTileRestore t s) := by
  delta execTileRestore
  repeat' first
    | with_reducible assumption | with_reducible apply tileRestore_keeps | with_reducible apply keepsO_next

theorem execRestoreDone_keeps {z : State} (t : TileNo) (s : State) (h : Keeps z s) : KeepsO z (execRestoreDone t s) := by
  delta execRestoreDone
  repeat' first
    | with_reducible assumption | with_reducible apply restoreDone_keeps

theorem execTileResume_keeps {z : State} (t : TileNo) (s : State) (h : Keeps z s) : KeepsO z (execTileResume t s) := by
  delta execTileResume
  repeat' first
    | with_reducible assumption | with_reducible apply tileResume_keeps | with_reducible apply keepsO_next

theorem execTileFlush_keeps {z : State} (t : TileNo) (s : State) (h : Keeps z s) : KeepsO z (execTileFlush t s) := by
  delta execTileFlush
  repeat' first
    | with_reducible assumption | with_reducible apply tileFlush_keeps | with_reducible apply keepsO_next

theorem execTileFaultClear_keeps {z : State} (t : TileNo) (s : State) (h : Keeps z s) : KeepsO z (execTileFaultClear t s) := by
  delta execTileFaultClear
  repeat' first
    | with_reducible assumption | with_reducible apply faultClear_keeps | with_reducible apply keepsO_next

end Sys2Proof.Laws
end

