-- ==== Sys2Proof/Laws/KeepsTrain.lean ====
section
/-! SUPPORT. What the operations of Machine/Train.lean keep. -/
namespace Sys2Proof.Laws
open Sys2Proof.Machine Sys2Proof.Safety

theorem endCtl_keeps {z : State} (s : State) (ctx status outcome : Nat) (sel : EngineOp → Option (Nat × BitVec 32))  (h : Keeps z s) : Keeps z (endCtl s ctx status outcome sel) := by
  delta endCtl
  repeat' first
    | with_reducible assumption | with_reducible apply setLink_keeps | dsimp -zeta only | split | (apply Keeps.foldl; intro _ _ _)

theorem endGates_keeps {z : State} (s : State) (ctx status outcome : Nat)  (h : Keeps z s) : Keeps z (endGates s ctx status outcome) := by
  delta endGates
  repeat' first
    | with_reducible assumption | with_reducible apply endCtl_keeps

theorem endCommits_keeps {z : State} (s : State) (ctx step status : Nat)  (h : Keeps z s) : Keeps z (endCommits s ctx step status) := by
  delta endCommits
  repeat' first
    | with_reducible assumption | with_reducible apply endCtl_keeps

theorem restartFaulted_keeps {z : State} (s : State) (ctx : Nat) (j : Job)  (h : Keeps z s) : Keeps z (restartFaulted s ctx j) := by
  delta restartFaulted
  repeat' first
    | with_reducible assumption | with_reducible apply restartTile_keeps | with_reducible apply Keeps.ite
    | (apply Keeps.foldl; intro _ _ _)

theorem startTiles_keeps {z : State} (s : State) (j : Job) (l : List Nat)  (h : Keeps z s) : Keeps z (startTiles s j l) := by
  delta startTiles
  repeat' first
    | with_reducible assumption | with_reducible apply restartTile_keeps | with_reducible apply Keeps.ite
    | (apply Keeps.foldl; intro _ _ _)

theorem stepRetry_keeps {z : State} (s : State) (ctx : Nat) (step : Nat)  (h : Keeps z s) : Keeps z (stepRetry s ctx step) := by
  delta stepRetry
  repeat' first
    | with_reducible assumption
    | (extract_lets +onlyGivenNames u; refine (fun (_ : Keeps z u) => ?_) ?_; clear_value u; rotate_left; subst u)
    | with_reducible apply onJob_keeps | with_reducible apply raise_keeps

theorem needRestore_keeps {z : State} (s : State) (ctx : Nat)  (h : Keeps z s) : Keeps z (needRestore s ctx) := by
  delta needRestore
  repeat' first
    | with_reducible assumption | with_reducible apply fresh_keeps | with_reducible apply setJob_keeps | dsimp only | split

theorem failAttempt_keeps {z : State} (s : State) (ctx outcome : Nat) (j : Job) (amax : List (BitVec 30 × Int))  (h : Keeps z s) : Keeps z (failAttempt s ctx outcome j amax) := by
  delta failAttempt
  repeat' first
    | with_reducible assumption
    | (extract_lets +onlyGivenNames u; refine (fun (_ : Keeps z u) => ?_) ?_; clear_value u; rotate_left; subst u)
    | (extract_lets +onlyGivenNames u; subst u) | with_reducible apply clearCounts_keeps | with_reducible apply endCommits_keeps
    | with_reducible apply endGates_keeps | with_reducible apply failExps_keeps | with_reducible apply needRestore_keeps
    | with_reducible apply putRecord_keeps | with_reducible apply raiseJob_keeps | with_reducible apply setJob_keeps
    | with_reducible apply stepRetry_keeps | dsimp -zeta only | with_reducible apply Keeps.ite | dsimp only | split

theorem gateRelease_keeps {z : State} (s : State) (ctx : Nat) (other : BitVec 4) (amax : List (BitVec 30 × Int))  (h : Keeps z s) : Keeps z (gateRelease s ctx other amax) := by
  delta gateRelease
  repeat' first
    | with_reducible assumption | with_reducible apply endGates_keeps | with_reducible apply failAttempt_keeps
    | with_reducible apply setJob_keeps | with_reducible apply Keeps.ite | split

theorem commitNow_keeps {z : State} (s : State) (ctx : Nat) (j : Job) (amax : List (BitVec 30 × Int))  (h : Keeps z s) : Keeps z (commitNow s ctx j amax) := by
  delta commitNow
  repeat' first
    | with_reducible assumption
    | (extract_lets +onlyGivenNames u; refine (fun (_ : Keeps z u) => ?_) ?_; clear_value u; rotate_left; subst u)
    | (extract_lets +onlyGivenNames u; subst u) | with_reducible apply pass_keeps | with_reducible apply clearDirty_keeps
    | with_reducible apply clearSteps_keeps | with_reducible apply commitExps_keeps | with_reducible apply commitLists_keeps
    | with_reducible apply copybook_keeps | with_reducible apply endCommits_keeps | with_reducible apply onJob_keeps
    | with_reducible apply putHists_keeps | with_reducible apply putRecord_keeps | with_reducible apply sendLate_keeps
    | with_reducible apply sendPartner_keeps | with_reducible apply setJob_keeps | dsimp -zeta only | with_reducible apply Keeps.ite
    | dsimp only | split

theorem commitPoint_keeps {z : State} (s : State) (ctx : Nat) (amax : List (BitVec 30 × Int)) (failed : Bool)  (h : Keeps z s) : Keeps z (commitPoint s ctx amax failed) := by
  delta commitPoint
  repeat' first
    | with_reducible assumption | with_reducible apply commitNow_keeps | with_reducible apply failAttempt_keeps
    | with_reducible apply Keeps.ite | split

theorem rollBack_keeps {z : State} (s : State) (ctx : Nat) (j : Job)  (h : Keeps z s) : Keeps z (rollBack s ctx j) := by
  delta rollBack
  repeat' first
    | with_reducible assumption
    | (extract_lets +onlyGivenNames u; refine (fun (_ : Keeps z u) => ?_) ?_; clear_value u; rotate_left; subst u)
    | (extract_lets +onlyGivenNames u; subst u) | with_reducible apply loadLists_keeps | with_reducible apply rflag_keeps
    | with_reducible apply setJob_keeps

theorem restoreDoneJob_keeps {z : State} (s : State) (ctx : Nat) (sheets : List (BitVec 48 × List Byte))  (h : Keeps z s) : Keeps z (restoreDoneJob s ctx sheets) := by
  delta restoreDoneJob
  repeat' first
    | with_reducible assumption | with_reducible apply land_keeps | with_reducible apply endCommits_keeps
    | with_reducible apply restartFaulted_keeps | with_reducible apply restoreLists_keeps | with_reducible apply rollBack_keeps
    | with_reducible apply sendLate_keeps | with_reducible apply setJob_keeps | with_reducible apply startTiles_keeps
    | with_reducible apply Keeps.ite | dsimp only | split | (apply Keeps.foldl; intro _ _ _)

theorem afterAbort_keeps {z : State} (s : State) (ctx : Nat) (j : Job)  (h : Keeps z s) : Keeps z (afterAbort s ctx j) := by
  delta afterAbort
  repeat' first
    | with_reducible assumption | with_reducible apply needRestore_keeps | with_reducible apply restartFaulted_keeps
    | with_reducible apply restoreLists_keeps | with_reducible apply Keeps.ite

theorem abortAttempt_keeps {z : State} (s : State) (ctx : Nat)  (h : Keeps z s) : Keeps z (abortAttempt s ctx) := by
  delta abortAttempt
  repeat' first
    | with_reducible assumption | with_reducible apply afterAbort_keeps | with_reducible apply clearCounts_keeps
    | with_reducible apply endCommits_keeps | with_reducible apply endGates_keeps | with_reducible apply putRecord_keeps
    | with_reducible apply setJob_keeps | with_reducible apply stepRetry_keeps | with_reducible apply Keeps.ite | dsimp only | split

theorem dropUnacked_keeps {z : State} (s : State) (ctx : Nat)  (h : Keeps z s) : Keeps z (dropUnacked s ctx) := by
  delta dropUnacked
  repeat' first
    | with_reducible assumption | with_reducible apply clearCounts_keeps | with_reducible apply dropLanded_keeps
    | with_reducible apply loadLists_keeps | with_reducible apply setJob_keeps | with_reducible apply Keeps.ite | dsimp only
    | simp only [keeps_mk] | split

theorem stepLate_keeps {z : State} (s : State) (ctx : Nat)  (h : Keeps z s) : Keeps z (stepLate s ctx) := by
  delta stepLate
  repeat' first
    | with_reducible assumption | with_reducible apply raiseJob_keeps | with_reducible apply setJob_keeps
    | with_reducible apply Keeps.ite | split

theorem resumeJob_keeps {z : State} (s : State) (ctx : Nat) (newS : Option Int)  (h : Keeps z s) : Keeps z (resumeJob s ctx newS) := by
  delta resumeJob
  repeat' first
    | with_reducible assumption | with_reducible apply setJob_keeps | with_reducible apply startTiles_keeps
    | with_reducible apply Keeps.ite | dsimp only | split

theorem skipJob_keeps {z : State} (s : State) (ctx : Nat) (j : Job)  (h : Keeps z s) : Keeps z (skipJob s ctx j) := by
  delta skipJob
  repeat' first
    | with_reducible assumption | (extract_lets +onlyGivenNames u; subst u) | with_reducible apply sendPartner_keeps
    | with_reducible apply setJob_keeps

theorem execGateOutcomeRelease_keeps {z : State} (ctx : CtxNo) (outcome : BitVec 4) (amax : List (BitVec 30 × Int)) (s : State) (h : Keeps z s) : KeepsO z (execGateOutcomeRelease ctx outcome amax s) := by
  delta execGateOutcomeRelease
  repeat' first
    | with_reducible assumption | with_reducible apply gateRelease_keeps | with_reducible apply keepsO_next

theorem execCommitPoint_keeps {z : State} (ctx : CtxNo) (amax : List (BitVec 30 × Int)) (failed : Bool) (s : State) (h : Keeps z s) : KeepsO z (execCommitPoint ctx amax failed s) := by
  delta execCommitPoint
  repeat' first
    | with_reducible assumption | with_reducible apply commitPoint_keeps | with_reducible apply keepsO_next

theorem execAttemptAbort_keeps {z : State} (ctx : CtxNo) (s : State) (h : Keeps z s) : KeepsO z (execAttemptAbort ctx s) := by
  delta execAttemptAbort
  repeat' first
    | with_reducible assumption | with_reducible apply abortAttempt_keeps | with_reducible apply keepsO_next

theorem execEvtStepLate_keeps {z : State} (ctx : CtxNo) (s : State) (h : Keeps z s) : KeepsO z (execEvtStepLate ctx s) := by
  delta execEvtStepLate
  repeat' first
    | with_reducible assumption | with_reducible apply stepLate_keeps | with_reducible apply keepsO_next

end Sys2Proof.Laws
end

