-- ==== Sys2Proof/Laws/KeepsPorts.lean ====
section
/-! SUPPORT. What the operations of Machine/Ports.lean keep. -/
namespace Sys2Proof.Laws
open Sys2Proof.Machine Sys2Proof.Safety

theorem setPortState_keeps {z : State} (s : State) (p st : Nat)  (h : Keeps z s) : Keeps z (setPortState s p st) := by
  delta setPortState
  repeat' first
    | with_reducible assumption | with_reducible apply rfld_keeps

theorem portEvent_keeps {z : State} (s : State) (code p v : Nat)  (h : Keeps z s) : Keeps z (portEvent s code p v) := by
  delta portEvent
  repeat' first
    | with_reducible assumption | with_reducible apply raise_keeps

theorem clearBuffer_keeps {z : State} (s : State) (p : Nat)  (h : Keeps z s) : Keeps z (clearBuffer s p) := by
  delta clearBuffer
  repeat' first
    | with_reducible assumption | (extract_lets +onlyGivenNames u; subst u) | dsimp only | simp only [keeps_mk]

theorem portDown_keeps {z : State} (s : State) (p : Nat)  (h : Keeps z s) : Keeps z (portDown s p) := by
  delta portDown
  repeat' first
    | with_reducible assumption
    | (extract_lets +onlyGivenNames u; refine (fun (_ : Keeps z u) => ?_) ?_; clear_value u; rotate_left; subst u)
    | (extract_lets +onlyGivenNames u; subst u) | with_reducible apply clearBuffer_keeps | with_reducible apply routeOut_keeps
    | with_reducible apply setPort_keeps | with_reducible apply setPortState_keeps | (apply Keeps.foldl; intro _ _ _)

theorem portLoss_keeps {z : State} (s : State) (p : Nat)  (h : Keeps z s) : Keeps z (portLoss s p) := by
  delta portLoss
  repeat' first
    | with_reducible assumption | with_reducible apply portDown_keeps | with_reducible apply portEvent_keeps
    | with_reducible apply rflag_keeps

theorem portTrain_keeps {z : State} (s : State) (p : Nat)  (h : Keeps z s) : Keeps z (portTrain s p) := by
  delta portTrain
  repeat' first
    | with_reducible assumption | with_reducible apply rflag_keeps | with_reducible apply setPortState_keeps
    | with_reducible apply Keeps.ite

theorem portCfgWrite_keeps {z : State} (s : State) (p : Nat) (v : BitVec 64)  (h : Keeps z s) : Keeps z (portCfgWrite s p v) := by
  delta portCfgWrite
  repeat' first
    | with_reducible assumption
    | (extract_lets +onlyGivenNames u; refine (fun (_ : Keeps z u) => ?_) ?_; clear_value u; rotate_left; subst u)
    | (extract_lets +onlyGivenNames u; subst u) | with_reducible apply portDown_keeps | with_reducible apply portLoss_keeps
    | with_reducible apply portTrain_keeps | with_reducible apply rset_keeps | with_reducible apply setPortState_keeps
    | with_reducible apply Keeps.ite

theorem helloArrive_keeps {z : State} (s : State) (p : Nat) (f : Flit)  (h : Keeps z s) : Keeps z (helloArrive s p f) := by
  delta helloArrive
  repeat' first
    | with_reducible assumption | (extract_lets +onlyGivenNames u; subst u) | with_reducible apply portEvent_keeps
    | with_reducible apply rflag_keeps | with_reducible apply rset_keeps | with_reducible apply setPortState_keeps
    | with_reducible apply Keeps.ite | dsimp only | split

theorem helloSend_keeps {z : State} (s : State) (p : Nat)  (h : Keeps z s) : Keeps z (helloSend s p) := by
  delta helloSend
  repeat' first
    | with_reducible assumption | with_reducible apply portSend_keeps | with_reducible apply Keeps.ite

theorem drainPort_keeps {z : State} (s : State) (p : Nat)  (h : Keeps z s) : Keeps z (drainPort s p) := by
  delta drainPort
  repeat' first
    | with_reducible assumption | (extract_lets +onlyGivenNames u; subst u) | with_reducible apply portSend_keeps
    | with_reducible apply setPort_keeps | (apply Keeps.foldl; intro _ _ _)

theorem creditBack_keeps {z : State} (s : State) (p vc acked : Nat)  (h : Keeps z s) : Keeps z (creditBack s p vc acked) := by
  delta creditBack
  repeat' first
    | with_reducible assumption
    | (extract_lets +onlyGivenNames u; refine (fun (_ : Keeps z u) => ?_) ?_; clear_value u; rotate_left; subst u)
    | (extract_lets +onlyGivenNames u; subst u) | with_reducible apply drainPort_keeps | with_reducible apply rflag_keeps
    | with_reducible apply setPort_keeps | with_reducible apply Keeps.ite

theorem replay_keeps {z : State} (s : State) (p : Nat) (num : BitVec 12)  (h : Keeps z s) : Keeps z (replay s p num) := by
  delta replay
  repeat' first
    | with_reducible assumption | (extract_lets +onlyGivenNames u; subst u) | with_reducible apply setPort_keeps

theorem timeEstimate_keeps {z : State} (s : State) (off : Int)  (h : Keeps z s) : Keeps z (timeEstimate s off) := by
  delta timeEstimate
  repeat' first
    | with_reducible assumption
    | (extract_lets +onlyGivenNames u; refine (fun (_ : Keeps z u) => ?_) ?_; clear_value u; rotate_left; subst u)
    | (extract_lets +onlyGivenNames u; subst u) | with_reducible apply raise_keeps | with_reducible apply rset_keeps
    | with_reducible apply Keeps.ite | simp only [keeps_mk]

theorem timeArrive_keeps {z : State} (s : State) (p : Nat) (f : Flit)  (h : Keeps z s) : Keeps z (timeArrive s p f) := by
  delta timeArrive
  repeat' first
    | with_reducible assumption | with_reducible apply portSend_keeps | with_reducible apply timeEstimate_keeps
    | with_reducible apply Keeps.ite | split

theorem timeSend_keeps {z : State} (s : State)  (h : Keeps z s) : Keeps z (timeSend s) := by
  delta timeSend
  repeat' first
    | with_reducible assumption | (extract_lets +onlyGivenNames u; subst u) | with_reducible apply portSend_keeps
    | with_reducible apply Keeps.ite

theorem holdExpiry_keeps {z : State} (s : State) (t : Nat)  (h : Keeps z s) : Keeps z (holdExpiry s t) := by
  delta holdExpiry
  repeat' first
    | with_reducible assumption | with_reducible apply addStarted_keeps | with_reducible apply retire_keeps
    | with_reducible apply takeHead_keeps | with_reducible apply Keeps.ite | dsimp only | split

theorem listCreate_keeps {z : State} (s : State) (n : Option (BitVec 12)) (members : List (BitVec 10)) (rank experts : Nat)  (h : Keeps z s) : Keeps z (listCreate s n members rank experts) := by
  delta listCreate
  repeat' first
    | with_reducible assumption | with_reducible apply setList_keeps | with_reducible apply Keeps.ite | dsimp only
    | simp only [keeps_mk] | split

theorem listRemove_keeps {z : State} (s : State) (n : Nat) (seat : BitVec 10)  (h : Keeps z s) : Keeps z (listRemove s n seat) := by
  delta listRemove
  repeat' first
    | with_reducible assumption | with_reducible apply abortBarriers_keeps | with_reducible apply collFail_keeps
    | with_reducible apply dropUnstarted_keeps | with_reducible apply setList_keeps | dsimp only | split
    | (apply Keeps.foldl; intro _ _ _)

theorem execHelloFlit_keeps {z : State} (p : PortNo) (f : Flit) (s : State) (h : Keeps z s) : KeepsO z (execHelloFlit p f s) := by
  delta execHelloFlit
  repeat' first
    | with_reducible assumption | intro _ | with_reducible apply consume_keeps | with_reducible apply helloArrive_keeps
    | with_reducible apply takeFlit_keeps | with_reducible apply keepsO_next | with_reducible apply Keeps.ite

theorem execTimeFlit_keeps {z : State} (p : PortNo) (f : Flit) (s : State) (h : Keeps z s) : KeepsO z (execTimeFlit p f s) := by
  delta execTimeFlit
  repeat' first
    | with_reducible assumption | intro _ | with_reducible apply consume_keeps | with_reducible apply takeFlit_keeps
    | with_reducible apply timeArrive_keeps | with_reducible apply keepsO_next | with_reducible apply Keeps.ite

theorem execIdleFlit_keeps {z : State} (p : PortNo) (f : Flit) (s : State) (h : Keeps z s) : KeepsO z (execIdleFlit p f s) := by
  delta execIdleFlit
  repeat' first
    | with_reducible assumption | intro _ | with_reducible apply consume_keeps | with_reducible apply takeFlit_keeps
    | with_reducible apply keepsO_next | with_reducible apply Keeps.ite

theorem execFlitForward_keeps {z : State} (p : PortNo) (f : Flit) (s : State) (h : Keeps z s) : KeepsO z (execFlitForward p f s) := by
  delta execFlitForward
  repeat' first
    | with_reducible assumption | intro _ | with_reducible apply forward_keeps | with_reducible apply takeFlit_keeps
    | with_reducible apply keepsO_next | with_reducible apply Keeps.ite

theorem execFlitReplay_keeps {z : State} (p : PortNo) (num : BitVec 12) (s : State) (h : Keeps z s) : KeepsO z (execFlitReplay p num s) := by
  delta execFlitReplay
  repeat' first
    | with_reducible assumption | with_reducible apply replay_keeps | with_reducible apply keepsO_next
    | with_reducible apply Keeps.ite

theorem execCreditReturn_keeps {z : State} (p : PortNo) (vc : BitVec 4) (acked : Nat) (s : State) (h : Keeps z s) : KeepsO z (execCreditReturn p vc acked s) := by
  delta execCreditReturn
  repeat' first
    | with_reducible assumption | with_reducible apply creditBack_keeps | with_reducible apply keepsO_next
    | with_reducible apply Keeps.ite

theorem execHelloTimer_keeps {z : State} (p : PortNo) (s : State) (h : Keeps z s) : KeepsO z (execHelloTimer p s) := by
  delta execHelloTimer
  repeat' first
    | with_reducible assumption | with_reducible apply helloSend_keeps | with_reducible apply keepsO_next
    | with_reducible apply Keeps.ite

theorem execHelloTimeout_keeps {z : State} (p : PortNo) (s : State) (h : Keeps z s) : KeepsO z (execHelloTimeout p s) := by
  delta execHelloTimeout
  repeat' first
    | with_reducible assumption | with_reducible apply portLoss_keeps | with_reducible apply keepsO_next
    | with_reducible apply Keeps.ite

theorem execRetrainTimer_keeps {z : State} (p : PortNo) (s : State) (h : Keeps z s) : KeepsO z (execRetrainTimer p s) := by
  delta execRetrainTimer
  repeat' first
    | with_reducible assumption | with_reducible apply portTrain_keeps | with_reducible apply keepsO_next
    | with_reducible apply Keeps.ite

theorem execPortEnable_keeps {z : State} (p : PortNo) (s : State) (h : Keeps z s) : KeepsO z (execPortEnable p s) := by
  delta execPortEnable
  repeat' first
    | with_reducible assumption | with_reducible apply portCfgWrite_keeps | with_reducible apply keepsO_next

theorem execPortActive_keeps {z : State} (p : PortNo) (s : State) (h : Keeps z s) : KeepsO z (execPortActive p s) := by
  delta execPortActive
  repeat' first
    | with_reducible assumption | with_reducible apply portCfgWrite_keeps | with_reducible apply keepsO_next

theorem execEvtLinkStall_keeps {z : State} (p : PortNo) (vc : BitVec 4) (s : State) (h : Keeps z s) : KeepsO z (execEvtLinkStall p vc s) := by
  delta execEvtLinkStall
  repeat' first
    | with_reducible assumption | with_reducible apply portEvent_keeps | with_reducible apply rflag_keeps
    | with_reducible apply keepsO_next | with_reducible apply Keeps.ite

theorem execHoldLimitExpiry_keeps {z : State} (t : TileNo) (s : State) (h : Keeps z s) : KeepsO z (execHoldLimitExpiry t s) := by
  delta execHoldLimitExpiry
  repeat' first
    | with_reducible assumption | with_reducible apply holdExpiry_keeps | with_reducible apply keepsO_next

theorem execTimeExchange_keeps {z : State} (s : State) (h : Keeps z s) : KeepsO z (execTimeExchange s) := by
  delta execTimeExchange
  repeat' first
    | with_reducible assumption | with_reducible apply timeSend_keeps | with_reducible apply keepsO_next
    | with_reducible apply Keeps.ite

theorem execClassListCreate_keeps {z : State} (n : Option (BitVec 12)) (members : List (BitVec 10)) (rank experts : Nat) (s : State) (h : Keeps z s) : KeepsO z (execClassListCreate n members rank experts s) := by
  delta execClassListCreate
  repeat' first
    | with_reducible assumption | with_reducible apply listCreate_keeps | with_reducible apply keepsO_next

theorem execClassListDelete_keeps {z : State} (n : BitVec 12) (s : State) (h : Keeps z s) : KeepsO z (execClassListDelete n s) := by
  delta execClassListDelete
  repeat' first
    | with_reducible assumption | with_reducible apply setList_keeps | with_reducible apply keepsO_next

end Sys2Proof.Laws
end

