-- ==== Sys2Proof/Laws/KeepsCmds.lean ====
section
/-! SUPPORT. What the operations of Machine/Cmds.lean keep. -/
namespace Sys2Proof.Laws
open Sys2Proof.Machine Sys2Proof.Safety

theorem headOn_keeps {z : State} (s : State) (q n : Nat)  (h : Keeps z s) : Keeps z (headOn s q n) := by
  delta headOn
  repeat' first
    | with_reducible assumption | with_reducible apply rset_keeps

theorem endNow_keeps {z : State} (s : State) (op : BitVec 16) (c : HostCmd) (status : BitVec 16) (result : BitVec 64 := 0)  (h : Keeps z s) : Keeps z (endNow s op c status result) := by
  delta endNow
  repeat' first
    | with_reducible assumption | (extract_lets +onlyGivenNames u; subst u) | simp only [keeps_mk]

theorem startCmd_keeps {z : State} (s : State) (op : BitVec 16) (c : HostCmd)  (h : Keeps z s) : Keeps z (startCmd s op c) := by
  delta startCmd
  repeat' first
    | with_reducible assumption | (extract_lets +onlyGivenNames u; subst u) | simp only [keeps_mk]

theorem takeCmd_keeps {z : State} (s : State) (op : BitVec 16) (c : HostCmd) (pf : Bool) (masks : List Nat) (legal : Bool) (body : State → State) (n : Nat := 1) (hbody : ∀ u0, Keeps z u0 → Keeps z (body u0)) (h : Keeps z s) : Keeps z (takeCmd s op c pf masks legal body n) := by
  delta takeCmd
  repeat' first
    | with_reducible assumption
    | (extract_lets +onlyGivenNames u; refine (fun (_ : Keeps z u) => ?_) ?_; clear_value u; rotate_left; subst u)
    | with_reducible apply hbody | with_reducible apply endNow_keeps | with_reducible apply headOn_keeps
    | with_reducible apply Keeps.ite

theorem writeCompletion_keeps {z : State} (s : State) (q : Nat) (r : CmdRec)  (h : Keeps z s) : Keeps z (writeCompletion s q r) := by
  delta writeCompletion
  repeat' first
    | with_reducible assumption
    | (extract_lets +onlyGivenNames u; refine (fun (_ : Keeps z u) => ?_) ?_; clear_value u; rotate_left; subst u)
    | (extract_lets +onlyGivenNames u; subst u) | with_reducible apply rset_keeps | with_reducible apply signal_keeps
    | with_reducible apply keepsHost_put | with_reducible apply keepsHost_self | with_reducible apply Keeps.ite
    | simp only [keeps_mk_host] | simp only [keepsHost_mk]

theorem complete_keeps {z : State} (s : State) (q : Nat)  (h : Keeps z s) : Keeps z (complete s q) := by
  delta complete
  repeat' first
    | with_reducible assumption | (extract_lets +onlyGivenNames u; subst u) | with_reducible apply writeCompletion_keeps
    | with_reducible apply Keeps.ite | simp only [keeps_mk] | split

theorem landBytes_keeps {z : State} (s : State) (a : Nat) (l : List Byte)  (h : Keeps z s) : Keeps z (landBytes s a l) := by
  delta landBytes
  repeat' first
    | with_reducible assumption | with_reducible apply land_keeps | with_reducible apply pass_keeps

theorem dmaIn_keeps {z : State} (s : State) (c : HostCmd)  (h : Keeps z s) : Keeps z (dmaIn s c) := by
  delta dmaIn
  repeat' first
    | with_reducible assumption | (extract_lets +onlyGivenNames u; subst u) | with_reducible apply fresh_keeps
    | with_reducible apply endNow_keeps | with_reducible apply landBytes_keeps | with_reducible apply Keeps.ite

theorem dmaOut_keeps {z : State} (s : State) (c : HostCmd)  (h : Keeps z s) : Keeps z (dmaOut s c) := by
  delta dmaOut
  repeat' first
    | with_reducible assumption
    | (extract_lets +onlyGivenNames u; refine (fun (_ : Keeps z u) => ?_) ?_; clear_value u; rotate_left; subst u)
    | (extract_lets +onlyGivenNames u; subst u) | with_reducible apply fresh_keeps | with_reducible apply pass_keeps
    | with_reducible apply endNow_keeps | with_reducible apply keepsHost_put | with_reducible apply keepsHost_self
    | with_reducible apply Keeps.ite | simp only [keeps_mk_host]

theorem execDmaIn_keeps {z : State} (c : HostCmd) (s : State) (h : Keeps z s) : KeepsO z (execDmaIn c s) := by
  delta execDmaIn
  repeat' first
    | with_reducible assumption | intro _ | with_reducible apply dmaIn_keeps | with_reducible apply takeCmd_keeps
    | with_reducible apply keepsO_next

theorem execDmaOut_keeps {z : State} (c : HostCmd) (s : State) (h : Keeps z s) : KeepsO z (execDmaOut c s) := by
  delta execDmaOut
  repeat' first
    | with_reducible assumption | intro _ | with_reducible apply dmaOut_keeps | with_reducible apply takeCmd_keeps
    | with_reducible apply keepsO_next

theorem execCommandCompletion_keeps {z : State} (k : Nat) (s : State) (h : Keeps z s) : KeepsO z (execCommandCompletion k s) := by
  delta execCommandCompletion
  repeat' first
    | with_reducible assumption | with_reducible apply complete_keeps | with_reducible apply keepsO_next

end Sys2Proof.Laws
end

