-- ==== Sys2Proof/Laws/KeepsServe.lean ====
section
/-! SUPPORT. What the operations of Machine/Serve.lean keep. -/
namespace Sys2Proof.Laws
open Sys2Proof.Machine Sys2Proof.Safety

theorem setAdapter_keeps {z : State} (s : State) (k : Nat) (a : Adapter)  (h : Keeps z s) : Keeps z (setAdapter s k a) := by
  delta setAdapter
  repeat' first
    | with_reducible assumption | simp only [keeps_mk]

theorem ite_cases {α : Type} {c : Prop} [Decidable c] {a b x : α} (e : (if c then a else b) = x) : a = x ∨ b = x := by
  split at e
  · exact .inl e
  · exact .inr e

theorem adapterTry_some {z s v : State} {c : HostCmd} {st : BitVec 16} {k : Nat} (h : Keeps z s)
    (e : adapterTry s c = some (v, st, k)) : Keeps z v := by
  rw [adapterTry] at e
  rcases ite_cases e with e | e
  · cases e; exact h
  · split at e
    · cases e
    · injection e with e
      injection e with e1
      subst e1
      exact setAdapter_keeps _ _ _ h

theorem adapterAgain_keeps {z : State} (s : State) (r : CmdRec)  (h : Keeps z s) : Keeps z (adapterAgain s r) := by
  delta adapterAgain
  repeat' first
    | with_reducible assumption | (rename adapterTry _ _ = some _ => e; refine adapterTry_some ?_ e)
    | with_reducible apply endWhere_keeps | split

theorem adapterFree_keeps {z : State} (s : State) (k : Nat)  (h : Keeps z s) : Keeps z (adapterFree s k) := by
  delta adapterFree
  repeat' first
    | with_reducible assumption
    | (extract_lets +onlyGivenNames u; refine (fun (_ : Keeps z u) => ?_) ?_; clear_value u; rotate_left; subst u)
    | (extract_lets +onlyGivenNames u; subst u) | with_reducible apply adapterAgain_keeps | with_reducible apply raise_keeps
    | with_reducible apply setAdapter_keeps | (apply Keeps.foldl; intro _ _ _)

theorem adapterDrain_keeps {z : State} (s : State) (k : Nat)  (h : Keeps z s) : Keeps z (adapterDrain s k) := by
  delta adapterDrain
  repeat' first
    | with_reducible assumption | (extract_lets +onlyGivenNames u; subst u) | with_reducible apply adapterFree_keeps
    | with_reducible apply setAdapter_keeps | with_reducible apply Keeps.ite

theorem adapterFlip_keeps {z : State} (s : State) (k : Nat)  (h : Keeps z s) : Keeps z (adapterFlip s k) := by
  delta adapterFlip
  repeat' first
    | with_reducible assumption
    | (extract_lets +onlyGivenNames u; refine (fun (_ : Keeps z u) => ?_) ?_; clear_value u; rotate_left; subst u)
    | (extract_lets +onlyGivenNames u; subst u) | with_reducible apply adapterDrain_keeps | with_reducible apply setAdapter_keeps
    | with_reducible apply Keeps.ite | split

theorem dueFlips_keeps {z : State} (s : State)  (h : Keeps z s) : Keeps z (dueFlips s) := by
  delta dueFlips
  repeat' first
    | with_reducible assumption | with_reducible apply adapterFlip_keeps | (apply Keeps.foldl; intro _ _ _)

theorem unpin_keeps {z : State} (s : State) (k : Nat)  (h : Keeps z s) : Keeps z (unpin s k) := by
  delta unpin
  repeat' first
    | with_reducible assumption
    | (extract_lets +onlyGivenNames u; refine (fun (_ : Keeps z u) => ?_) ?_; clear_value u; rotate_left; subst u)
    | (extract_lets +onlyGivenNames u; subst u) | with_reducible apply adapterFree_keeps | with_reducible apply setAdapter_keeps
    | dsimp -zeta only | with_reducible apply Keeps.ite

theorem adapterLoad_keeps {z : State} (s0 : State) (c : HostCmd)  (h : Keeps z s0) : Keeps z (adapterLoad s0 c) := by
  delta adapterLoad
  repeat' first
    | with_reducible assumption
    | (extract_lets +onlyGivenNames u; refine (fun (_ : Keeps z u) => ?_) ?_; clear_value u; rotate_left; subst u)
    | (rename adapterTry _ _ = some _ => e; refine adapterTry_some ?_ e) | with_reducible apply dueFlips_keeps
    | with_reducible apply endNow_keeps | with_reducible apply startCmd_keeps | with_reducible apply Keeps.ite | split

theorem adapterUnload_keeps {z : State} (s0 : State) (c : HostCmd)  (h : Keeps z s0) : Keeps z (adapterUnload s0 c) := by
  delta adapterUnload
  repeat' first
    | with_reducible assumption
    | (extract_lets +onlyGivenNames u; refine (fun (_ : Keeps z u) => ?_) ?_; clear_value u; rotate_left; subst u)
    | (extract_lets +onlyGivenNames u; subst u) | with_reducible apply adapterDrain_keeps | with_reducible apply dueFlips_keeps
    | with_reducible apply endNow_keeps | split

theorem setEntry_keeps {z : State} (s : State) (i : Nat) (e : Entry) (h : Keeps z s) : Keeps z (setEntry s i e) :=
  h.trans ⟨rfl, fun c => ⟨c.cells, c.dirty, c.poison, c.bells, c.regs, c.host, c.archive, c.cal, twf_tset (df := fun _ => ({} : Entry)) _ _ c.entries⟩⟩

theorem setDie_keeps {z : State} (s : State) (d : Nat) (x : DieServe)  (h : Keeps z s) : Keeps z (setDie s d x) := by
  delta setDie
  repeat' first
    | with_reducible assumption | (extract_lets +onlyGivenNames u; subst u) | simp only [keeps_mk]

theorem finish_keeps {z : State} (s : State) (i : Nat) (st : EState)  (h : Keeps z s) : Keeps z (finish s i st) := by
  delta finish
  repeat' first
    | with_reducible assumption
    | (extract_lets +onlyGivenNames u; refine (fun (_ : Keeps z u) => ?_) ?_; clear_value u; rotate_left; subst u)
    | (extract_lets +onlyGivenNames u; subst u) | with_reducible apply setDie_keeps | with_reducible apply setEntry_keeps
    | with_reducible apply unpin_keeps | split

theorem freeReported_keeps {z : State} (s : State) (d : Nat)  (h : Keeps z s) : Keeps z (freeReported s d) := by
  delta freeReported
  repeat' first
    | with_reducible assumption | with_reducible apply setEntry_keeps | dsimp -zeta only | with_reducible apply Keeps.ite
    | (apply Keeps.foldl; intro _ _ _)

theorem setTenant_keeps {z : State} (s : State) (t : Nat) (x : Tenant)  (h : Keeps z s) : Keeps z (setTenant s t x) := by
  delta setTenant
  repeat' first
    | with_reducible assumption | (extract_lets +onlyGivenNames u; subst u) | simp only [keeps_mk]

theorem landFor_keeps {z : State} (s : State) (t a : Nat) (l : List Byte)  (h : Keeps z s) : Keeps z (landFor s t a l) := by
  delta landFor
  repeat' first
    | with_reducible assumption | with_reducible apply land_keeps | with_reducible apply touch_keeps | with_reducible apply Keeps.ite

theorem landAt_keeps {z : State} (s : State) (a : Nat) (l : List Byte)  (h : Keeps z s) : Keeps z (landAt s a l) := by
  delta landAt
  repeat' first
    | with_reducible assumption | with_reducible apply land_keeps | with_reducible apply touchHome_keeps
    | with_reducible apply Keeps.ite

theorem setLevel_keeps {z : State} (s : State) (t : Nat) (v : Int)  (h : Keeps z s) : Keeps z (setLevel s t v) := by
  delta setLevel
  repeat' first
    | with_reducible assumption | with_reducible apply rset_keeps

theorem refill_keeps {z : State} (s : State) (t : Nat)  (h : Keeps z s) : Keeps z (refill s t) := by
  delta refill
  repeat' first
    | with_reducible assumption | (extract_lets +onlyGivenNames u; subst u) | with_reducible apply setLevel_keeps
    | with_reducible apply setTenant_keeps

theorem refillAll_keeps {z : State} (s : State)  (h : Keeps z s) : Keeps z (refillAll s) := by
  delta refillAll
  repeat' first
    | with_reducible assumption | with_reducible apply refill_keeps | (apply Keeps.foldl; intro _ _ _)

theorem offer_keeps {z : State} (d : Nat) (a : State × List BatchItem) (x : Nat × Entry) (h : Keeps z a.1) : Keeps z (offer d a x).1 := by
  rw [offer]
  dsimp only
  split
  · exact setEntry_keeps _ _ _ (setLevel_keeps _ _ _ h)
  · exact setEntry_keeps _ _ _ h

theorem offerNew_keeps {z : State} (d slots : Nat) (a : State × List BatchItem) (x : Nat × Entry) (h : Keeps z a.1) :
    Keeps z (offerNew d slots a x).1 := by
  rw [offerNew]
  dsimp only
  split
  · exact setEntry_keeps _ _ _ (setLevel_keeps _ _ _ h)
  · exact h

theorem chooseBatch_keeps {z : State} (s : State) (d : Nat)  (h : Keeps z s) : Keeps z (chooseBatch s d).1 := by
  delta chooseBatch
  repeat' first
    | with_reducible assumption
    | (extract_lets +onlyGivenNames u; refine (fun (_ : Keeps z u) => ?_) ?_; clear_value u; rotate_left; subst u)
    | (extract_lets +onlyGivenNames u; subst u) | with_reducible apply offer_keeps | with_reducible apply offerNew_keeps
    | with_reducible apply refillAll_keeps | dsimp -zeta only | split | (apply Keeps.foldl_fst; intro _ _ _)

theorem formBatch_keeps {z : State} (s : State) (d : Nat)  (h : Keeps z s) : Keeps z (formBatch s d) := by
  delta formBatch
  repeat' first
    | with_reducible assumption | (extract_lets +onlyGivenNames u; subst u) | with_reducible apply bellAdd_keeps
    | with_reducible apply chooseBatch_keeps | with_reducible apply landAt_keeps | with_reducible apply setDie_keeps | dsimp -zeta only
    | with_reducible apply Keeps.ite

theorem tryBatch_keeps {z : State} (s : State) (d : Nat)  (h : Keeps z s) : Keeps z (tryBatch s d) := by
  delta tryBatch
  repeat' first
    | with_reducible assumption | with_reducible apply formBatch_keeps | with_reducible apply Keeps.ite

theorem putDigest_keeps {z : State} (s : State) (t d step : Nat) (outside : Bool) (epoch : BitVec 32) (time : BitVec 64) (l : List DigItem)  (h : Keeps z s) : Keeps z (putDigest s t d step outside epoch time l) := by
  delta putDigest
  repeat' first
    | with_reducible assumption
    | (extract_lets +onlyGivenNames u; refine (fun (_ : Keeps z u) => ?_) ?_; clear_value u; rotate_left; subst u)
    | (extract_lets +onlyGivenNames u; subst u) | with_reducible apply ctxSignal_keeps | with_reducible apply rset_keeps
    | with_reducible apply setTenant_keeps | with_reducible apply keepsHost_put | with_reducible apply keepsHost_self
    | with_reducible apply Keeps.ite | simp only [keeps_mk_host] | (apply keepsHost_foldl; intro _ _ _)

theorem digestFull_keeps {z : State} (s : State) (t : Nat)  (h : Keeps z s) : Keeps z (digestFull s t) := by
  delta digestFull
  repeat' first
    | with_reducible assumption | (extract_lets +onlyGivenNames u; subst u) | with_reducible apply raiseJob_keeps
    | with_reducible apply setTenant_keeps | with_reducible apply Keeps.ite

theorem putRing_keeps {z : State} (s : State) (e : Entry) (l : List DigItem)  (h : Keeps z s) : Keeps z (putRing s e l) := by
  delta putRing
  repeat' first
    | with_reducible assumption | (extract_lets +onlyGivenNames u; subst u) | dsimp -zeta only | with_reducible apply keepsHost_put
    | with_reducible apply keepsHost_self | simp only [keeps_mk_host] | (apply keepsHost_foldl; intro _ _ _)

theorem ringFinals_keeps {z : State} (s : State) (d : Nat)  (h : Keeps z s) : Keeps z (ringFinals s d) := by
  delta ringFinals
  repeat' first
    | with_reducible assumption | with_reducible apply putRing_keeps | with_reducible apply setEntry_keeps | dsimp -zeta only
    | with_reducible apply Keeps.ite | (apply Keeps.foldl; intro _ _ _)

theorem setReported_keeps {z : State} (s : State) (l : List (Nat × Entry))  (h : Keeps z s) : Keeps z (setReported s l) := by
  delta setReported
  repeat' first
    | with_reducible assumption | with_reducible apply setEntry_keeps | dsimp only | (apply Keeps.foldl; intro _ _ _)

theorem recorded_keeps {z : State} (s : State) (d t : Nat)  (h : Keeps z s) : Keeps z (recorded s d t) := by
  delta recorded
  repeat' first
    | with_reducible assumption | (extract_lets +onlyGivenNames u; subst u) | with_reducible apply setDie_keeps

theorem outRecords_keeps {z : State} (s : State) (d : Nat)  (h : Keeps z s) : Keeps z (outRecords s d) := by
  delta outRecords
  repeat' first
    | with_reducible assumption
    | (extract_lets +onlyGivenNames u; refine (fun (_ : Keeps z u) => ?_) ?_; clear_value u; rotate_left; subst u)
    | (extract_lets +onlyGivenNames u; subst u) | with_reducible apply fresh_keeps | with_reducible apply digestFull_keeps
    | with_reducible apply freeReported_keeps | with_reducible apply putDigest_keeps | with_reducible apply recorded_keeps
    | with_reducible apply ringFinals_keeps | with_reducible apply setReported_keeps | with_reducible apply Keeps.ite | dsimp only
    | (apply Keeps.foldl; intro _ _ _)

theorem expireIdle_keeps {z : State} (s : State) (d : Nat)  (h : Keeps z s) : Keeps z (expireIdle s d) := by
  delta expireIdle
  repeat' first
    | with_reducible assumption | (extract_lets +onlyGivenNames u; subst u) | with_reducible apply finish_keeps | dsimp -zeta only
    | with_reducible apply Keeps.ite | split | (apply Keeps.foldl; intro _ _ _)

theorem badResults_keeps {z : State} (s : State) (d : Nat) (l : List Outcome)  (h : Keeps z s) : Keeps z (badResults s d l) := by
  delta badResults
  repeat' first
    | with_reducible assumption | with_reducible apply raiseJob_keeps | with_reducible apply Keeps.ite
    | (apply Keeps.foldl; intro _ _ _)

theorem applyItem_keeps {z : State} (s : State) (o : Outcome)  (h : Keeps z s) : Keeps z (applyItem s o) := by
  delta applyItem
  repeat' first
    | with_reducible assumption
    | (extract_lets +onlyGivenNames u; refine (fun (_ : Keeps z u) => ?_) ?_; clear_value u; rotate_left; subst u)
    | (extract_lets +onlyGivenNames u; subst u) | with_reducible apply finish_keeps | with_reducible apply putRing_keeps
    | with_reducible apply setEntry_keeps | with_reducible apply setLevel_keeps | with_reducible apply Keeps.ite

theorem tenantBoundary_keeps {z : State} (d : Nat) (os : List Outcome) (s : State) (t : Nat)  (h : Keeps z s) : Keeps z (tenantBoundary d os s t) := by
  delta tenantBoundary
  repeat' first
    | with_reducible assumption
    | (extract_lets +onlyGivenNames u; refine (fun (_ : Keeps z u) => ?_) ?_; clear_value u; rotate_left; subst u)
    | (extract_lets +onlyGivenNames u; subst u) | with_reducible apply applyItem_keeps | with_reducible apply digestFull_keeps
    | with_reducible apply putDigest_keeps | with_reducible apply recorded_keeps | with_reducible apply setReported_keeps
    | with_reducible apply Keeps.ite | (apply Keeps.foldl; intro _ _ _)

theorem boundary_keeps {z : State} (s : State) (d : Nat)  (h : Keeps z s) : Keeps z (boundary s d) := by
  delta boundary
  repeat' first
    | with_reducible assumption
    | (extract_lets +onlyGivenNames u; refine (fun (_ : Keeps z u) => ?_) ?_; clear_value u; rotate_left; subst u)
    | (extract_lets +onlyGivenNames u; subst u) | with_reducible apply fresh_keeps | with_reducible apply touch_keeps
    | with_reducible apply badResults_keeps | with_reducible apply expireIdle_keeps | with_reducible apply formBatch_keeps
    | with_reducible apply freeReported_keeps | with_reducible apply ringFinals_keeps | with_reducible apply setDie_keeps
    | with_reducible apply tenantBoundary_keeps | with_reducible apply Keeps.ite | simp only [keeps_mk]
    | (apply Keeps.foldl; intro _ _ _)

theorem checkIdle_keeps {z : State} (s : State) (d : Nat)  (h : Keeps z s) : Keeps z (checkIdle s d) := by
  delta checkIdle
  repeat' first
    | with_reducible assumption | with_reducible apply expireIdle_keeps | with_reducible apply outRecords_keeps

theorem tick_keeps {z : State} (s : State) (d : Nat)  (h : Keeps z s) : Keeps z (tick s d) := by
  delta tick
  repeat' first
    | with_reducible assumption | with_reducible apply checkIdle_keeps | with_reducible apply tryBatch_keeps
    | with_reducible apply Keeps.ite

theorem setServing_keeps {z : State} (s : State) (d : Nat) (on : Bool)  (h : Keeps z s) : Keeps z (setServing s d on) := by
  delta setServing
  repeat' first
    | with_reducible assumption
    | (extract_lets +onlyGivenNames u; refine (fun (_ : Keeps z u) => ?_) ?_; clear_value u; rotate_left; subst u)
    | (extract_lets +onlyGivenNames u; subst u) | with_reducible apply checkIdle_keeps | with_reducible apply rflag_keeps
    | with_reducible apply setDie_keeps | with_reducible apply setLevel_keeps | with_reducible apply tryBatch_keeps
    | with_reducible apply Keeps.ite | dsimp only | simp only [keeps_mk] | (apply Keeps.foldl; intro _ _ _)

theorem classSet_keeps {z : State} (s : State) (c e : HostCmd)  (h : Keeps z s) : Keeps z (classSet s c e) := by
  delta classSet
  repeat' first
    | with_reducible assumption
    | (extract_lets +onlyGivenNames u; refine (fun (_ : Keeps z u) => ?_) ?_; clear_value u; rotate_left; subst u)
    | (extract_lets +onlyGivenNames u; subst u) | with_reducible apply endNow_keeps | simp only [keeps_mk] | split

theorem limitsWrite_keeps {z : State} (s : State) (d : Nat) (v : BitVec 64)  (h : Keeps z s) : Keeps z (limitsWrite s d v) := by
  delta limitsWrite
  repeat' first
    | with_reducible assumption | (extract_lets +onlyGivenNames u; subst u) | with_reducible apply rset_keeps
    | with_reducible apply Keeps.ite

theorem admitReq_keeps {z : State} (s0 : State) (c : HostCmd)  (h : Keeps z s0) : Keeps z (admitReq s0 c) := by
  delta admitReq
  repeat' first
    | with_reducible assumption
    | (extract_lets +onlyGivenNames u; refine (fun (_ : Keeps z u) => ?_) ?_; clear_value u; rotate_left; subst u)
    | (extract_lets +onlyGivenNames u; subst u) | with_reducible apply dueFlips_keeps | with_reducible apply endNow_keeps
    | with_reducible apply setAdapter_keeps | with_reducible apply setEntry_keeps | with_reducible apply tryBatch_keeps
    | with_reducible apply Keeps.ite | dsimp only | split

theorem evictEntry_keeps {z : State} (s : State) (i : Nat)  (h : Keeps z s) : Keeps z (evictEntry s i) := by
  delta evictEntry
  repeat' first
    | with_reducible assumption | (extract_lets +onlyGivenNames u; subst u) | with_reducible apply finish_keeps
    | with_reducible apply setEntry_keeps | with_reducible apply Keeps.ite

theorem evict_keeps {z : State} (s : State) (c : HostCmd)  (h : Keeps z s) : Keeps z (evict s c) := by
  delta evict
  repeat' first
    | with_reducible assumption | (extract_lets +onlyGivenNames u; subst u) | with_reducible apply endNow_keeps
    | with_reducible apply evictEntry_keeps | with_reducible apply Keeps.ite

theorem evictTenant_keeps {z : State} (s : State) (t : Nat)  (h : Keeps z s) : Keeps z (evictTenant s t) := by
  delta evictTenant
  repeat' first
    | with_reducible assumption | with_reducible apply evictEntry_keeps | (apply Keeps.foldl; intro _ _ _)

theorem evictDie_keeps {z : State} (s : State) (d : Nat)  (h : Keeps z s) : Keeps z (evictDie s d) := by
  delta evictDie
  repeat' first
    | with_reducible assumption
    | (extract_lets +onlyGivenNames u; refine (fun (_ : Keeps z u) => ?_) ?_; clear_value u; rotate_left; subst u)
    | (extract_lets +onlyGivenNames u; subst u) | with_reducible apply finish_keeps | with_reducible apply outRecords_keeps
    | with_reducible apply setDie_keeps | (apply Keeps.foldl; intro _ _ _)

theorem steerLoad_keeps {z : State} (s : State) (c : HostCmd) (h : Keeps z s) : Keeps z (steerLoad s c) := by
  rw [steerLoad]
  refine Keeps.ite (endNow_keeps _ _ _ _ _ h) (Keeps.ite (endNow_keeps _ _ _ _ _ h) (endNow_keeps _ _ _ _ _ ?_))
  exact Keeps.upd (s := (s.pass false (c.w2.toNat, 16384)).fresh) rfl rfl rfl rfl rfl rfl rfl rfl rfl
    (fresh_keeps _ (pass_keeps _ _ _ h))

theorem steerUnload_keeps {z : State} (s : State) (c : HostCmd)  (h : Keeps z s) : Keeps z (steerUnload s c) := by
  delta steerUnload
  repeat' first
    | with_reducible assumption | (extract_lets +onlyGivenNames u; subst u) | with_reducible apply endNow_keeps
    | with_reducible apply Keeps.ite | simp only [keeps_mk]

theorem rosMode_keeps {z : State} (s : State) (mode : Bool)  (h : Keeps z s) : Keeps z (rosMode s mode) := by
  delta rosMode
  repeat' first
    | with_reducible assumption | with_reducible apply rflag_keeps | with_reducible apply Keeps.ite

theorem serveLate_keeps {z : State} (s : State) (d : Nat)  (h : Keeps z s) : Keeps z (serveLate s d) := by
  delta serveLate
  repeat' first
    | with_reducible assumption | (extract_lets +onlyGivenNames u; subst u) | with_reducible apply raise_keeps
    | with_reducible apply setDie_keeps | with_reducible apply Keeps.ite

theorem execAdapterLoad_keeps {z : State} (c : HostCmd) (s : State) (h : Keeps z s) : KeepsO z (execAdapterLoad c s) := by
  delta execAdapterLoad
  repeat' first
    | with_reducible assumption | intro _ | with_reducible apply adapterLoad_keeps | with_reducible apply takeCmd_keeps
    | with_reducible apply keepsO_next

theorem execAdapterUnload_keeps {z : State} (c : HostCmd) (s : State) (h : Keeps z s) : KeepsO z (execAdapterUnload c s) := by
  delta execAdapterUnload
  repeat' first
    | with_reducible assumption | intro _ | with_reducible apply adapterUnload_keeps | with_reducible apply takeCmd_keeps
    | with_reducible apply keepsO_next

theorem execAdapterFlip_keeps {z : State} (slot : BitVec 10) (s : State) (h : Keeps z s) : KeepsO z (execAdapterFlip slot s) := by
  delta execAdapterFlip
  repeat' first
    | with_reducible assumption | with_reducible apply adapterFlip_keeps | with_reducible apply keepsO_next

theorem execAdapterWaitLimit_keeps {z : State} (q : Fin 513) (tag : BitVec 16) (s : State) (h : Keeps z s) : KeepsO z (execAdapterWaitLimit q tag s) := by
  delta execAdapterWaitLimit
  repeat' first
    | with_reducible assumption | with_reducible apply endWhere_keeps | with_reducible apply keepsO_next

theorem execAdmitCmd_keeps {z : State} (c : HostCmd) (s : State) (h : Keeps z s) : KeepsO z (execAdmitCmd c s) := by
  delta execAdmitCmd
  repeat' first
    | with_reducible assumption | intro _ | with_reducible apply admitReq_keeps | with_reducible apply takeCmd_keeps
    | with_reducible apply keepsO_next

theorem execEvict_keeps {z : State} (c : HostCmd) (s : State) (h : Keeps z s) : KeepsO z (execEvict c s) := by
  delta execEvict
  repeat' first
    | with_reducible assumption | intro _ | with_reducible apply evict_keeps | with_reducible apply takeCmd_keeps
    | with_reducible apply keepsO_next

theorem execClassSet_keeps {z : State} (c e : HostCmd) (s : State) (h : Keeps z s) : KeepsO z (execClassSet c e s) := by
  delta execClassSet
  repeat' first
    | with_reducible assumption | intro _ | with_reducible apply classSet_keeps | with_reducible apply takeCmd_keeps
    | with_reducible apply keepsO_next

theorem execSteerLoad_keeps {z : State} (c : HostCmd) (s : State) (h : Keeps z s) : KeepsO z (execSteerLoad c s) := by
  delta execSteerLoad
  repeat' first
    | with_reducible assumption | intro _ | with_reducible apply steerLoad_keeps | with_reducible apply takeCmd_keeps
    | with_reducible apply keepsO_next

theorem execSteerUnload_keeps {z : State} (c : HostCmd) (s : State) (h : Keeps z s) : KeepsO z (execSteerUnload c s) := by
  delta execSteerUnload
  repeat' first
    | with_reducible assumption | intro _ | with_reducible apply steerUnload_keeps | with_reducible apply takeCmd_keeps
    | with_reducible apply keepsO_next

theorem execRosterBoundary_keeps {z : State} (d : DieNo) (s : State) (h : Keeps z s) : KeepsO z (execRosterBoundary d s) := by
  delta execRosterBoundary
  repeat' first
    | with_reducible assumption | with_reducible apply boundary_keeps | with_reducible apply keepsO_next

theorem execServingEnable_keeps {z : State} (d : DieNo) (on : Bool) (s : State) (h : Keeps z s) : KeepsO z (execServingEnable d on s) := by
  delta execServingEnable
  repeat' first
    | with_reducible assumption | with_reducible apply setServing_keeps | with_reducible apply keepsO_next

theorem execRosterTick_keeps {z : State} (d : DieNo) (s : State) (h : Keeps z s) : KeepsO z (execRosterTick d s) := by
  delta execRosterTick
  repeat' first
    | with_reducible assumption | with_reducible apply tick_keeps | with_reducible apply keepsO_next

theorem execRosModeWrite_keeps {z : State} (mode : Bool) (s : State) (h : Keeps z s) : KeepsO z (execRosModeWrite mode s) := by
  delta execRosModeWrite
  repeat' first
    | with_reducible assumption | with_reducible apply rosMode_keeps | with_reducible apply keepsO_next

theorem execEvtServeLate_keeps {z : State} (d : DieNo) (s : State) (h : Keeps z s) : KeepsO z (execEvtServeLate d s) := by
  delta execEvtServeLate
  repeat' first
    | with_reducible assumption | with_reducible apply serveLate_keeps | with_reducible apply keepsO_next

end Sys2Proof.Laws
end

