-- ==== Sys2Proof/Laws/KeepsChange.lean ====
section
/-! SUPPORT. What the operations of Machine/Change.lean keep. -/
namespace Sys2Proof.Laws
open Sys2Proof.Machine Sys2Proof.Safety

theorem pushSheet_keeps {z : State} (ports : BitVec 6) (s : State) (seat : BitVec 10) (src dst : Nat) (h : Keeps z s) : Keeps z (pushSheet ports s seat src dst) := by
  rw [pushSheet]
  exact sendKept_keeps _ _ _ _ _ _ (Keeps.foldl _ (fun u x k => sendSpread_keeps _ _ _ _ _ _ _ k) h)

theorem pushEntry_keeps {z : State} (ports : BitVec 6) (members : List (BitVec 10)) (a : State × Tab Nat) (e : PlanEntry) (h : Keeps z a.1) :
    Keeps z (pushEntry ports members a e).1 := by
  rw [pushEntry]
  split
  · exact Keeps.foldl _ (fun u k hk => pushSheet_keeps _ _ _ _ _ hk) h
  · exact h

theorem chgFail_keeps {z : State} (s : State) (ctx : Nat) (status : Nat)  (h : Keeps z s) : Keeps z (chgFail s ctx status) := by
  delta chgFail
  repeat' first
    | with_reducible assumption | with_reducible apply fresh_keeps | with_reducible apply land_keeps
    | with_reducible apply touchWrites_keeps | with_reducible apply endCtl_keeps | with_reducible apply needRestore_keeps
    | with_reducible apply setJob_keeps | dsimp only | split

theorem chgMemErr_keeps {z : State} (s : State) (ctx : Nat) (rank : BitVec 10) (a : BitVec 48)  (h : Keeps z s) : Keeps z (chgMemErr s ctx rank a) := by
  delta chgMemErr
  repeat' first
    | with_reducible assumption | (extract_lets +onlyGivenNames u; subst u) | with_reducible apply chgFail_keeps
    | with_reducible apply onJob_keeps

theorem chgBegin_keeps {z : State} (s : State) (ctx : Nat) (j : Job) (layout : Bool)  (h : Keeps z s) : Keeps z (chgBegin s ctx j layout) := by
  delta chgBegin
  repeat' first
    | with_reducible assumption
    | (extract_lets +onlyGivenNames u; refine (fun (_ : Keeps z u) => ?_) ?_; clear_value u; rotate_left; subst u)
    | (extract_lets +onlyGivenNames u; subst u) | with_reducible apply accept_keeps | with_reducible apply fresh_keeps
    | with_reducible apply touches_keeps | with_reducible apply chgMemErr_keeps | with_reducible apply onJob_keeps
    | with_reducible apply pushEntry_keeps | dsimp -zeta only | split | (apply Keeps.foldl_fst; intro _ _ _)

theorem chgStart_keeps {z : State} (s : State) (ctx : Nat)  (h : Keeps z s) : Keeps z (chgStart s ctx) := by
  delta chgStart
  repeat' first
    | with_reducible assumption | with_reducible apply chgBegin_keeps | with_reducible apply Keeps.ite | split

theorem seatDone_keeps {z : State} (s : State) (ctx : Nat) (failed : Option (BitVec 10 × BitVec 48))  (h : Keeps z s) : Keeps z (seatDone s ctx failed) := by
  delta seatDone
  repeat' first
    | with_reducible assumption | with_reducible apply land_keeps | with_reducible apply touches_keeps
    | with_reducible apply chgMemErr_keeps | with_reducible apply setJob_keeps | with_reducible apply Keeps.ite | dsimp only | split

theorem holdTenant_keeps {z : State} (s : State) (t : Nat)  (h : Keeps z s) : Keeps z (holdTenant s t) := by
  delta holdTenant
  repeat' first
    | with_reducible assumption | with_reducible apply setEntry_keeps | dsimp -zeta only | (apply Keeps.foldl; intro _ _ _)

theorem unholdTenant_keeps {z : State} (s : State) (t : Nat)  (h : Keeps z s) : Keeps z (unholdTenant s t) := by
  delta unholdTenant
  repeat' first
    | with_reducible assumption | with_reducible apply setEntry_keeps | dsimp -zeta only | (apply Keeps.foldl; intro _ _ _)

theorem epochBells_keeps {z : State} (s : State) (d : List Byte) (epoch : BitVec 32)  (h : Keeps z s) : Keeps z (epochBells s d epoch) := by
  delta epochBells
  repeat' first
    | with_reducible assumption | with_reducible apply bellSet_keeps | (apply Keeps.foldl; intro _ _ _)

theorem putRecordOf_keeps {z : State} (s : State) (r : Repl)  (h : Keeps z s) : Keeps z (putRecordOf s r) := by
  delta putRecordOf
  repeat' first
    | with_reducible assumption | with_reducible apply landAt_keeps | split

theorem setEpoch_keeps {z : State} (s : State) (ctx : Nat) (e : BitVec 32)  (h : Keeps z s) : Keeps z (setEpoch s ctx e) := by
  delta setEpoch
  repeat' first
    | with_reducible assumption | with_reducible apply epochBells_keeps | with_reducible apply putRecordOf_keeps
    | with_reducible apply setJob_keeps | dsimp only | split

theorem switchPoint_keeps {z : State} (s : State) (ctx : Nat)  (h : Keeps z s) : Keeps z (switchPoint s ctx) := by
  delta switchPoint
  repeat' first
    | with_reducible assumption | with_reducible apply clearDirty_keeps | with_reducible apply endCtl_keeps
    | with_reducible apply holdTenant_keeps | with_reducible apply onJob_keeps | with_reducible apply sendLate_keeps
    | with_reducible apply setEpoch_keeps | with_reducible apply setJob_keeps | with_reducible apply tryBatch_keeps
    | with_reducible apply unholdTenant_keeps | with_reducible apply Keeps.ite | dsimp only | split | (apply Keeps.foldl; intro _ _ _)

theorem jobMemberLost_keeps {z : State} (s : State) (ctx : Nat) (seat : BitVec 10)  (h : Keeps z s) : Keeps z (jobMemberLost s ctx seat) := by
  delta jobMemberLost
  repeat' first
    | with_reducible assumption
    | (extract_lets +onlyGivenNames u; refine (fun (_ : Keeps z u) => ?_) ?_; clear_value u; rotate_left; subst u)
    | with_reducible apply abortAttempt_keeps | with_reducible apply chgFail_keeps | with_reducible apply dropUnacked_keeps
    | with_reducible apply endCmds_keeps | with_reducible apply endGates_keeps | with_reducible apply onJob_keeps
    | with_reducible apply setJob_keeps | with_reducible apply Keeps.ite | dsimp only | split

theorem memberRemove_keeps {z : State} (s : State) (n : Nat) (seat : BitVec 10)  (h : Keeps z s) : Keeps z (memberRemove s n seat) := by
  delta memberRemove
  repeat' first
    | with_reducible assumption
    | (extract_lets +onlyGivenNames u; refine (fun (_ : Keeps z u) => ?_) ?_; clear_value u; rotate_left; subst u)
    | with_reducible apply jobMemberLost_keeps | with_reducible apply listRemove_keeps | with_reducible apply Keeps.ite
    | (apply Keeps.foldl; intro _ _ _)

theorem genFor_keeps {z : State} (s : State) (ctx : Nat) (j : Job) (seat : BitVec 10)  (h : Keeps z s) : Keeps z (genFor s ctx j seat) := by
  delta genFor
  repeat' first
    | with_reducible assumption | (extract_lets +onlyGivenNames u; subst u) | with_reducible apply land_keeps
    | with_reducible apply touches_keeps | with_reducible apply pushEntry_keeps | split | (apply Keeps.foldl_fst; intro _ _ _)

theorem swapGo_keeps {z : State} (s : State) (ctx : Nat)  (h : Keeps z s) : Keeps z (swapGo s ctx) := by
  delta swapGo
  repeat' first
    | with_reducible assumption | with_reducible apply genFor_keeps | with_reducible apply restartFaulted_keeps
    | with_reducible apply setJob_keeps | with_reducible apply startTiles_keeps | with_reducible apply Keeps.ite | dsimp only | split

theorem swapsGo_keeps {z : State} (s : State)  (h : Keeps z s) : Keeps z (swapsGo s) := by
  delta swapsGo
  repeat' first
    | with_reducible assumption | with_reducible apply swapGo_keeps | (apply Keeps.foldl; intro _ _ _)

theorem rollList_keeps {z : State} (s : State) (n : Nat) (v : BitVec 64) (members : List (BitVec 10))  (h : Keeps z s) : Keeps z (rollList s n v members) := by
  delta rollList
  repeat' first
    | with_reducible assumption
    | (extract_lets +onlyGivenNames u; refine (fun (_ : Keeps z u) => ?_) ?_; clear_value u; rotate_left; subst u)
    | (extract_lets +onlyGivenNames u; subst u) | with_reducible apply memberRemove_keeps | with_reducible apply setList_keeps
    | dsimp -zeta only | with_reducible apply Keeps.ite | split | (apply Keeps.foldl; intro _ _ _)

theorem rollApply_keeps {z : State} (s : State) (f : Flit)  (h : Keeps z s) : Keeps z (rollApply s f) := by
  delta rollApply
  repeat' first
    | with_reducible assumption | with_reducible apply rollList_keeps | with_reducible apply rset_keeps
    | with_reducible apply swapsGo_keeps | with_reducible apply writeSeat_keeps | dsimp only | split

theorem rollDue_keeps {z : State} (n : Nat) (s : State) (h : Keeps z s) : Keeps z (rollDue n s) := by
  induction n generalizing s with
  | zero => exact h
  | succ n ih =>
    simp only [rollDue]
    split
    · exact ih _ (doneReply_keeps _ _ _ _ (rollApply_keeps _ _ (Keeps.upd (s := s) rfl rfl rfl rfl rfl rfl rfl rfl rfl h)))
    · exact h

theorem rollArrive_keeps {z : State} (s : State) (f : Flit)  (h : Keeps z s) : Keeps z (rollArrive s f) := by
  delta rollArrive
  repeat' first
    | with_reducible assumption | intro _ | with_reducible apply once_keeps | with_reducible apply rollDue_keeps
    | with_reducible apply Keeps.ite | dsimp only | simp only [keeps_mk] | split

theorem acceptDesc_keeps {z : State} (s : State) (j : Job) (d : List Byte)  (h : Keeps z s) : Keeps z (acceptDesc s j d) := by
  delta acceptDesc
  repeat' first
    | with_reducible assumption | (extract_lets +onlyGivenNames u; subst u) | with_reducible apply bellSet_keeps
    | with_reducible apply epochBells_keeps | (apply Keeps.foldl; intro _ _ _)

theorem replBegin_keeps {z : State} (s : State) (ctx : Nat) (j : Job) (d : List Byte) (c : HostCmd)  (h : Keeps z s) : Keeps z (replBegin s ctx j d c) := by
  delta replBegin
  repeat' first
    | with_reducible assumption | (extract_lets +onlyGivenNames u; subst u) | with_reducible apply fresh_keeps
    | with_reducible apply putRecordOf_keeps | with_reducible apply setJob_keeps | with_reducible apply startCmd_keeps

theorem replace_keeps {z : State} (s : State) (c : HostCmd) (ctx : Nat) (j : Job)  (h : Keeps z s) : Keeps z (replace s c ctx j) := by
  delta replace
  repeat' first
    | with_reducible assumption | (extract_lets +onlyGivenNames u; subst u) | with_reducible apply fresh_keeps
    | with_reducible apply acceptDesc_keeps | with_reducible apply endNow_keeps | with_reducible apply replBegin_keeps
    | with_reducible apply startCmd_keeps | with_reducible apply Keeps.ite | split

theorem replaceResume_keeps {z : State} (s : State) (c : HostCmd) (ctx : Nat) (j : Job)  (h : Keeps z s) : Keeps z (replaceResume s c ctx j) := by
  delta replaceResume
  repeat' first
    | with_reducible assumption | (extract_lets +onlyGivenNames u; subst u) | with_reducible apply fresh_keeps
    | with_reducible apply endNow_keeps | with_reducible apply putRecordOf_keeps | with_reducible apply setJob_keeps
    | with_reducible apply Keeps.ite

theorem layerReceived_keeps {z : State} (s : State) (ctx : Nat) (data : List Byte)  (h : Keeps z s) : Keeps z (layerReceived s ctx data) := by
  delta layerReceived
  repeat' first
    | with_reducible assumption | with_reducible apply landFor_keeps | with_reducible apply putRecordOf_keeps
    | with_reducible apply setJob_keeps | with_reducible apply Keeps.ite | dsimp only | split

theorem putLayer_keeps {z : State} (s : State) (t : Nat) (l : List (Nat × Nat)) (data : List Byte) (h : Keeps z s) :
    Keeps z (putLayer s t l data) := by
  induction l generalizing s data with
  | nil => exact h
  | cons r l ih => exact ih _ _ (landFor_keeps _ _ _ _ h)

theorem replaceOver_keeps {z : State} (s : State) (ctx : Nat)  (h : Keeps z s) : Keeps z (replaceOver s ctx) := by
  delta replaceOver
  repeat' first
    | with_reducible assumption | with_reducible apply endWhere_keeps | with_reducible apply replace_keeps | dsimp only
    | simp only [keeps_mk] | split | (apply Keeps.foldl; intro _ _ _)

theorem install_keeps {z : State} (s : State) (ctx : Nat)  (h : Keeps z s) : Keeps z (install s ctx) := by
  delta install
  repeat' first
    | with_reducible assumption | with_reducible apply fresh_keeps | with_reducible apply touch_keeps
    | with_reducible apply bellSet_keeps | with_reducible apply putLayer_keeps | with_reducible apply putRecordOf_keeps
    | with_reducible apply replaceOver_keeps | with_reducible apply setJob_keeps | with_reducible apply Keeps.ite | dsimp only | split

theorem replRetry_keeps {z : State} (s : State) (ctx : Nat)  (h : Keeps z s) : Keeps z (replRetry s ctx) := by
  delta replRetry
  repeat' first
    | with_reducible assumption | with_reducible apply onJob_keeps

theorem replStall_keeps {z : State} (s : State) (ctx : Nat)  (h : Keeps z s) : Keeps z (replStall s ctx) := by
  delta replStall
  repeat' first
    | with_reducible assumption | with_reducible apply putRecordOf_keeps | with_reducible apply raiseJob_keeps
    | with_reducible apply setJob_keeps | with_reducible apply Keeps.ite | dsimp only | split

theorem execChgStart_keeps {z : State} (ctx : CtxNo) (s : State) (h : Keeps z s) : KeepsO z (execChgStart ctx s) := by
  delta execChgStart
  repeat' first
    | with_reducible assumption | with_reducible apply chgStart_keeps | with_reducible apply keepsO_next

theorem execChgSeatDone_keeps {z : State} (ctx : CtxNo) (failed : Option (BitVec 10 × BitVec 48)) (s : State) (h : Keeps z s) : KeepsO z (execChgSeatDone ctx failed s) := by
  delta execChgSeatDone
  repeat' first
    | with_reducible assumption | with_reducible apply seatDone_keeps | with_reducible apply keepsO_next

theorem execChgSwitchPoint_keeps {z : State} (ctx : CtxNo) (s : State) (h : Keeps z s) : KeepsO z (execChgSwitchPoint ctx s) := by
  delta execChgSwitchPoint
  repeat' first
    | with_reducible assumption | with_reducible apply switchPoint_keeps | with_reducible apply keepsO_next

theorem execRollFlit_keeps {z : State} (p : BitVec 6) (f : Flit) (s : State) (h : Keeps z s) : KeepsO z (execRollFlit p f s) := by
  delta execRollFlit
  repeat' first
    | with_reducible assumption | intro _ | with_reducible apply arrive_keeps | with_reducible apply rollArrive_keeps
    | with_reducible apply keepsO_next

theorem execClassListMemberRemove_keeps {z : State} (n : BitVec 12) (seat : BitVec 10) (s : State) (h : Keeps z s) : KeepsO z (execClassListMemberRemove n seat s) := by
  delta execClassListMemberRemove
  repeat' first
    | with_reducible assumption | with_reducible apply memberRemove_keeps | with_reducible apply keepsO_next

theorem execReplaceLayerReceived_keeps {z : State} (ctx : CtxNo) (data : List Byte) (s : State) (h : Keeps z s) : KeepsO z (execReplaceLayerReceived ctx data s) := by
  delta execReplaceLayerReceived
  repeat' first
    | with_reducible assumption | with_reducible apply layerReceived_keeps | with_reducible apply keepsO_next

theorem execReplaceInstall_keeps {z : State} (ctx : CtxNo) (s : State) (h : Keeps z s) : KeepsO z (execReplaceInstall ctx s) := by
  delta execReplaceInstall
  repeat' first
    | with_reducible assumption | with_reducible apply install_keeps | with_reducible apply keepsO_next

theorem execReplaceRetry_keeps {z : State} (ctx : CtxNo) (s : State) (h : Keeps z s) : KeepsO z (execReplaceRetry ctx s) := by
  delta execReplaceRetry
  repeat' first
    | with_reducible assumption | with_reducible apply replRetry_keeps | with_reducible apply keepsO_next

theorem execEvtReplaceStall_keeps {z : State} (ctx : CtxNo) (s : State) (h : Keeps z s) : KeepsO z (execEvtReplaceStall ctx s) := by
  delta execEvtReplaceStall
  repeat' first
    | with_reducible assumption | with_reducible apply replStall_keeps | with_reducible apply keepsO_next

end Sys2Proof.Laws
end

