-- ==== Sys2Proof/Laws/KeepsCkp.lean ====
section
/-! SUPPORT. What the operations of Machine/Ckp.lean keep. -/
namespace Sys2Proof.Laws
open Sys2Proof.Machine Sys2Proof.Safety

theorem protect_keeps {z : State} (s : State) (ctx : Nat) (j : Job)  (h : Keeps z s) : Keeps z (protect s ctx j) := by
  delta protect
  repeat' first
    | with_reducible assumption | with_reducible apply sendWhole_keeps | with_reducible apply setJob_keeps

theorem readCreation_keeps {z : State} (s : State) (c : HostCmd) (j : Job)  (h : Keeps z s) : Keeps z (readCreation s c j) := by
  delta readCreation
  repeat' first
    | with_reducible assumption | with_reducible apply touchHome_keeps | (apply Keeps.foldl; intro _ _ _)

theorem create_keeps {z : State} (s : State) (c : HostCmd) (ctx : Nat)  (h : Keeps z s) : Keeps z (create s c ctx) := by
  delta create
  repeat' first
    | with_reducible assumption | with_reducible apply endNow_keeps | with_reducible apply landAt_keeps
    | with_reducible apply protect_keeps | with_reducible apply readCreation_keeps | with_reducible apply startCmd_keeps
    | with_reducible apply Keeps.ite | split

theorem landSheets_keeps {z : State} (s : State) (l : List Nat) (data : List Byte)  (h : Keeps z s) : Keeps z (landSheets s l data) := by
  delta landSheets
  repeat' first
    | with_reducible assumption | with_reducible apply landAt_keeps | dsimp -zeta only | (apply Keeps.foldl; intro _ _ _)

theorem loadSet_keeps {z : State} (s : State) (ctx tier step : Nat) (j : Job)  (h : Keeps z s) : Keeps z (loadSet s ctx tier step j) := by
  delta loadSet
  repeat' first
    | with_reducible assumption
    | (extract_lets +onlyGivenNames u; refine (fun (_ : Keeps z u) => ?_) ?_; clear_value u; rotate_left; subst u)
    | (extract_lets +onlyGivenNames u; subst u) | with_reducible apply clearDirty_keeps | with_reducible apply landSheets_keeps
    | with_reducible apply loadLists_keeps | with_reducible apply protect_keeps | with_reducible apply rflag_keeps
    | with_reducible apply setJob_keeps | with_reducible apply Keeps.ite

theorem createFrom_keeps {z : State} (s : State) (c : HostCmd) (ctx : Nat)  (h : Keeps z s) : Keeps z (createFrom s c ctx) := by
  delta createFrom
  repeat' first
    | with_reducible assumption | (extract_lets +onlyGivenNames u; subst u) | with_reducible apply endNow_keeps
    | with_reducible apply landAt_keeps | with_reducible apply loadSet_keeps | with_reducible apply readCreation_keeps
    | with_reducible apply startCmd_keeps | with_reducible apply Keeps.ite | split

theorem setAcked_keeps {z : State} (s : State) (step : Nat)  (h : Keeps z s) : Keeps z (setAcked s step) := by
  delta setAcked
  repeat' first
    | with_reducible assumption | with_reducible apply rflag_keeps | with_reducible apply rfld_keeps

theorem ackCommit_keeps {z : State} (s : State) (ctx step : Nat) (j : Job)  (h : Keeps z s) : Keeps z (ackCommit s ctx step j) := by
  delta ackCommit
  repeat' first
    | with_reducible assumption
    | (extract_lets +onlyGivenNames u; refine (fun (_ : Keeps z u) => ?_) ?_; clear_value u; rotate_left; subst u)
    | (extract_lets +onlyGivenNames u; subst u) | with_reducible apply dropLanded_keeps | with_reducible apply endCommits_keeps
    | with_reducible apply setAcked_keeps | with_reducible apply setJob_keeps

theorem ackCreate_keeps {z : State} (s : State) (ctx step : Nat) (j : Job)  (h : Keeps z s) : Keeps z (ackCreate s ctx step j) := by
  delta ackCreate
  repeat' first
    | with_reducible assumption
    | (extract_lets +onlyGivenNames u; refine (fun (_ : Keeps z u) => ?_) ?_; clear_value u; rotate_left; subst u)
    | (extract_lets +onlyGivenNames u; subst u) | with_reducible apply dropLanded_keeps | with_reducible apply endCmds_keeps
    | with_reducible apply setAcked_keeps | with_reducible apply setJob_keeps

theorem ackReprotect_keeps {z : State} (s : State) (ctx step : Nat) (j : Job)  (h : Keeps z s) : Keeps z (ackReprotect s ctx step j) := by
  delta ackReprotect
  repeat' first
    | with_reducible assumption
    | (extract_lets +onlyGivenNames u; refine (fun (_ : Keeps z u) => ?_) ?_; clear_value u; rotate_left; subst u)
    | (extract_lets +onlyGivenNames u; subst u) | with_reducible apply ackCommit_keeps | with_reducible apply copybook_keeps
    | with_reducible apply dropLanded_keeps | with_reducible apply setAcked_keeps | with_reducible apply setJob_keeps
    | with_reducible apply showReprotect_keeps | with_reducible apply Keeps.ite

theorem seatAck_keeps {z : State} (s : State) (ctx step : Nat)  (h : Keeps z s) : Keeps z (seatAck s ctx step) := by
  delta seatAck
  repeat' first
    | with_reducible assumption | with_reducible apply ackCommit_keeps | with_reducible apply ackCreate_keeps
    | with_reducible apply ackReprotect_keeps | with_reducible apply Keeps.ite | dsimp only | split

theorem ckpLate_keeps {z : State} (s : State) (ctx : Nat)  (h : Keeps z s) : Keeps z (ckpLate s ctx) := by
  delta ckpLate
  repeat' first
    | with_reducible assumption | (extract_lets +onlyGivenNames u; subst u) | with_reducible apply raiseJob_keeps
    | with_reducible apply rflag_keeps | with_reducible apply setJob_keeps | with_reducible apply Keeps.ite | dsimp only | split

theorem jobReprotect_keeps {z : State} (s : State) (ctx : Nat)  (h : Keeps z s) : Keeps z (jobReprotect s ctx) := by
  delta jobReprotect
  repeat' first
    | with_reducible assumption | with_reducible apply dropLanded_keeps | with_reducible apply endCmds_keeps
    | with_reducible apply sendWhole_keeps | with_reducible apply setJob_keeps | with_reducible apply Keeps.ite | dsimp only | split

theorem buddyWrite_keeps {z : State} (s : State) (buddy : BitVec 11) (valid : Bool)  (h : Keeps z s) : Keeps z (buddyWrite s buddy valid) := by
  delta buddyWrite
  repeat' first
    | with_reducible assumption
    | (extract_lets +onlyGivenNames u; refine (fun (_ : Keeps z u) => ?_) ?_; clear_value u; rotate_left; subst u)
    | with_reducible apply jobReprotect_keeps | with_reducible apply rset_keeps | with_reducible apply showReprotect_keeps
    | with_reducible apply Keeps.ite | (apply Keeps.foldl; intro _ _ _)

theorem diverge_keeps {z : State} (s : State) (ctx : Nat) (j : Job)  (h : Keeps z s) : Keeps z (diverge s ctx j) := by
  delta diverge
  repeat' first
    | with_reducible assumption
    | (extract_lets +onlyGivenNames u; refine (fun (_ : Keeps z u) => ?_) ?_; clear_value u; rotate_left; subst u)
    | (extract_lets +onlyGivenNames u; subst u) | with_reducible apply clearDirty_keeps | with_reducible apply endCmds_keeps
    | with_reducible apply landAt_keeps | with_reducible apply loadLists_keeps | with_reducible apply raiseJob_keeps
    | with_reducible apply rflag_keeps | with_reducible apply setJob_keeps | (apply Keeps.foldl; intro _ _ _)

theorem replayOver_keeps {z : State} (s : State) (ctx : Nat) (j : Job)  (h : Keeps z s) : Keeps z (replayOver s ctx j) := by
  delta replayOver
  repeat' first
    | with_reducible assumption
    | (extract_lets +onlyGivenNames u; refine (fun (_ : Keeps z u) => ?_) ?_; clear_value u; rotate_left; subst u)
    | (extract_lets +onlyGivenNames u; subst u) | with_reducible apply endCommits_keeps | with_reducible apply genFor_keeps
    | with_reducible apply rflag_keeps | with_reducible apply sendLate_keeps | with_reducible apply sendWhole_keeps
    | with_reducible apply setJob_keeps | with_reducible apply startTiles_keeps | dsimp -zeta only | with_reducible apply Keeps.ite

theorem replayNext_keeps {z : State} (s : State) (ctx : Nat) (j : Job)  (h : Keeps z s) : Keeps z (replayNext s ctx j) := by
  delta replayNext
  repeat' first
    | with_reducible assumption | (extract_lets +onlyGivenNames u; subst u) | with_reducible apply landAt_keeps
    | with_reducible apply setJob_keeps | with_reducible apply startTiles_keeps | dsimp -zeta only | with_reducible apply Keeps.ite
    | dsimp only | split

theorem replayStep_keeps {z : State} (s : State) (ctx : Nat)  (h : Keeps z s) : Keeps z (replayStep s ctx) := by
  delta replayStep
  repeat' first
    | with_reducible assumption | with_reducible apply diverge_keeps | with_reducible apply replayNext_keeps
    | with_reducible apply replayOver_keeps | with_reducible apply Keeps.ite | split

theorem tableReg_keeps {z : State} (s : State) (a : Nat) (b : List Byte)  (h : Keeps z s) : Keeps z (tableReg s a b) := by
  delta tableReg
  repeat' first
    | with_reducible assumption | (extract_lets +onlyGivenNames u; subst u) | with_reducible apply rset_keeps

theorem spareRestore_keeps {z : State} (s : State) (ctx : Nat) (area : List Byte) (h : Keeps z s) : Keeps z (spareRestore s ctx area) := by
  delta spareRestore
  extract_lets j a n l r table s1 s2 s3 s4 s5 z1 upTo steps replays j' s6
  have k1 : Keeps z s1 := landSheets_keeps _ _ _ h
  clear_value s1
  have k2 : Keeps z s2 := Keeps.foldl _ (fun _ _ k => tableReg_keeps _ _ _ k) k1
  clear_value s2
  have k3 : Keeps z s3 := Keeps.ite (Keeps.foldl _ (fun _ _ k => tableReg_keeps _ _ _ k) k2) k2
  clear_value s3
  have k4 : Keeps z s4 := rfld_keeps _ _ _ _ _ k3
  clear_value s4
  have k5 : Keeps z s5 := Keeps.foldl _ (fun _ _ k => setList_keeps _ _ _ k) k4
  clear_value s5
  have k6 : Keeps z s6 := fresh_keeps _ (clearDirty_keeps _ _ (setJob_keeps _ _ _ k5))
  clear_value s6
  exact Keeps.ite (rflag_keeps _ _ _ _ k6) k6

theorem partnerRestore_keeps {z : State} (s : State) (ctx : Nat) (sheets : List (BitVec 48 × List Byte)) (area : List Byte)  (h : Keeps z s) : Keeps z (partnerRestore s ctx sheets area) := by
  delta partnerRestore
  repeat' first
    | with_reducible assumption | with_reducible apply restoreDoneJob_keeps | with_reducible apply spareRestore_keeps
    | with_reducible apply swapGo_keeps | with_reducible apply Keeps.ite

theorem areaPut_keeps {z : State} (s : State) (off : Nat) (l : List Byte)  (h : Keeps z s) : Keeps z (areaPut s off l) := by
  delta areaPut
  repeat' first
    | with_reducible assumption | with_reducible apply land_keeps | with_reducible apply pass_keeps
    | with_reducible apply withDirty_keeps | split

theorem setWard_keeps {z : State} (s : State) (w : Ward)  (h : Keeps z s) : Keeps z (setWard s w) := by
  delta setWard
  repeat' first
    | with_reducible assumption | simp only [keeps_mk]

theorem ckpHeld_keeps {z : State} (s : State) (step : Nat)  (h : Keeps z s) : Keeps z (ckpHeld s step) := by
  delta ckpHeld
  repeat' first
    | with_reducible assumption | (extract_lets +onlyGivenNames u; subst u) | with_reducible apply setWard_keeps
    | with_reducible apply Keeps.ite

theorem wardAck_keeps {z : State} (s : State) (step : Nat)  (h : Keeps z s) : Keeps z (wardAck s step) := by
  delta wardAck
  repeat' first
    | with_reducible assumption | (extract_lets +onlyGivenNames u; subst u) | with_reducible apply setWard_keeps
    | with_reducible apply Keeps.ite

theorem applySheet_keeps {z : State} (j : Job) (full : Bool) (s : State) (x : Nat × Nat)  (h : Keeps z s) : Keeps z (applySheet j full s x) := by
  delta applySheet
  repeat' first
    | with_reducible assumption
    | (extract_lets +onlyGivenNames u; refine (fun (_ : Keeps z u) => ?_) ?_; clear_value u; rotate_left; subst u)
    | (extract_lets +onlyGivenNames u; subst u) | with_reducible apply areaPut_keeps | with_reducible apply Keeps.ite | split

theorem liveToBase_keeps {z : State} (s : State) (j : Job)  (h : Keeps z s) : Keeps z (liveToBase s j) := by
  delta liveToBase
  repeat' first
    | with_reducible assumption | (extract_lets +onlyGivenNames u; subst u) | with_reducible apply areaPut_keeps | dsimp -zeta only
    | split | (apply Keeps.foldl; intro _ _ _)

theorem archiveDue_keeps {z : State} (s : State) (j : Job) (step : Nat)  (h : Keeps z s) : Keeps z (archiveDue s j step) := by
  delta archiveDue
  repeat' first
    | with_reducible assumption | (extract_lets +onlyGivenNames u; subst u) | with_reducible apply fresh_keeps
    | with_reducible apply raise_keeps | with_reducible apply setWard_keeps | with_reducible apply Keeps.ite | split

theorem applyDone_keeps {z : State} (s : State)  (h : Keeps z s) : Keeps z (applyDone s) := by
  delta applyDone
  repeat' first
    | with_reducible assumption
    | (extract_lets +onlyGivenNames u; refine (fun (_ : Keeps z u) => ?_) ?_; clear_value u; rotate_left; subst u)
    | (extract_lets +onlyGivenNames u; subst u) | with_reducible apply fresh_keeps | with_reducible apply applySheet_keeps
    | with_reducible apply archiveDue_keeps | with_reducible apply areaPut_keeps | with_reducible apply liveToBase_keeps
    | with_reducible apply setWard_keeps | with_reducible apply Keeps.ite | split | (apply Keeps.foldl; intro _ _ _)

theorem wardFor_keeps {z : State} (s : State) (w : BitVec 64)  (h : Keeps z s) : Keeps z (wardFor s w) := by
  delta wardFor
  repeat' first
    | with_reducible assumption | (extract_lets +onlyGivenNames u; subst u) | with_reducible apply rset_keeps
    | with_reducible apply setWard_keeps | with_reducible apply Keeps.ite

theorem wardArm_keeps {z : State} (s : State) (v : BitVec 64)  (h : Keeps z s) : Keeps z (wardArm s v) := by
  delta wardArm
  repeat' first
    | with_reducible assumption
    | (extract_lets +onlyGivenNames u; refine (fun (_ : Keeps z u) => ?_) ?_; clear_value u; rotate_left; subst u)
    | (extract_lets +onlyGivenNames u; subst u) | with_reducible apply rflag_keeps | with_reducible apply rset_keeps
    | with_reducible apply setWard_keeps | with_reducible apply wardFor_keeps | with_reducible apply Keeps.ite

theorem putArchive_keeps {z : State} (s : State) (a : Nat) (l : List Byte) (h : Keeps z s) : Keeps z (putArchive s a l) :=
  h.trans ⟨rfl, fun c => ⟨c.cells, c.dirty, c.poison, c.bells, c.regs, c.host,
    twf_foldl_tset (df := fun _ => (0 : Byte)) (l.zip (upto a l.length)) (fun x => x.2) (fun _ x => x.1) c.archive, c.cal, c.entries⟩⟩

theorem extentMove_keeps {z : State} (s : State) (write : Bool) (extent : Nat) (addr : Nat) (ok : Bool) (h : Keeps z s) :
    Keeps z (extentMove s write extent addr ok) := by
  have reply : ∀ u r, Keeps z u → Keeps z { u with reply := r } := fun u r k => Keeps.upd (s := u) rfl rfl rfl rfl rfl rfl rfl rfl rfl k
  delta extentMove
  extract_lets n
  split
  · exact reply _ _ (putArchive_keeps _ _ _ h)
  · exact Keeps.ite h (Keeps.ite (reply _ _ h) (Keeps.ite (reply _ _ (putArchive_keeps _ _ _ (fresh_keeps _ (pass_keeps _ _ _ h))))
      (reply _ _ (landBytes_keeps _ _ _ h))))

theorem extentDone_keeps {z : State} (s : State) (write : Bool) (extent : Nat) (addr : Nat) (ok : Bool)  (h : Keeps z s) : Keeps z (extentDone s write extent addr ok) := by
  delta extentDone
  repeat' first
    | with_reducible assumption | (extract_lets +onlyGivenNames u; subst u) | with_reducible apply extentMove_keeps
    | with_reducible apply Keeps.ite | simp only [keeps_mk]

theorem setDone_keeps {z : State} (s : State)  (h : Keeps z s) : Keeps z (setDone s) := by
  delta setDone
  repeat' first
    | with_reducible assumption | (extract_lets +onlyGivenNames u; subst u) | with_reducible apply putArchive_keeps
    | with_reducible apply raise_keeps | with_reducible apply rset_keeps | with_reducible apply setWard_keeps | dsimp only | split

theorem uploadDone_keeps {z : State} (s : State) (ok : Bool)  (h : Keeps z s) : Keeps z (uploadDone s ok) := by
  delta uploadDone
  repeat' first
    | with_reducible assumption | (extract_lets +onlyGivenNames u; subst u) | with_reducible apply raise_keeps
    | with_reducible apply setWard_keeps | with_reducible apply Keeps.ite | split

theorem hallBack_keeps {z : State} (s : State) (a : Nat)  (h : Keeps z s) : Keeps z (hallBack s a) := by
  delta hallBack
  repeat' first
    | with_reducible assumption | (extract_lets +onlyGivenNames u; subst u) | simp only [keeps_mk]

theorem patrol_keeps {z : State} (s : State) (addr : Nat) (uncorrectable hall : Bool)  (h : Keeps z s) : Keeps z (patrol s addr uncorrectable hall) := by
  delta patrol
  repeat' first
    | with_reducible assumption | (extract_lets +onlyGivenNames u; subst u) | with_reducible apply countTal_keeps
    | with_reducible apply hallBack_keeps | with_reducible apply Keeps.ite | simp only [keeps_mk]
    | with_reducible apply keeps_mk_poison

theorem takeJob_keeps {z : State} (s : State) (op : BitVec 16) (c : HostCmd) (masks : List Nat) (legal : Bool) (body : State → Nat → State) (hbody : ∀ u0 u1, Keeps z u0 → Keeps z (body u0 u1)) (h : Keeps z s) : Keeps z (takeJob s op c masks legal body) := by
  delta takeJob
  repeat' first
    | with_reducible assumption | intro _ | with_reducible apply hbody | with_reducible apply endNow_keeps
    | with_reducible apply setJob_keeps | with_reducible apply takeCmd_keeps | with_reducible apply Keeps.ite | dsimp only | split

theorem withJob_keeps {z : State} (s : State) (op : BitVec 16) (c : HostCmd) (ctx : Nat) (body : Job → State) (hbody : ∀ u0, Keeps z (body u0)) (h : Keeps z s) : Keeps z (withJob s op c ctx body) := by
  delta withJob
  repeat' first
    | with_reducible assumption | with_reducible apply hbody | with_reducible apply endNow_keeps | split

theorem destroy_keeps {z : State} (s : State) (c : HostCmd) (ctx : Nat)  (h : Keeps z s) : Keeps z (destroy s c ctx) := by
  delta destroy
  repeat' first
    | with_reducible assumption
    | (extract_lets +onlyGivenNames u; refine (fun (_ : Keeps z u) => ?_) ?_; clear_value u; rotate_left; subst u)
    | (extract_lets +onlyGivenNames u; subst u) | with_reducible apply fresh_keeps | with_reducible apply endCtl_keeps
    | with_reducible apply endNow_keeps | with_reducible apply setJob_keeps

theorem resumeCmd_keeps {z : State} (s : State) (c : HostCmd) (ctx : Nat) (j : Job)  (h : Keeps z s) : Keeps z (resumeCmd s c ctx j) := by
  delta resumeCmd
  repeat' first
    | with_reducible assumption | (extract_lets +onlyGivenNames u; subst u) | with_reducible apply endNow_keeps
    | with_reducible apply resumeJob_keeps | with_reducible apply Keeps.ite

theorem skipCmd_keeps {z : State} (s : State) (c : HostCmd) (ctx : Nat) (j : Job)  (h : Keeps z s) : Keeps z (skipCmd s c ctx j) := by
  delta skipCmd
  repeat' first
    | with_reducible assumption | with_reducible apply endNow_keeps | with_reducible apply skipJob_keeps
    | with_reducible apply Keeps.ite

theorem execCreate_keeps {z : State} (c : HostCmd) (s : State) (h : Keeps z s) : KeepsO z (execCreate c s) := by
  delta execCreate
  repeat' first
    | with_reducible assumption | intro _ | with_reducible apply create_keeps | with_reducible apply takeJob_keeps
    | with_reducible apply keepsO_next

theorem execCreateFrom_keeps {z : State} (c : HostCmd) (s : State) (h : Keeps z s) : KeepsO z (execCreateFrom c s) := by
  delta execCreateFrom
  repeat' first
    | with_reducible assumption | intro _ | with_reducible apply createFrom_keeps | with_reducible apply takeJob_keeps
    | with_reducible apply keepsO_next

theorem execDestroy_keeps {z : State} (c : HostCmd) (s : State) (h : Keeps z s) : KeepsO z (execDestroy c s) := by
  delta execDestroy
  repeat' first
    | with_reducible assumption | intro _ | with_reducible apply destroy_keeps | with_reducible apply takeJob_keeps
    | with_reducible apply withJob_keeps | with_reducible apply keepsO_next

theorem execResume_keeps {z : State} (c : HostCmd) (s : State) (h : Keeps z s) : KeepsO z (execResume c s) := by
  delta execResume
  repeat' first
    | with_reducible assumption | intro _ | with_reducible apply resumeCmd_keeps | with_reducible apply takeJob_keeps
    | with_reducible apply withJob_keeps | with_reducible apply keepsO_next

theorem execSkip_keeps {z : State} (c : HostCmd) (s : State) (h : Keeps z s) : KeepsO z (execSkip c s) := by
  delta execSkip
  repeat' first
    | with_reducible assumption | intro _ | with_reducible apply skipCmd_keeps | with_reducible apply takeJob_keeps
    | with_reducible apply withJob_keeps | with_reducible apply keepsO_next

theorem execRemap_keeps {z : State} (c : HostCmd) (s : State) (h : Keeps z s) : KeepsO z (execRemap c s) := by
  delta execRemap
  repeat' first
    | with_reducible assumption | intro _ | with_reducible apply endNow_keeps | with_reducible apply takeJob_keeps
    | with_reducible apply keepsO_next

theorem execReplan_keeps {z : State} (c : HostCmd) (s : State) (h : Keeps z s) : KeepsO z (execReplan c s) := by
  delta execReplan
  repeat' first
    | with_reducible assumption | intro _ | with_reducible apply endNow_keeps | with_reducible apply takeJob_keeps
    | with_reducible apply keepsO_next

theorem execReplace_keeps {z : State} (c : HostCmd) (s : State) (h : Keeps z s) : KeepsO z (execReplace c s) := by
  delta execReplace
  repeat' first
    | with_reducible assumption | intro _ | with_reducible apply replace_keeps | with_reducible apply takeJob_keeps
    | with_reducible apply withJob_keeps | with_reducible apply keepsO_next

theorem execReplaceResume_keeps {z : State} (c : HostCmd) (s : State) (h : Keeps z s) : KeepsO z (execReplaceResume c s) := by
  delta execReplaceResume
  repeat' first
    | with_reducible assumption | intro _ | with_reducible apply replaceResume_keeps | with_reducible apply takeJob_keeps
    | with_reducible apply withJob_keeps | with_reducible apply keepsO_next

theorem execCkpStoreSet_keeps {z : State} (c : HostCmd) (s : State) (h : Keeps z s) : KeepsO z (execCkpStoreSet c s) := by
  delta execCkpStoreSet
  repeat' first
    | with_reducible assumption | intro _ | (extract_lets +onlyGivenNames u; subst u) | with_reducible apply fresh_keeps
    | with_reducible apply endNow_keeps | with_reducible apply setWard_keeps | with_reducible apply takeCmd_keeps
    | with_reducible apply keepsO_next

theorem execPartnerRestoreDone_keeps {z : State} (ctx : CtxNo) (sheets : List (BitVec 48 × List Byte)) (area : List Byte) (s : State) (h : Keeps z s) : KeepsO z (execPartnerRestoreDone ctx sheets area s) := by
  delta execPartnerRestoreDone
  repeat' first
    | with_reducible assumption | with_reducible apply partnerRestore_keeps | with_reducible apply keepsO_next

theorem execCkpHeld_keeps {z : State} (step : BitVec 32) (s : State) (h : Keeps z s) : KeepsO z (execCkpHeld step s) := by
  delta execCkpHeld
  repeat' first
    | with_reducible assumption | with_reducible apply ckpHeld_keeps | with_reducible apply keepsO_next

theorem execCkpAckRelease_keeps {z : State} (ctx : CtxNo) (step : BitVec 32) (s : State) (h : Keeps z s) : KeepsO z (execCkpAckRelease ctx step s) := by
  delta execCkpAckRelease
  repeat' first
    | with_reducible assumption | with_reducible apply seatAck_keeps | with_reducible apply wardAck_keeps
    | with_reducible apply keepsO_next

theorem execLandingApplyDone_keeps {z : State} (s : State) (h : Keeps z s) : KeepsO z (execLandingApplyDone s) := by
  delta execLandingApplyDone
  repeat' first
    | with_reducible assumption | with_reducible apply applyDone_keeps | with_reducible apply keepsO_next

theorem execEvtCkpLate_keeps {z : State} (ctx : CtxNo) (s : State) (h : Keeps z s) : KeepsO z (execEvtCkpLate ctx s) := by
  delta execEvtCkpLate
  repeat' first
    | with_reducible assumption | with_reducible apply ckpLate_keeps | with_reducible apply keepsO_next

theorem execArchiveExtentDone_keeps {z : State} (write : Bool) (extent : Nat) (addr : BitVec 48) (ok : Bool) (s : State) (h : Keeps z s) : KeepsO z (execArchiveExtentDone write extent addr ok s) := by
  delta execArchiveExtentDone
  repeat' first
    | with_reducible assumption | with_reducible apply extentDone_keeps | with_reducible apply keepsO_next

theorem execArchiveSetDone_keeps {z : State} (s : State) (h : Keeps z s) : KeepsO z (execArchiveSetDone s) := by
  delta execArchiveSetDone
  repeat' first
    | with_reducible assumption | with_reducible apply setDone_keeps | with_reducible apply keepsO_next

theorem execStoreUploadDone_keeps {z : State} (ok : Bool) (s : State) (h : Keeps z s) : KeepsO z (execStoreUploadDone ok s) := by
  delta execStoreUploadDone
  repeat' first
    | with_reducible assumption | with_reducible apply uploadDone_keeps | with_reducible apply keepsO_next

theorem execStoreRetry_keeps {z : State} (s : State) (h : Keeps z s) : KeepsO z (execStoreRetry s) := by
  delta execStoreRetry
  repeat' first
    | with_reducible assumption | (extract_lets +onlyGivenNames u; subst u) | with_reducible apply setWard_keeps
    | with_reducible apply keepsO_next

theorem execBuddyWrite_keeps {z : State} (buddy : BitVec 11) (valid : Bool) (s : State) (h : Keeps z s) : KeepsO z (execBuddyWrite buddy valid s) := by
  delta execBuddyWrite
  repeat' first
    | with_reducible assumption | with_reducible apply buddyWrite_keeps | with_reducible apply keepsO_next

theorem execWardArm_keeps {z : State} (v : BitVec 64) (s : State) (h : Keeps z s) : KeepsO z (execWardArm v s) := by
  delta execWardArm
  repeat' first
    | with_reducible assumption | with_reducible apply wardArm_keeps | with_reducible apply keepsO_next

theorem execReplayStep_keeps {z : State} (ctx : CtxNo) (s : State) (h : Keeps z s) : KeepsO z (execReplayStep ctx s) := by
  delta execReplayStep
  repeat' first
    | with_reducible assumption | with_reducible apply replayStep_keeps | with_reducible apply keepsO_next

theorem execPatrolScrub_keeps {z : State} (addr : BitVec 48) (e : FoundError) (s : State) (h : Keeps z s) : KeepsO z (execPatrolScrub addr e s) := by
  delta execPatrolScrub
  repeat' first
    | with_reducible assumption | with_reducible apply patrol_keeps | with_reducible apply keepsO_next

end Sys2Proof.Laws
end

