-- ==== Sys2Proof/Laws/KeepsHealth.lean ====
section
/-! SUPPORT. What the operations of Machine/Health.lean keep. -/
namespace Sys2Proof.Laws
open Sys2Proof.Machine Sys2Proof.Safety

theorem raiseHealth_keeps {z : State} (s : State) (code scope target v : Nat)  (h : Keeps z s) : Keeps z (raiseHealth s code scope target v) := by
  delta raiseHealth
  repeat' first
    | with_reducible assumption
    | (extract_lets +onlyGivenNames u; refine (fun (_ : Keeps z u) => ?_) ?_; clear_value u; rotate_left; subst u)
    | (extract_lets +onlyGivenNames u; subst u) | with_reducible apply raise_keeps | with_reducible apply Keeps.ite
    | simp only [keeps_mk]

theorem freezeTile_keeps {z : State} (s : State) (t : Nat)  (h : Keeps z s) : Keeps z (freezeTile s t) := by
  delta freezeTile
  repeat' first
    | with_reducible assumption
    | (extract_lets +onlyGivenNames u; refine (fun (_ : Keeps z u) => ?_) ?_; clear_value u; rotate_left; subst u)
    | (extract_lets +onlyGivenNames u; subst u) | with_reducible apply fresh_keeps | with_reducible apply land_keeps
    | with_reducible apply setTile_keeps | with_reducible apply touchWrites_keeps

theorem abortFor_keeps {z : State} (s : State) (ctx : Nat)  (h : Keeps z s) : Keeps z (abortFor s ctx) := by
  delta abortFor
  repeat' first
    | with_reducible assumption | with_reducible apply abortAttempt_keeps | with_reducible apply Keeps.ite | split

theorem quietTile_keeps {z : State} (s : State) (t reason : Nat)  (h : Keeps z s) : Keeps z (quietTile s t reason) := by
  delta quietTile
  repeat' first
    | with_reducible assumption
    | (extract_lets +onlyGivenNames u; refine (fun (_ : Keeps z u) => ?_) ?_; clear_value u; rotate_left; subst u)
    | with_reducible apply onTile_keeps | with_reducible apply abortFor_keeps | with_reducible apply freezeTile_keeps
    | with_reducible apply raiseHealth_keeps | with_reducible apply Keeps.ite

theorem quietLater_keeps {z : State} (s : State) (k reason : Nat)  (h : Keeps z s) : Keeps z (quietLater s k reason) := by
  delta quietLater
  repeat' first
    | with_reducible assumption
    | (extract_lets +onlyGivenNames u; refine (fun (_ : Keeps z u) => ?_) ?_; clear_value u; rotate_left; subst u)
    | (extract_lets +onlyGivenNames u; subst u) | with_reducible apply raiseHealth_keeps | with_reducible apply rfld_keeps
    | with_reducible apply Keeps.ite | simp only [keeps_mk]

theorem quietDie_keeps {z : State} (s : State) (d reason : Nat)  (h : Keeps z s) : Keeps z (quietDie s d reason) := by
  delta quietDie
  repeat' first
    | with_reducible assumption
    | (extract_lets +onlyGivenNames u; refine (fun (_ : Keeps z u) => ?_) ?_; clear_value u; rotate_left; subst u)
    | (extract_lets +onlyGivenNames u; subst u) | with_reducible apply abortFor_keeps | with_reducible apply freezeTile_keeps
    | with_reducible apply quietLater_keeps | with_reducible apply raiseHealth_keeps | with_reducible apply rflag_keeps
    | with_reducible apply rfld_keeps | with_reducible apply Keeps.ite | (apply Keeps.foldl; intro _ _ _)

theorem quietModule_keeps {z : State} (s : State) (reason : Nat)  (h : Keeps z s) : Keeps z (quietModule s reason) := by
  delta quietModule
  repeat' first
    | with_reducible assumption
    | (extract_lets +onlyGivenNames u; refine (fun (_ : Keeps z u) => ?_) ?_; clear_value u; rotate_left; subst u)
    | (extract_lets +onlyGivenNames u; subst u) | with_reducible apply abortFor_keeps | with_reducible apply freezeTile_keeps
    | with_reducible apply quietLater_keeps | with_reducible apply raiseHealth_keeps | with_reducible apply rfld_keeps
    | with_reducible apply signal_keeps | with_reducible apply Keeps.ite | simp only [keeps_mk] | (apply Keeps.foldl; intro _ _ _)

theorem storeBytes_keeps {z : State} (s : State) (a : Nat) (l : List Byte)  (h : Keeps z s) : Keeps z (storeBytes s a l) := by
  delta storeBytes
  repeat' first
    | with_reducible assumption | (extract_lets +onlyGivenNames u; subst u) | with_reducible apply touchWrites_keeps
    | with_reducible apply write_keeps

theorem noteCard_keeps {z : State} (s : State) (k kind : Nat) (tile : Option Nat)  (h : Keeps z s) : Keeps z (noteCard s k kind tile) := by
  delta noteCard
  repeat' first
    | with_reducible assumption | (extract_lets +onlyGivenNames u; subst u) | with_reducible apply rset_keeps

theorem captureDie_keeps {z : State} (s : State) (d : Nat)  (h : Keeps z s) : Keeps z (captureDie s d) := by
  delta captureDie
  repeat' first
    | with_reducible assumption | (extract_lets +onlyGivenNames u; subst u) | with_reducible apply fresh_keeps
    | with_reducible apply noteCard_keeps | with_reducible apply storeBytes_keeps

theorem capture_keeps {z : State} (s : State) (scope target : Nat) (h : Keeps z s) : Keeps z (capture s scope target) := by
  have hf : ∀ (l : List Nat), Keeps z (l.foldl captureDie s) := fun l => Keeps.foldl l (fun u d k => captureDie_keeps u d k) h
  delta capture
  extract_lets d r u
  have k : Keeps z u := by
    refine Keeps.ite (noteCard_keeps _ _ _ _ (storeBytes_keeps _ _ _ (storeBytes_keeps _ _ _ h))) ?_
    exact Keeps.ite (captureDie_keeps _ _ h) (noteCard_keeps _ _ _ _ (storeBytes_keeps _ _ _ (hf _)))
  clear_value u
  exact raiseHealth_keeps _ _ _ _ _ (by simpa only [State.fresh, keeps_mk] using k)

theorem collect_keeps {z : State} (s : State) (scope target : Nat)  (h : Keeps z s) : Keeps z (collect s scope target) := by
  delta collect
  repeat' first
    | with_reducible assumption
    | (extract_lets +onlyGivenNames u; refine (fun (_ : Keeps z u) => ?_) ?_; clear_value u; rotate_left; subst u)
    | (extract_lets +onlyGivenNames u; subst u) | with_reducible apply capture_keeps | with_reducible apply Keeps.ite
    | simp only [keeps_mk]

theorem captureNow_keeps {z : State} (s : State) (sc : Scope)  (h : Keeps z s) : Keeps z (captureNow s sc) := by
  delta captureNow
  repeat' first
    | with_reducible assumption | with_reducible apply onTile_keeps | with_reducible apply capture_keeps
    | with_reducible apply collect_keeps | dsimp -zeta only | with_reducible apply Keeps.ite

theorem setBusy_keeps {z : State} (s : State)  (h : Keeps z s) : Keeps z (setBusy s) := by
  delta setBusy
  repeat' first
    | with_reducible assumption | with_reducible apply rflag_keeps

theorem setRequest_keeps {z : State} (s : State) (scope target result : Nat)  (h : Keeps z s) : Keeps z (setRequest s scope target result) := by
  delta setRequest
  repeat' first
    | with_reducible assumption | with_reducible apply rset_keeps

theorem setResult_keeps {z : State} (s : State) (scope target result : Nat)  (h : Keeps z s) : Keeps z (setResult s scope target result) := by
  delta setResult
  repeat' first
    | with_reducible assumption | with_reducible apply rfld_keeps | with_reducible apply Keeps.ite

theorem supersede_keeps {z : State} (s : State) (t : Nat)  (h : Keeps z s) : Keeps z (supersede s t) := by
  delta supersede
  repeat' first
    | with_reducible assumption | with_reducible apply onTile_keeps | with_reducible apply setResult_keeps
    | with_reducible apply Keeps.ite

theorem startTileReset_keeps {z : State} (s : State) (t : Nat)  (h : Keeps z s) : Keeps z (startTileReset s t) := by
  delta startTileReset
  repeat' first
    | with_reducible assumption
    | (extract_lets +onlyGivenNames u; refine (fun (_ : Keeps z u) => ?_) ?_; clear_value u; rotate_left; subst u)
    | (extract_lets +onlyGivenNames u; subst u) | with_reducible apply onTile_keeps | with_reducible apply collect_keeps
    | with_reducible apply quietTile_keeps | with_reducible apply setBusy_keeps | with_reducible apply setRequest_keeps
    | simp only [keeps_mk]

theorem startPortReset_keeps {z : State} (s : State) (p : Nat)  (h : Keeps z s) : Keeps z (startPortReset s p) := by
  delta startPortReset
  repeat' first
    | with_reducible assumption
    | (extract_lets +onlyGivenNames u; refine (fun (_ : Keeps z u) => ?_) ?_; clear_value u; rotate_left; subst u)
    | (extract_lets +onlyGivenNames u; subst u) | with_reducible apply portDown_keeps | with_reducible apply portTrain_keeps
    | with_reducible apply raiseHealth_keeps | with_reducible apply rset_keeps | with_reducible apply setBusy_keeps
    | with_reducible apply setPort_keeps | with_reducible apply setRequest_keeps | with_reducible apply setResult_keeps
    | with_reducible apply Keeps.ite | simp only [keeps_mk]

theorem startDieReset_keeps {z : State} (s : State) (d : Nat) (h : Keeps z s) : Keeps z (startDieReset s d) := by
  rw [startDieReset]
  refine setBusy_keeps _ ?_
  simp only [keeps_mk]
  exact Keeps.foldl _ (fun _ _ k => supersede_keeps _ _ k) (collect_keeps _ _ _ (evictDie_keeps _ _ (quietDie_keeps _ _ _ h)))

theorem request_keeps {z : State} (s : State) (scope target : Nat)  (h : Keeps z s) : Keeps z (request s scope target) := by
  delta request
  repeat' first
    | with_reducible assumption | (extract_lets +onlyGivenNames u; subst u) | with_reducible apply setRequest_keeps
    | with_reducible apply startDieReset_keeps | with_reducible apply startPortReset_keeps | with_reducible apply startTileReset_keeps
    | with_reducible apply Keeps.ite | simp only [keeps_mk] | split

theorem autoDie_keeps {z : State} (s : State) (d : Nat)  (h : Keeps z s) : Keeps z (autoDie s d) := by
  delta autoDie
  repeat' first
    | with_reducible assumption | with_reducible apply request_keeps | with_reducible apply Keeps.ite

theorem dieFault_keeps {z : State} (s : State) (d reason : Nat)  (h : Keeps z s) : Keeps z (dieFault s d reason) := by
  delta dieFault
  repeat' first
    | with_reducible assumption | with_reducible apply autoDie_keeps | with_reducible apply quietDie_keeps

theorem firedFault_keeps {z : State} (s : State) (t reason : Nat)  (h : Keeps z s) : Keeps z (firedFault s t reason) := by
  delta firedFault
  repeat' first
    | with_reducible assumption | (extract_lets +onlyGivenNames u; subst u) | with_reducible apply dieFault_keeps
    | simp only [keeps_mk]

theorem autoTile_keeps {z : State} (s : State) (t : Nat)  (h : Keeps z s) : Keeps z (autoTile s t) := by
  delta autoTile
  repeat' first
    | with_reducible assumption | with_reducible apply request_keeps | with_reducible apply Keeps.ite

theorem portWarning_keeps {z : State} (s : State) (p : Nat)  (h : Keeps z s) : Keeps z (portWarning s p) := by
  delta portWarning
  repeat' first
    | with_reducible assumption | with_reducible apply rset_keeps

theorem resetNow_keeps {z : State} (s : State) (t : Nat)  (h : Keeps z s) : Keeps z (resetNow s t) := by
  delta resetNow
  repeat' first
    | with_reducible assumption
    | (extract_lets +onlyGivenNames u; refine (fun (_ : Keeps z u) => ?_) ?_; clear_value u; rotate_left; subst u)
    | (extract_lets +onlyGivenNames u; subst u) | with_reducible apply onTile_keeps | with_reducible apply clearTile_keeps
    | with_reducible apply collect_keeps | with_reducible apply freezeTile_keeps | with_reducible apply raiseHealth_keeps
    | simp only [keeps_mk]

theorem tileAfter_keeps {z : State} (s : State) (t : Nat)  (h : Keeps z s) : Keeps z (tileAfter s t) := by
  delta tileAfter
  repeat' first
    | with_reducible assumption | (extract_lets +onlyGivenNames u; subst u) | with_reducible apply onTile_keeps
    | with_reducible apply clearTile_keeps

theorem restartLost_keeps {z : State} (s : State) (ctxs : List Nat)  (h : Keeps z s) : Keeps z (restartLost s ctxs) := by
  delta restartLost
  repeat' first
    | with_reducible assumption | with_reducible apply restartFaulted_keeps | with_reducible apply Keeps.ite | split
    | (apply Keeps.foldl; intro _ _ _)

theorem restartCtxs_keeps {z : State} (s : State) (ctxs : List Nat)  (h : Keeps z s) : Keeps z (restartCtxs s ctxs) := by
  delta restartCtxs
  repeat' first
    | with_reducible assumption | with_reducible apply restartTile_keeps | with_reducible apply Keeps.ite | split
    | (apply Keeps.foldl; intro _ _ _)

theorem clearCard_keeps {z : State} (s : State) (k : Nat)  (h : Keeps z s) : Keeps z (clearCard s k) := by
  delta clearCard
  repeat' first
    | with_reducible assumption | (extract_lets +onlyGivenNames u; subst u) | simp only [keeps_mk]

theorem tileResetDone_keeps {z : State} (s : State) (t : Nat)  (h : Keeps z s) : Keeps z (tileResetDone s t) := by
  delta tileResetDone
  repeat' first
    | with_reducible assumption
    | (extract_lets +onlyGivenNames u; refine (fun (_ : Keeps z u) => ?_) ?_; clear_value u; rotate_left; subst u)
    | with_reducible apply clearCard_keeps | with_reducible apply raiseHealth_keeps | with_reducible apply restartLost_keeps
    | with_reducible apply setBusy_keeps | with_reducible apply setResult_keeps | with_reducible apply tileAfter_keeps
    | with_reducible apply Keeps.ite

theorem tileResetTimeout_keeps {z : State} (s : State) (t : Nat)  (h : Keeps z s) : Keeps z (tileResetTimeout s t) := by
  delta tileResetTimeout
  repeat' first
    | with_reducible assumption | with_reducible apply firedFault_keeps | with_reducible apply raiseHealth_keeps
    | with_reducible apply rflag_keeps | with_reducible apply Keeps.ite

theorem nextDie_keeps {z : State} (s : State)  (h : Keeps z s) : Keeps z (nextDie s) := by
  delta nextDie
  repeat' first
    | with_reducible assumption | (extract_lets +onlyGivenNames u; subst u) | with_reducible apply setResult_keeps
    | with_reducible apply startDieReset_keeps | simp only [keeps_mk] | split

theorem foldl_poison_ok {β : Type} (l : List β) (a : β → Nat) (n : Nat) {m : Mem} (h : MemOk m) :
    MemOk (l.foldl (fun m k => memPoison m (a k) n) m) := by
  induction l generalizing m with
  | nil => exact h
  | cons k l ih => exact ih (memPoison_ok _ _ h)

theorem cleanDie_keeps {z : State} (s : State) (d : Nat) (h : Keeps z s) : Keeps z (cleanDie s d) := by
  delta cleanDie
  extract_lets lost
  clear_value lost
  generalize List.range 8 = r
  have key : ∀ m, MemOk m → MemOk (lost.foldl (fun m l => r.foldl (fun m k => memPoison m (256 * l.line + 32 * k) 32) m) m) := by
    induction lost with
    | nil => exact fun _ hm => hm
    | cons l ls ih => exact fun m hm => ih _ (foldl_poison_ok r (fun k => 256 * l.line + 32 * k) 32 hm)
  exact Keeps.upd (s := { s with m := _ }) rfl rfl rfl rfl rfl rfl rfl rfl rfl (h.mem (fun c => canon_setMem c (key _ (memOk_of_canon c))))

theorem clearDie_keeps {z : State} (s : State) (d : Nat) (h : Keeps z s) : Keeps z (clearDie s d) := by
  rw [clearDie]
  have key : ∀ (u : State) (hall : Tab (List HLine)) (sys : Sys), sys.cal = u.sys.cal → Keeps z u →
      Keeps z { u with bells := tclear u.bells (d * 65536) ((d + 1) * 65536),
                       m := { memClear u.m (slateOf (96 * d)) (slateOf (96 * d) + 96 * slateWin) with hall := hall }, sys := sys } :=
    fun u hall sys hs k => k.trans ⟨rfl, fun c =>
      let km := memClear_ok (slateOf (96 * d)) (slateOf (96 * d) + 96 * slateWin) (memOk_of_canon c)
      ⟨km.1, km.2.1, km.2.2, twf_tclear _ _ c.bells, c.regs, c.host, c.archive, hs ▸ c.cal, c.entries⟩⟩
  exact key _ _ _ rfl (Keeps.foldl _ (fun _ _ k => Keeps.ite k (setEntry_keeps _ _ _ k)) (Keeps.foldl _ (fun _ _ k => tileAfter_keeps _ _ k) h))

theorem dieResetDone_keeps {z : State} (s : State) (d : Nat)  (h : Keeps z s) : Keeps z (dieResetDone s d) := by
  delta dieResetDone
  repeat' first
    | with_reducible assumption
    | (extract_lets +onlyGivenNames u; refine (fun (_ : Keeps z u) => ?_) ?_; clear_value u; rotate_left; subst u)
    | (extract_lets +onlyGivenNames u; subst u) | with_reducible apply autoDie_keeps | with_reducible apply cleanDie_keeps
    | with_reducible apply clearDie_keeps | with_reducible apply nextDie_keeps | with_reducible apply raiseHealth_keeps
    | with_reducible apply restartCtxs_keeps | with_reducible apply restartLost_keeps | with_reducible apply rflag_keeps
    | with_reducible apply rfld_keeps | with_reducible apply setBusy_keeps | with_reducible apply setResult_keeps
    | with_reducible apply Keeps.ite | simp only [keeps_mk]

theorem portResetDone_keeps {z : State} (s : State) (p : Nat)  (h : Keeps z s) : Keeps z (portResetDone s p) := by
  delta portResetDone
  repeat' first
    | with_reducible assumption
    | (extract_lets +onlyGivenNames u; refine (fun (_ : Keeps z u) => ?_) ?_; clear_value u; rotate_left; subst u)
    | (extract_lets +onlyGivenNames u; subst u) | with_reducible apply raiseHealth_keeps | with_reducible apply setBusy_keeps
    | with_reducible apply setResult_keeps | with_reducible apply Keeps.ite | simp only [keeps_mk]

theorem engineHang_keeps {z : State} (s : State) (t q : Nat)  (h : Keeps z s) : Keeps z (engineHang s t q) := by
  delta engineHang
  repeat' first
    | with_reducible assumption
    | (extract_lets +onlyGivenNames u; refine (fun (_ : Keeps z u) => ?_) ?_; clear_value u; rotate_left; subst u)
    | with_reducible apply autoTile_keeps | with_reducible apply firedFault_keeps | with_reducible apply quietTile_keeps
    | with_reducible apply raiseHealth_keeps | with_reducible apply Keeps.ite

theorem monitorLoss_keeps {z : State} (s : State) (d core : Nat)  (h : Keeps z s) : Keeps z (monitorLoss s d core) := by
  delta monitorLoss
  repeat' first
    | with_reducible assumption
    | (extract_lets +onlyGivenNames u; refine (fun (_ : Keeps z u) => ?_) ?_; clear_value u; rotate_left; subst u)
    | (extract_lets +onlyGivenNames u; subst u) | with_reducible apply dieFault_keeps | with_reducible apply Keeps.ite
    | simp only [keeps_mk]

theorem assignServices_keeps {z : State} (s : State) (h : Keeps z s) : Keeps z (assignServices s) := by
  rw [assignServices]
  exact Keeps.foldl _ (fun _ _ k => rfld_keeps _ _ _ _ _ k) (Keeps.upd (s := s) rfl rfl rfl rfl rfl rfl rfl rfl rfl h)

theorem moveServices_keeps {z : State} (s : State) (k : Nat) (services : Nat)  (h : Keeps z s) : Keeps z (moveServices s k services) := by
  delta moveServices
  repeat' first
    | with_reducible assumption | (extract_lets +onlyGivenNames u; subst u) | with_reducible apply fresh_keeps
    | with_reducible apply rfld_keeps | with_reducible apply Keeps.ite

theorem losePrefect_keeps {z : State} (s : State) (k : Nat)  (h : Keeps z s) : Keeps z (losePrefect s k) := by
  delta losePrefect
  repeat' first
    | with_reducible assumption
    | (extract_lets +onlyGivenNames u; refine (fun (_ : Keeps z u) => ?_) ?_; clear_value u; rotate_left; subst u)
    | (extract_lets +onlyGivenNames u; subst u) | with_reducible apply moveServices_keeps | with_reducible apply raiseHealth_keeps
    | with_reducible apply rset_keeps | simp only [keeps_mk]

theorem prefectDone_keeps {z : State} (s : State) (k : Nat)  (h : Keeps z s) : Keeps z (prefectDone s k) := by
  delta prefectDone
  repeat' first
    | with_reducible assumption | (extract_lets +onlyGivenNames u; subst u) | with_reducible apply assignServices_keeps
    | with_reducible apply rflag_keeps | with_reducible apply Keeps.ite | simp only [keeps_mk]

theorem wdogPet_keeps {z : State} (s : State)  (h : Keeps z s) : Keeps z (wdogPet s) := by
  delta wdogPet
  repeat' first
    | with_reducible assumption | (extract_lets +onlyGivenNames u; subst u) | simp only [keeps_mk]

theorem portHang_keeps {z : State} (s : State) (p : Nat)  (h : Keeps z s) : Keeps z (portHang s p) := by
  delta portHang
  repeat' first
    | with_reducible assumption
    | (extract_lets +onlyGivenNames u; refine (fun (_ : Keeps z u) => ?_) ?_; clear_value u; rotate_left; subst u)
    | with_reducible apply portEvent_keeps | with_reducible apply request_keeps | with_reducible apply Keeps.ite

theorem dieReq_keeps {z : State} (s : State) (mask : BitVec 8)  (h : Keeps z s) : Keeps z (dieReq s mask) := by
  delta dieReq
  repeat' first
    | with_reducible assumption | with_reducible apply dieFault_keeps | with_reducible apply Keeps.ite
    | (apply Keeps.foldl; intro _ _ _)

theorem rcAck_keeps {z : State} (s : State) (k : Nat)  (h : Keeps z s) : Keeps z (rcAck s k) := by
  delta rcAck
  repeat' first
    | with_reducible assumption | with_reducible apply rflag_keeps

theorem execTileReset_keeps {z : State} (t : TileNo) (s : State) (h : Keeps z s) : KeepsO z (execTileReset t s) := by
  delta execTileReset
  repeat' first
    | with_reducible assumption | with_reducible apply request_keeps | with_reducible apply keepsO_next

theorem execTileResetDone_keeps {z : State} (t : TileNo) (s : State) (h : Keeps z s) : KeepsO z (execTileResetDone t s) := by
  delta execTileResetDone
  repeat' first
    | with_reducible assumption | with_reducible apply tileResetDone_keeps | with_reducible apply keepsO_next

theorem execTileResetTimeout_keeps {z : State} (t : TileNo) (s : State) (h : Keeps z s) : KeepsO z (execTileResetTimeout t s) := by
  delta execTileResetTimeout
  repeat' first
    | with_reducible assumption | with_reducible apply tileResetTimeout_keeps | with_reducible apply keepsO_next

theorem execEngineHang_keeps {z : State} (t : TileNo) (q : Fin 6) (s : State) (h : Keeps z s) : KeepsO z (execEngineHang t q s) := by
  delta execEngineHang
  repeat' first
    | with_reducible assumption | with_reducible apply engineHang_keeps | with_reducible apply keepsO_next

theorem execMonitorHeartbeatLoss_keeps {z : State} (d : DieNo) (core : Fin 2) (s : State) (h : Keeps z s) : KeepsO z (execMonitorHeartbeatLoss d core s) := by
  delta execMonitorHeartbeatLoss
  repeat' first
    | with_reducible assumption | with_reducible apply monitorLoss_keeps | with_reducible apply keepsO_next

theorem execPrefectResetDone_keeps {z : State} (k : Fin 16) (s : State) (h : Keeps z s) : KeepsO z (execPrefectResetDone k s) := by
  delta execPrefectResetDone
  repeat' first
    | with_reducible assumption | with_reducible apply prefectDone_keeps | with_reducible apply keepsO_next

theorem execWdogPet_keeps {z : State} (s : State) (h : Keeps z s) : KeepsO z (execWdogPet s) := by
  delta execWdogPet
  repeat' first
    | with_reducible assumption | with_reducible apply wdogPet_keeps | with_reducible apply keepsO_next

theorem execEvtPortHang_keeps {z : State} (p : PortNo) (s : State) (h : Keeps z s) : KeepsO z (execEvtPortHang p s) := by
  delta execEvtPortHang
  repeat' first
    | with_reducible assumption | with_reducible apply portHang_keeps | with_reducible apply keepsO_next

theorem execDieReq_keeps {z : State} (mask : BitVec 8) (s : State) (h : Keeps z s) : KeepsO z (execDieReq mask s) := by
  delta execDieReq
  repeat' first
    | with_reducible assumption | with_reducible apply dieReq_keeps | with_reducible apply keepsO_next

theorem execReportCardCapture_keeps {z : State} (sc : Scope) (s : State) (h : Keeps z s) : KeepsO z (execReportCardCapture sc s) := by
  delta execReportCardCapture
  repeat' first
    | with_reducible assumption | with_reducible apply captureNow_keeps | with_reducible apply keepsO_next

theorem execRcAck_keeps {z : State} (k : Fin 9) (s : State) (h : Keeps z s) : KeepsO z (execRcAck k s) := by
  delta execRcAck
  repeat' first
    | with_reducible assumption | with_reducible apply rcAck_keeps | with_reducible apply keepsO_next

theorem execPortReset_keeps {z : State} (p : PortNo) (s : State) (h : Keeps z s) : KeepsO z (execPortReset p s) := by
  delta execPortReset
  repeat' first
    | with_reducible assumption | with_reducible apply request_keeps | with_reducible apply keepsO_next

theorem execDieReset_keeps {z : State} (d : DieNo) (s : State) (h : Keeps z s) : KeepsO z (execDieReset d s) := by
  delta execDieReset
  repeat' first
    | with_reducible assumption | with_reducible apply request_keeps | with_reducible apply keepsO_next

theorem execDieResetDone_keeps {z : State} (d : DieNo) (s : State) (h : Keeps z s) : KeepsO z (execDieResetDone d s) := by
  delta execDieResetDone
  repeat' first
    | with_reducible assumption | with_reducible apply dieResetDone_keeps | with_reducible apply keepsO_next

theorem execDieControlUncorrectable_keeps {z : State} (d : DieNo) (s : State) (h : Keeps z s) : KeepsO z (execDieControlUncorrectable d s) := by
  delta execDieControlUncorrectable
  repeat' first
    | with_reducible assumption | with_reducible apply dieFault_keeps | with_reducible apply keepsO_next

theorem execPortTrained_keeps {z : State} (p : PortNo) (ok : Bool) (s : State) (h : Keeps z s) : KeepsO z (execPortTrained p ok s) := by
  delta execPortTrained
  repeat' first
    | with_reducible assumption | (extract_lets +onlyGivenNames u; subst u) | with_reducible apply portResetDone_keeps
    | with_reducible apply portWarning_keeps | with_reducible apply setPort_keeps | with_reducible apply setPortState_keeps
    | with_reducible apply keepsO_next | with_reducible apply Keeps.ite

end Sys2Proof.Laws
end

