-- ==== Sys2Proof/Laws/KeepsPower.lean ====
section
/-! SUPPORT. What the operations of Machine/Power.lean keep. -/
namespace Sys2Proof.Laws
open Sys2Proof.Machine Sys2Proof.Safety

theorem calProgram_keeps {z : State} (s : State) (j : CalJob)  (h : Keeps z s) : Keeps z (calProgram s j) := by
  delta calProgram
  repeat' first
    | with_reducible assumption | (extract_lets +onlyGivenNames u; subst u) | with_reducible apply rflag_keeps | simp only [keeps_mk]

theorem calWrite_keeps {z : State} (s : State) (image : List Byte)  (h : Keeps z s) : Keeps z (calWrite s image).1 := by
  delta calWrite
  repeat' first
    | with_reducible assumption | with_reducible apply calProgram_keeps | split

theorem calCapture_keeps {z : State} (s : State)  (h : Keeps z s) : Keeps z (calCapture s).1 := by
  delta calCapture
  repeat' first
    | with_reducible assumption | with_reducible apply calProgram_keeps | split

theorem calDone_keeps {z : State} (s : State) (h : Keeps z s) : Keeps z (calDone s) := by
  rw [calDone]
  split
  · exact h
  · next j e =>
    refine endWhere_keeps _ _ _ _ (rflag_keeps _ _ _ _ (rflag_keeps _ _ _ _ ?_))
    exact h.trans ⟨rfl, fun c => ⟨c.cells, c.dirty, c.poison, c.bells, c.regs, c.host, c.archive,
      twf_foldl_tset (df := fun _ => (0 : Byte)) (j.image.zip (List.range j.image.length)) (fun x => x.2) (fun _ x => x.1) rfl, c.entries⟩⟩

theorem keepRegs_ok (s : State) (keep : Nat → Nat) : twf regReset (keepRegs s keep) = true :=
  twf_foldl_tset (df := regReset) s.regs (fun e => e.1)
    (fun _ e => (regReset e.1 &&& ~~~(BitVec.ofNat 64 (keep e.1))) ||| (e.2 &&& BitVec.ofNat 64 (keep e.1))) rfl

theorem clearAll_keeps {z : State} (s : State) (m : Mem) (regs : Tab (BitVec 64)) (hm : MemOk s.m → MemOk m)
    (hr : twf regReset regs = true) (h : Keeps z s) : Keeps z (clearAll s m regs) :=
  h.trans ⟨rfl, fun c =>
    let km := hm (memOk_of_canon c)
    ⟨km.1, km.2.1, km.2.2, rfl, hr, c.host, c.archive, c.cal, rfl⟩⟩

theorem leaveExtest_keeps {z : State} (s : State)  (h : Keeps z s) : Keeps z (leaveExtest s) := by
  delta leaveExtest
  repeat' first
    | with_reducible assumption | (extract_lets +onlyGivenNames u; subst u) | with_reducible apply Keeps.ite | simp only [keeps_mk]

theorem resetModule_keeps {z : State} (s : State) (h : Keeps z s) : Keeps z (resetModule s) := by
  delta resetModule
  extract_lets m keep s1 src s2 s3
  have k1 : Keeps z s1 := clearAll_keeps _ _ _ (fun c => ⟨twf_filter _ c.1, rfl, twf_filter _ c.2.2⟩) (keepRegs_ok _ _) h
  clear_value s1
  have k2 : Keeps z s2 := Keeps.upd (s := s1) rfl rfl rfl rfl rfl rfl rfl rfl rfl k1
  clear_value s2
  have k3 : Keeps z s3 := rflag_keeps _ _ _ _ (rfld_keeps _ _ _ _ _ k2)
  clear_value s3
  exact setBusy_keeps _ (setRequest_keeps _ _ _ _ (Keeps.ite (leaveExtest_keeps _ k3) k3))

theorem beginModuleReset_keeps {z : State} (s : State)  (h : Keeps z s) : Keeps z (beginModuleReset s) := by
  delta beginModuleReset
  repeat' first
    | with_reducible assumption | with_reducible apply collect_keeps | with_reducible apply quietModule_keeps
    | with_reducible apply resetModule_keeps | with_reducible apply Keeps.ite

theorem requestModule_keeps {z : State} (s : State)  (h : Keeps z s) : Keeps z (requestModule s) := by
  delta requestModule
  repeat' first
    | with_reducible assumption | (extract_lets +onlyGivenNames u; subst u) | with_reducible apply beginModuleReset_keeps
    | with_reducible apply setRequest_keeps | with_reducible apply Keeps.ite | simp only [keeps_mk]

theorem inputBack_keeps {z : State} (s : State)  (h : Keeps z s) : Keeps z (inputBack s) := by
  delta inputBack
  repeat' first
    | with_reducible assumption
    | (extract_lets +onlyGivenNames u; refine (fun (_ : Keeps z u) => ?_) ?_; clear_value u; rotate_left; subst u)
    | (extract_lets +onlyGivenNames u; subst u) | with_reducible apply beginModuleReset_keeps | with_reducible apply Keeps.ite
    | simp only [keeps_mk]

theorem moduleFault_keeps {z : State} (s : State) (reason : Nat)  (h : Keeps z s) : Keeps z (moduleFault s reason) := by
  delta moduleFault
  repeat' first
    | with_reducible assumption
    | (extract_lets +onlyGivenNames u; refine (fun (_ : Keeps z u) => ?_) ?_; clear_value u; rotate_left; subst u)
    | with_reducible apply quietModule_keeps | with_reducible apply requestModule_keeps | with_reducible apply Keeps.ite

theorem autoResets_keeps {z : State} (s : State)  (h : Keeps z s) : Keeps z (autoResets s) := by
  delta autoResets
  repeat' first
    | with_reducible assumption
    | (extract_lets +onlyGivenNames u; refine (fun (_ : Keeps z u) => ?_) ?_; clear_value u; rotate_left; subst u)
    | with_reducible apply autoDie_keeps | with_reducible apply autoTile_keeps | with_reducible apply requestModule_keeps
    | with_reducible apply Keeps.ite | (apply Keeps.foldl; intro _ _ _)

theorem moduleResetTimeout_keeps {z : State} (s : State)  (h : Keeps z s) : Keeps z (moduleResetTimeout s) := by
  delta moduleResetTimeout
  repeat' first
    | with_reducible assumption | (extract_lets +onlyGivenNames u; subst u) | with_reducible apply raiseHealth_keeps
    | with_reducible apply rflag_keeps | with_reducible apply Keeps.ite | simp only [keeps_mk]

theorem dieResetTimeout_keeps {z : State} (s : State) (d : Nat)  (h : Keeps z s) : Keeps z (dieResetTimeout s d) := by
  delta dieResetTimeout
  repeat' first
    | with_reducible assumption | with_reducible apply moduleFault_keeps | with_reducible apply raiseHealth_keeps
    | with_reducible apply rflag_keeps | with_reducible apply Keeps.ite

theorem powerOff_keeps {z : State} (s : State) (h : Keeps z s) : Keeps z (powerOff s) := by
  rw [powerOff]
  have k : Keeps z (clearAll s {} (keepRegs s liveBits)) := clearAll_keeps _ _ _ (fun _ => ⟨rfl, rfl, rfl⟩) (keepRegs_ok _ _) h
  simp only [keeps_mk]
  exact k

theorem auxOff_keeps {z : State} (s : State) (h : Keeps z s) : Keeps z (auxOff s) := by
  rw [auxOff]
  exact (powerOff_keeps s h).trans ⟨rfl, fun c => ⟨c.cells, c.dirty, c.poison, c.bells, rfl, c.host, c.archive, c.cal, c.entries⟩⟩

theorem bootFail_keeps {z : State} (s : State) (err unit : Nat)  (h : Keeps z s) : Keeps z (bootFail s err unit) := by
  delta bootFail
  repeat' first
    | with_reducible assumption
    | (extract_lets +onlyGivenNames u; refine (fun (_ : Keeps z u) => ?_) ?_; clear_value u; rotate_left; subst u)
    | with_reducible apply quietModule_keeps | with_reducible apply rfld_keeps

theorem newBoot_keeps {z : State} (s : State)  (h : Keeps z s) : Keeps z (newBoot s) := by
  delta newBoot
  repeat' first
    | with_reducible assumption | with_reducible apply rfld_keeps | with_reducible apply Keeps.ite

theorem startStage2_keeps {z : State} (s : State)  (h : Keeps z s) : Keeps z (startStage2 s) := by
  delta startStage2
  repeat' first
    | with_reducible assumption
    | (extract_lets +onlyGivenNames u; refine (fun (_ : Keeps z u) => ?_) ?_; clear_value u; rotate_left; subst u)
    | (extract_lets +onlyGivenNames u; subst u) | with_reducible apply bootFail_keeps | with_reducible apply newBoot_keeps
    | with_reducible apply rfld_keeps | with_reducible apply Keeps.ite | simp only [keeps_mk]

theorem quietAfter_keeps {z : State} (s : State) (h : Keeps z s) : Keeps z (quietAfter s) := by
  delta quietAfter
  extract_lets s1 s2
  have k1 : Keeps z s1 := rfld_keeps _ _ _ _ _ (rfld_keeps _ _ _ _ _ h)
  clear_value s1
  have k2 : Keeps z s2 := Keeps.foldl _ (fun _ _ k => rflag_keeps _ _ _ _ (rfld_keeps _ _ _ _ _ k)) k1
  clear_value s2
  refine Keeps.ite (raiseHealth_keeps _ _ _ _ _ (setResult_keeps _ _ _ _ (setBusy_keeps _ ?_))) h
  exact Keeps.upd (s := s2) rfl rfl rfl rfl rfl rfl rfl rfl rfl k2

theorem setReady_keeps {z : State} (s : State) (h : Keeps z s) : Keeps z (setReady s) := by
  delta setReady
  extract_lets n src s1 s2 s3 s4
  have k1 : Keeps z s1 := Keeps.upd (s := s) rfl rfl rfl rfl rfl rfl rfl rfl rfl h
  clear_value s1
  have k2 : Keeps z s2 := Keeps.foldl _ (fun _ _ k => rflag_keeps _ _ _ _ k) k1
  clear_value s2
  have k3 : Keeps z s3 := assignServices_keeps _ (rflag_keeps _ _ _ _ k2)
  clear_value s3
  have k4 : Keeps z s4 := rfld_keeps _ _ _ _ _ k3
  clear_value s4
  exact Keeps.foldl _ (fun _ _ k => autoDie_keeps _ _ k) (quietAfter_keeps _ (rfld_keeps _ _ _ _ _ k4))

theorem stageDone_keeps {z : State} (s : State)  (h : Keeps z s) : Keeps z (stageDone s) := by
  delta stageDone
  repeat' first
    | with_reducible assumption | (extract_lets +onlyGivenNames u; subst u) | with_reducible apply bootFail_keeps
    | with_reducible apply leaveExtest_keeps | with_reducible apply rflag_keeps | with_reducible apply rfld_keeps
    | with_reducible apply setReady_keeps | with_reducible apply startStage2_keeps | with_reducible apply Keeps.ite
    | simp only [keeps_mk] | split

theorem phyFail_keeps {z : State} (s : State) (p : Nat)  (h : Keeps z s) : Keeps z (phyFail s p) := by
  delta phyFail
  repeat' first
    | with_reducible assumption | (extract_lets +onlyGivenNames u; subst u) | with_reducible apply portDown_keeps
    | with_reducible apply portWarning_keeps | with_reducible apply Keeps.ite | simp only [keeps_mk]

theorem bootTimeout_keeps {z : State} (s : State) (err unit : Nat)  (h : Keeps z s) : Keeps z (bootTimeout s err unit) := by
  delta bootTimeout
  repeat' first
    | with_reducible assumption | (extract_lets +onlyGivenNames u; subst u) | with_reducible apply bootFail_keeps
    | with_reducible apply phyFail_keeps | with_reducible apply Keeps.ite

theorem powerUp_keeps {z : State} (s : State)  (h : Keeps z s) : Keeps z (powerUp s) := by
  delta powerUp
  repeat' first
    | with_reducible assumption
    | (extract_lets +onlyGivenNames u; refine (fun (_ : Keeps z u) => ?_) ?_; clear_value u; rotate_left; subst u)
    | (extract_lets +onlyGivenNames u; subst u) | with_reducible apply inputBack_keeps | with_reducible apply newBoot_keeps
    | with_reducible apply rfld_keeps | with_reducible apply Keeps.ite | simp only [keeps_mk]

theorem undervoltage_keeps {z : State} (s : State)  (h : Keeps z s) : Keeps z (undervoltage s) := by
  delta undervoltage
  repeat' first
    | with_reducible assumption
    | (extract_lets +onlyGivenNames u; refine (fun (_ : Keeps z u) => ?_) ?_; clear_value u; rotate_left; subst u)
    | (extract_lets +onlyGivenNames u; subst u) | with_reducible apply moduleFault_keeps | with_reducible apply rflag_keeps
    | with_reducible apply Keeps.ite | simp only [keeps_mk]

theorem below44_keeps {z : State} (s : State)  (h : Keeps z s) : Keeps z (below44 s) := by
  delta below44
  repeat' first
    | with_reducible assumption
    | (extract_lets +onlyGivenNames u; refine (fun (_ : Keeps z u) => ?_) ?_; clear_value u; rotate_left; subst u)
    | (extract_lets +onlyGivenNames u; subst u) | with_reducible apply powerOff_keeps | with_reducible apply Keeps.ite
    | simp only [keeps_mk]

theorem overvoltage_keeps {z : State} (s : State)  (h : Keeps z s) : Keeps z (overvoltage s) := by
  delta overvoltage
  repeat' first
    | with_reducible assumption
    | (extract_lets +onlyGivenNames u; refine (fun (_ : Keeps z u) => ?_) ?_; clear_value u; rotate_left; subst u)
    | (extract_lets +onlyGivenNames u; subst u) | with_reducible apply auxOff_keeps | simp only [keeps_mk]

theorem auxUp_keeps {z : State} (s : State)  (h : Keeps z s) : Keeps z (auxUp s) := by
  delta auxUp
  repeat' first
    | with_reducible assumption | (extract_lets +onlyGivenNames u; subst u) | simp only [keeps_mk]

theorem modEnLow_keeps {z : State} (s : State) (h : Keeps z s) : Keeps z (modEnLow s) := by
  have k1 : Keeps z { s with sys := { s.sys with modEn := false } } := Keeps.upd (s := s) rfl rfl rfl rfl rfl rfl rfl rfl rfl h
  rw [modEnLow]
  refine Keeps.ite ?_ k1
  simp only [keeps_mk]
  exact quietModule_keeps _ _ k1

theorem modEnHigh_keeps {z : State} (s : State)  (h : Keeps z s) : Keeps z (modEnHigh s) := by
  delta modEnHigh
  repeat' first
    | with_reducible assumption
    | (extract_lets +onlyGivenNames u; refine (fun (_ : Keeps z u) => ?_) ?_; clear_value u; rotate_left; subst u)
    | (extract_lets +onlyGivenNames u; subst u) | with_reducible apply startStage2_keeps | with_reducible apply Keeps.ite
    | simp only [keeps_mk]

theorem standbyOff_keeps {z : State} (s : State)  (h : Keeps z s) : Keeps z (standbyOff s) := by
  delta standbyOff
  repeat' first
    | with_reducible assumption
    | (extract_lets +onlyGivenNames u; refine (fun (_ : Keeps z u) => ?_) ?_; clear_value u; rotate_left; subst u)
    | with_reducible apply powerOff_keeps | with_reducible apply startStage2_keeps | with_reducible apply Keeps.ite

theorem noteThrottle_keeps {z : State} (s : State)  (h : Keeps z s) : Keeps z (noteThrottle s) := by
  delta noteThrottle
  repeat' first
    | with_reducible assumption | with_reducible apply rflag_keeps | (apply Keeps.foldl; intro _ _ _)

theorem capStep_keeps {z : State} (s : State) (d watts total : Nat)  (h : Keeps z s) : Keeps z (capStep s d watts total) := by
  delta capStep
  repeat' first
    | with_reducible assumption
    | (extract_lets +onlyGivenNames u; refine (fun (_ : Keeps z u) => ?_) ?_; clear_value u; rotate_left; subst u)
    | (extract_lets +onlyGivenNames u; subst u) | with_reducible apply noteThrottle_keeps | with_reducible apply rflag_keeps
    | with_reducible apply rfld_keeps | simp only [keeps_mk]

theorem overcurrent_keeps {z : State} (s : State) (rail : Nat)  (h : Keeps z s) : Keeps z (overcurrent s rail) := by
  delta overcurrent
  repeat' first
    | with_reducible assumption
    | (extract_lets +onlyGivenNames u; refine (fun (_ : Keeps z u) => ?_) ?_; clear_value u; rotate_left; subst u)
    | with_reducible apply dieFault_keeps | with_reducible apply moduleFault_keeps | with_reducible apply rflag_keeps
    | with_reducible apply Keeps.ite

theorem trip_keeps {z : State} (s : State)  (h : Keeps z s) : Keeps z (trip s) := by
  delta trip
  repeat' first
    | with_reducible assumption | with_reducible apply powerOff_keeps | with_reducible apply rflag_keeps
    | with_reducible apply Keeps.ite

theorem noteTemp_keeps {z : State} (s : State) (k c lo n place : Nat)  (h : Keeps z s) : Keeps z (noteTemp s k c lo n place) := by
  delta noteTemp
  repeat' first
    | with_reducible assumption
    | (extract_lets +onlyGivenNames u; refine (fun (_ : Keeps z u) => ?_) ?_; clear_value u; rotate_left; subst u)
    | (extract_lets +onlyGivenNames u; subst u) | with_reducible apply rfld_keeps | simp only [keeps_mk]

theorem dieReading_keeps {z : State} (s : State) (d c : Nat)  (h : Keeps z s) : Keeps z (dieReading s d c) := by
  delta dieReading
  repeat' first
    | with_reducible assumption
    | (extract_lets +onlyGivenNames u; refine (fun (_ : Keeps z u) => ?_) ?_; clear_value u; rotate_left; subst u)
    | (extract_lets +onlyGivenNames u; subst u) | with_reducible apply dieFault_keeps | with_reducible apply noteTemp_keeps
    | with_reducible apply noteThrottle_keeps | with_reducible apply Keeps.ite | simp only [keeps_mk]

theorem stackReading_keeps {z : State} (s : State) (d k c : Nat)  (h : Keeps z s) : Keeps z (stackReading s d k c) := by
  delta stackReading
  repeat' first
    | with_reducible assumption
    | (extract_lets +onlyGivenNames u; refine (fun (_ : Keeps z u) => ?_) ?_; clear_value u; rotate_left; subst u)
    | (extract_lets +onlyGivenNames u; subst u) | with_reducible apply dieFault_keeps | with_reducible apply noteTemp_keeps
    | with_reducible apply Keeps.ite | simp only [keeps_mk]

theorem ioReading_keeps {z : State} (s : State) (c : Nat)  (h : Keeps z s) : Keeps z (ioReading s c) := by
  delta ioReading
  repeat' first
    | with_reducible assumption
    | (extract_lets +onlyGivenNames u; refine (fun (_ : Keeps z u) => ?_) ?_; clear_value u; rotate_left; subst u)
    | with_reducible apply moduleFault_keeps | with_reducible apply noteTemp_keeps | with_reducible apply Keeps.ite

theorem sensorReading_keeps {z : State} (s : State) (x : Reading) (h : Keeps z s) : Keeps z (sensorReading s x) := by
  cases x <;> simp only [sensorReading]
  case die => exact Keeps.ite (trip_keeps _ h) (dieReading_keeps _ _ _ h)
  case io => exact Keeps.ite (trip_keeps _ h) (ioReading_keeps _ _ h)
  case stack => exact Keeps.ite (trip_keeps _ h) (stackReading_keeps _ _ _ _ h)
  case coolant =>
    have k : ∀ a b c, Keeps z (rfld (rfld (rfld s coolReg 0 16 a) coolReg 16 8 b) coolReg 24 8 c) := fun a b c =>
      rfld_keeps _ _ _ _ _ (rfld_keeps _ _ _ _ _ (rfld_keeps _ _ _ _ _ h))
    exact Keeps.ite (noteThrottle_keeps _ (rflag_keeps _ _ _ _ (k _ _ _))) (k _ _ _)
  case input =>
    have k : ∀ a b, Keeps z (rfld (rfld s pwrStatus 0 16 a) pwrStatus 16 12 b) := fun a b => rfld_keeps _ _ _ _ _ (rfld_keeps _ _ _ _ _ h)
    exact Keeps.ite (inputBack_keeps _ (k _ _)) (k _ _)
  case dry => exact rflag_keeps _ _ _ _ h

theorem lowFlow_keeps {z : State} (s : State)  (h : Keeps z s) : Keeps z (lowFlow s) := by
  delta lowFlow
  repeat' first
    | with_reducible assumption | with_reducible apply noteThrottle_keeps | with_reducible apply rflag_keeps
    | with_reducible apply Keeps.ite

theorem flowFailure_keeps {z : State} (s : State)  (h : Keeps z s) : Keeps z (flowFailure s) := by
  delta flowFailure
  repeat' first
    | with_reducible assumption | with_reducible apply moduleFault_keeps | with_reducible apply Keeps.ite

theorem leak_keeps {z : State} (s : State)  (h : Keeps z s) : Keeps z (leak s) := by
  delta leak
  repeat' first
    | with_reducible assumption
    | (extract_lets +onlyGivenNames u; refine (fun (_ : Keeps z u) => ?_) ?_; clear_value u; rotate_left; subst u)
    | (extract_lets +onlyGivenNames u; subst u) | with_reducible apply collect_keeps | with_reducible apply quietModule_keeps
    | with_reducible apply rflag_keeps | with_reducible apply Keeps.ite | simp only [keeps_mk]

theorem execCalWriteDone_keeps {z : State} (s : State) (h : Keeps z s) : KeepsO z (execCalWriteDone s) := by
  delta execCalWriteDone
  repeat' first
    | with_reducible assumption | with_reducible apply calDone_keeps | with_reducible apply keepsO_next

theorem execModuleReq_keeps {z : State} (s : State) (h : Keeps z s) : KeepsO z (execModuleReq s) := by
  delta execModuleReq
  repeat' first
    | with_reducible assumption | with_reducible apply moduleFault_keeps | with_reducible apply keepsO_next

theorem execDieResetTimeout_keeps {z : State} (d : DieNo) (s : State) (h : Keeps z s) : KeepsO z (execDieResetTimeout d s) := by
  delta execDieResetTimeout
  repeat' first
    | with_reducible assumption | with_reducible apply dieResetTimeout_keeps | with_reducible apply keepsO_next

theorem execModuleReset_keeps {z : State} (s : State) (h : Keeps z s) : KeepsO z (execModuleReset s) := by
  delta execModuleReset
  repeat' first
    | with_reducible assumption | with_reducible apply requestModule_keeps | with_reducible apply keepsO_next

theorem execModuleResetTimeout_keeps {z : State} (s : State) (h : Keeps z s) : KeepsO z (execModuleResetTimeout s) := by
  delta execModuleResetTimeout
  repeat' first
    | with_reducible assumption | with_reducible apply moduleResetTimeout_keeps | with_reducible apply keepsO_next

theorem execEvtPrefectLost_keeps {z : State} (k : Fin 16) (s : State) (h : Keeps z s) : KeepsO z (execEvtPrefectLost k s) := by
  delta execEvtPrefectLost
  repeat' first
    | with_reducible assumption | with_reducible apply losePrefect_keeps | with_reducible apply moduleFault_keeps
    | with_reducible apply keepsO_next | with_reducible apply Keeps.ite

theorem execWdogExpiry_keeps {z : State} (s : State) (h : Keeps z s) : KeepsO z (execWdogExpiry s) := by
  delta execWdogExpiry
  repeat' first
    | with_reducible assumption | with_reducible apply moduleFault_keeps | with_reducible apply keepsO_next
    | with_reducible apply Keeps.ite

theorem execPowerUp_keeps {z : State} (s : State) (h : Keeps z s) : KeepsO z (execPowerUp s) := by
  delta execPowerUp
  repeat' first
    | with_reducible assumption | with_reducible apply powerUp_keeps | with_reducible apply keepsO_next

theorem execPowerUpStageDone_keeps {z : State} (s : State) (h : Keeps z s) : KeepsO z (execPowerUpStageDone s) := by
  delta execPowerUpStageDone
  repeat' first
    | with_reducible assumption | with_reducible apply stageDone_keeps | with_reducible apply keepsO_next

theorem execBootStageTimeout_keeps {z : State} (err unit : BitVec 8) (s : State) (h : Keeps z s) : KeepsO z (execBootStageTimeout err unit s) := by
  delta execBootStageTimeout
  repeat' first
    | with_reducible assumption | with_reducible apply bootTimeout_keeps | with_reducible apply keepsO_next

theorem execInputUndervoltage_keeps {z : State} (s : State) (h : Keeps z s) : KeepsO z (execInputUndervoltage s) := by
  delta execInputUndervoltage
  repeat' first
    | with_reducible assumption | with_reducible apply undervoltage_keeps | with_reducible apply keepsO_next

theorem execInputBelow44v_keeps {z : State} (s : State) (h : Keeps z s) : KeepsO z (execInputBelow44v s) := by
  delta execInputBelow44v
  repeat' first
    | with_reducible assumption | with_reducible apply below44_keeps | with_reducible apply keepsO_next

theorem execInputBelow40v_keeps {z : State} (s : State) (h : Keeps z s) : KeepsO z (execInputBelow40v s) := by
  delta execInputBelow40v
  repeat' first
    | with_reducible assumption | with_reducible apply auxOff_keeps | with_reducible apply keepsO_next

theorem execInputOvervoltage_keeps {z : State} (s : State) (h : Keeps z s) : KeepsO z (execInputOvervoltage s) := by
  delta execInputOvervoltage
  repeat' first
    | with_reducible assumption | with_reducible apply overvoltage_keeps | with_reducible apply keepsO_next

theorem execAuxRailUp_keeps {z : State} (s : State) (h : Keeps z s) : KeepsO z (execAuxRailUp s) := by
  delta execAuxRailUp
  repeat' first
    | with_reducible assumption | with_reducible apply auxUp_keeps | with_reducible apply keepsO_next

theorem execModEnLow_keeps {z : State} (s : State) (h : Keeps z s) : KeepsO z (execModEnLow s) := by
  delta execModEnLow
  repeat' first
    | with_reducible assumption | with_reducible apply modEnLow_keeps | with_reducible apply keepsO_next

theorem execStandbyRailsOff_keeps {z : State} (s : State) (h : Keeps z s) : KeepsO z (execStandbyRailsOff s) := by
  delta execStandbyRailsOff
  repeat' first
    | with_reducible assumption | with_reducible apply standbyOff_keeps | with_reducible apply keepsO_next

theorem execModEnHigh_keeps {z : State} (s : State) (h : Keeps z s) : KeepsO z (execModEnHigh s) := by
  delta execModEnHigh
  repeat' first
    | with_reducible assumption | with_reducible apply modEnHigh_keeps | with_reducible apply keepsO_next

theorem execPowerCapStep_keeps {z : State} (d : DieNo) (watts moduleWatts : Nat) (s : State) (h : Keeps z s) : KeepsO z (execPowerCapStep d watts moduleWatts s) := by
  delta execPowerCapStep
  repeat' first
    | with_reducible assumption | with_reducible apply capStep_keeps | with_reducible apply keepsO_next

theorem execOcp_keeps {z : State} (rail : Fin 10) (s : State) (h : Keeps z s) : KeepsO z (execOcp rail s) := by
  delta execOcp
  repeat' first
    | with_reducible assumption | with_reducible apply overcurrent_keeps | with_reducible apply keepsO_next

theorem execThermalReading_keeps {z : State} (r : Reading) (s : State) (h : Keeps z s) : KeepsO z (execThermalReading r s) := by
  delta execThermalReading
  repeat' first
    | with_reducible assumption | with_reducible apply sensorReading_keeps | with_reducible apply keepsO_next

theorem execThermalTrip_keeps {z : State} (s : State) (h : Keeps z s) : KeepsO z (execThermalTrip s) := by
  delta execThermalTrip
  repeat' first
    | with_reducible assumption | with_reducible apply trip_keeps | with_reducible apply keepsO_next

theorem execLowFlow_keeps {z : State} (s : State) (h : Keeps z s) : KeepsO z (execLowFlow s) := by
  delta execLowFlow
  repeat' first
    | with_reducible assumption | with_reducible apply lowFlow_keeps | with_reducible apply keepsO_next

theorem execFlowFailure_keeps {z : State} (s : State) (h : Keeps z s) : KeepsO z (execFlowFailure s) := by
  delta execFlowFailure
  repeat' first
    | with_reducible assumption | with_reducible apply flowFailure_keeps | with_reducible apply keepsO_next

theorem execLeakDetected_keeps {z : State} (s : State) (h : Keeps z s) : KeepsO z (execLeakDetected s) := by
  delta execLeakDetected
  repeat' first
    | with_reducible assumption | with_reducible apply leak_keeps | with_reducible apply keepsO_next

theorem execLeakRailsOff_keeps {z : State} (s : State) (h : Keeps z s) : KeepsO z (execLeakRailsOff s) := by
  delta execLeakRailsOff
  repeat' first
    | with_reducible assumption | with_reducible apply powerOff_keeps | with_reducible apply keepsO_next
    | with_reducible apply Keeps.ite

end Sys2Proof.Laws
end

