-- ==== Sys2Proof/Laws/KeepsRooms.lean ====
section
/-! SUPPORT. What the operations of Machine/Rooms.lean keep. -/
namespace Sys2Proof.Laws
open Sys2Proof.Machine Sys2Proof.Safety

theorem roomErr_keeps {z : State} (s : State) (c : Nat)  (h : Keeps z s) : Keeps z (roomErr s c) := by
  delta roomErr
  repeat' first
    | with_reducible assumption | with_reducible apply rflag_keeps

theorem loadTable_keeps {z : State} (s : State) (c time : Nat)  (h : Keeps z s) : Keeps z (loadTable s c time) := by
  delta loadTable
  repeat' first
    | with_reducible assumption | (extract_lets +onlyGivenNames u; subst u) | simp only [keeps_mk]

theorem pointTiles_keeps {z : State} (s : State) (c n : Nat)  (h : Keeps z s) : Keeps z (pointTiles s c n) := by
  delta pointTiles
  repeat' first
    | with_reducible assumption | with_reducible apply onTile_keeps | dsimp -zeta only | split | (apply Keeps.foldl; intro _ _ _)

theorem nameTiles_keeps {z : State} (s : State) (c n : Nat)  (h : Keeps z s) : Keeps z (nameTiles s c n) := by
  delta nameTiles
  repeat' first
    | with_reducible assumption | (extract_lets +onlyGivenNames u; subst u) | with_reducible apply onTile_keeps
    | (apply Keeps.foldl; intro _ _ _)

theorem countCtx_keeps {z : State} (s : State) (a n : Nat) (ctx : Nat)  (h : Keeps z s) : Keeps z (countCtx s a n ctx) := by
  delta countCtx
  repeat' first
    | with_reducible assumption
    | (extract_lets +onlyGivenNames u; refine (fun (_ : Keeps z u) => ?_) ?_; clear_value u; rotate_left; subst u)
    | with_reducible apply raise_keeps | with_reducible apply rset_keeps | dsimp -zeta only | with_reducible apply Keeps.ite

theorem stopRun_keeps {z : State} (s : State) (c : Nat)  (h : Keeps z s) : Keeps z (stopRun s c) := by
  delta stopRun
  repeat' first
    | with_reducible assumption | with_reducible apply countCtx_keeps | dsimp only | simp only [keeps_mk] | split

theorem startRun_keeps {z : State} (s : State) (c : Nat)  (h : Keeps z s) : Keeps z (startRun s c) := by
  delta startRun
  repeat' first
    | with_reducible assumption | (extract_lets +onlyGivenNames u; subst u) | simp only [keeps_mk]

theorem setSwitch_keeps {z : State} (s : State) (c : Nat) (w : Option Switch)  (h : Keeps z s) : Keeps z (setSwitch s c w) := by
  delta setSwitch
  repeat' first
    | with_reducible assumption | (extract_lets +onlyGivenNames u; subst u) | simp only [keeps_mk]

theorem setSlice_keeps {z : State} (s : State) (c : Nat) (x : Option (BitVec 9))  (h : Keeps z s) : Keeps z (setSlice s c x) := by
  delta setSlice
  repeat' first
    | with_reducible assumption | (extract_lets +onlyGivenNames u; subst u) | simp only [keeps_mk]

theorem openSlice_keeps {z : State} (s : State) (c : Nat) (n : BitVec 9)  (h : Keeps z s) : Keeps z (openSlice s c n) := by
  delta openSlice
  repeat' first
    | with_reducible assumption
    | (extract_lets +onlyGivenNames u; refine (fun (_ : Keeps z u) => ?_) ?_; clear_value u; rotate_left; subst u)
    | (extract_lets +onlyGivenNames u; subst u) | with_reducible apply setSlice_keeps | simp only [keeps_mk]

theorem closeSlice_keeps {z : State} (s : State) (c : Nat)  (h : Keeps z s) : Keeps z (closeSlice s c) := by
  delta closeSlice
  repeat' first
    | with_reducible assumption
    | (extract_lets +onlyGivenNames u; refine (fun (_ : Keeps z u) => ?_) ?_; clear_value u; rotate_left; subst u)
    | (extract_lets +onlyGivenNames u; subst u) | with_reducible apply onTile_keeps | with_reducible apply setSlice_keeps
    | (apply Keeps.foldl; intro _ _ _)

theorem setSwitching_keeps {z : State} (s : State) (c : Nat)  (h : Keeps z s) : Keeps z (setSwitching s c) := by
  delta setSwitching
  repeat' first
    | with_reducible assumption | with_reducible apply rflag_keeps

theorem beginSwitch_keeps {z : State} (s : State) (c : Nat) (w : Switch)  (h : Keeps z s) : Keeps z (beginSwitch s c w) := by
  delta beginSwitch
  repeat' first
    | with_reducible assumption
    | (extract_lets +onlyGivenNames u; refine (fun (_ : Keeps z u) => ?_) ?_; clear_value u; rotate_left; subst u)
    | with_reducible apply pointTiles_keeps | with_reducible apply setSwitch_keeps | with_reducible apply setSwitching_keeps
    | with_reducible apply stopRun_keeps | with_reducible apply tilePreempt_keeps | split | (apply Keeps.foldl; intro _ _ _)

theorem chargeSwitch_keeps {z : State} (s : State) (w : Switch) (n : Nat) (sh : Option Nat)  (h : Keeps z s) : Keeps z (chargeSwitch s w n sh) := by
  delta chargeSwitch
  repeat' first
    | with_reducible assumption | (extract_lets +onlyGivenNames u; subst u) | with_reducible apply countCtx_keeps

theorem becomeResident_keeps {z : State} (s : State) (c n : Nat)  (h : Keeps z s) : Keeps z (becomeResident s c n) := by
  delta becomeResident
  repeat' first
    | with_reducible assumption | with_reducible apply nameTiles_keeps | with_reducible apply rfld_keeps
    | with_reducible apply startRun_keeps

theorem noResident_keeps {z : State} (s : State) (c : Nat)  (h : Keeps z s) : Keeps z (noResident s c) := by
  delta noResident
  repeat' first
    | with_reducible assumption | with_reducible apply rfld_keeps | with_reducible apply setSwitch_keeps
    | with_reducible apply setSwitching_keeps

theorem endSwitch_keeps {z : State} (s : State) (c : Nat) (w : Switch) (n : Nat)  (h : Keeps z s) : Keeps z (endSwitch s c w n) := by
  delta endSwitch
  repeat' first
    | with_reducible assumption
    | (extract_lets +onlyGivenNames u; refine (fun (_ : Keeps z u) => ?_) ?_; clear_value u; rotate_left; subst u)
    | (extract_lets +onlyGivenNames u; subst u) | with_reducible apply becomeResident_keeps | with_reducible apply beginSwitch_keeps
    | with_reducible apply chargeSwitch_keeps | with_reducible apply closeSlice_keeps | with_reducible apply setSwitch_keeps
    | with_reducible apply setSwitching_keeps | with_reducible apply Keeps.ite | split

theorem loadValid_keeps {z : State} (s : State) (c : Nat) (w : Switch) (n : Nat)  (h : Keeps z s) : Keeps z (loadValid s c w n) := by
  delta loadValid
  repeat' first
    | with_reducible assumption
    | (extract_lets +onlyGivenNames u; refine (fun (_ : Keeps z u) => ?_) ?_; clear_value u; rotate_left; subst u)
    | with_reducible apply endSwitch_keeps | with_reducible apply nameTiles_keeps | with_reducible apply pointTiles_keeps
    | with_reducible apply resetNow_keeps | with_reducible apply setSwitch_keeps | with_reducible apply tileRestore_keeps
    | with_reducible apply Keeps.ite | (apply Keeps.foldl; intro _ _ _)

theorem idleRoom_keeps {z : State} (s : State) (c : Nat)  (h : Keeps z s) : Keeps z (idleRoom s c) := by
  delta idleRoom
  repeat' first
    | with_reducible assumption
    | (extract_lets +onlyGivenNames u; refine (fun (_ : Keeps z u) => ?_) ?_; clear_value u; rotate_left; subst u)
    | with_reducible apply loadValid_keeps | with_reducible apply noResident_keeps | with_reducible apply setSwitch_keeps
    | with_reducible apply setSwitching_keeps | split

theorem loadIncoming_keeps {z : State} (s : State) (c : Nat) (w : Switch)  (h : Keeps z s) : Keeps z (loadIncoming s c w) := by
  delta loadIncoming
  repeat' first
    | with_reducible assumption | with_reducible apply idleRoom_keeps | with_reducible apply loadValid_keeps
    | with_reducible apply Keeps.ite | split

theorem startSwitch_keeps {z : State} (s : State) (c : Nat) (w : Switch)  (h : Keeps z s) : Keeps z (startSwitch s c w) := by
  delta startSwitch
  repeat' first
    | with_reducible assumption
    | (extract_lets +onlyGivenNames u; refine (fun (_ : Keeps z u) => ?_) ?_; clear_value u; rotate_left; subst u)
    | with_reducible apply beginSwitch_keeps | with_reducible apply loadIncoming_keeps | with_reducible apply Keeps.ite

theorem goBack_keeps {z : State} (s : State) (c : Nat) (w : Switch)  (h : Keeps z s) : Keeps z (goBack s c w) := by
  delta goBack
  repeat' first
    | with_reducible assumption
    | (extract_lets +onlyGivenNames u; refine (fun (_ : Keeps z u) => ?_) ?_; clear_value u; rotate_left; subst u)
    | with_reducible apply setSwitch_keeps | with_reducible apply tileRestore_keeps | with_reducible apply Keeps.ite
    | (apply Keeps.foldl; intro _ _ _)

theorem slotLost_keeps {z : State} (s : State) (c : Nat) (w : Switch)  (h : Keeps z s) : Keeps z (slotLost s c w) := by
  delta slotLost
  repeat' first
    | with_reducible assumption
    | (extract_lets +onlyGivenNames u; refine (fun (_ : Keeps z u) => ?_) ?_; clear_value u; rotate_left; subst u)
    | (extract_lets +onlyGivenNames u; subst u) | with_reducible apply goBack_keeps | with_reducible apply raise_keeps
    | with_reducible apply rfld_keeps

theorem limitExpiry_keeps {z : State} (s : State) (t : Nat)  (h : Keeps z s) : Keeps z (limitExpiry s t) := by
  delta limitExpiry
  repeat' first
    | with_reducible assumption
    | (extract_lets +onlyGivenNames u; refine (fun (_ : Keeps z u) => ?_) ?_; clear_value u; rotate_left; subst u)
    | (extract_lets +onlyGivenNames u; subst u) | with_reducible apply preemptExpiry_keeps | with_reducible apply slotLost_keeps
    | with_reducible apply Keeps.ite | split

theorem savedTile_keeps {z : State} (s : State) (t : Nat)  (h : Keeps z s) : Keeps z (savedTile s t) := by
  delta savedTile
  repeat' first
    | with_reducible assumption
    | (extract_lets +onlyGivenNames u; refine (fun (_ : Keeps z u) => ?_) ?_; clear_value u; rotate_left; subst u)
    | with_reducible apply preemptSaved_keeps | with_reducible apply tileRestore_keeps | with_reducible apply Keeps.ite | split

theorem saveDone_keeps {z : State} (s : State) (c : Nat)  (h : Keeps z s) : Keeps z (saveDone s c) := by
  delta saveDone
  repeat' first
    | with_reducible assumption
    | (extract_lets +onlyGivenNames u; refine (fun (_ : Keeps z u) => ?_) ?_; clear_value u; rotate_left; subst u)
    | (extract_lets +onlyGivenNames u; subst u) | with_reducible apply goBack_keeps | with_reducible apply loadIncoming_keeps
    | with_reducible apply Keeps.ite | simp only [keeps_mk] | split

theorem tryAgain_keeps {z : State} (s : State) (c : Nat) (w : Switch)  (h : Keeps z s) : Keeps z (tryAgain s c w) := by
  delta tryAgain
  repeat' first
    | with_reducible assumption | with_reducible apply beginSwitch_keeps | with_reducible apply Keeps.ite | split

theorem restoreEnd_keeps {z : State} (s : State) (c : Nat)  (h : Keeps z s) : Keeps z (restoreEnd s c) := by
  delta restoreEnd
  repeat' first
    | with_reducible assumption | with_reducible apply closeSlice_keeps | with_reducible apply endSwitch_keeps
    | with_reducible apply idleRoom_keeps | with_reducible apply resetNow_keeps | with_reducible apply setSwitch_keeps
    | with_reducible apply setSwitching_keeps | with_reducible apply startRun_keeps | with_reducible apply tryAgain_keeps
    | with_reducible apply Keeps.ite | dsimp only | split | (apply Keeps.foldl; intro _ _ _)

theorem slotStart_keeps {z : State} (s : State) (c k : Nat)  (h : Keeps z s) : Keeps z (slotStart s c k) := by
  delta slotStart
  repeat' first
    | with_reducible assumption
    | (extract_lets +onlyGivenNames u; refine (fun (_ : Keeps z u) => ?_) ?_; clear_value u; rotate_left; subst u)
    | (extract_lets +onlyGivenNames u; subst u) | with_reducible apply loadTable_keeps | with_reducible apply rfld_keeps
    | with_reducible apply setSwitch_keeps | with_reducible apply startSwitch_keeps | with_reducible apply Keeps.ite | dsimp only
    | simp only [keeps_mk] | split

theorem bubble_keeps {z : State} (s : State) (c : Nat)  (h : Keeps z s) : Keeps z (bubble s c) := by
  delta bubble
  repeat' first
    | with_reducible assumption | with_reducible apply openSlice_keeps | with_reducible apply startSwitch_keeps
    | with_reducible apply Keeps.ite | split

theorem sliceEnd_keeps {z : State} (s : State) (c : Nat)  (h : Keeps z s) : Keeps z (sliceEnd s c) := by
  delta sliceEnd
  repeat' first
    | with_reducible assumption | with_reducible apply setSwitch_keeps | with_reducible apply startSwitch_keeps
    | with_reducible apply Keeps.ite | split

theorem splitWrite_keeps {z : State} (s : State) (d : Nat) (v : Bool)  (h : Keeps z s) : Keeps z (splitWrite s d v) := by
  delta splitWrite
  repeat' first
    | with_reducible assumption | with_reducible apply rflag_keeps | with_reducible apply Keeps.ite

theorem emptyRoom_keeps {z : State} (s : State) (c : Nat)  (h : Keeps z s) : Keeps z (emptyRoom s c) := by
  delta emptyRoom
  repeat' first
    | with_reducible assumption | with_reducible apply resetNow_keeps | with_reducible apply rfld_keeps
    | with_reducible apply stopRun_keeps | (apply Keeps.foldl; intro _ _ _)

theorem leaveRoom_keeps {z : State} (s : State) (c n : Nat)  (h : Keeps z s) : Keeps z (leaveRoom s c n) := by
  delta leaveRoom
  repeat' first
    | with_reducible assumption
    | (extract_lets +onlyGivenNames u; refine (fun (_ : Keeps z u) => ?_) ?_; clear_value u; rotate_left; subst u)
    | (extract_lets +onlyGivenNames u; subst u) | with_reducible apply emptyRoom_keeps | with_reducible apply idleRoom_keeps
    | with_reducible apply loadIncoming_keeps | with_reducible apply rfld_keeps | with_reducible apply setSlice_keeps
    | with_reducible apply setSwitching_keeps | with_reducible apply startSwitch_keeps | with_reducible apply Keeps.ite | split

theorem destroyCtx_keeps {z : State} (s : State) (n : Nat)  (h : Keeps z s) : Keeps z (destroyCtx s n) := by
  delta destroyCtx
  repeat' first
    | with_reducible assumption
    | (extract_lets +onlyGivenNames u; refine (fun (_ : Keeps z u) => ?_) ?_; clear_value u; rotate_left; subst u)
    | (extract_lets +onlyGivenNames u; subst u) | with_reducible apply evictTenant_keeps | with_reducible apply leaveRoom_keeps
    | with_reducible apply setJob_keeps | simp only [keeps_mk] | (apply Keeps.foldl; intro _ _ _)

theorem ctxWrite_keeps {z : State} (s : State) (n : Nat) (v : BitVec 64)  (h : Keeps z s) : Keeps z (ctxWrite s n v) := by
  delta ctxWrite
  repeat' first
    | with_reducible assumption
    | (extract_lets +onlyGivenNames u; refine (fun (_ : Keeps z u) => ?_) ?_; clear_value u; rotate_left; subst u)
    | (extract_lets +onlyGivenNames u; subst u) | with_reducible apply destroyCtx_keeps | with_reducible apply roomErr_keeps
    | with_reducible apply rset_keeps | with_reducible apply Keeps.ite | simp only [keeps_mk]

theorem slotWrite_keeps {z : State} (s : State) (c k : Nat) (v : BitVec 64)  (h : Keeps z s) : Keeps z (slotWrite s c k v) := by
  delta slotWrite
  repeat' first
    | with_reducible assumption
    | (extract_lets +onlyGivenNames u; refine (fun (_ : Keeps z u) => ?_) ?_; clear_value u; rotate_left; subst u)
    | with_reducible apply loadTable_keeps | with_reducible apply roomErr_keeps | with_reducible apply rset_keeps
    | with_reducible apply Keeps.ite

theorem saveWrite_keeps {z : State} (s : State) (c : Nat) (v : BitVec 64) (low : Nat)  (h : Keeps z s) : Keeps z (saveWrite s c v low) := by
  delta saveWrite
  repeat' first
    | with_reducible assumption | (extract_lets +onlyGivenNames u; subst u) | with_reducible apply roomErr_keeps
    | with_reducible apply rset_keeps | with_reducible apply Keeps.ite

theorem ctxSet_keeps {z : State} (s : State) (c : HostCmd)  (h : Keeps z s) : Keeps z (ctxSet s c) := by
  delta ctxSet
  repeat' first
    | with_reducible assumption
    | (extract_lets +onlyGivenNames u; refine (fun (_ : Keeps z u) => ?_) ?_; clear_value u; rotate_left; subst u)
    | (extract_lets +onlyGivenNames u; subst u) | with_reducible apply fresh_keeps | with_reducible apply ctxWrite_keeps
    | with_reducible apply endNow_keeps | with_reducible apply Keeps.ite | simp only [keeps_mk]

theorem ctxGo_keeps {z : State} (s : State) (c : HostCmd)  (h : Keeps z s) : Keeps z (ctxGo s c) := by
  delta ctxGo
  repeat' first
    | with_reducible assumption
    | (extract_lets +onlyGivenNames u; refine (fun (_ : Keeps z u) => ?_) ?_; clear_value u; rotate_left; subst u)
    | (extract_lets +onlyGivenNames u; subst u) | with_reducible apply onTile_keeps | with_reducible apply endNow_keeps
    | with_reducible apply tileGo_keeps | with_reducible apply Keeps.ite | (apply Keeps.foldl; intro _ _ _)

theorem execPreemptSaved_keeps {z : State} (t : TileNo) (s : State) (h : Keeps z s) : KeepsO z (execPreemptSaved t s) := by
  delta execPreemptSaved
  repeat' first
    | with_reducible assumption | with_reducible apply savedTile_keeps | with_reducible apply keepsO_next

theorem execPreemptLimitExpiry_keeps {z : State} (t : TileNo) (s : State) (h : Keeps z s) : KeepsO z (execPreemptLimitExpiry t s) := by
  delta execPreemptLimitExpiry
  repeat' first
    | with_reducible assumption | with_reducible apply limitExpiry_keeps | with_reducible apply keepsO_next

theorem execStudyHallBubble_keeps {z : State} (c : Fin 16) (s : State) (h : Keeps z s) : KeepsO z (execStudyHallBubble c s) := by
  delta execStudyHallBubble
  repeat' first
    | with_reducible assumption | with_reducible apply bubble_keeps | with_reducible apply keepsO_next

theorem execStudyHallSliceEnd_keeps {z : State} (c : Fin 16) (s : State) (h : Keeps z s) : KeepsO z (execStudyHallSliceEnd c s) := by
  delta execStudyHallSliceEnd
  repeat' first
    | with_reducible assumption | with_reducible apply sliceEnd_keeps | with_reducible apply keepsO_next

theorem execSlotStart_keeps {z : State} (c : Fin 16) (slot : Fin 32) (s : State) (h : Keeps z s) : KeepsO z (execSlotStart c slot s) := by
  delta execSlotStart
  repeat' first
    | with_reducible assumption | with_reducible apply slotStart_keeps | with_reducible apply keepsO_next

theorem execSlotSaveDone_keeps {z : State} (c : Fin 16) (s : State) (h : Keeps z s) : KeepsO z (execSlotSaveDone c s) := by
  delta execSlotSaveDone
  repeat' first
    | with_reducible assumption | with_reducible apply saveDone_keeps | with_reducible apply keepsO_next

theorem execSlotRestoreDone_keeps {z : State} (c : Fin 16) (s : State) (h : Keeps z s) : KeepsO z (execSlotRestoreDone c s) := by
  delta execSlotRestoreDone
  repeat' first
    | with_reducible assumption | with_reducible apply restoreEnd_keeps | with_reducible apply keepsO_next

theorem execSplitWrite_keeps {z : State} (d : DieNo) (split : Bool) (s : State) (h : Keeps z s) : KeepsO z (execSplitWrite d split s) := by
  delta execSplitWrite
  repeat' first
    | with_reducible assumption | with_reducible apply splitWrite_keeps | with_reducible apply keepsO_next

theorem execCtxSet_keeps {z : State} (c : HostCmd) (s : State) (h : Keeps z s) : KeepsO z (execCtxSet c s) := by
  delta execCtxSet
  repeat' first
    | with_reducible assumption | intro _ | with_reducible apply ctxSet_keeps | with_reducible apply takeCmd_keeps
    | with_reducible apply keepsO_next

theorem execCtxGo_keeps {z : State} (c : HostCmd) (s : State) (h : Keeps z s) : KeepsO z (execCtxGo c s) := by
  delta execCtxGo
  repeat' first
    | with_reducible assumption | intro _ | with_reducible apply ctxGo_keeps | with_reducible apply takeCmd_keeps
    | with_reducible apply keepsO_next

end Sys2Proof.Laws
end

