-- ==== Sys2Proof/Laws/KeepsTally.lean ====
section
/-! SUPPORT. What the operations of Machine/Tally.lean keep. -/
namespace Sys2Proof.Laws
open Sys2Proof.Machine Sys2Proof.Safety

theorem rcArm_keeps {z : State} (s : State) (id : BitVec 16) (ow : Bool)  (h : Keeps z s) : Keeps z (rcArm s id ow) := by
  delta rcArm
  repeat' first
    | with_reducible assumption
    | (extract_lets +onlyGivenNames u; refine (fun (_ : Keeps z u) => ?_) ?_; clear_value u; rotate_left; subst u)
    | (extract_lets +onlyGivenNames u; subst u) | with_reducible apply rflag_keeps | with_reducible apply rset_keeps
    | with_reducible apply Keeps.ite | simp only [keeps_mk]

theorem rcLatch_keeps {z : State} (s : State)  (h : Keeps z s) : Keeps z (rcLatch s) := by
  delta rcLatch
  repeat' first
    | with_reducible assumption | (extract_lets +onlyGivenNames u; subst u) | with_reducible apply raise_keeps
    | with_reducible apply rset_keeps | dsimp -zeta only | with_reducible apply Keeps.ite | dsimp only | simp only [keeps_mk] | split

theorem rollAck_keeps {z : State} (s : State)  (h : Keeps z s) : Keeps z (rollAck s) := by
  delta rollAck
  repeat' first
    | with_reducible assumption | with_reducible apply rflag_keeps

theorem execRollCallArm_keeps {z : State} (id : BitVec 16) (overwrite : Bool) (s : State) (h : Keeps z s) : KeepsO z (execRollCallArm id overwrite s) := by
  delta execRollCallArm
  repeat' first
    | with_reducible assumption | with_reducible apply rcArm_keeps | with_reducible apply keepsO_next

theorem execRollCallAck_keeps {z : State} (s : State) (h : Keeps z s) : KeepsO z (execRollCallAck s) := by
  delta execRollCallAck
  repeat' first
    | with_reducible assumption | with_reducible apply rollAck_keeps | with_reducible apply keepsO_next

theorem execRollCallLatch_keeps {z : State} (s : State) (h : Keeps z s) : KeepsO z (execRollCallLatch s) := by
  delta execRollCallLatch
  repeat' first
    | with_reducible assumption | with_reducible apply rcLatch_keeps | with_reducible apply keepsO_next

end Sys2Proof.Laws
end

