-- ==== Sys2Proof/Laws/KeepsHostIf.lean ====
section
/-! SUPPORT. What the operations of Machine/HostIf.lean keep. -/
namespace Sys2Proof.Laws
open Sys2Proof.Machine Sys2Proof.Safety

theorem wdogWrite_keeps {z : State} (s : State) (v : BitVec 64) (pet : Bool)  (h : Keeps z s) : Keeps z (wdogWrite s v pet) := by
  delta wdogWrite
  repeat' first
    | with_reducible assumption
    | (extract_lets +onlyGivenNames u; refine (fun (_ : Keeps z u) => ?_) ?_; clear_value u; rotate_left; subst u)
    | (extract_lets +onlyGivenNames u; subst u) | with_reducible apply rset_keeps | with_reducible apply wdogPet_keeps
    | with_reducible apply Keeps.ite

theorem resetWrite_keeps {z : State} (s : State) (v : BitVec 64)  (h : Keeps z s) : Keeps z (resetWrite s v) := by
  delta resetWrite
  repeat' first
    | with_reducible assumption | with_reducible apply request_keeps | with_reducible apply requestModule_keeps
    | with_reducible apply Keeps.ite

theorem mgtWrite_keeps {z : State} (s : State) (o : Nat) (v cmd : BitVec 64)  (h : Keeps z s) : Keeps z (mgtWrite s o v cmd) := by
  delta mgtWrite
  repeat' first
    | with_reducible assumption
    | (extract_lets +onlyGivenNames u; refine (fun (_ : Keeps z u) => ?_) ?_; clear_value u; rotate_left; subst u)
    | (extract_lets +onlyGivenNames u; subst u) | with_reducible apply autoResets_keeps | with_reducible apply dieReq_keeps
    | with_reducible apply moduleFault_keeps | with_reducible apply rcAck_keeps | with_reducible apply resetWrite_keeps
    | with_reducible apply rset_keeps | with_reducible apply wdogWrite_keeps | with_reducible apply Keeps.ite

set_option maxRecDepth 20000 in
theorem hstWrite_keeps {z : State} (s : State) (o : Nat) (v : BitVec 64) (h : Keeps z s) : Keeps z (hstWrite s o v) := by
  rw [hstWrite]
  refine Keeps.ite (rset_keeps _ _ h) ?_
  split <;> first | exact rset_keeps _ _ h | exact Keeps.ite h (rset_keeps _ _ h)

theorem lnkWrite_keeps {z : State} (s : State) (o : Nat) (v : BitVec 64)  (h : Keeps z s) : Keeps z (lnkWrite s o v) := by
  delta lnkWrite
  repeat' first
    | with_reducible assumption | (extract_lets +onlyGivenNames u; subst u) | with_reducible apply portCfgWrite_keeps
    | with_reducible apply rset_keeps | with_reducible apply swapsGo_keeps | with_reducible apply writeSeat_keeps
    | with_reducible apply Keeps.ite

set_option maxRecDepth 20000 in
theorem rosWrite_keeps {z : State} (s : State) (o : Nat) (v : BitVec 64) (h : Keeps z s) : Keeps z (rosWrite s o v) := by
  rw [rosWrite]
  refine Keeps.ite (rosMode_keeps _ _ h) (Keeps.ite ?_ (Keeps.ite (rset_keeps _ _ h) (rset_keeps _ _ h)))
  dsimp only
  split
  · have k : ∀ (c : Prop) [Decidable c] x, Keeps z (if c then s else rset s (rosBlk + o) x) := fun c _ x => Keeps.ite h (rset_keeps _ _ h)
    exact Keeps.ite (k _ _) (setServing_keeps _ _ _ (k _ _))
  · exact Keeps.ite h (limitsWrite_keeps _ _ _ h)
  · exact Keeps.ite h (rset_keeps _ _ h)

theorem ckpWrite_keeps {z : State} (s : State) (o : Nat) (v : BitVec 64)  (h : Keeps z s) : Keeps z (ckpWrite s o v) := by
  delta ckpWrite
  repeat' first
    | with_reducible assumption | with_reducible apply buddyWrite_keeps | with_reducible apply rset_keeps
    | with_reducible apply wardArm_keeps | with_reducible apply Keeps.ite

theorem clsWrite_keeps {z : State} (s : State) (o : Nat) (v raw : BitVec 64)  (h : Keeps z s) : Keeps z (clsWrite s o v raw) := by
  delta clsWrite
  repeat' first
    | with_reducible assumption | with_reducible apply ctxWrite_keeps | with_reducible apply rset_keeps
    | with_reducible apply saveWrite_keeps | with_reducible apply slotWrite_keeps | with_reducible apply splitWrite_keeps
    | with_reducible apply Keeps.ite

theorem talWrite_keeps {z : State} (s : State) (o : Nat) (v cmd : BitVec 64)  (h : Keeps z s) : Keeps z (talWrite s o v cmd) := by
  delta talWrite
  repeat' first
    | with_reducible assumption
    | (extract_lets +onlyGivenNames u; refine (fun (_ : Keeps z u) => ?_) ?_; clear_value u; rotate_left; subst u)
    | (extract_lets +onlyGivenNames u; subst u) | with_reducible apply rcArm_keeps | with_reducible apply rollAck_keeps
    | with_reducible apply rset_keeps | with_reducible apply Keeps.ite

theorem regWrite_keeps {z : State} (s : State) (a : Nat) (be : BitVec 8) (v : BitVec 64)  (h : Keeps z s) : Keeps z (regWrite s a be v) := by
  delta regWrite
  repeat' first
    | with_reducible assumption | (extract_lets +onlyGivenNames u; subst u) | with_reducible apply ckpWrite_keeps
    | with_reducible apply clsWrite_keeps | with_reducible apply hstWrite_keeps | with_reducible apply lnkWrite_keeps
    | with_reducible apply mgtWrite_keeps | with_reducible apply rosWrite_keeps | with_reducible apply talWrite_keeps
    | with_reducible apply tilePageWrite_keeps | with_reducible apply Keeps.ite | dsimp only | split

theorem regBytes_keeps {z : State} (s : State) (a : Nat) (l : List Byte)  (h : Keeps z s) : Keeps z (regBytes s a l) := by
  delta regBytes
  repeat' first
    | with_reducible assumption | with_reducible apply regWrite_keeps | with_reducible apply Keeps.ite | dsimp only
    | (apply Keeps.foldl; intro _ _ _)

theorem countRefused_keeps {z : State} (s : State) (a : Nat)  (h : Keeps z s) : Keeps z (countRefused s a) := by
  delta countRefused
  repeat' first
    | with_reducible assumption | with_reducible apply rfld_keeps

theorem badAccess_keeps {z : State} (s : State) (op : BarOp)  (h : Keeps z s) : Keeps z (badAccess s op) := by
  delta badAccess
  repeat' first
    | with_reducible assumption
    | (extract_lets +onlyGivenNames u; refine (fun (_ : Keeps z u) => ?_) ?_; clear_value u; rotate_left; subst u)
    | with_reducible apply countRefused_keeps | simp only [keeps_mk]

theorem failedAccess_keeps {z : State} (s : State) (op : BarOp)  (h : Keeps z s) : Keeps z (failedAccess s op) := by
  delta failedAccess
  repeat' first
    | with_reducible assumption | simp only [keeps_mk]

theorem quietAccess_keeps {z : State} (s : State) (op : BarOp)  (h : Keeps z s) : Keeps z (quietAccess s op) := by
  delta quietAccess
  repeat' first
    | with_reducible assumption
    | (extract_lets +onlyGivenNames u; refine (fun (_ : Keeps z u) => ?_) ?_; clear_value u; rotate_left; subst u)
    | with_reducible apply countRefused_keeps | simp only [keeps_mk] | split

theorem regAccess_keeps {z : State} (s : State) (a : Nat) (o : BarOp) (h : Keeps z s) : Keeps z (regAccess s a o) := by
  cases o <;> simp only [regAccess, keeps_mk]
  · exact h
  · exact regBytes_keeps _ _ _ h

theorem memAccess_keeps {z : State} (s : State) (a : Nat) (op : BarOp)  (h : Keeps z s) : Keeps z (memAccess s a op) := by
  delta memAccess
  repeat' first
    | with_reducible assumption | (extract_lets +onlyGivenNames u; subst u) | with_reducible apply fresh_keeps
    | with_reducible apply pass_keeps | with_reducible apply badAccess_keeps | with_reducible apply failedAccess_keeps
    | with_reducible apply landBytes_keeps | with_reducible apply Keeps.ite | dsimp only | simp only [keeps_mk] | split

theorem pfAccess_keeps {z : State} (s : State) (regs : Bool) (a : Nat) (op : BarOp)  (h : Keeps z s) : Keeps z (pfAccess s regs a op) := by
  delta pfAccess
  repeat' first
    | with_reducible assumption | (extract_lets +onlyGivenNames u; subst u) | with_reducible apply badAccess_keeps
    | with_reducible apply failedAccess_keeps | with_reducible apply memAccess_keeps | with_reducible apply quietAccess_keeps
    | with_reducible apply regAccess_keeps | with_reducible apply Keeps.ite

theorem vfAccess_keeps {z : State} (s : State) (fn a : Nat) (op : BarOp)  (h : Keeps z s) : Keeps z (vfAccess s fn a op) := by
  delta vfAccess
  repeat' first
    | with_reducible assumption | with_reducible apply badAccess_keeps | with_reducible apply quietAccess_keeps
    | with_reducible apply regBytes_keeps | with_reducible apply Keeps.ite | dsimp only | simp only [keeps_mk] | split

theorem barAccess_keeps {z : State} (s : State) (fn : Nat) (bar : Nat) (addr : Nat) (op : BarOp)  (h : Keeps z s) : Keeps z (barAccess s fn bar addr op) := by
  delta barAccess
  repeat' first
    | with_reducible assumption | with_reducible apply badAccess_keeps | with_reducible apply pfAccess_keeps
    | with_reducible apply vfAccess_keeps | with_reducible apply Keeps.ite

theorem agentWrite_keeps {z : State} (s : State) (who : Agent) (a : Nat) (be : BitVec 8) (v : BitVec 64)  (h : Keeps z s) : Keeps z (agentWrite s who a be v) := by
  delta agentWrite
  repeat' first
    | with_reducible assumption | with_reducible apply countRefused_keeps | with_reducible apply regWrite_keeps
    | with_reducible apply Keeps.ite | split

theorem stopQueue_keeps {z : State} (s : State) (q : Nat)  (h : Keeps z s) : Keeps z (stopQueue s q) := by
  delta stopQueue
  repeat' first
    | with_reducible assumption
    | (extract_lets +onlyGivenNames u; refine (fun (_ : Keeps z u) => ?_) ?_; clear_value u; rotate_left; subst u)
    | (extract_lets +onlyGivenNames u; subst u) | with_reducible apply rflag_keeps | simp only [keeps_mk]

theorem linkDown_keeps {z : State} (s : State) (h : Keeps z s) : Keeps z (linkDown s) := by
  rw [linkDown]
  exact Keeps.foldl _ (fun _ _ k => stopQueue_keeps _ _ k) (rflag_keeps _ _ _ _ h)

theorem linkUp_keeps {z : State} (s : State) (p : Nat)  (h : Keeps z s) : Keeps z (linkUp s p) := by
  delta linkUp
  repeat' first
    | with_reducible assumption | with_reducible apply rflag_keeps

theorem perst_keeps {z : State} (s : State)  (h : Keeps z s) : Keeps z (perst s) := by
  delta perst
  repeat' first
    | with_reducible assumption | (extract_lets +onlyGivenNames u; subst u) | with_reducible apply Keeps.ite | simp only [keeps_mk]

theorem calReadCmd_keeps {z : State} (s : State) (c : HostCmd)  (h : Keeps z s) : Keeps z (calReadCmd s c) := by
  delta calReadCmd
  repeat' first
    | with_reducible assumption | with_reducible apply fresh_keeps | with_reducible apply endNow_keeps
    | with_reducible apply keepsHost_put | with_reducible apply keepsHost_self | with_reducible apply Keeps.ite
    | simp only [keeps_mk_host]

theorem calCmd_keeps {z : State} (s : State) (op : BitVec 16) (c : HostCmd) (r : State × Option (BitVec 16)) (h : Keeps z s)
    (hr : Keeps z r.1) : Keeps z (calCmd s op c r) := by
  rw [calCmd]
  split
  · exact endNow_keeps _ _ _ _ _ h
  · exact startCmd_keeps _ _ _ (fresh_keeps _ hr)

theorem calReply_keeps {z : State} (s : State) (r : State × Option (BitVec 16)) (h : Keeps z s) (hr : Keeps z r.1) :
    Keeps z (calReply s r) := by
  rw [calReply]
  split
  · simp only [keeps_mk]; exact h
  · simp only [keeps_mk]; exact fresh_keeps _ hr

theorem mgmtCommon_some {z s v : State} {m : MgmtReq} (h : Keeps z s) (e : mgmtCommon s m = some v) : Keeps z v := by
  cases m <;> simp only [mgmtCommon, Option.some.injEq, reduceCtorEq] at e <;> (subst e; simp only [keeps_mk]; exact h)

theorem reply_keeps {z : State} {s : State} {r : Reply} (h : Keeps z s) : Keeps z { s with reply := r } :=
  Keeps.upd (s := s) rfl rfl rfl rfl rfl rfl rfl rfl rfl h

theorem redfishOwn_keeps {z : State} (s : State) (r : MgmtReq) (h : Keeps z s) : Keeps z (redfishOwn s r) := by
  cases r with
  | readReg a => exact Keeps.ite (reply_keeps h) (reply_keeps h)
  | writeReg a v => exact Keeps.ite (reply_keeps (regWrite_keeps _ _ _ _ h)) (reply_keeps h)
  | readMirror a n => exact Keeps.ite (reply_keeps h) (reply_keeps h)
  | readCal o n => exact reply_keeps (fresh_keeps _ h)
  | reset => exact reply_keeps (requestModule_keeps _ h)
  | calRead => exact Keeps.ite (reply_keeps h) (reply_keeps (fresh_keeps _ h))
  | calWrite l => exact calReply_keeps _ _ h (calWrite_keeps _ _ h)
  | calCapture => exact calReply_keeps _ _ h (calCapture_keeps _ h)
  | _ => exact reply_keeps h

theorem redfish_keeps {z : State} (s : State) (r : MgmtReq) (h : Keeps z s) : Keeps z (redfish s r) := by
  rw [redfish]
  split
  · next e => exact mgmtCommon_some h e
  · exact redfishOwn_keeps _ _ h


theorem mctp_keeps {z : State} (s : State) (r : MgmtReq)  (h : Keeps z s) : Keeps z (mctp s r) := by
  delta mctp
  repeat' first
    | with_reducible assumption | (rename mgmtCommon _ _ = some _ => e; refine mgmtCommon_some ?_ e) | with_reducible apply Keeps.ite
    | simp only [keeps_mk] | split

theorem jtag_keeps {z : State} (s : State) (i : BitVec 4) (r : Reply)  (h : Keeps z s) : Keeps z (jtag s i r) := by
  delta jtag
  repeat' first
    | with_reducible assumption | (extract_lets +onlyGivenNames u; subst u) | simp only [keeps_mk]

theorem execRegisterWrite_keeps {z : State} (a : Agent) (addr : BitVec 48) (be : BitVec 8) (v : BitVec 64) (s : State) (h : Keeps z s) : KeepsO z (execRegisterWrite a addr be v s) := by
  delta execRegisterWrite
  repeat' first
    | with_reducible assumption | with_reducible apply agentWrite_keeps | with_reducible apply keepsO_next

theorem execHostBarAccess_keeps {z : State} (fn : Fin 513) (bar : BitVec 3) (addr : BitVec 64) (op : BarOp) (s : State) (h : Keeps z s) : KeepsO z (execHostBarAccess fn bar addr op s) := by
  delta execHostBarAccess
  repeat' first
    | with_reducible assumption | with_reducible apply barAccess_keeps | with_reducible apply keepsO_next

theorem execPcieLinkDown_keeps {z : State} (s : State) (h : Keeps z s) : KeepsO z (execPcieLinkDown s) := by
  delta execPcieLinkDown
  repeat' first
    | with_reducible assumption | with_reducible apply linkDown_keeps | with_reducible apply keepsO_next

theorem execPcieLinkUp_keeps {z : State} (p : Fin 2) (s : State) (h : Keeps z s) : KeepsO z (execPcieLinkUp p s) := by
  delta execPcieLinkUp
  repeat' first
    | with_reducible assumption | with_reducible apply linkUp_keeps | with_reducible apply keepsO_next

theorem execFunctionLevelReset_keeps {z : State} (vf : Fin 512) (s : State) (h : Keeps z s) : KeepsO z (execFunctionLevelReset vf s) := by
  delta execFunctionLevelReset
  repeat' first
    | with_reducible assumption | with_reducible apply stopQueue_keeps | with_reducible apply keepsO_next

theorem execPerstDeassert_keeps {z : State} (s : State) (h : Keeps z s) : KeepsO z (execPerstDeassert s) := by
  delta execPerstDeassert
  repeat' first
    | with_reducible assumption | with_reducible apply perst_keeps | with_reducible apply keepsO_next

theorem execMctpMessage_keeps {z : State} (r : MgmtReq) (s : State) (h : Keeps z s) : KeepsO z (execMctpMessage r s) := by
  delta execMctpMessage
  repeat' first
    | with_reducible assumption | with_reducible apply mctp_keeps | with_reducible apply keepsO_next

theorem execRedfishRequest_keeps {z : State} (r : MgmtReq) (s : State) (h : Keeps z s) : KeepsO z (execRedfishRequest r s) := by
  delta execRedfishRequest
  repeat' first
    | with_reducible assumption | with_reducible apply redfish_keeps | with_reducible apply keepsO_next
    | with_reducible apply Keeps.ite | simp only [keeps_mk]

theorem execBypass_keeps {z : State} (s : State) (h : Keeps z s) : KeepsO z (execBypass s) := by
  delta execBypass
  repeat' first
    | with_reducible assumption | with_reducible apply jtag_keeps | with_reducible apply keepsO_next

theorem execIdcode_keeps {z : State} (s : State) (h : Keeps z s) : KeepsO z (execIdcode s) := by
  delta execIdcode
  repeat' first
    | with_reducible assumption | with_reducible apply jtag_keeps | with_reducible apply keepsO_next

theorem execSamplePreload_keeps {z : State} (s : State) (h : Keeps z s) : KeepsO z (execSamplePreload s) := by
  delta execSamplePreload
  repeat' first
    | with_reducible assumption | with_reducible apply jtag_keeps | with_reducible apply keepsO_next

theorem execExtest_keeps {z : State} (s : State) (h : Keeps z s) : KeepsO z (execExtest s) := by
  delta execExtest
  repeat' first
    | with_reducible assumption | with_reducible apply jtag_keeps | with_reducible apply keepsO_next

theorem execCalRead_keeps {z : State} (c : HostCmd) (s : State) (h : Keeps z s) : KeepsO z (execCalRead c s) := by
  delta execCalRead
  repeat' first
    | with_reducible assumption | intro _ | with_reducible apply calReadCmd_keeps | with_reducible apply takeCmd_keeps
    | with_reducible apply keepsO_next

theorem execCalWrite_keeps {z : State} (c : HostCmd) (s : State) (h : Keeps z s) : KeepsO z (execCalWrite c s) := by
  delta execCalWrite
  repeat' first
    | with_reducible assumption | intro _ | with_reducible apply calCmd_keeps | with_reducible apply calWrite_keeps
    | with_reducible apply takeCmd_keeps | with_reducible apply keepsO_next

theorem execCalCapture_keeps {z : State} (c : HostCmd) (s : State) (h : Keeps z s) : KeepsO z (execCalCapture c s) := by
  delta execCalCapture
  repeat' first
    | with_reducible assumption | intro _ | with_reducible apply calCapture_keeps | with_reducible apply calCmd_keeps
    | with_reducible apply takeCmd_keeps | with_reducible apply keepsO_next

end Sys2Proof.Laws
end

