-- ==== Sys2Proof/WellFormed.lean ====
section
/-! DEFINITION. Well-formed instruction words (R135, R137, R141, R146 to R158, R426) and well-formed host commands
(R396). The legality checks of the forms stand in Decode.lean; they also decide FLT_ILLEGAL at issue. -/
namespace Sys2Proof

/-- Well-formed commands: legal instruction words, host commands with zero reserved bits, flits with a possible length;
an event names only things that exist, by its type. -/
def Instr.wellFormed : Instr → Bool
  | .nop _ f => legalR0 f
  | .add _ f => legalR f
  | .sub _ f => legalR f
  | .and _ f => legalR f
  | .or _ f => legalR f
  | .xor _ f => legalR f
  | .shl _ f => legalR f
  | .shr _ f => legalR f
  | .sra _ f => legalR f
  | .mul _ f => legalR f
  | .min _ f => legalR f
  | .max _ f => legalR f
  | .slt _ f => legalR f
  | .sltu _ f => legalR f
  | .addi _ f => legalI f
  | .andi _ f => legalI f
  | .ori _ f => legalI f
  | .xori _ f => legalI f
  | .shli _ f => legalShift f
  | .shri _ f => legalShift f
  | .srai _ f => legalShift f
  | .li _ f => legalLi f
  | .ld _ f => legalI f
  | .st _ f => legalB f
  | .crr _ f => legalI1 f
  | .crw _ f => legalCrw f
  | .beq _ f => legalB f
  | .bne _ f => legalB f
  | .blt _ f => legalB f
  | .bge _ f => legalB f
  | .bltu _ f => legalB f
  | .bgeu _ f => legalB f
  | .jmp _ f => legalJmp f
  | .jal _ f => legalI1 f
  | .jr _ f => legalJr f
  | .halt _ f => legalR0 f
  | .step _ f => legalStep f
  | .dld _ f => legalI f
  | .dst _ f => legalB f
  | .dadd _ f => legalDadd f
  | .bring _ f => legalBring f
  | .bwait _ f => legalBell f
  | .bset _ f => legalBell f
  | .mmul _ f => legalMmul f
  | .ladd _ f => legalLadd f
  | .abmode _ f => legalAbmode f
  | .att _ f => legalAtt f
  | .drill _ f => legalDrill f
  | .vadd _ f => legalVarith f
  | .vsub _ f => legalVarith f
  | .vmul _ f => legalVarith f
  | .vfma _ f => legalVfma f
  | .vmin _ f => legalVminmax f
  | .vmax _ f => legalVminmax f
  | .vcmp _ f => legalVcmp f
  | .vsel _ f => legalVsel f
  | .vand _ f => legalVbit f
  | .vor _ f => legalVbit f
  | .vxor _ f => legalVbit f
  | .vshl _ f => legalVbit f
  | .vshr _ f => legalVbit f
  | .vperm _ f => legalVperm f
  | .vperm2 _ f => legalVperm2 f
  | .vred _ f => legalVred f
  | .vld _ f => legalVld f
  | .vst _ f => legalVst f
  | .vgather _ f => legalVgather f
  | .vscatter _ f => legalVscatter f
  | .vbcast _ f => legalVbcast f
  | .pset _ f => legalPset f
  | .topk _ f => legalTopk f
  | .bisect _ f => legalBisect f
  | .sample _ f => legalSample f
  | .vcvt _ f => legalVcvt f
  | .move _ f => legalMove f
  | .pack _ f => legalPack f
  | .put _ f => legalPut f
  | .get _ f => legalGet f
  | .rring _ f => legalRring f
  | .coll _ f => legalColl f
  | .barrier _ f => legalBarrier f
  | .gate _ f => legalGate f
  | .commit _ f => legalGate f
  | .chg _ f => legalChg f
  | .writeFlit _ f => legalFlit f
  | .readReqFlit _ f => legalFlit f
  | .readDataFlit _ f => legalFlit f
  | .ringFlit _ f => legalFlit f
  | .collFlit _ f => legalFlit f
  | .barrierFlit _ f => legalFlit f
  | .doneFlit _ f => legalFlit f
  | .returnFlit _ f => legalFlit f
  | .helloFlit _ f => legalFlit f
  | .timeFlit _ f => legalFlit f
  | .rollFlit _ f => legalFlit f
  | .idleFlit _ f => legalFlit f
  | .flitForward _ f => legalFlit f
  | .create c => legalHost c
  | .createFrom c => legalHost c
  | .destroy c => legalHost c
  | .resume c => legalHost c
  | .skip c => legalHost c
  | .remap c => legalHost c
  | .replan c => legalHost c
  | .replace c => legalHost c
  | .replaceResume c => legalHost c
  | .adapterLoad c => legalHost c
  | .adapterUnload c => legalHost c
  | .admitCmd c => legalHost c
  | .evict c => legalHost c
  | .dmaIn c => legalHost c
  | .dmaOut c => legalHost c
  | .ctxGo c => legalHost c
  | .ctxSet c => legalHost c
  | .classSet c _ => legalHost c
  | .steerLoad c => legalHost c
  | .steerUnload c => legalHost c
  | .ckpStoreSet c => legalHost c
  | .calRead c => legalHost c
  | .calWrite c => legalHost c
  | .calCapture c => legalHost c
  | .instructionStart .. | .instructionComplete .. | .fltBellTimeout .. | .tileDrainEnd .. | .tileGo .. | .tileStop ..
  | .tilePreempt .. | .preemptSave .. | .preemptSaved .. | .preemptLimitExpiry .. | .tileRestore .. | .restoreDone ..
  | .tileResume .. | .tileFlush .. | .tileFaultClear .. | .tileReset .. | .tileResetTimeout .. | .registerWrite ..
  | .stageGo .. | .stageDisarm .. | .stageCopyDone .. | .stageCopyFail .. | .stageDeadline .. | .patrolScrub ..
  | .archiveExtentDone .. | .flitReplay .. | .creditReturn .. | .helloTimer .. | .helloTimeout .. | .portTrained ..
  | .retrainTimer .. | .portEnable .. | .portActive .. | .evtLinkStall .. | .holdLimitExpiry .. | .timeExchange ..
  | .classListCreate .. | .classListDelete .. | .classListMemberRemove .. | .gateOutcomeRelease .. | .commitPoint .. | .partnerRestoreDone ..
  | .attemptAbort .. | .evtStepLate .. | .studyHallBubble .. | .studyHallSliceEnd .. | .chgStart .. | .chgSeatDone ..
  | .chgSwitchPoint .. | .ckpHeld .. | .ckpAckRelease .. | .landingApplyDone .. | .evtCkpLate .. | .archiveSetDone ..
  | .storeUploadDone .. | .storeRetry .. | .buddyWrite .. | .wardArm .. | .replayStep .. | .replaceLayerReceived ..
  | .replaceInstall .. | .replaceRetry .. | .evtReplaceStall .. | .adapterFlip .. | .adapterWaitLimit .. | .calWriteDone ..
  | .commandCompletion .. | .rosterBoundary .. | .servingEnable .. | .rosterTick .. | .rosModeWrite .. | .engineHang ..
  | .monitorHeartbeatLoss .. | .evtPrefectLost .. | .prefectResetDone .. | .wdogExpiry .. | .wdogPet .. | .evtPortHang ..
  | .dieReq .. | .moduleReq .. | .reportCardCapture .. | .rcAck .. | .portReset .. | .dieReset ..
  | .dieResetDone .. | .dieResetTimeout .. | .moduleReset .. | .moduleResetTimeout .. | .rollCallArm .. | .rollCallAck ..
  | .rollCallLatch .. | .slotStart .. | .slotSaveDone .. | .slotRestoreDone .. | .splitWrite .. | .hostBarAccess ..
  | .pcieLinkDown .. | .functionLevelReset .. | .perstDeassert .. | .mctpMessage .. | .redfishRequest .. | .bypass ..
  | .idcode .. | .samplePreload .. | .extest .. | .powerUp .. | .powerUpStageDone .. | .bootStageTimeout ..
  | .inputUndervoltage .. | .inputBelow44v .. | .inputBelow40v .. | .inputOvervoltage .. | .auxRailUp .. | .modEnLow ..
  | .standbyRailsOff .. | .modEnHigh .. | .powerCapStep .. | .ocp .. | .thermalReading .. | .thermalTrip ..
  | .lowFlow .. | .flowFailure .. | .leakDetected .. | .leakRailsOff .. | .tileResetDone .. | .scalarAccessComplete ..
  | .pcieLinkUp .. | .evtServeLate .. | .dieControlUncorrectable .. => true

end Sys2Proof
end

