-- ==== Sys2Proof/Tests/Slice0.lean ====
section
/-! SUPPORT. Small checks of the model: refused ill-formed commands, the worked words of the spec, single steps with results worked out
from the spec, and for each statement with hypotheses a concrete state and operands that meet them. -/
namespace Sys2Proof.Tests
open Sys2Proof Sys2Proof.Machine Sys2Proof.Safety
-- One theorem after another: checked at once, each would hold a thread until the kernel has come to it.
set_option Elab.async false

/-! ### Well-formedness -/

/-- One ill-formed term for each check of the scalar and engine forms. -/
theorem test_wf_refuses_words : ([
    .nop 0 { rd := 1 }, .add 0 { zero := 1 }, .add 0 { ext := true }, .step 0 { rd := 1 }, .dadd 0 { rs2 := 1 }, .addi 0 { z := 1 },
    .shli 0 { imm := 64 }, .li 0 { rs1 := 1 }, .li 0 { ext := true, imm := 1 }, .crr 0 { rs1 := 1 }, .jr 0 { rd := 1 },
    .bring 0 { imm := 5 }, .bring 0 { imm := 0x8000000 }, .bwait 0 { rd := 1 }, .bset 0 { imm := 0x80000 }, .st 0 { z := 1 },
    .crw 0 { rs1 := 1 }, .jmp 0 { rs2 := 1 },
    .mmul 0 { kn := 0 }, .mmul 0 { kn := 1, zero := 1 }, .mmul 0 { kn := 1, sync := { ext := true, zero := 1 } }, .ladd 0 { zero := 1 },
    .abmode 0 { zero := 1 }, .att 0 { zero := 1 }, .drill 0 { zero := 1 }, .move 0 { mode := 3 }, .move 0 { zero := 1 }, .pack 0 { zero := 1 },
    .put 0 { low := 1 }, .get 0 { low := 1 }, .rring 0 { low := 5 }, .rring 0 { a := 1, low := 0x80000 }, .coll 0 { low := 1 },
    .coll 0 { low := 0xE000000000 }, .coll 0 { low := 0x5000000000 }, .coll 0 { low := 0x8F80000000 }, .barrier 0 { b := 1 }, .gate 0 { c := 1 }, .commit 0 { low := 1 },
    .chg 0 { a := 1 }] : List Instr).all (fun i => !i.wellFormed) = true := by decide

/-- One ill-formed term for each row of the Rod's field table, and for flits and host commands. -/
theorem test_wf_refuses_rod : ([
    .vadd 0 { ty := 3 }, .vadd 0 { sat := true }, .vadd 0 { vc := 1 }, .vfma 0 { ty := 1 }, .vmin 0 { sat := true, ty := 1 }, .vcmp 0 { fn := 6 }, .vcmp 0 { vd := 8 },
    .vsel 0 { pen := true }, .vand 0 { ty := 0 }, .vperm 0 { vc := 1 }, .vperm2 0 { ty := 1 }, .vred 0 { fn := 5 }, .vld 0 { va := 1 },
    .vst 0 { vd := 1 }, .vgather 0 { va := 1 }, .vscatter 0 { vd := 1 }, .vbcast 0 { va := 1 }, .pset 0 { fn := 6 }, .pset 0 { fn := 0, va := 1 },
    .topk 0 { vc := 1 }, .topk 0 { imm := 0x200 }, .bisect 0 { fn := 4 }, .bisect 0 { pen := true }, .sample 0 { imm := 0x100 }, .vcvt 0 { fn := 2 }, .vcvt 0 { w32 := true },
    .writeFlit 0 { len := 241 }, .create { zero := 1 }] : List Instr).all (fun i => !i.wellFormed) = true := by decide

/-- Well-formed neighbours of those terms. -/
theorem test_wf_accepts : ([.nop 0 {}, .shli 0 { imm := 63 }, .li 0 { ext := true, rd := 1, w1 := 5 }, .bring 0 { imm := 0x80000 }, .bset 0 { imm := 0x7FFFF },
    .mmul 0 { kn := 1 }, .move 0 { mode := 2 }, .coll 0 { low := 0x1000000000 }, .vcmp 0 { vd := 7, fn := 5 }, .pset 0 { fn := 5, xs := 3, w32 := true }, .topk 0 { vc := 2, imm := 0x1FF },
    .writeFlit 0 { len := 240 }, .create {}] : List Instr).all (·.wellFormed) = true := by decide

/-! ### The worked words of 06_instruction_reference -/

/-- MMUL of slot 1, ACC 1, D4, D5, X7, KN 128. -/
theorem test_word_mmul : ({ slot := 1, acc := true, da := 4, db := 5, kx := 7, kn := 128, sync := { ext := true } } : MmulForm).w0 = 0x40B214E100000000 := by decide

/-! ### States -/

/-- A tile that runs at TILE_PC 0x1000. -/
def tile0 : Tile := { run := true, stopped := false, pc := 0x1000, x := [(1, 5), (2, 0xFFFFFFFFFFFFFFF0)] }
/-- Tile 0 as given, every other tile as reset leaves it. -/
def one (T : Tile) : State := { State.reset with tiles := [(0, T)] }
/-- An instruction in a queue of a tile. -/
def qi (op : EngineOp) : QInstr := { seq := 7, pc := 0x1000, w0 := 0, w1 := 0, wait := none, ring := none, op := op }

/-! ### Single steps with results from the spec's own words -/

/-- The word MMUL.ACC carries in its extension. -/
theorem test_word_sync : ({ ext := true, wbell := 0x123, wx := 9, wen := true, rbell := 0x124, rinc := 1 } : Sync).w1 = 0x0000100249480123 := by decide

/-- SRA shifts in the sign and uses bits [5:0] of the amount: 2^64 − 16 shifted right by 5 is −1 (R141). -/
theorem test_sra : (match exec (.sra 0 { rd := 3, rs1 := 2, rs2 := 1 }) (one tile0) with
    | .next u => decide ((u.tile 0).xr 3 = 0xFFFFFFFFFFFFFFFF ∧ (u.tile 0).pc = 0x1008) | _ => false) = true := by decide

/-- A write of X0 is discarded (R106). -/
theorem test_x0 : (match exec (.addi 0 { rd := 0, imm := 9 }) (one tile0) with | .next u => decide ((u.tile 0).xr 0 = 0) | _ => false) = true := by decide

/-- A word whose zero field is not zero is FLT_ILLEGAL at issue; TILE_PC stays (R122, R135). -/
theorem test_illegal : (match exec (.add 0 { rd := 3, zero := 1 }) (one tile0) with
    | .next u => decide ((u.tile 0).fault.code = 0x01 ∧ (u.tile 0).fault.atExec = false ∧ (u.tile 0).pc = 0x1000 ∧ (u.tile 0).run = false)
    | _ => false) = true := by decide

/-- A Bell that has wrapped past its target still satisfies the wait: 2^31 − 1 past holds, 2^31 past does not (R116). -/
theorem test_bell_window : bellMet (bellSet State.reset 5 0x7FFFFFFE) 5 0xFFFFFFFF = true ∧ bellMet (bellSet State.reset 5 0x7FFFFFFF) 5 0xFFFFFFFF = false := by
  decide

/-- A VF's command that needs the PF ends with ST_NOT_PERMITTED (R396). -/
theorem test_pf_only : (match exec (.steerUnload { q := 1, tag := 9 }) (rset (rset State.reset mgtStatus 1) (qreg 1 8) 0x14) with
    | .next u => decide (u.host.cmds.map (fun r => (r.c.tag, r.status)) = [(9, some 0x0161)]) | _ => false) = true := by decide

/-- IDCODE shifts out 0x1328_02AB (R402). -/
theorem test_idcode : (match exec .idcode State.reset with | .next u => decide (u.reply = .value 0x132802AB) | _ => false) = true := by decide

/-! ### Witnesses: a concrete state and operands that meet the hypotheses of each statement -/

/-- With no die quiet and none in reset every home takes its writes. -/
theorem taken_clear (s : State) (h : rget s (mgtBlk + 0x810) = 0) (r : s.sys.dieReset = none) (w : PW) : taken s w = true := by
  unfold taken
  split
  · simp [dieDead, dieQuiet, h, r, flag]
  · rfl

/-- A tile that can run is ready for words without a source that waits. -/
theorem ready_one (T : Tile) (srcs : List Nat) (h1 : canIssue (one T) 0 = true) (h2 : ((one T).tile 0).bwait = none)
    (h3 : ldPending ((one T).tile 0) srcs = false) (h4 : fetchFault (one T) ((one T).tile 0).pc = none)
    (h5 : fetchFault (one T) (((one T).tile 0).pc + 8) = none) (e : Bool) : Ready (one T) 0 e srcs :=
  ⟨h1, h2, h3, h4, fun _ => h5⟩

theorem ready_tile0 (e : Bool) (srcs : List Nat) : Ready (one tile0) 0 e srcs :=
  ready_one tile0 srcs (by decide) rfl rfl (by decide) (by decide) e
/-- A machine with no write in flight and no poisoned word, quiet die or reset. -/
theorem plain (s : State) (h1 : (inflight s).all (fun e => e.2.2.2.isEmpty) = true) (h2 : s.m.poison = []) (h3 : rget s (mgtBlk + 0x810) = 0) (h4 : s.sys.dieReset = none) : PlainMemory s :=
  ⟨fun e he => List.isEmpty_iff.mp (List.all_eq_true.mp h1 e he), h2, fun d => by simp [dieDead, dieQuiet, h3, h4, flag]⟩

/-- ScalarArithmeticResult, BranchAndJumpTarget, NopHaltStepDaddEffect, LinkIssue's and every other issue's Ready. -/
theorem witness_ScalarArithmeticResult : legalR { rd := 31, rs1 := 1, rs2 := 2 } = true ∧ legalI { rd := 31, rs1 := 1, imm := 0xFFFFFFFFFF } = true ∧
    legalShift { rd := 31, rs1 := 1, imm := 63 } = true ∧ legalLi { rd := 31, imm := 0xFFFFFFFFFF } = true ∧ legalLi { ext := true, w1 := 5 } = true ∧
    Ready (one tile0) 0 false [1, 2] ∧ Ready (one tile0) 0 true [] :=
  ⟨by decide, by decide, by decide, by decide, by decide, ready_tile0 .., ready_tile0 ..⟩
theorem witness_BranchAndJumpTarget : legalB { rs1 := 1, rs2 := 2, off := 0xFFFFFFFFFF } = true ∧ legalJmp { off := 0xFFFFFFFFFF } = true ∧
    legalI1 { rd := 31, imm := 0xFFFFFFFFFF } = true ∧ legalJr { rs1 := 1, imm := 8 } = true ∧ Ready (one tile0) 0 false [1, 2] ∧ Ready (one tile0) 0 false [] :=
  ⟨by decide, by decide, by decide, by decide, ready_tile0 .., ready_tile0 ..⟩
theorem witness_NopHaltStepDaddEffect : legalR0 {} = true ∧ legalStep { rs1 := 1 } = true ∧ legalDadd { rd := 31, rs1 := 1 } = true ∧ Ready (one tile0) 0 false [1] :=
  ⟨by decide, by decide, by decide, ready_tile0 ..⟩

/-- A tile whose X1 is an address. -/
def at1 (a : Nat) : Tile := { tile0 with x := [(1, BitVec.ofNat 64 a), (2, 7)] }
theorem witness_LoadAndStoreIssue : legalI { rd := 3, rs1 := 1, imm := 3 } = true ∧ legalB { rs1 := 1, rs2 := 2 } = true ∧
    Ready (one (at1 0x2000)) 0 false [1] ∧ scalarError (one (at1 0x2000)) true 0x2000 = none ∧ Settled (one (at1 0x2000)) 0x2000 8 ∧
    Ready (one (at1 (slateOf 0 + slateSize - 8))) 0 false [1, 2] ∧ scalarError (one (at1 (slateOf 0 + slateSize - 8))) false (slateOf 0 + slateSize - 8) = none ∧
    scalarError (one (at1 (slateOf 1))) false (slateOf 1) = none :=
  ⟨by decide, by decide, ready_one _ _ (by decide) rfl rfl (by decide) (by decide) _, by decide, fun e he => by simp [inflight, one, State.reset, at1, tile0] at he,
    ready_one _ _ (by decide) rfl rfl (by decide) (by decide) _, by decide, by decide⟩
/-- The last clause of an LD: the bytes it reads are those of the one ST that is posted. -/
theorem witness_LoadAndStoreIssue_posted :
    let s := one (at1 0x2000)
    let ws (v : BitVec 64) : List PW := (List.range 8).map (fun k => { addr := canon (mapCtx s) (0x2000 + k), mask := 0xFF, val := v.extractLsb' (8 * k) 8 })
    let s' := one { at1 0x2000 with access := [.st 3 0x800 0x2000 (ws 77) none] }
    Ready s' 0 false [1] ∧ scalarError s' true 0x2000 = none ∧ Access.st 3 0x800 0x2000 (ws 77) none ∈ (s'.tile 0).access ∧ ∀ y ∈ inflight s', y = (0, 5, 3, ws 77) :=
  ⟨ready_one _ _ (by decide) rfl rfl (by decide) (by decide) _, by decide, List.mem_singleton.mpr rfl, fun _ h => List.mem_singleton.mp h⟩
theorem witness_ScalarAccessEnd : ({ tile0 with access := [.ld 0 0x1000 3 0x2000 9 none] } : Tile).access = .ld 0 0x1000 3 0x2000 9 none :: [] ∧
    ({ tile0 with access := [.st 0 0x1000 0x2000 [] none] } : Tile).access = .st 0 0x1000 0x2000 [] none :: [] ∧
    ({ tile0 with access := [.ld 0 0x1000 3 0x2000 9 (some ⟨0x43, 0x2000, 5⟩)] } : Tile).access = .ld 0 0x1000 3 0x2000 9 (some ⟨0x43, 0x2000, 5⟩) :: [] ∧
    ({ tile0 with access := [.st 0 0x1000 0x2000 [] (some ⟨0x43, 0x2000, 6⟩)] } : Tile).access = .st 0 0x1000 0x2000 [] (some ⟨0x43, 0x2000, 6⟩) :: [] ∧
    (let w : PW := { addr := slateOf 100, mask := 0xFF, val := 7 }
     taken (one tile0) w = true ∧ taken { one tile0 with sys := { (one tile0).sys with dieReset := some 1 } } w = false) :=
  ⟨rfl, rfl, rfl, rfl, by decide, by decide⟩
theorem witness_ControlRegisterAccessAndPrivilege : legalI1 { rd := 3, imm := 0x18 } = true ∧ legalCrw { rs2 := 1, off := 0x600 } = true ∧ legalCrw { rs2 := 1, off := 0x0FF0 } = true ∧
    Ready (one tile0) 0 false [1] ∧ ((one tile0).tile 0).fault.valid = false ∧ 0x0810 + 32 * 63 = 0x0FF0 ∧ pageRead ((one tile0).onTile 0 (·.advance false)) 0 0xFFF8 = none ∧
    (0x60 ≤ 0x60 ∧ 0x60 % 8 = 0) :=
  ⟨by decide, by decide, by decide, ready_tile0 .., rfl, rfl, by decide, by decide⟩
theorem witness_CardLoadStoreEffect : legalI { rd := 31, rs1 := 1 } = true ∧ legalB { rs1 := 1, rs2 := 31 } = true ∧ Ready (one (at1 (slateSize - 32))) 0 false [1] ∧
    slateSize - 32 + 32 ≤ slateSize ∧ accessError (one (at1 (slateSize - 32))) true (slateOf 0 + (slateSize - 32)) 32 = none ∧ Settled (one (at1 0)) (slateOf 0) 32 :=
  ⟨by decide, by decide, ready_one _ _ (by decide) rfl rfl (by decide) (by decide) _, by decide, by decide, fun e he => by simp [inflight, one, State.reset, at1, tile0] at he⟩

/-- A tile with Bells 5 to 7, its Bell 5 at the target that X1 names. -/
def belled (l : List Access) : Tile := { tile0 with bellBase := 5, bellCount := 3, access := l }
theorem witness_BellInstructionEffect : (one (belled [])).sys.dieReset ≠ some ((7 : BitVec 19).toNat / 65536) ∧ tget none (belled []).waits 5 = none ∧ tileBell ((one (belled [])).tile 0) 7 = true ∧ legalBell { rs1 := 1, imm := 7 } = true ∧ legalBring { imm := 7 + 255 * 2 ^ 19 } = true ∧
    Ready (one (belled [])) 0 false [1] ∧ Ready (one (belled [.st 0 0 0x2000 [] none])) 0 false [] ∧
    (bellGet (bellSet (one (belled [])) 7 (5 + 0x7FFFFFFF)) 7 - 5).toNat < 2 ^ 31 ∧ 2 ^ 31 ≤ (bellGet (one (belled [])) 7 - 5).toNat ∧
    (∃ sq pc ad ws e, Access.st sq pc ad ws e ∈ (belled [.st 0 0 0x2000 [] none]).access) ∧ (∀ a ∈ (belled []).access, ∀ sq pc ad ws e, a ≠ .st sq pc ad ws e) :=
  ⟨by decide, rfl, by decide, by decide, by decide, ready_one _ _ (by decide) rfl rfl (by decide) (by decide) _, ready_one _ _ (by decide) rfl rfl (by decide) (by decide) _,
    by decide, by decide, ⟨0, 0, 0x2000, [], none, List.mem_singleton.mpr rfl⟩, fun _ h => nomatch h⟩
theorem witness_BellWaitCondition : tileBell ((one (belled [])).tile 0) 7 = true ∧ (one (belled [])).sys.dieReset ≠ some ((7 : BitVec 19).toNat / 65536) ∧ Ready (one (belled [])) 0 false [1] ∧
    ((bellGet (bellSet (one (belled [])) 7 (5 + 0x7FFFFFFF)) 7).toNat + 2 ^ 32 - 5) % 2 ^ 32 < 2 ^ 31 ∧
    2 ^ 31 ≤ ((bellGet (bellSet (one (belled [])) 7 (5 + 0x80000000)) 7).toNat + 2 ^ 32 - 5) % 2 ^ 32 ∧
    (5 : BitVec 32).toNat = ((bellGet (bellSet (one (belled [])) 7 (6 - 0x80000000)) 7).toNat + (2 ^ 31 - 1)) % 2 ^ 32 ∧ (belled []).access = [] :=
  ⟨by decide, by decide, ready_one _ _ (by decide) rfl rfl (by decide) (by decide) _, by decide, by decide, by decide, rfl⟩
/-- BellWaitCondition of the head of a queue, on both sides of its condition. -/
theorem witness_BellWaitCondition_head :
    let h : QInstr := { qi (.abmode true) with wait := some (5, 9) }
    let s := one { belled [] with queues := [(0, [h])] }
    let u := bellSet s 5 9
    ((s.tile 0).queue 0).head? = some h ∧ 2 ^ 31 ≤ ((bellGet s 5).toNat + 2 ^ 32 - (9 : BitVec 32).toNat) % 2 ^ 32 ∧
    ((u.tile 0).queue 0).head? = some h ∧ canStart u 0 = true ∧ interlocked (u.tile 0) h = false ∧ (u.tile 0).stages = [] ∧
    ((bellGet u 5).toNat + 2 ^ 32 - (9 : BitVec 32).toNat) % 2 ^ 32 < 2 ^ 31 := by decide

/-- A tensor card of two dimensions with rows a number of bytes apart. -/
def mk (base fmt kind rows cols stride : Nat) : BitVec 256 :=
  BitVec.ofNat 256 (base + fmt * 2 ^ 48 + 2 * 2 ^ 52 + kind * 2 ^ 55 + ((cols - 1) * 2 ^ 16 + (rows - 1) * 2 ^ 38) * 2 ^ 64 + stride * 2 ^ 192)

/-- A tile with cards in its Slate: D1 to D3 rows of FP16, D4 and D5 operands of an MMUL, D6 long images; X1 5, X2 64, X3 0, X4 9. -/
def carded : Tile :=
  { run := true, stopped := false, pc := 0x1000, x := [(1, 5), (2, 64), (4, 9)],
    d := [(1, mk (slateOf 0 + 0x10000) 0 0 1 64 128), (2, mk (slateOf 0 + 0x20000) 0 0 1 64 128), (3, mk (slateOf 0 + 0x30000) 0 0 1 2 32),
          (4, mk (slateOf 0 + 0x1000) 0 0 64 32 64), (5, mk (slateOf 0 + 0x3000) 0 0 32 128 256), (6, mk (slateOf 0 + 0x40000) 0 1 64 128 2560)],
    aba := { iValid := [(0, true)] } }
/-- The bytes of a 64-byte card of which only word 0 is not zero, at an offset of Slate 0. -/
def cardBytes (off w : Nat) : List Host.Cell :=
  ((List.range 8).map (fun k => (slateOf 0 + off + k, BitVec.ofNat 8 (w >>> (8 * k))))).filter (fun e => decide (e.2 ≠ 0))
/-- The attention card at Slate 0: FINISH, DQ D1, DOUT D2, DSTAT D3, H 1; the drill card at 64: SRC 1, IN D1, OUT D2. -/
def carded0 : State :=
  { one carded with m := { cells := cardBytes 0 (2 + 1 * 2 ^ 6 + 2 * 2 ^ 11 + 3 * 2 ^ 16 + 2 ^ 23) ++ cardBytes 64 (1 + 1 * 2 ^ 5 + 2 * 2 ^ 10) } }

theorem ready_carded (e : Bool) (srcs : List Nat) : Ready carded0 0 e srcs := ⟨by decide, rfl, rfl, by decide, fun _ => by decide⟩
theorem readyQ_carded (q : Nat) (srcs : List Nat) : ReadyQ carded0 0 q {} srcs false [] :=
  ⟨ready_carded _ _, by show 0 < 32; decide, fun h => by subst h; decide, rfl⟩

theorem witness_MatrixAttentionAndDrillIssue :
    legalMmul { da := 4, db := 5, kx := 3, kn := 32 } = true ∧ mmulFault (atIssue carded0 0 false) 0 carded { da := 4, db := 5, kx := 3, kn := 32 } = none ∧
    legalLadd { dc := 6, nx := 2 } = true ∧ laddFault (atIssue carded0 0 false) 0 carded { dc := 6, nx := 2 } = none ∧ legalAbmode { fused := true } = true ∧
    legalAtt { ax := 3 } = true ∧ slateOf 0 + 0 + 64 ≤ slateOf 0 + slateSize ∧
    attFault (atIssue carded0 0 false) 0 carded 0 (slateOf 0) (vbytes (mapCtx (atIssue carded0 0 false)) (viewOf (atIssue carded0 0 false) 0 5) (slateOf 0) 64) = none ∧
    legalDrill { xs := 2 } = true ∧
    drillFault (atIssue carded0 0 false) 0 carded (slateOf 0 + 64) (vbytes (mapCtx (atIssue carded0 0 false)) (viewOf (atIssue carded0 0 false) 0 5) (slateOf 0 + 64) 64) = none ∧
    ReadyQ carded0 0 0 {} [3] false [] ∧ ReadyQ carded0 0 1 {} [2] false [] :=
  ⟨by decide, by decide, by decide, by decide, by decide, by decide, by decide, by decide, by decide, by decide, readyQ_carded .., readyQ_carded ..⟩

/-- RodIssue: a legal word of every Rod instruction that passes its range check; VGATHER's indices are all 0. -/
theorem witness_RodIssue : ReadyQ carded0 0 2 {} [0] false [] ∧
    ([(legalVarith, 0x60, {}), (legalVarith, 0x61, {}), (legalVarith, 0x62, {}), (legalVfma, 0x63, {}), (legalVminmax, 0x64, {}), (legalVminmax, 0x65, {}),
      (legalVcmp, 0x66, { vd := 7 }), (legalVsel, 0x67, {}), (legalVbit, 0x68, { ty := 1 }), (legalVbit, 0x69, { ty := 2 }), (legalVbit, 0x6A, { ty := 1 }),
      (legalVbit, 0x6B, { ty := 1 }), (legalVbit, 0x6C, { ty := 1 }), (legalVperm, 0x6D, {}), (legalVperm2, 0x6E, {}), (legalVred, 0x6F, {}), (legalVld, 0x70, { imm := 0x3FFF }),
      (legalVst, 0x71, {}), (legalVgather, 0x72, {}), (legalVscatter, 0x73, {}), (legalVbcast, 0x74, {}), (legalPset, 0x75, {}), (legalTopk, 0x76, { imm := 256, fn := 1 }),
      (legalBisect, 0x77, {}), (legalSample, 0x78, {}), (legalVcvt, 0x79, {})] : List ((RodForm → Bool) × Nat × RodForm)).all
        (fun e => e.1 e.2.2 && decide (rodFault carded e.2.1 e.2.2 = none)) = true :=
  ⟨readyQ_carded .., by decide +kernel⟩

theorem witness_MoverIssue : legalMove { ds := 1, dd := 2, mode := 0 } = true ∧ moveFault (atIssue carded0 0 false) carded { ds := 1, dd := 2 } = none ∧
    ReadyQ carded0 0 3 {} [] false [] ∧ legalPack { xs := 2, xr := 1 } = true ∧ ReadyQ carded0 0 3 {} [2, 1] false [] ∧ 0 + 8 ≤ slateSize ∧
    recordFaultAt (atIssue carded0 0 false) (slateOf 0 + 64) 64 = none ∧
    packRange (vbytes (mapCtx (atIssue carded0 0 false)) (viewOf (atIssue carded0 0 false) 0 5) (slateOf 0 + 64) 64) = none :=
  ⟨by decide, by decide, readyQ_carded .., by decide, readyQ_carded .., by decide, by decide, by decide⟩

/-- The carded tile on a module of seat 5 whose seat map names seat 5, with a class list 5 of that seat. -/
def linked : State :=
  let s := rset (rset carded0 lnkSelf (5 * 2 ^ 11 + 2 ^ 21)) (seatReg 5) 0x1000
  { s with fab := { s.fab with lists := [(5, some { members := [5] })] } }
theorem ready_linked (e : Bool) (srcs : List Nat) : Ready linked 0 e srcs := ⟨by decide, rfl, rfl, by decide, fun _ => by decide⟩
theorem readyQ_linked (srcs : List Nat) (remote : Bool) (bells : List (BitVec 19)) (h : syncFault carded {} remote bells = none) : ReadyQ linked 0 4 {} srcs remote bells :=
  ⟨ready_linked _ _, by show 0 < 32; decide, fun h => absurd h (by decide), h⟩

theorem witness_LinkIssue :
    legalPut { a := 1, b := 2, c := 1, low := 0x8000000000 } = true ∧ firstFault (putChecks (atIssue linked 0 false) carded { a := 1, b := 2, c := 1 }) = none ∧
    legalGet { a := 1, b := 2, c := 1 } = true ∧ firstFault (getChecks (atIssue linked 0 false) carded { a := 1, b := 2, c := 1 }) = none ∧
    legalRring { c := 1, low := 0x7FFFFFF } = true ∧ seatFault linked 5 = none ∧
    legalColl { a := 1, b := 2, c := 1, low := 0x0100000000 } = true ∧ firstFault (collChecks (atIssue linked 0 false) carded { a := 1, b := 2, c := 1, low := 0x0100000000 }) = none ∧
    legalBarrier { a := 1, low := 0 } = true ∧ listFault linked 5 = none ∧
    ReadyQ linked 0 4 {} [1] true [] ∧ ReadyQ linked 0 4 {} ([1, 2] ++ []) false [] :=
  ⟨by decide, by decide, by decide, by decide, by decide, by decide, by decide, by decide, by decide, by decide, readyQ_linked _ _ _ (by decide), readyQ_linked _ _ _ (by decide)⟩
/-- The last clause of LinkIssue: a BARRIER whose release Bell is in the tile's range. -/
theorem witness_LinkIssue_barrier :
    let s := linked.onTile 0 (fun T => { T with bellCount := 1 })
    ReadyQ s 0 4 {} [1] false [0] ∧ listFault s 5 = none :=
  ⟨⟨⟨by decide, rfl, rfl, by decide, fun _ => by decide⟩, by show 0 < 32; decide, fun h => absurd h (by decide), by decide⟩, by decide⟩

theorem witness_CommitControlIssue : 0 + 8 ≤ slateSize ∧ legalGate { a := 1, b := 3 } = true ∧ listFault linked 5 = none ∧ legalChg { b := 3, low := 1 } = true ∧
    ReadyQ linked 0 4 {} [1, 3] false [] ∧ ReadyQ linked 0 4 {} [3] false [] :=
  ⟨by decide, by decide, by decide, by decide, readyQ_linked _ _ _ (by decide), readyQ_linked _ _ _ (by decide)⟩
/-- A tile whose queue `q` holds one instruction. -/
def queued (q : Nat) (i : QInstr) : State := one { tile0 with queues := [(q, [i])], v := [(2, 5)], aba := { valid := [(1, true)] } }
theorem startable_queued (q : Nat) (op : EngineOp) (h : ((queued q (qi op)).tile 0).queue q = [qi op]) (hi : interlocked ((queued q (qi op)).tile 0) (qi op) = false)
    (hc : canStart (queued q (qi op)) 0 = true) :
    Startable (queued q (qi op)) 0 q (qi op) :=
  ⟨by rw [h]; rfl, hc, hi, fun _ _ h => (nomatch h), fun _ h => (nomatch h)⟩
theorem startable_of (s : State) (q : Nat) (i : QInstr) (h : (decide (((s.tile 0).queue q).head? = some i) && canStart s 0 && !interlocked (s.tile 0) i && i.wait.isNone && (s.tile 0).stages.isEmpty) = true) :
    Startable s 0 q i := by
  simp only [Bool.and_eq_true, decide_eq_true_eq, Bool.not_eq_true', Option.isNone_iff_eq_none, List.isEmpty_iff] at h
  obtain ⟨⟨⟨⟨h1, h2⟩, h3⟩, h4⟩, h5⟩ := h
  exact ⟨h1, h2, h3, fun b v e => absurd e (by rw [h4]; nofun), fun e he => absurd he (by rw [h5]; nofun)⟩

/-- A PACK descriptor with its list of one sample of 5 tokens at Slate offset 0x100 and its pieces at 0x200, one micro-batch of one entry. -/
def packCard : List Byte := leBytes 8 (0x100 + 2 ^ 24) ++ leBytes 8 (0x200 + 2 ^ 24) ++ leBytes 8 (2 ^ 24) ++ leBytes 40 0
/-- Tile 0 with that PACK in queue 3, its sample list in Slate, and a job of context 0. -/
def packing : State :=
  { setJob (one { tile0 with queues := [(3, [qi (.pack packCard 0)])] }) 0 (some { tt := leBytes 16 0 ++ leBytes 8 64 }) with
    m := { cells := [(slateOf 0 + 0x104, 5)] } }
/-- The starts of MoverIssue: a MOVE of two like cards, a PACK of an empty list, and one of one entry that fits. -/
theorem witness_MoverIssue_start :
    (let s := queued 3 (qi (.move 0 {} {}))
     Startable s 0 3 (qi (.move 0 {} {})) ∧ PlainMemory s ∧ (({} : Card).kind = 0 → ({} : Card).eff = ({} : Card).fmt) ∧ ({} : Card).lifted = false) ∧
    (let s := queued 3 (qi (.pack (leBytes 64 0) 0))
     Startable s 0 3 (qi (.pack (leBytes 64 0) 0)) ∧ PlainMemory s ∧ wfld (leBytes 64 0) 0 24 24 = 0) :=
  ⟨⟨startable_of _ _ _ (by decide), plain _ (by decide) rfl (by decide) rfl, fun _ => by decide, by decide⟩,
   startable_of _ _ _ (by decide), plain _ (by decide) rfl (by decide) rfl, by decide⟩
theorem witness_MoverIssue_pack :
    Startable packing 0 3 (qi (.pack packCard 0)) ∧ PlainMemory packing ∧
    ∃ j, jobOf packing (packing.tile 0).ctx.toNat = some j ∧ wfld packCard 0 24 24 = 1 ∧
      (let e := vbytes (mapCtx packing) (memGet packing.m) (slateOf 0 + (packLists packCard).1.1) 16
       0 < wfld e 0 32 24 ∧ wfld e 0 32 24 ≤ j.mbCeil ∧ wfld e 1 0 24 % j.page = 0) ∧ wfld packCard 2 0 24 = 0 ∧ j.page ≤ j.mbCeil ∧
      0 < wfld packCard 1 24 24 ∧ 0 < wfld packCard 2 24 16 :=
  ⟨startable_of _ _ _ (by decide), plain _ (by decide) rfl (by decide) rfl, _, rfl, by decide, by decide, by decide, by decide, by decide, by decide⟩

/-- The linked module with one instruction in queue 4 of tile 0; seat 5 is ACTIVE and class list 5 has a member. -/
def linking (op : EngineOp) : State := linked.onTile 0 (fun T => { T with queues := [(4, [{ qi op with ring := some (5, 1) }])] })
def li (op : EngineOp) : QInstr := { qi op with ring := some (5, 1) }
/-- The starts of LinkIssue. -/
theorem witness_LinkIssue_start :
    (∀ op ∈ [.put 5 true {} {}, .put 5 false {} {}, .get 5 {} {}, .rring 5 7 3, .coll 5 1 true {} {} 8 0, .barrier 5 44], Startable (linking op) 0 4 (li op)) ∧
    seatState linked 5 = 1 ∧ PlainMemory (linking (.put 5 true {} {})) ∧ PlainMemory (linking (.put 5 false {} {})) ∧ PlainMemory (linking (.coll 5 1 true {} {} 8 0)) ∧
    (∃ l, listAt linked 5 = some l ∧ l.waiting = false ∧ l.members ≠ []) := by
  refine ⟨?_, by decide, plain _ (by decide) rfl (by decide) rfl, plain _ (by decide) rfl (by decide) rfl, plain _ (by decide) rfl (by decide) rfl, _, rfl, rfl, nofun⟩
  intro op h
  simp only [List.mem_cons, List.not_mem_nil, or_false] at h
  obtain rfl | rfl | rfl | rfl | rfl | rfl := h <;> exact startable_of _ _ _ (by decide)
/-- The starts of CommitControlIssue: without a job, a CHG to the layout in force, and a COMMIT for the step whose attempt runs. -/
theorem witness_CommitControlIssue_start :
    (∀ op ∈ ([.gate 5 8 3, .commit 5 8 3, .chg false 8 3] : List EngineOp), Startable (queued 4 (qi op)) 0 4 (qi op)) ∧
    earlierDone ((queued 4 (qi (.gate 5 8 3))).tile 0) (qi (.gate 5 8 3)).seq = true ∧ jobOf (queued 4 (qi (.gate 5 8 3))) 0 = none ∧
    (let j : Job := { next := 3 }
     let s := setJob (queued 4 (qi (.commit 5 8 3))) 0 (some j)
     Startable s 0 4 (qi (.commit 5 8 3)) ∧ Startable (setJob (queued 4 (qi (.chg false 8 3))) 0 (some j)) 0 4 (qi (.chg false 8 3)) ∧
     earlierDone (s.tile 0) (qi (.commit 5 8 3)).seq = true ∧ jobOf s (s.tile 0).ctx.toNat = some j ∧
       j.layout = false ∧ j.stopped = false ∧ (3 : BitVec 32).toNat = j.next ∧ j.ended (qi (.commit 5 8 3)) = none) := by
  refine ⟨?_, by decide, rfl, startable_of _ _ _ (by decide), startable_of _ _ _ (by decide), by decide, rfl, rfl, rfl, rfl, by decide⟩
  intro op h
  simp only [List.mem_cons, List.not_mem_nil, or_false] at h
  obtain rfl | rfl | rfl := h <;> exact startable_of _ _ _ (by decide)

theorem witness_MatrixStartEffect : Startable (queued 0 (qi (.abmode true))) 0 0 (qi (.abmode true)) ∧
    Startable (queued 0 (qi (.mmul 3 true {} {} 0 32))) 0 0 (qi (.mmul 3 true {} {} 0 32)) ∧ rangesError (queued 0 (qi (.mmul 3 true {} {} 0 32))) true (Card.ranges {} ++ Card.ranges {}) = none ∧
    Startable (queued 0 (qi (.ladd 0 {} 1))) 0 0 (qi (.ladd 0 {} 1)) ∧ rangesError (queued 0 (qi (.ladd 0 {} 1))) true (Card.ranges {}) = none :=
  ⟨startable_queued 0 _ rfl rfl (by decide), startable_queued 0 _ rfl rfl (by decide), by decide, startable_queued 0 _ rfl rfl (by decide), by decide⟩
/-- The cell clauses of MatrixStartEffect: memory as it stands, a slot of the mode, and a long card of as many images as the slot has cells; a DRILL
with SRC 4; an ATT of a marked Roster entry. -/
theorem witness_MatrixStartEffect_cells :
    PlainMemory (queued 0 (qi (.mmul 3 true {} {} 0 32))) ∧ 3 < 4 ∧ ((queued 0 (qi (.mmul 3 true {} {} 0 32))).tile 0).aba.fused = false ∧
    (let c := cardOf carded 6
     let s := queued 0 (qi (.ladd 0 c 1))
     Startable s 0 0 (qi (.ladd 0 c 1)) ∧ PlainMemory s ∧ rangesError s true c.runs = none ∧ c.size = 8192) ∧
    (let card := leBytes 8 4 ++ leBytes 56 0
     let op := EngineOp.drill false card [] {} {} {} {} {} {} {} 0 0
     Startable (queued 1 (qi op)) 0 1 (qi op) ∧ (parseDrill card).src = 4 ∧ (parseDrill card).state = false ∧ (parseDrill card).scatter = false ∧ PlainMemory (queued 1 (qi op))) ∧
    (let op := EngineOp.att 1 false 0 (leBytes 64 0) [] {} {} {} 0 0
     let s := { queued 0 (qi op) with counts := { (queued 0 (qi op)).counts with sitOut := [(0, true)] } }
     Startable s 0 0 (qi op) ∧ attEntry (qi op).op = some 0 ∧ tget false s.counts.sitOut 0 = true) :=
  ⟨plain _ (by decide) rfl (by decide) rfl, by decide, rfl,
   ⟨startable_of _ _ _ (by decide), plain _ (by decide) rfl (by decide) rfl, by decide, by decide⟩,
   ⟨startable_of _ _ _ (by decide), by decide, by decide, by decide, plain _ (by decide) rfl (by decide) rfl⟩,
   startable_of _ _ _ (by decide), by decide, by decide⟩
theorem witness_RodLaneStartResult : Startable (queued 2 (qi (.rod 0x60 { vd := 63, va := 2, vb := 2, ty := 1, pen := true } 0 0))) 0 2 (qi (.rod 0x60 { vd := 63, va := 2, vb := 2, ty := 1, pen := true } 0 0)) ∧
    (1 : BitVec 2) ≠ 0 :=
  ⟨startable_queued 2 _ rfl rfl (by decide), by decide⟩
/-- A word of every other clause of RodLaneStartResult; V3 is zero, so it names lane 0 and holds no NaN. -/
def rodOps : List (Nat × RodForm) :=
  [(0x64, { ty := 1 }), (0x65, { ty := 2, w32 := true }), (0x6D, { va := 2, vb := 3 }), (0x6E, { va := 2, vb := 3, vc := 2 }), (0x67, {}), (0x66, { ty := 1, fn := 5 }), (0x75, { fn := 5 }),
   (0x6F, { va := 2, ty := 2, fn := 4 }), (0x79, { fn := 1 }), (0x70, {}), (0x71, { va := 2 }), (0x72, { vb := 3 }), (0x73, { va := 2, vb := 3 }),
   (0x76, { va := 3, vc := 4, vd := 6, fn := 1, imm := 256 }), (0x77, {}), (0x78, {})]
theorem witness_RodLaneStartResult_forms :
    (rodOps.all fun e => let s := queued 2 (qi (.rod e.1 e.2 0 0))
      decide (((s.tile 0).queue 2).head? = some (qi (.rod e.1 e.2 0 0))) && canStart s 0 && !interlocked (s.tile 0) (qi (.rod e.1 e.2 0 0))) = true ∧
    PlainMemory (queued 2 (qi (.rod 0x70 {} 0 0))) ∧ PlainMemory (queued 2 (qi (.rod 0x72 { vb := 3 } 0 0))) ∧ 0 + 512 ≤ slateSize ∧
    (∀ j < 256, lane 16 ((queued 2 (qi (.rod 0x6D { va := 2, vb := 3 } 0 0))).tile 0 |>.vr 3) j % 256 < 256) ∧
    (∀ j < 256, (0 + 0 + lane 16 ((queued 2 (qi (.rod 0x72 { vb := 3 } 0 0))).tile 0 |>.vr 3) j * (16 / 8)) % 2 ^ 64 + 16 / 8 ≤ slateSize) ∧
    (∀ j < 256, nan16 (lane 16 ((queued 2 (qi (.rod 0x76 { va := 3, vc := 4, vd := 6, fn := 1, imm := 256 } 0 0))).tile 0 |>.vr 3) j) = false) ∧
    (4 : BitVec 6).toNat % 2 = 0 ∧ (6 : BitVec 6).toNat / 2 ≠ (4 : BitVec 6).toNat / 2 :=
  ⟨by decide, plain _ (by decide) rfl (by decide) rfl, plain _ (by decide) rfl (by decide) rfl, by decide, fun _ _ => Nat.mod_lt _ (by decide),
   by decide +kernel, by decide +kernel, by decide, by decide⟩

/-- A tile with one started instruction in queue `q`. -/
def started (q : Nat) (x : Started) : State := one { tile0 with started := [(q, [x])] }
theorem witness_InstructionCompleteEffect : (((started 4 { i := qi (.rring 5 0 1) }).tile 0).startedQ 4).head? = some { i := qi (.rring 5 0 1) } ∧
    ({ i := qi (.rring 5 0 1) } : Started).fail = none ∧ ({ i := qi (.rring 5 0 1) } : Started).ready = true ∧
    tileQuiet (started 4 { i := qi (.rring 5 0 1) }) 0 = false ∧ dieDead (started 4 { i := qi (.rring 5 0 1) }) (dieOf 0) = false ∧
    (∀ w, taken (started 4 { i := qi (.rring 5 0 1) }) w = true) :=
  ⟨rfl, rfl, rfl, by decide, by decide, taken_clear _ (by decide) rfl⟩
/-- InstructionCompleteEffect on the Mover: the sixteenth MOVE advances, the seventeenth does not. -/
theorem witness_InstructionCompleteEffect_mover :
    let l : List Started := List.replicate 17 { i := qi (.move 0 {} {}) }
    ((l.drop 15).head? = some { i := qi (.move 0 {} {}) } ∧ ((l.take 15).filter (fun y => isMove y.i.op)).length < 16) ∧
    ¬ ((l.take 16).filter (fun y => isMove y.i.op)).length < 16 := by decide
theorem witness_EngineFaultEffect :
    (let op := EngineOp.drill false (leBytes 64 0) [] {} {} {} {} {} {} {} 0 0
     let x : Started := { i := qi op, fail := some ⟨0x40, 0x340, 5⟩, writes := [{ addr := slateOf 5, mask := 0xFF, val := 7 }] }
     let s := started 1 x
     ((s.tile 0).startedQ 1).head? = some x ∧ advances (s.tile 0) 1 0 x = true ∧ x.ready = true ∧ tileQuiet s 0 = false ∧ dieDead s (dieOf 0) = false ∧ (∀ w, taken s w = true) ∧
       advances ((started 0 { i := qi (.abmode true) }).tile 0) 0 0 { i := qi (.abmode true) } = true) ∧
    (let x : Started := { i := qi (.move 0 {} {}), writes := [{ addr := slateOf 100, mask := 0xFF, val := 7 }] }
     let s := { started 3 x with sys := { (started 3 x).sys with dieReset := some 1 } }
     ((s.tile 0).startedQ 3).head? = some x ∧ advances (s.tile 0) 3 0 x = true ∧ x.fail = none ∧ (∃ w ∈ x.writes, taken s w = false) ∧ (s.tile 0).fault.valid = false ∧
       dieDead s (dieOf 0) = false) ∧
    (let i := { qi (.abmode true) with wait := some (5, 9) }
     ((queued 0 i).tile 0).queue 0 = [i] ∧ 2 ^ 31 ≤ (bellGet (queued 0 i) 5 - 9).toNat ∧ ((queued 0 i).tile 0).waitLimit ≠ 0 ∧ canStart (queued 0 i) 0 = true) :=
  ⟨⟨rfl, by decide, rfl, by decide, by decide, taken_clear _ (by decide) rfl, by decide⟩, by decide, rfl, by decide, by decide, by decide⟩

theorem witness_TileControlEffect : ctlLive (one { tile0 with run := false, halt := .hold }) 0 = true ∧ drained { tile0 with run := false, halt := .hold } = true ∧
    ctlLive (one tile0) 0 = true ∧ ({ tile0 with run := false, halt := .drain } : Tile).queue 5 = [] ∧
    (let T : Tile := { tile0 with run := false, started := [(0, [{ i := qi (.abmode true) }])] }; drained T = false) ∧
    (let T : Tile := { tile0 with run := false, halt := .hold, pendFlush := true }; T.pendFlush = true ∧ T.run = false) ∧
    ({ tile0 with run := false, halt := .hold } : Tile).access = [] ∧ ({ tile0 with run := false, halt := .hold } : Tile).restart = none :=
  ⟨by decide, by decide, by decide, rfl, by decide, by decide, rfl, rfl⟩
theorem witness_PreemptionStages : ctlLive (one tile0) 0 = true ∧ preDrained { tile0 with pre := .asked } = true ∧ ({ tile0 with pre := .asked } : Tile).startedQ 3 = [] ∧
    tileQuiet (one { tile0 with pre := .asked }) 0 = false ∧ switchOf (one { tile0 with pre := .saving }) (roomOf (one { tile0 with pre := .saving }) 0) = none ∧
    ({ tile0 with pre := .asked } : Tile).preLimit ≠ 0 ∧ imageError (one { tile0 with pre := .saving, saveBase := BitVec.ofNat 48 (niBase + 0x10000) }) 0 false = none :=
  ⟨by decide, by decide, rfl, by decide, rfl, by decide, by decide⟩

/-- A tile that restores from an image whose header names version 1, context 0, tile `n` and save 9. -/
def restoring (n : Nat) : State :=
  let s := one { pre := .restoring, saveBase := BitVec.ofNat 48 (niBase + 0x10000) }
  let at_ (o : Nat) := niBase + 0x10000 + o
  { s with saves := [(9, tile0)], m := { cells := (tset 0 (tset 0 (tset 0 [] (at_ 0) 1) (at_ 24) 9) (at_ 16) (BitVec.ofNat 8 n)) } }
theorem witness_RestoreDoneEffect : imageNat (restoring 0) (niBase + 0x10000) 0 4 = 1 ∧ imageNat (restoring 0) (niBase + 0x10000) 8 8 % 512 = ((restoring 0).tile 0).ctx.toNat ∧ imageNat (restoring 0) (niBase + 0x10000) 16 2 = 0 ∧
    imageNat (restoring 0) (niBase + 0x10000) 24 8 = 9 ∧ imageNat (restoring 7) (niBase + 0x10000) 0 4 = 1 ∧ imageNat (restoring 7) (niBase + 0x10000) 16 2 ≠ 0 ∧ tileQuiet (restoring 0) 0 = false ∧
    imageError (restoring 0) 0 true = none ∧ ((restoring 0).saves.find? (fun e => decide (e.1 = 9)) = some (9, tile0)) ∧
    imageNat ((restoring 0).onTile 0 (fun T => { T with saveBase := BitVec.ofNat 48 (niBase + 0x20000) })) (niBase + 0x20000) 0 4 ≠ 1 :=
  ⟨by decide, by decide, by decide, by decide, by decide, by decide, by decide, by decide, rfl, by decide⟩

/-! ### Witnesses: registers, resets and power -/

theorem witness_RegisterWriteAccessCodes :
    (∀ k < 8, (0x0F : BitVec 8).getLsbD k = true → (0xFF00000000 : BitVec 64).extractLsb' (8 * k) 8 = (0 : BitVec 64).extractLsb' (8 * k) 8) ∧
    ((regSpec (mgtBlk + 0x820)).map (fun (sp : RegSpec) => (List.range 64).all fun k => !(0x80 : BitVec 8).getLsbD (k / 8) || !(sp.rw ||| sp.w1c ||| sp.wo).testBit k)) = some true ∧
    ([lnkBlk + 8 + 64 * 35, talBlk + 0x1020 + 64 * 511, mgtBlk + 0x820, mgtBlk + 0x808, talBlk + 8, mgtBlk + 0x900, mgtBlk + 0x910].all fun a => decide ((BitVec.ofNat 48 a).toNat = a)) = true ∧
    ([0, 8, 0x10, 0x18, 0x20, 0x48, 0x400, 0x500, 0x580, 0x600, 0x818, 0x818 + 32 * 63].all fun o => decide ((BitVec.ofNat 48 (pageBase 767 + o)).toNat = pageBase 767 + o)) = true ∧
    ((0xF0 : BitVec 8).getLsbD 0 = false ∧ (0xF0 : BitVec 8).getLsbD 1 = false ∧ (0xF0 : BitVec 8).getLsbD 2 = false ∧ (0xC0 : BitVec 8).extractLsb' 0 6 = 0) := by decide +kernel
theorem witness_RegisterWriteAccessCodes_read :
    let s := rset State.reset mgtStatus 0x1F
    moduleQuiet s = false ∧ ready s = true ∧ inWindows (pageBase 0 + 0) = true ∧ inWindows (pageBase 0 + 0 + 8 - 1) = true ∧ deadPage s (pageBase 0 + 0) 8 = false ∧ 0 + 8 ≤ 2 ^ 40 := by decide

/-- Stage entry 5 of a live tile 0: its pair in `st`. -/
def staged (e : Stage) : State := one { tile0 with stages := [(5, e)] }
def stageEntry : Stage := { up := BitVec.ofNat 48 (slateOf 0), low := 0x100000, dl := 0, sheets := 1 }
theorem witness_StageEntryCommandAndCopy :
    (let s := staged stageEntry
     let e := (s.tile 0).stage 5
     e.state = 0 ∧ stageErr s 0 5 { e with sheets := 2, sitout := false, state := 0 } = 0 ∧ (∀ x ∈ (s.tile 0).stages, x.2.state = 1 → x.2.active = true) ∧
       ((s.tile 0).stages.filter (fun x => decide (x.2.state = 1) && x.2.active)).length < 4) ∧
    (let s := staged { stageEntry with up := 0 }
     ((s.tile 0).stage 5).state = 0 ∧ stageErr s 0 5 { (s.tile 0).stage 5 with sheets := 2, sitout := false, state := 0 } ≠ 0) ∧
    (let s := staged { stageEntry with state := 2 }
     ((s.tile 0).stage 5).state = 2 ∧ stageErr s 0 5 { (s.tile 0).stage 5 with sheets := 2, sitout := true, state := 0 } = 0) ∧
    (let s := staged { stageEntry with state := 3, up := 0 }
     ((s.tile 0).stage 5).state = 3 ∧ stageErr s 0 5 { (s.tile 0).stage 5 with sheets := 2, sitout := true, state := 0 } ≠ 0) ∧
    (let s := staged { stageEntry with state := 1, active := true }
     let e := (s.tile 0).stage 5
     e.active = true ∧ (∀ k, k ≠ 5 → ((staged stageEntry).tile 0).stage k = {}) ∧ (∀ w, taken s w = true) ∧ e.state = 1 ∧ stageLive s 0 = true ∧ stageBad s e = none ∧ 1 ≤ e.sheets.toNat ∧ e.dl.toNat ≤ s.now.toNat ∧ e.told = false) ∧
    (let s := { staged { stageEntry with state := 1, active := true, told := true } with m := { poison := [(canon (mapCtx State.reset) 0x101000, 32)] } }
     let e := (s.tile 0).stage 5
     stageBad s e = some 1 ∧ e.told = true ∧ e.dl.toNat ≤ s.now.toNat) :=
  ⟨by decide +kernel, by decide +kernel, by decide +kernel, by decide +kernel, ⟨by decide, fun k h => by simp [staged, one, State.reset, State.tile, Tile.stage, tget, tile0, h.symm],
    taken_clear _ (by decide) rfl, by decide, by decide, by decide +kernel, by decide, by decide, by decide⟩, by decide +kernel⟩

theorem witness_ScrubAndArchiveEffect :
    (let a := canon (mapCtx State.reset) 0x200013
     (niBase ≤ a ∧ a < niBase + dramEnd) ∧ ∀ d, homeDie a = some d → dieDead State.reset d = false) ∧
    (let a := canon (mapCtx State.reset) (BitVec.ofNat 48 cupBase).toNat
     (cupBase ≤ a ∧ a < cupEnd) ∧ ∀ d, homeDie a = some d → dieDead State.reset d = false) :=
  ⟨⟨by decide, fun d h => by rw [show homeDie (canon (mapCtx State.reset) 0x200013) = some 0 by decide] at h; cases h; decide⟩, ⟨by decide, fun d h => by rw [show homeDie (canon (mapCtx State.reset) (BitVec.ofNat 48 cupBase).toNat) = none by decide] at h; cases h⟩⟩
theorem witness_ScrubAndArchiveEffect_archive :
    30517577 * 2 ^ 20 + 2 ^ 20 ≤ 32000000000000 ∧ firmRange State.reset (BitVec.ofNat 48 cupBase).toNat (2 ^ 20) = true ∧ State.reset.ward.writing = none ∧
    accessError State.reset true (BitVec.ofNat 48 cupBase).toNat (2 ^ 20) = none ∧ accessError State.reset false (BitVec.ofNat 48 cupBase).toNat (2 ^ 20) = none ∧
    (∀ w, taken State.reset w = true) :=
  ⟨by decide, by decide +kernel, rfl, by decide +kernel, by decide +kernel, taken_clear _ (by decide) rfl⟩
/-- The clauses of ScrubAndArchiveEffect in the Quiet State: the extent in progress completes, and no other. -/
theorem witness_ScrubAndArchiveEffect_quiet :
    (let s := rset { State.reset with sys := { State.reset.sys with rails := true } } quietReg 0x100
     moduleQuiet s = true ∧ s.sys.rails = true ∧ s.sys.lastExtent = false ∧ (let u := { s with sys := { s.sys with lastExtent := true } }; moduleQuiet u = true ∧ u.sys.lastExtent = true)) := by decide

/-- Tiles 0, 5 and 100 hold programs, and no detector resets a scope by itself. -/
def tiles3 : State := { rset State.reset hangCfg ((rget State.reset hangCfg) &&& 0xFFFFFFF0FFFFFFFF) with tiles := [(0, tile0), (5, tile0), (100, tile0)] }
theorem witness_TileAndDieReset :
    NoJobs tiles3 ∧ inReset tiles3 0 5 = false ∧
    (let s := tiles3.onTile 5 (fun T => { T with resetting := true })
     NoJobs s ∧ (s.tile 5).resetting = true ∧ dieQuiet s (dieOf 5) = false ∧ resetting s (dieOf 5) = false ∧ flag (rget s hangCfg) 34 = false) ∧
    inReset tiles3 2 1 = false ∧ tiles3.sys.dieReset = none ∧
    (let s := { tiles3 with sys := { tiles3.sys with dieReset := some 1 } }
     NoJobs s ∧ inReset s 2 0 = false ∧ s.sys.dieReset ≠ none ∧ s.sys.dieReset = some 1 ∧ s.sys.dieWait = [] ∧ moduleQuiet s = false ∧ s.sys.modReset = false ∧
       tget 0 s.sys.newQuiet 1 = 0 ∧ tget 0 s.sys.newQuiet 8 = 0 ∧ (s.tile 100).entry = none ∧ flag (rget s hangCfg) 35 = false) :=
  ⟨fun _ => rfl, by decide, ⟨fun _ => rfl, by decide, by decide, by decide, by decide⟩, by decide, rfl,
   ⟨fun _ => rfl, by decide, by decide, rfl, rfl, by decide, rfl, rfl, rfl, by decide, by decide⟩⟩

def railed : State := { tiles3 with sys := { tiles3.sys with rails := true } }
theorem witness_ModuleAndPortResetEffect :
    (let s := { railed with sys := { railed.sys with inputOk := true } }; s.sys.rails = true ∧ s.sys.resetFailed = false ∧ s.sys.modReset = false ∧ s.sys.inputOk = true) ∧
    (let s := { railed with sys := { railed.sys with inputOk := false } }; s.sys.rails = true ∧ s.sys.inputOk = false) ∧
    (let s := { railed with sys := { railed.sys with modReset := true } }
     s.sys.rails = true ∧ s.sys.modReset = true ∧ s.sys.resetFailed = false ∧ bootErr s = 0 ∧ tget 0 s.sys.newQuiet 8 = 0 ∧ ready s = false) ∧
    ([false, true].all fun r => let s := { rset railed mgtStatus 0x200 with sys := { railed.sys with rails := r, modEn := true, inputOk := true } }
      decide (bootErr s ≠ 0) && s.sys.modEn && s.sys.inputOk && !s.sys.resetFailed) = true ∧
    inReset railed 1 7 = false ∧ flag (rget railed (portCfg 7)) 0 = false ∧
    (let s := rflag railed (portCfg 7) 0 true; inReset s 1 7 = false ∧ flag (rget s (portCfg 7)) 0 = true ∧ tget false s.sys.phyBad 7 = false) ∧
    (let s := { rflag railed (portCfg 7) 0 true with sys := { railed.sys with phyBad := [(7, true)] } }; inReset s 1 7 = false ∧ tget false s.sys.phyBad 7 = true) := by decide

/-- With AUTO_DIE and AUTO_MODULE 0, and with both 1. -/
def autoBoth : State := rset railed hangCfg ((rget railed hangCfg) ||| 0xC00000000)
theorem witness_QuietCauses :
    (∀ s ∈ [railed, autoBoth], moduleQuiet s = false ∧ s.sys.modReset = false ∧ dieQuiet s 1 = false ∧ s.sys.dieReset ≠ some 1 ∧ tget 0 s.sys.newQuiet 8 = 0 ∧
      inReset s 2 1 = false ∧ s.sys.dieReset = none ∧ s.sys.rails = true ∧ s.sys.resetFailed = false) ∧ NoJobs railed ∧ NoJobs autoBoth ∧
    (flag (rget railed hangCfg) 34 = false ∧ flag (rget railed hangCfg) 35 = false ∧ flag (rget autoBoth hangCfg) 34 = true ∧ flag (rget autoBoth hangCfg) 35 = true) ∧
    { railed.sys with inputOk := true }.inputOk = true ∧
    tget false { tiles3.sys with monDown := [(3, true)] }.monDown (2 * 1 + (1 - 0)) = true ∧
    wdogDue { rflag tiles3 wdogReg 16 true with now := 10000000000 } = true ∧
    (let s := rset railed coolReg 399; fld (rget s coolReg) 0 16 < 400 ∧ s.sys.rails = true ∧ moduleQuiet s = false ∧ flag (rget s hangCfg) 35 = false) :=
  ⟨by decide, fun _ => rfl, fun _ => rfl, by decide, rfl, by decide, by decide, by decide⟩
/-- The clause of an I/O die: its last Prefect core is lost. -/
theorem witness_QuietCauses_io :
    let s := rset railed (prefectReg 3) 0x100
    NoJobs s ∧ flag (rget s (prefectReg 3)) 8 = true ∧ ioDieLost (losePrefect s 3) 3 = true ∧ moduleQuiet s = false ∧ tget 0 s.sys.newQuiet 8 = 0 :=
  ⟨fun _ => rfl, by decide, by decide, by decide, rfl⟩

/-- Cores 0 to 7 run. -/
def cores : State := (List.range 8).foldl (fun s k => rset s (prefectReg k) 0x100) tiles3
/-- Core 3 of those lost, its services moved to the survivor of number `x`. -/
def lost3 (x : Nat) : State :=
  let s := rset cores (prefectReg 3) 0x10000
  let i := (coresOf s 3).getD x 3
  let s := (rfld s (prefectReg i) 0 8 (fld (rget s (prefectReg i)) 0 8 ||| 0)).fresh
  raiseHealth { s with sys := { s.sys with preLost := [(3, [0])], preDown := [(3, true)] } } 0x75 3 3 1
theorem lost3_eq : losePrefect cores 3 = lost3 ((Config.freeWord 0).toNat % 7) := rfl
theorem witness_DetectorEffect_prefect : flag (rget cores (prefectReg 3)) 8 = true ∧ ioDieLost (losePrefect cores 3) 3 = false :=
  ⟨by decide, by rw [lost3_eq]; exact (by decide : ∀ x < 7, ioDieLost (lost3 x) 3 = false) _ (Nat.mod_lt _ (by decide))⟩
theorem witness_DetectorEffect :
    tget false { tiles3.sys with preDown := [(3, true)] }.preDown 3 = true ∧
    (let s := tiles3.onTile 5 (fun T => { T with started := [(5, [{ i := qi (.commit 3 0 0) }])] })
     NoJobs s ∧ fld (rget s hangCfg) 0 24 ≠ 0 ∧ tileQuiet s 5 = false ∧ inReset s 0 5 = false ∧ watched s 5 5 = true ∧
       recentResets s 5 < fld (rget s hangCfg) 36 4 ∧ flag (rget s hangCfg) 32 = false) ∧
    (let s := rset tiles3 (portStatus 3) 0x1A
     fld (rget s hangCfg) 24 8 ≠ 0 ∧ flag (rget s (portStatus 3)) 4 = true ∧ portLive s 3 = true ∧ flag (rget s hangCfg) 33 = false) :=
  ⟨by decide, ⟨fun _ => rfl, by decide, by decide, by decide, by decide, by decide, by decide⟩, by decide⟩

theorem witness_ReportCardEffect :
    (let s := tiles3.onTile 5 (fun T => { T with quiet := true })
     scopeQuiet s (Scope.code (.tile 5)).1 (Scope.code (.tile 5)).2 = true ∧ tget false s.sys.card (cardBit (Scope.code (.tile 5)).1 (Scope.code (.tile 5)).2) = false) ∧
    (let s := rset tiles3 quietReg 0x180
     scopeQuiet s (Scope.code (.die 7)).1 (Scope.code (.die 7)).2 = true ∧ tget false s.sys.card (cardBit (Scope.code (.die 7)).1 (Scope.code (.die 7)).2) = false ∧
     scopeQuiet s (Scope.code .module).1 (Scope.code .module).2 = true ∧ tget false s.sys.card (cardBit (Scope.code .module).1 (Scope.code .module).2) = false) := by decide

/-- A module at stage n of power-up. -/
def atStage (n : Nat) : State := { rset tiles3 mgtStatus (BitVec.ofNat 64 (2 * n)) with sys := { tiles3.sys with rails := decide (2 ≤ n) } }
theorem witness_PowerUpSequence :
    tiles3.sys.rails = false ∧ stageOf tiles3 = 0 ∧ tiles3.sys.modWait = false ∧
    ([1, 2, 3, 4, 5, 6, 7, 8].all fun n => let s := atStage n
      bootErr s == 0 && !s.sys.resetFailed && !s.sys.standby && !s.sys.leakOff && !moduleQuiet s && stageOf s == n && !flag (rget s coolReg) 33 && s.sys.fwGood && decide (tget 0 s.sys.newQuiet 8 = 0) && !s.sys.modReset && !flag (rget s hangCfg) 34) = true ∧
    (let s := { atStage 8 with sys := { (atStage 8).sys with fwGood := false } }; stageOf s = 8 ∧ s.sys.fwGood = false ∧ NoJobs s) ∧ NoJobs (atStage 5) ∧
    (let s := rset (atStage 4) quietReg 0x100; moduleQuiet s = true ∧ s.sys.modReset = false) :=
  ⟨rfl, by decide, rfl, by decide, ⟨by decide, rfl, fun _ => rfl⟩, fun _ => rfl, by decide⟩

theorem witness_PowerLossEffect :
    powered railed = true ∧ railed.sys.rails = true ∧ NoJobs railed ∧ moduleQuiet railed = false ∧ railed.sys.modReset = false ∧ tget 0 railed.sys.newQuiet 8 = 0 ∧ { railed.sys with modWait := true }.modWait = true ∧
    (let y := { railed.sys with standby := true, leakOff := true, modEn := false }; y.standby = true ∧ y.modEn = false ∧ y.leakOff = true) ∧
    (let s := { tiles3 with sys := { tiles3.sys with inputOk := true } }; powered s = false ∧ s.sys.inputOk = true ∧ flag (rget s coolReg) 33 = false) :=
  ⟨by decide, rfl, fun _ => rfl, by decide, rfl, rfl, rfl, by decide, by decide⟩

theorem witness_PowerCapAndReadings : flag (rget State.reset coolReg) 32 = false ∧ 60 < fld (rget (rset State.reset coolReg 0x3D000320) coolReg) 24 8 ∧
    fld (rget (rset State.reset coolReg 0x3C00031F) coolReg) 0 16 < 800 := by decide

/-! ### Witnesses: host interface -/

def readyModule : State := rset tiles3 mgtStatus 0x1F
theorem witness_HostBarAndQuietModuleAccess :
    moduleQuiet readyModule = false ∧ ready readyModule = true ∧ inWindows (pageBase 0 + 0) = true ∧ inWindows (pageBase 0 + 0 + 8 - 1) = true ∧
    deadPage readyModule (pageBase 0 + 0) 8 = false ∧ ([1, 2] : List Byte) ≠ [] ∧ mapped (mapCtx readyModule) 0x1000 2 = true ∧ accessError readyModule false 0x1000 2 = none ∧
    inMirror 0x1000 2 = false ∧ accessError readyModule true 0x1000 2 = none ∧ Settled readyModule 0x1000 2 ∧
    0x1F0000000000 + 8 ≤ 2 ^ 46 ∧ inMirror 0x1F0000000000 8 = false ∧ mapped (mapCtx readyModule) 0x1F0000000000 8 = false ∧
    moduleQuiet (rset readyModule quietReg 0x100) = true ∧ moduleQuiet tiles3 = false ∧ ready tiles3 = false ∧ inMgt (BitVec.ofNat 48 (pageBase 0)).toNat = false :=
  ⟨by decide, by decide, by decide, by decide, by decide, by decide, by decide, by decide, by decide, by decide, fun _ h => (nomatch h), by decide, by decide, by decide, by decide, by decide, by decide, by decide⟩

theorem witness_LinksAndManagement : { railed.sys with pwrgd := true }.pwrgd = true ∧ { railed.sys with aux := true }.aux = true ∧ { railed.sys with aux := false }.aux = false ∧
    inMgt (BitVec.ofNat 48 mgtBlk).toNat = true ∧ inMgt (BitVec.ofNat 48 lnkBlk).toNat = false ∧ railed.sys.calJob = none ∧
    (let y := { railed.sys with aux := true, inputOk := true }; y.aux = true ∧ y.rails = true ∧ y.resetFailed = false ∧ y.modReset = false ∧ y.inputOk = true) := by decide

theorem witness_TestPortInstructions : stageOf (atStage 2) < 3 ∧ 3 ≤ stageOf (atStage 3) := by decide

/-! ### Witnesses: host commands -/

/-- READY, queue sets 0 and 4 enabled, context 3 with one memory window. -/
def served : State :=
  let s := [0, 4].foldl (fun s q => rset s (qreg q 8) 0x14) readyModule
  rset { s with rooms := { s.rooms with windows := [(3, [(0x2000, 0x1000)])] } } (ctxReg 3 0) 0x30003
/-- A command of VF 4 (context 3), and of the PF. -/
def vf : HostCmd := { q := 4, tag := 9 }
def pf : HostCmd := { q := 0, tag := 9, ctx := 5 }
/-- A job of context 3. -/
def jobbed (j : Job) : State := setJob served 3 (some j)
theorem takes_vf (s : State) (c : HostCmd) (m : List Nat) (l : Bool) (h : (serviceRuns s && qEnabled s c.q.val && cmdClean c m && l) = true) : Takes s c false m l := by
  simp only [Bool.and_eq_true] at h
  exact ⟨h.1.1.1, h.1.1.2, nofun, h.1.2, h.2⟩
theorem takes_pf (s : State) (c : HostCmd) (m : List Nat) (l : Bool) (h : (serviceRuns s && qEnabled s c.q.val && cmdClean c m && l && decide (c.q.val = 0)) = true) : Takes s c true m l := by
  simp only [Bool.and_eq_true, decide_eq_true_eq] at h
  exact ⟨h.1.1.1.1, h.1.1.1.2, fun _ => h.2, h.1.1.2, h.1.2⟩

theorem witness_HostCommandCommonChecks : serviceRuns tiles3 = false ∧ serviceRuns served = true ∧ qEnabled served 4 = true ∧ qEnabled served 5 = false ∧
    ({ vf with zero := 1 } : HostCmd).zero ≠ 0 ∧ ((4 : Nat) ≠ 0) := by decide
theorem witness_HostCommandCommonChecks_classSet : serviceRuns served = true ∧ qEnabled served vf.q.val = true ∧ vf.q.val ≠ 0 ∧ qEnabled served pf.q.val = true ∧ pf.q.val = 0 ∧
    ({ pf with zero := 1 } : HostCmd).zero ≠ 0 ∧ qEnabled served ({ vf with q := 5 } : HostCmd).q.val = false := by decide

theorem witness_JobCommandEffect :
    (let s := jobbed { stopped := true, ls := 7, tt := List.replicate 74 0 ++ [12] }
     let c : HostCmd := { vf with w1 := 0x0301 }
     Takes s vf false [] true ∧ (∃ j, jobOf s (cmdCtx vf) = some j ∧ j.stopped = true ∧ j.rcv.tell = false) ∧
     Takes s c false [1 + bmask 8 8] true ∧ (∃ j, jobOf s (cmdCtx c) = some j ∧ flag c.w1 0 = true ∧ j.lsMin ≤ sgn 8 (fld c.w1 8 8) ∧ sgn 8 (fld c.w1 8 8) ≤ j.lsMax)) ∧
    (let c : HostCmd := { vf with w1 := 0x10000, w2 := 0x20000, w3 := 7 }
     Takes served c false createMasks true ∧ jobOf served (cmdCtx c) = none) ∧
    (let c : HostCmd := { vf with w1 := 0x10000, w2 := 0x20000, w3 := 7, w5 := 0x500000002 }
     fld c.w5 0 2 = 2 ∧ Takes served c false (createMasks ++ [bmask 0 2 + bmask 32 32]) true ∧ jobOf served (cmdCtx c) = none) :=
  ⟨⟨takes_vf _ _ _ _ (by decide), ⟨_, rfl, rfl, rfl⟩, takes_vf _ _ _ _ (by decide), ⟨_, rfl, by decide, by decide, by decide⟩⟩, ⟨takes_vf _ _ _ _ (by decide), rfl⟩, by decide, takes_vf _ _ _ _ (by decide), rfl⟩

theorem witness_MemoryAndContextCommandEffect :
    (let c : HostCmd := { vf with w1 := 0x500, w2 := 0x2000, w3 := 64 }
     Takes served c false dmaMasks (decide (c.w3.toNat % 32 = 0)) ∧ inWindow served (cmdCtx c) c.w2.toNat c.w3.toNat = true ∧ memRange served c.w2.toNat c.w3.toNat = true ∧
      accessError served false c.w2.toNat c.w3.toNat = none ∧ accessError served true c.w2.toNat c.w3.toNat = none) ∧
    (let c : HostCmd := { vf with w1 := 0x500, w2 := 0x2FE0, w3 := 64 }
     Takes served c false dmaMasks (decide (c.w3.toNat % 32 = 0)) ∧ inWindow served (cmdCtx c) c.w2.toNat c.w3.toNat = false) ∧
    (let c : HostCmd := { vf with w1 := 0x2000, w2 := 3 }
     Takes served c false [bmask 3 45, bmask 0 16] true ∧ ctxValid served (cmdCtx c) = true ∧ inWindow served (cmdCtx c) c.w1.toNat 8 = true) ∧
    (let c : HostCmd := { pf with w1 := 0x1000000010001, w2 := 0x2000 }
     Takes served c true [bmask 0 50, bmask 0 48] true ∧ ctxBad served c.ctx.toNat c.w1 = false ∧ ctxValid served c.ctx.toNat = false) ∧
    Takes served { pf with w1 := 0x2000, w2 := 1 } true [bmask 0 48, 1] true ∧
    (let r : CmdRec := { op := 3, c := vf, status := some 0x123, result := 77 }
     let s := { served with host := { served.host with cmds := [r] } }
     moduleQuiet s = false ∧ qEnabled s 4 = true ∧ s.host.cmds.find? (fun r => r.status.isSome && decide (r.c.q.val = 4)) = some r) :=
  ⟨⟨takes_vf _ _ _ _ (by decide), by decide, by decide, by decide, by decide⟩, ⟨takes_vf _ _ _ _ (by decide), by decide⟩, ⟨takes_vf _ _ _ _ (by decide), by decide, by decide⟩,
   ⟨takes_pf _ _ _ _ (by decide), by decide +kernel, by decide⟩, takes_pf _ _ _ _ (by decide), by decide, by decide, by decide⟩

theorem witness_CalibrationEffect : Takes served { pf with w1 := 0x1000 } true [wholeWord] true ∧ served.sys.calJob = none ∧ Takes served pf true [] true ∧
    { served.sys with calJob := some { image := [1, 2], origin := 2 } }.calJob ≠ none :=
  ⟨takes_pf _ _ _ _ (by decide), rfl, takes_pf _ _ _ _ (by decide), nofun⟩

/-! ### Witnesses: flits -/

/-- A READY module of seat 5 whose tile 0 runs, with one flit in the local delivery buffer. -/
def seat5 : State := rset (rset (one tile0) mgtStatus 0x1F) lnkSelf (5 * 2 ^ 11 + 2 ^ 21)
def flit (ty : BitVec 4) (b : FlitBody) : Flit := { ty := ty, dstSeat := 5, srcSeat := 9, tag := 33, body := b }
def local_ (s : State) (f : Flit) : State := { s with fab := { s.fab with localq := [f] } }
theorem delivers (s : State) (f : Flit) (ty : BitVec 4) (h : (fabricLive s && f.hcrcOk && decide (f.ty = ty) && decide (f.hops ≠ 15) && seated s && decide (f.dstSeat = selfSeat s) && decide (s.fab.localq = [f])) = true) :
    Delivers s 62 f ty := by
  simp only [Bool.and_eq_true, decide_eq_true_eq] at h
  exact ⟨h.1.1.1.1.1.1, h.1.1.1.1.1.2, h.1.1.1.1.2, fun _ => ⟨h.1.1.1.2, h.1.1.2, h.1.2⟩, .inl ⟨rfl, by rw [h.2]; exact List.mem_singleton.mpr rfl⟩⟩

/-- The module's own route entry is valid and delivers here. -/
def homed (s : State) : State := rset s (routeReg 0) (BitVec.ofNat 64 (62 + 63 * 64 + 63 * 4096 + 63 * 2 ^ 18 + 2 ^ 29))
theorem witness_RemoteMemoryEffect_route : selfPm (homed seat5) = 0 ∧ ∀ h : Flit, h.dstPm = 0 → routedHere (homed seat5) h = true := by
  refine ⟨by decide, fun h e => ?_⟩
  have hl : liveAlts (homed seat5) (rget (homed seat5) (routeReg h.dstPm.toNat)) = [(0, 62)] := by rw [e]; decide
  have hv : flag (rget (homed seat5) (routeReg h.dstPm.toNat)) 29 = true := by rw [e]; decide
  have hs : spreadOver (rget (homed seat5) (routeReg h.dstPm.toNat)) h 1 = 1 := by
    unfold spreadOver
    split
    · rename_i hp
      exact Nat.min_eq_right (Nat.one_le_iff_ne_zero.mpr fun hz => hp (BitVec.eq_of_toNat_eq hz))
    · rw [e]; decide
  simp [routedHere, pickAlt, hl, hv, hs, Nat.mod_one]
theorem witness_RemoteMemoryEffect :
    (let f := flit 0 (.bytes 0x2000 [1, 2, 3] [] none)
     let s := local_ seat5 f
     Delivers s 62 f 0 ∧ mapped (mapCtx s) 0x2000 3 = true ∧ accessError s false 0x2000 3 = none) ∧
    (let f := flit 1 (.readReq 0x2000 4 none)
     let s := local_ seat5 f
     Delivers s 62 f 1 ∧ mapped (mapCtx s) 0x2000 4 = true ∧ accessError s true 0x2000 4 = none ∧ f.srcPm = selfPm s ∧ Settled s 0x2000 4) ∧
    (let f := flit 3 (.ringB 4 200 0)
     let s := local_ seat5 f
     Delivers s 62 f 3 ∧ isDup s f = false ∧ s.fab.rings = [] ∧ BellLives s 4) ∧
    (let f := flit 3 (.ringB 4 200 0)
     let s := { local_ seat5 f with fab := { (local_ seat5 f).fab with seen := [(pairKey f.srcPm f.tag, true)] } }
     Delivers s 62 f 3 ∧ isDup s f = true) :=
  ⟨⟨delivers _ _ _ (by decide), by decide, by decide⟩, ⟨delivers _ _ _ (by decide), by decide, by decide, by decide, fun _ h => (nomatch h)⟩, ⟨delivers _ _ _ (by decide), by decide, rfl, nofun⟩, delivers _ _ _ (by decide), by decide⟩

/-- Two link instructions of tile 0 in flight; the second awaits tag 33. -/
def waiting (op : EngineOp) (s : State) : State :=
  s.onTile 0 (fun T => { T with started := [(4, [{ i := qi (.rring 1 2 3), ready := false, pm := 4, tags := [1] }, { i := qi op, ready := false, tags := [33] }])] })
def waiter (op : EngineOp) : Started := { i := qi op, ready := false, tags := [33] }
theorem witness_ReplyEffect :
    (let f := flit 2 (.bytes 0x2000 [1, 2, 3] [] none)
     let s := local_ (waiting (.get 3 {} {}) seat5) f
     Delivers s 62 f 2 ∧ tileQuiet s 0 = false ∧ waiterOf s f.srcPm f.tag = some (0, 1, waiter (.get 3 {} {})) ∧ ((s.tile 0).startedQ 4)[1]? = some (waiter (.get 3 {} {}))) ∧
    (let f := flit 6 (.done 0x22 0x77 33)
     let s := local_ (waiting (.put 3 true {} {}) seat5) f
     Delivers s 62 f 6 ∧ isDup s f = false ∧ waiterOf s f.srcPm 33 = some (0, 1, waiter (.put 3 true {} {}))) ∧
    (let f := flit 7 (.returned 0 0 0 9 0 0 33 0 0x21)
     let s := local_ (waiting (.put 3 true {} {}) seat5) f
     Delivers s 62 f 7 ∧ waiterOf s 0 33 = some (0, 1, waiter (.put 3 true {} {})) ∧ seatState s 9 ≠ 2 ∧ seatState (rset s (seatReg 9) 0x2000) 9 = 2 ∧ s.fab.kept = [] ∧ (0 : BitVec 4) ≠ 2 ∧ (0 : BitVec 4) ≠ 4 ∧ (0 : BitVec 4) ≠ 5) :=
  ⟨⟨delivers _ _ _ (by decide), by decide, by decide, by decide⟩, ⟨delivers _ _ _ (by decide), by decide, by decide⟩, delivers _ _ _ (by decide), by decide, by decide, by decide,
    rfl, by decide, by decide, by decide⟩

def list2 : ClassList := { members := [5, 9], rank := 0, gen := 3, waiting := true }
def grouped (s : State) : State := { s with fab := { s.fab with lists := [(2, some list2)] } }
theorem witness_GroupMessageEffect :
    (let f := flit 4 (.coll 2 7 0 (.params 1 true 8 3 4))
     let s := grouped (local_ seat5 f)
     Delivers s 62 f 4 ∧ isDup s f = false ∧ listAt s 2 = some list2 ∧ list2.rank = 0 ∧ rankOf list2 f.srcSeat = some 1) ∧
    (let f := flit 4 (.coll 2 7 0 (.verdict 0x28))
     let x : Started := { i := qi (.coll 2 1 true {} {} 8 0), ready := false }
     let s := setColl ((grouped (local_ seat5 f)).onTile 0 (fun T => { T with started := [(4, [x])] })) (collKey 2 7) (some { tile := some (0, 7) })
     Delivers s 62 f 4 ∧ listAt s 2 = some list2 ∧ collInstr s (collAt s (collKey 2 7)) = some (0, 0, x) ∧ ((s.tile 0).startedQ 4)[0]? = some x ∧ tileQuiet s 0 = false) ∧
    (let f := flit 5 (.barrier 2 3 true)
     let x : Started := { i := qi (.barrier 2 44), ready := false }
     let s := (grouped (local_ seat5 f)).onTile 0 (fun T => { T with started := [(4, [x])] })
     Delivers s 62 f 5 ∧ listAt s 2 = some list2 ∧ list2.waiting = true ∧ barrierWaiters s 2 = [(0, 0, x)] ∧ ((s.tile 0).startedQ 4)[0]? = some x ∧ BellLives s 44) ∧
    (let f := flit 10 (.roll 1 5000 5 [] 0)
     Delivers (local_ seat5 f) 62 f 10 ∧ (local_ seat5 f).fab.rollNext = 0 ∧ (local_ seat5 f).fab.rolls = [] ∧ (∀ c j, jobOf (local_ seat5 f) c = some j → j.rcv.swap = none)) :=
  ⟨⟨delivers _ _ _ (by decide), by decide, rfl, rfl, by decide⟩, ⟨delivers _ _ _ (by decide), rfl, by decide, rfl, by decide⟩,
   ⟨delivers _ _ _ (by decide), rfl, rfl, by decide, rfl, nofun⟩, delivers _ _ _ (by decide), rfl, rfl, fun _ _ h => (nomatch h)⟩

/-- Port 3 in state `n`. -/
def port3 (n : Nat) (s : State := seat5) : State := rset s (portStatus 3) (BitVec.ofNat 64 n)
/-- A flit on its way from module 8 to module 77, and the route by port 7. -/
def onward : Flit := { ty := 0, vc := 3, dstPm := 77, srcPm := 8, tag := 3, hops := 14 }
def crossing : State := rset (rset (port3 3) (portStatus 7) 3) (routeReg 77) (BitVec.ofNat 64 (7 + 63 * 64 + 63 * 4096 + 63 * 2 ^ 18 + 2 ^ 29))
theorem witness_LinkTransferEffect :
    (portLive crossing 3 = true ∧ onward.hcrcOk = true ∧ portTakes crossing 3 onward = true ∧ onward.num = (portAt crossing 3).got ∧ onward.badEnd = false ∧
      reservedType onward = false ∧ linkLocal onward = false ∧ onward.hops ≠ 15 ∧ pickAlt crossing onward = some (0, 7) ∧ isTwin crossing 7 = false ∧
      flag (rget crossing (routeReg onward.dstPm.toNat)) (24 + 0) = false ∧ (portAt crossing 7).free onward.vc.toNat = true) ∧
    routedHere crossing onward = false ∧ { onward with hcrcOk := false }.hcrcOk = false ∧ reservedType { onward with ty := 12 } = true ∧ linkLocal { onward with ty := 12 } = false ∧
    (portAt (setPort crossing 3 { ask := true }) 3).ask = true ∧ { onward with badEnd := true }.badEnd = true ∧ { onward with num := 1 }.num ≠ (portAt crossing 3).got ∧
    (let f : Flit := { ty := 11 }; f.ty = 11 ∧ f.hcrcOk = true ∧ f.num = (portAt crossing 3).got ∧ f.badEnd = false) ∧
    portLive (port3 2) 3 = true ∧ 2 ≤ portState (port3 2) 3 ∧ (portAt (port3 2) 3).held = [] := by decide

theorem witness_PortStateEffect :
    portState seat5 3 = 0 ∧
    (let s := rset seat5 (portCfg 3) 1; portState s 3 = 0 ∧ flag (rget s (portCfg 3)) 0 = true ∧ portLive s 3 = true) ∧
    portState (port3 1) 3 = 1 ∧ (portAt (setPort (port3 1) 3 { trained := true }) 3).trained = true ∧
    (let f : Flit := { ty := 8, body := .hello 9 4 false 0 }
     portLive (port3 1) 3 = true ∧ f.hcrcOk = true ∧ f.num = (portAt (port3 1) 3).got ∧ f.badEnd = false) ∧
    tget false { seat5.sys with phyBad := [(3, true)] }.phyBad 3 = true ∧
    (let s := rset (port3 3) (portNbr 3) (helloNbr 9 4 false)
     2 ≤ portState s 3 ∧ rget s (portNbr 3) = helloNbr 9 4 false ∧ rget s (portNbr 3) ≠ helloNbr 9 5 false) ∧
    (let s := rset (port3 2) (portCfg 3) 1; 2 ≤ portState s 3 ∧ flag (rget s (portCfg 3)) 0 = true ∧ portLive s 3 = true ∧ (portAt s 3).free 0 = true) ∧
    (let s := setPort (port3 3) 3 { held := [{ vc := 3 }], used := [(3, 128)] }; rget s (lnkBlk + 0x9010) ≠ 0 ∧ (portAt s 3).stalled (3 : BitVec 4).toNat = true) := by decide

theorem witness_TimeAndHoldEffect :
    (let s := rset (port3 2) timeCfg (3 + 64)
     fabricLive s = true ∧ flag (rget s timeCfg) 6 = true ∧ fld (rget s timeCfg) 0 6 < 36 ∧ 2 ≤ portState s (fld (rget s timeCfg) 0 6) ∧
       (portAt s (fld (rget s timeCfg) 0 6)).free 0 = true ∧ portLive s 3 = true ∧ fld (rget s timeCfg) 0 6 = 3 ∧ flag (rget s timeStatus) 0 = false ∧
       flag (rget (rset s timeStatus 1) timeStatus) 0 = true ∧
       (((32767 - 0 : BitVec 64).toInt + ((32767 : BitVec 64) - s.now).toInt) / 2 = 32767) ∧ (((0 - 32767 : BitVec 64).toInt + (0 - (32767 : BitVec 64)).toInt) / 2 = -32767)) ∧
    (let f : Flit := { ty := 9, body := .time 1 2 3 }
     f.hcrcOk = true ∧ f.num = (portAt (port3 2) 3).got ∧ f.badEnd = false ∧ 2 ≤ portState (port3 2) 3) ∧
    (let s := rset (port3 2) timeCfg (4 + 64); fld (rget s timeCfg) 0 6 ≠ 3 ∧ (portAt s 3).free 0 = true) ∧
    (let i := qi (.put 9 true {} {})
     let s := (rset (rset seat5 (seatReg 9) 0x2000) (lnkBlk + 0x9018) 5).onTile 0 (fun T => { T with queues := [(4, [i, i])] })
     rget s (lnkBlk + 0x9018) ≠ 0 ∧ canStart s 0 = true ∧ ((s.tile 0).queue 4).head? = some i ∧ opSeat i.op = some 9 ∧ seatState s 9 = 2 ∧ i.wait = none) := by decide

theorem witness_ClassListEffect : listsUsed seat5 < 4096 ∧ freeList seat5 = some 0 ∧ NoJobs (grouped seat5) ∧ listAt (grouped seat5) (2 : BitVec 12).toNat = some list2 ∧
    9 ∈ list2.members ∧ 7 ∉ list2.members :=
  ⟨by decide, by decide +kernel, fun _ => rfl, rfl, by decide, by decide⟩
/-- The clause of ClassListEffect for a module on which all 4096 lists are in use. -/
theorem witness_ClassListEffect_full : 4096 ≤ listsUsed { seat5 with fab := { seat5.fab with lists := (List.range 4096).map (fun k => (k, some {})) } } := by
  unfold listsUsed
  rw [List.filter_eq_self.mpr (by simp)]
  simp

/-! ### Witnesses: the training step and checkpoints -/

/-- A job of context 3 after some steps, and a job with one region of one sheet at 0x100000. -/
def job5 : Job := { next := 5, attempt := 3, aborts := 2, ls := 7, streak := 4 }
def oneSheet : Job := { job5 with regions := leBytes 8 0x100000 ++ leBytes 8 1, rcv := { restoring := true, landing := [0x100000] } }
theorem witness_AttemptAndRestoreEnd :
    (let s := jobbed job5
     jobOf s (3 : CtxNo).toNat = some job5 ∧ job5.layout = false ∧ job5.stopped = false ∧ job5.outcome = none ∧ job5.gateTiles ≤ job5.gates ∧
       combineVerdict (seatVerdict job5.final job5) 0 = 0 ∧ combineVerdict (seatVerdict job5.final job5) 2 ≠ 0 ∧ job5.stateStarted = false) ∧
    (let j := { job5 with outcome := some 0 }; jobOf (jobbed j) 3 = some j ∧ j.optFail = false ∧ j.gateTiles ≤ j.commits ∧ j.rcv.replay = none ∧ j.attempt < 8) ∧
    (let j := { job5 with tt := leBytes 8 (2 ^ 42) }
     let s := { jobbed j with now := 5 }
     jobOf s 3 = some j ∧ j.late = false ∧ j.commits + queuedCommits s 3 j.next < j.gateTiles ∧ j.deadline < (s.now - j.start).toNat) ∧
    (let j := { job5 with rcv := { restoring := true } }; jobOf (jobbed j) 3 = some j ∧ j.rcv.rollback = false ∧ j.rcv.swap = none ∧ restoreSheets (jobbed j) j = []) ∧
    (jobOf (jobbed oneSheet) 3 = some oneSheet ∧ oneSheet.rcv.swap = none ∧ restoreSheets (jobbed oneSheet) oneSheet = [(0x100000 : BitVec 48).toNat] ∧ (List.replicate 4096 (1 : Byte)).length = 4096) := by decide +kernel
/-- The last clause of AttemptAndRestoreEnd: every home takes the sheet's bytes. -/
theorem witness_AttemptAndRestoreEnd_taken : ∀ w, taken (jobbed oneSheet) w = true := taken_clear _ (by decide) rfl

/-- A generating job whose plan back to learning has one entry of one sheet that stays on its seat. -/
def generating : Job := { job5 with layout := true, learnPlan := leBytes 32 0x100 ++ leBytes 8 0x100000 ++ leBytes 8 0x200000 ++ leBytes 16 1 }
theorem witness_ChangeoverEffect :
    jobOf (jobbed generating) (3 : CtxNo).toNat = some generating ∧ chgReady (jobbed generating) 3 generating (!generating.layout) = true ∧
    ownEntries (jobbed generating) generating false = [⟨0x100000, 0x200000, 4096, 0, 0⟩] ∧ accessError (jobbed generating) true 0x100000 4096 = none ∧
    (let x : Change := { layout := true, writes := [(⟨0x5000, 0xFF, 7⟩, 0x6000)] }; x.done = false ∧ x.awaits = [] ∧ { x with done := true }.done = true) := by decide +kernel
/-- The second clause of ChangeoverEffect: every home takes the bytes. -/
theorem witness_ChangeoverEffect_taken : ∀ w, taken (jobbed generating) w = true := taken_clear _ (by decide) rfl

theorem witness_ReplacementEffect :
    (let c : HostCmd := { vf with w1 := 0x2000, w2 := 9, w3 := 0x2000 }
     Takes (jobbed generating) c false [wholeWord, bmask 0 32] true ∧ generating.rcv.tell = false) ∧
    ({ generating with repl := { generating.repl with desc := some [], state := 2, failing := true } }.repl.desc = some [] ∧ (2 : Nat) ≠ 3) ∧
    (BellLives (jobbed generating) (epochBell [] generating.repl.front) ∧ ((jobbed generating).host.cmds.filter (fun r => decide (r.op = 0x08 ∧ cmdCtx r.c = 3) && r.status.isNone)).length ≤ 1) :=
  ⟨⟨takes_vf _ _ _ _ (by decide), rfl⟩, ⟨rfl, by decide⟩, nofun, by decide⟩

theorem witness_SeatCheckpointEffect :
    (let j := { job5 with acked := false, rcv := { sent := { next := 5 } } }
     jobOf (jobbed j) 3 = some j ∧ j.rcv.creating = false ∧ j.rcv.reprotect = false ∧ j.acked = false ∧ ((4 : BitVec 32).toNat + 1) % 2 ^ 32 = j.rcv.sent.next % 2 ^ 32 ∧ j.rcv.late = false ∧
       fld (rget (jobbed j) (ckpBlk + 0x20)) 0 32 ≠ 0 ∧
       fld (rget (jobbed j) (ckpBlk + 0x20)) 0 32 * 1000000 ≤ (({ jobbed j with now := 1000000000 } : State).now - commitTime j).toNat ∧ (jobbed j).jobs = [(3, some j)]) ∧
    (let j := { job5 with rcv := { replay := some 4 } }; j.rcv.replay = some 4 ∧ j.stopped = false ∧ j.rcv.restoring = false ∧ j.rcv.creating = false ∧ j.rcv.swap = none ∧ j.rcv.ran = false ∧ 4 ≤ j.next) ∧
    (let j := { job5 with rcv := { replay := some 5 } }; j.rcv.replay = some 5 ∧ j.rcv.ran = false ∧ 5 ≤ j.next) ∧
    (let r := leBytes 8 (5 + 2 ^ 36) ++ leBytes 56 0
     let j := { job5 with rcv := { replay := some 6, journal := [r] } }; j.rcv.ran = false ∧ j.next < 6 ∧ journalOf j j.next = some r) ∧
    (let j := { job5 with next := 6, rcv := { replay := some 6, ran := true, before := { next := 5 } } }; j.rcv.ran = true ∧ j.next ≠ j.rcv.before.next ∧ replayAgrees j = false) ∧
    NoJobs served :=
  ⟨by decide, by decide, by decide, by decide, by decide, fun _ => rfl⟩

/-- A buddy whose armed area has one sheet at 0x2000. -/
def warded : State := rset (rset served (ckpBlk + 0x10) 0x0400000000002000) (ckpBlk + 0x18) 1
theorem witness_BuddyCheckpointEffect :
    (let s := rset served (ckpBlk + 0x18) 1
     flag (rget s (ckpBlk + 0x10)) 58 = false ∧ flag (0x0400000000002000 : BitVec 64) 58 = true ∧ s.jobs = [] ∧
       planRange s (fld (0x0400000000002000 : BitVec 64) 12 36 * 4096) (wardSheets s * 4096) = true ∧ planRange s (fld (0x0400FFFFFFFFF000 : BitVec 64) 12 36 * 4096) (wardSheets s * 4096) = false ∧
       s.ward.seat ≠ some (fld (0x0400000000002000 : BitVec 64) 48 10) ∧
       { s with ward := { s.ward with seat := some 0 } }.ward.seat = some (fld (0x0400000000002000 : BitVec 64) 48 10)) ∧
    wardLive warded = true ∧ warded.ward.release = none ∧ warded.ward.writing = none ∧
    { warded.ward with release := some 7 }.release = some 7 ∧ moduleQuiet warded = false ∧ moduleQuiet (rset warded quietReg 0x100) = true ∧
    { warded.ward with writing := some (2, 9, [1, 0, 3]) }.writing = some (2, 9, [1, 0, 3]) ∧
    (let w : Ward := { sets := [(2, some ⟨9, 7, true⟩), (3, some ⟨8, 6, true⟩)] }; uploadSlot w = some (3, ⟨8, 6, true⟩) ∧ w.failed = false ∧ w.qpError = false) := by decide +kernel

/-! ### Witnesses: serving -/

theorem witness_AdapterEffect :
    (∀ k, (adapterAt served k).state ≠ .loading) ∧
    (let c : HostCmd := { vf with w1 := BitVec.ofNat 64 (7 + 3 * 2 ^ 24 + 16 * 2 ^ 40), w2 := 0x2000 }
     Takes served c false [bmask 0 48, bmask 12 36] (decide (1 ≤ fld c.w1 40 7 ∧ fld c.w1 40 7 ≤ 64)) ∧ inWindow served (cmdCtx c) (fld c.w2 12 36 * 4096) 4096 = true) ∧
    ([0, 2].all fun r =>
      let s := { served with adapters := [(4, { state := .live, id := 7, refs := r })] }
      decide (adapterIn s (fld (7 : BitVec 64) 0 24) .live = some 4 ∧ (adapterAt s 4).state = .live ∧ (adapterAt s 4).id = 7 ∧ adapterIn s 7 .draining = none)) = true ∧
    Takes served { vf with w1 := 7 } false [bmask 0 48] true ∧
    (let s := { served with now := 50, adapters := [(4, { state := .loading, id := 7, flip := 50 })] }
     (adapterAt s (4 : BitVec 10).toNat).state = .loading ∧ (adapterAt s 4).flip.toNat ≤ s.now.toNat ∧ adapterIn s (adapterAt s 4).id .live = none) :=
  ⟨fun _ => nofun, ⟨takes_vf _ _ _ _ (by decide), by decide⟩, by decide +kernel, takes_vf _ _ _ _ (by decide), by decide +kernel⟩
/-- The other cases of ADAPTER_LOAD: a newer version LIVE already and one that is not, the lowest FREE slot, and a flip that is due. -/
theorem witness_AdapterEffect_load :
    (let c : HostCmd := { vf with w1 := BitVec.ofNat 64 (7 + 3 * 2 ^ 24 + 16 * 2 ^ 40), w2 := 0x2000 }
     let s (v : BitVec 16) : State := { served with adapters := [(0, { state := .live, id := 7, version := v })] }
     (∃ e ∈ (s 5).adapters, e.2.id = fld c.w1 0 24 ∧ e.2.state = .live ∧ newer 16 (fld c.w1 24 16) e.2.version.toNat = false) ∧
     (∀ e ∈ (s 2).adapters, newer 16 (fld c.w1 24 16) e.2.version.toNat = true) ∧ (adapterAt (s 2) 1).state = .free ∧ (∀ i < 1, (adapterAt (s 2) i).state ≠ .free)) ∧
    (let s := { served with now := 50, adapters := [(4, { state := .loading, id := 7, flip := 50 })] }
     (∀ i, i ≠ 4 → adapterAt s i = {}) ∧ (adapterAt s 4).flip.toNat ≤ s.now.toNat ∧ adapterIn s (adapterAt s 4).id .live = none) :=
  ⟨by decide, fun i h => by simp [adapterAt, tget, Ne.symm h], by decide, by decide +kernel⟩
theorem tget_map {α : Type} (d : α) (f : Nat → α) (l : List Nat) (k : Nat) (h : k ∈ l) : tget d (l.map (fun k => (k, f k))) k = f k := by
  induction l with
  | nil => nomatch h
  | cons x r ih =>
    show (if x = k then f x else tget d (r.map (fun k => (k, f k))) k) = f k
    split
    · rename_i e; rw [e]
    · rename_i e; exact ih ((List.mem_cons.mp h).resolve_left (Ne.symm e))
/-- Every slot is taken. -/
def liveSlot (k : Nat) : Adapter := { state := .live, id := k }
theorem full_slots (n k : Nat) (h : k < n) : (adapterAt { served with adapters := (List.range n).map (fun k => (k, liveSlot k)) } k).state ≠ .free := by
  have : tget {} ((List.range n).map (fun k => (k, liveSlot k))) k = liveSlot k := tget_map {} liveSlot _ k (List.mem_range.mpr h)
  show (tget {} ((List.range n).map (fun k => (k, liveSlot k))) k).state ≠ .free
  rw [this]
  nofun
theorem witness_AdapterEffect_full : ∃ s : State, ∀ k < 1024, (adapterAt s k).state ≠ .free := ⟨_, full_slots 1024⟩

/-- Class 5 of die 1. -/
def classed : State := { served with serve := { served.serve with classes := [(64 + 5, some { maxActive := 4, pfSlots := 2, chunk := 16, maxPrompt := 100, maxOut := 100, d := 5, tenants := 0xFF })] } }
def admission : HostCmd := { vf with w1 := BitVec.ofNat 64 (5 + 2 ^ 12 + 0xFFFFFF * 2 ^ 40), w2 := 0x500000004, w5 := 0x2000 + 4 * 2 ^ 48 }
theorem witness_RosterCommandEffect :
    (Takes classed admission false [bmask 0 26 + bmask 40 24, wholeWord, wholeWord, wholeWord, wholeWord] (decide (fld admission.w5 0 3 = 0)) ∧
      inWindow classed (cmdCtx admission) (fld admission.w5 0 48) (Nat.max 1 (4 * fld admission.w5 48 16)) = true ∧
      admitStatus classed admission 1 3 (tget none classed.serve.classes (1 * 64 + 5)) = 0 ∧ freeEntry classed 1 = some 16384 ∧ serving classed 1 = false) ∧
    (let c : HostCmd := { admission with w5 := 0xF000 + 4 * 2 ^ 48 }
     Takes classed c false [bmask 0 26 + bmask 40 24, wholeWord, wholeWord, wholeWord, wholeWord] (decide (fld c.w5 0 3 = 0)) ∧
      inWindow classed (cmdCtx c) (fld c.w5 0 48) (Nat.max 1 (4 * fld c.w5 48 16)) = false) ∧
    admitStatus served admission 1 3 (tget none served.serve.classes (1 * 64 + 5)) ≠ 0 ∧
    (let c : HostCmd := { vf with w1 := 7 + 3 * 2 ^ 17 }
     let s := { served with serve := { served.serve with entries := [(7, { state := .decode, gen := 3, tenant := 3 })] } }
     Takes s c false [bmask 0 32] true ∧ (entry s 7).state ≠ .free ∧ (entry s 7).gen.toNat = fld c.w1 0 32 / 2 ^ 17 ∧ (entry s 7).tenant = cmdCtx c ∧ (entry s 7).open_ = true ∧
       (entry s 7).aslot = none) ∧
    Takes served { pf with w1 := 3 } true [bmask 0 10] true ∧ flag (3 : BitVec 64) 9 = false ∧
    Takes served { pf with w1 := 3, w2 := 0x8000 } true [bmask 0 9, bmask 0 48] (memRange served (0x8000 : BitVec 64).toNat 16384) ∧
    Takes served { pf with w1 := 3 } true [bmask 0 9] true :=
  ⟨⟨takes_vf _ _ _ _ (by decide), by decide, by decide +kernel, by decide +kernel, by decide⟩, ⟨takes_vf _ _ _ _ (by decide), by decide⟩, by decide,
   ⟨takes_vf _ _ _ _ (by decide), by decide, by decide, by decide, by decide, by decide⟩, takes_pf _ _ _ _ (by decide), by decide, takes_pf _ _ _ _ (by decide +kernel), takes_pf _ _ _ _ (by decide)⟩
/-- Die 0 serves: READY 2, DONE 3, batches of 8, class 5 for tenant 3, whose budget is 1000. -/
def dieServes (l : List (Nat × Entry)) (b : List BatchItem) : State :=
  let s := rset (rset (rset served (rosStep 0 0) (2 ^ 32 + 3 * 2 ^ 16 + 2)) (rosStep 0 32) 8) (rosBkt 3 16) 1000
  let s := rset s (rosBkt 3 0) 0x6400000000
  { s with serve := { s.serve with classes := [(5, some { maxActive := 4, pfSlots := 2, chunk := 16, maxPrompt := 100, maxOut := 100, d := 5, tenants := 0xFF })],
                                   entries := l, dies := [(0, { batch := b })] } }
/-- ADMIT of RosterCommandEffect on a die that serves with no batch out, and with each entry of the die FREE. -/
theorem witness_RosterCommandEffect_serving :
    let s := dieServes [] []
    let c : HostCmd := { admission with w1 := BitVec.ofNat 64 (5 + 0xFFFFFF * 2 ^ 40) }
    Takes s c false [bmask 0 26 + bmask 40 24, wholeWord, wholeWord, wholeWord, wholeWord] (decide (fld c.w5 0 3 = 0)) ∧
    inWindow s (cmdCtx c) (fld c.w5 0 48) (Nat.max 1 (4 * fld c.w5 48 16)) = true ∧ admitStatus s c 0 3 (tget none s.serve.classes 5) = 0 ∧ (entry s 0).state = .free ∧
    serving s 0 = true ∧ (dieServe s 0).batch = [] ∧ dieDead s 0 = false ∧ dieEntries s 0 = [] ∧ jobOf s 3 = none ∧ 1 ≤ batchMax s 0 ∧ 0 < level (refillAll s) 3 :=
  ⟨takes_vf _ _ _ _ (by decide), by decide, by decide +kernel, by decide, by decide, rfl, by decide, by decide +kernel, rfl, by decide, by decide⟩

/-- A die 0 with one item in the batch. -/
def batched : State :=
  let it : BatchItem := { entry := 9, ident := 0, decode := false, last := false, pos := 0, ntok := 0, remain := 0, cost := 0 }
  let s := rset served (clsBlk + 0x2000) 3
  { bellSet s (doneBell s 0) 1 with serve := { s.serve with dies := [(0, { batch := [it] })] } }
theorem witness_ServingStepEffect :
    serving served 2 = false ∧ dieEntries served 2 = [] ∧ (dieServe served 2).batch = [] ∧
    (dieServe batched 0).batch ≠ [] ∧ dieDead batched 0 = false ∧ learning batched 0 = false ∧ bellMet batched (doneBell batched 0) ((dieServe batched 0).step + 1) = true ∧ serving batched 0 = false ∧
    rosterLive served = false ∧ rosterLive { served with serve := { served.serve with entries := [(3, { state := .decode })] } } = true ∧
    (dieServe batched 0).late = false ∧ tDie batched 0 < (({ batched with now := 2000000000000 } : State).now - (dieServe batched 0).formed).toNat := by decide +kernel
/-- The ticks of ServingStepEffect: a canonical state with a late and a live entry, and one ADMITTED entry on a die that serves. -/
theorem witness_ServingStepEffect_tick :
    (let s := { dieServes [(3, { state := .decode, deadline := 50 }), (4, { state := .held, deadline := 2000 })] [] with now := 100 }
     Canon s ∧ dieDead s 0 = false ∧ (dieServe s 0).batch = [] ∧ (entry s 3).open_ = true ∧ (entry s 3).deadline < s.now.toNat ∧ s.now.toNat ≤ (entry s 4).deadline ∧
       (entry s 4).open_ = true) ∧
    (let e : Entry := { state := .admitted, gen := 1, tenant := 3, cls := 5, prompt := 40, maxNew := 9, deadline := 2000 }
     let s := dieServes [(3, e)] []
     dieDead s 0 = false ∧ learning s 0 = false ∧ serving s 0 = true ∧ (dieServe s 0).batch = [] ∧ (dieServe s 0).ended = [] ∧ dieEntries s 0 = [(3, e)] ∧ entry s 3 = e ∧
       s.now.toNat ≤ e.deadline ∧ e.cls < 64 ∧ 1 ≤ batchMax s 0 ∧ 0 < level (refillAll s) e.tenant) :=
  ⟨⟨by constructor <;> decide +kernel, by decide, rfl, by decide, by decide, by decide, by decide⟩, by decide +kernel⟩
/-- The boundary of a die that serves: one DECODE entry of generation 1 whose result says one token and no fault. -/
theorem witness_ServingStepEffect_boundary :
    let e : Entry := { state := .decode, gen := 1, tenant := 3, cls := 5, prompt := 40, pos := 40, emitted := 2, maxNew := 9, deadline := 2000 }
    let it : BatchItem := { entry := 3, ident := e.ident 3, decode := true, last := false, pos := 40, ntok := 1, remain := 7, cost := 256 }
    let s0 := dieServes [(3, e)] [it]
    let at_ (k : Nat) := canon (mapCtx s0) (resultAddr s0 0 0 + k)
    let s := { bellSet s0 (doneBell s0 0) 1 with serve := { s0.serve with tenants := [(3, { refill := some 0 })] },
                                                 m := { cells := tset 0 (tset 0 (tset 0 [] (at_ 0) 3) (at_ 2) 2) (at_ 10) 1 } }
    let b := (List.range 80).map (fun k => localByte s (resultAddr s 0 (dieServe s 0).step.toNat + k))
    dieDead s 0 = false ∧ learning s 0 = false ∧ serving s 0 = true ∧ (dieServe s 0).batch = [it] ∧ bellMet s (doneBell s 0) ((dieServe s 0).step + 1) = true ∧
    (dieServe s 0).ended = [] ∧ 1 ≤ batchMax s 0 ∧ dieEntries s 0 = [(3, e)] ∧ entry s 3 = e ∧ s.now.toNat ≤ e.deadline ∧ tget false s.counts.sitOut 3 = false ∧
    s.serve.tenants.map (·.1) = [e.tenant] ∧ (tenant s e.tenant).refill.isSome = true ∧ digestRoom s e.tenant 3 = true ∧ inflight s = [] ∧
    wfld b 0 0 64 = it.ident ∧ wfld b 1 16 4 = 1 ∧ 1 ≤ it.remain ∧ wfld b 1 20 12 = 0 ∧ e.emitted + 1 < e.maxNew ∧
    0 < level (refill (setLevel s e.tenant (level s e.tenant + it.cost - 256)) e.tenant) e.tenant := by decide +kernel

/-! ### Witnesses: Classrooms, Roll Call and the whole machine -/

/-- Classroom 0 with contexts 3 and 6 in slots 1 and 2, each of a quantum of 100 µs; context 3 resident in slot 1, whose time it is. -/
def room : State :=
  let s := rset { State.reset with tiles := [(0, { tile0 with ctx := 3 }), (100, { tile0 with ctx := 4 })], now := 500 } mgtStatus 0x1F
  let s := rset (rset s (ctxReg 3 0) 0x10003) (ctxReg 6 0) 0x10003
  let s := rset (rset (rset s (slotReg 0 1) (3 + 2 ^ 9 + 2 ^ 10)) (slotReg 0 2) (6 + 2 ^ 9 + 2 ^ 10)) (roomReg 0 16) (3 + 2 ^ 9)
  loadTable s 0 0
/-- The time of slot 2. -/
def room2 : State := { room with now := 150000 }
/-- Every tile of Classroom 0 saved for a switch. -/
def savedRoom : State := { room with tiles := (upto 0 96).map (fun t => (t, { tile0 with pre := .idle, saved := true, run := false })), rooms := { room.rooms with areaAt := [(2, 5)], validAt := [(6, 3)] } }
/-- Each clause of SLOT_START: an ignored Classroom, a new cycle, no slot, another slot or a start that has been taken, the resident's slot, and
the slot of another context. -/
theorem witness_ClassroomSlotAndSwitch :
    roomIgnored room 1 = true ∧ roomIgnored room 0 = false ∧ newCycle room 0 = false ∧
    (let s := { room with now := 200001 }; roomIgnored s 0 = false ∧ newCycle s 0 = true) ∧
    (let s := loadTable State.reset 0 0; roomIgnored s 0 = false ∧ newCycle s 0 = false ∧ slotDue s 0 = none) ∧
    (slotDue room 0 = some (1, 0) ∧ (1 : Nat) ≠ (2 : Fin 32).val) ∧
    (let s := rfld { room with rooms := { room.rooms with slotAt := [(0, some 0)] } } (roomReg 0 16) 10 5 1
     slotDue s 0 = some (1, 0) ∧ newCycle s 0 = false ∧ fld (rget s (roomReg 0 16)) 10 5 = (1 : Fin 32).val ∧ tget none s.rooms.slotAt 0 = some (BitVec.ofNat 64 0)) ∧
    (fld (rget room (roomReg 0 16)) 10 5 ≠ (1 : Fin 32).val ∧ switchOf room 0 = none ∧ sliceOf room 0 = none ∧ resident room 0 = some 3 ∧
      ctxValid room (slotCtx (activeSlot room 0 1)) = true ∧ slotCtx (activeSlot room 0 1) = 3) ∧
    (roomIgnored room2 0 = false ∧ newCycle room2 0 = false ∧ slotDue room2 0 = some (2, 100000) ∧ fld (rget room2 (roomReg 0 16)) 10 5 ≠ (2 : Fin 32).val ∧
      switchOf room2 0 = none ∧ sliceOf room2 0 = none ∧ resident room2 0 = some 3 ∧ ctxValid room2 (slotCtx (activeSlot room2 0 2)) = true ∧
      slotCtx (activeSlot room2 0 2) ≠ 3 ∧ roomHeld room2 0 = false ∧ (∀ t ∈ roomTiles room2 0, ctlLive room2 t = true)) ∧ isSplit room 3 ≠ true := by decide +kernel
theorem witness_ClassroomSlotAndSwitch_save :
    (let s := setSwitch savedRoom 0 (some { incoming := none, start := 500 })
     switchOf s 0 = some { incoming := none, start := 500 } ∧ roomHeld s 0 = false ∧ (∀ t ∈ roomTiles s 0, (s.tile t).saved = true ∧ (s.tile t).pre = .idle ∧ ctlLive s t = true) ∧
     slotValid (activeSlot s 0 (fld (rget s (roomReg 0 16)) 10 5)) = false) ∧
    (let s := setSwitch savedRoom 0 (some { incoming := some 6, start := 500 })
     switchOf s 0 = some { incoming := some 6, start := 500 } ∧ roomHeld s 0 = false ∧ (∀ t ∈ roomTiles s 0, (s.tile t).saved = true ∧ (s.tile t).pre = .idle ∧ ctlLive s t = true) ∧
     ctxValid s 6 = true ∧ areaFresh s 0 6 = false ∧ (resident s 0).bind (lowestSlot s 0) = some 1 ∧ lowestSlot s 0 6 = some 2) ∧
    (let s := setSwitch (rfld savedRoom (roomReg 0 16) 10 5 2) 0 (some { incoming := some 6, start := 500, restoring := true })
     switchOf s 0 = some { incoming := some 6, start := 500, restoring := true } ∧ ctxValid s 6 = true ∧ sliceOf s 0 = none ∧ (∀ t ∈ roomTiles s 0, (s.tile t).pre = .idle) ∧
       slotCtx (activeSlot s 0 (fld (rget s (roomReg 0 16)) 10 5)) = 6) := by decide +kernel
theorem witness_ClassroomSlotAndSwitch_study :
    (let s := { rset (setJob room 3 (some { tt := leBytes 24 (2 ^ 128 * (2 ^ 27 + 6 * 2 ^ 28)) })) (roomReg 0 0) 100 with now := 100001 }
     resident s 0 = some 3 ∧ switchOf s 0 = none ∧ sliceOf s 0 = none ∧ shOf s 3 = some 6 ∧ fld (rget s (roomReg 0 0)) 0 16 ≠ 0 ∧
       fld (rget s (roomReg 0 0)) 0 16 * 1000 ≤ bubbleNs s 0 3 ∧ roomIgnored s 0 = false ∧
       (lowestSlot s 0 6).isSome = true ∧ ctxValid s 6 = true ∧ roomHeld s 0 = false ∧ isBubble s 0 3 = true ∧ (6 : Nat) ≠ 3 ∧ (∀ t ∈ roomTiles s 0, ctlLive s t = true)) ∧
    (let s := { room with rooms := { room.rooms with slice := [(0, some 6)] } }
     resident s 0 = some 3 ∧ switchOf s 0 = none ∧ sliceOf s 0 = some 6 ∧ sliceOver s 0 6 = true ∧ (∀ t ∈ roomTiles s 0, ctlLive s t = true)) ∧
    (∀ n < 512, ctxValid room n = true → inMask (ctxMask room n) (2 * 3) = false ∧ inMask (ctxMask room n) (2 * 3 + 1) = false) ∧
    (let s := rset (rset room (ctxReg 3 0) 0x10001) (ctxReg 6 0) 0x10001
     (∀ n < 512, ctxValid s n = true → inMask (ctxMask s n) (2 * 0) = true) ∧ isSplit s 0 ≠ true ∧ ctxValid s 3 = true) := by decide +kernel

theorem witness_RollCallEffect : flag (rget (rset State.reset rcStatus 0x40000) rcStatus) 18 = true ∧ flag (rget State.reset rcStatus) 18 = false ∧
    (let s := { State.reset with rollCall := some (400, 9), now := 500 }; s.rollCall = some (400, 9) ∧ (400 : BitVec 64).toNat ≤ s.now.toNat) := by decide
theorem reset_canon : Canon State.reset := by constructor <;> decide
/-- The last clause of RollCallEffect: a canonical state with a resident context and a snapshot that is due. -/
theorem witness_RollCallEffect_resident :
    let s := { room with rollCall := some (400, 9) }
    Canon s ∧ (∀ e ∈ s.tiles, e.1 < 768) ∧ resident s 0 = some 3 ∧ s.rollCall = some (400, 9) ∧ (400 : BitVec 64).toNat ≤ s.now.toNat :=
  ⟨by constructor <;> decide +kernel, by decide, by decide, rfl, by decide⟩
theorem witness_StepRunsFrontCommand : { State.reset with pending := [.wdogPet] }.pending = .wdogPet :: [] ∧ State.reset.pending = [] := ⟨rfl, rfl⟩
/-- StepKeepsCanonicalStores and StepConsumesQueueInOrder: a step from reset answers a next state. -/
theorem witness_StepKeepsCanonicalStores : Canon State.reset ∧ ∃ u, step State.reset = .next u := ⟨reset_canon, _, rfl⟩
theorem witness_StepConsumesQueueInOrder : ∃ u, step State.reset = .next u := ⟨_, rfl⟩

/-- R229: two images, the second full: 2 + 12 + 20 bytes, and every image comes back. -/
theorem test_coll_transport :
    (let d := leBytes 20 (3 * 2 ^ 16) ++ leBytes 20 5
     let w := packLong d
     w.length = 34 ∧ w.take 2 = [2, 0] ∧ (unpackLong 34 0 0 w).1 = d) := ⟨rfl, rfl, rfl⟩

/-- R229: bit 111 fills the bits above it. -/
theorem test_coll_sign : compactImage (2 ^ 160 - 2 ^ 16) = true ∧ fullImage (2 ^ 96 - 1) = 2 ^ 160 - 2 ^ 16 := by decide

/-- R214: 481 bytes take three flits. -/
theorem test_coll_payloads (l : List Byte) (h : l.length = 481) : (payloads l).length = 3 := by simp [payloads, h]

end Sys2Proof.Tests
end

/-! Register writes by access code and by byte (R5 to R7, R420, R421): what a merged value holds bit by bit, the plain registers of each
block, the command bits and ranges, the tile pages, and reads of BAR0. -/
namespace Sys2Proof.RegisterWrites
open Sys2Proof.Machine Sys2Proof.Laws Sys2Proof.Safety

/-! ### Bits of masks, fields and merged values -/

/-- Bit `k` of the mask of byte `i` alone. -/
theorem getLsbD_byteMask (i k : Nat) : (BitVec.ofNat 64 (0xFF * 2 ^ (8 * i))).getLsbD k = (decide (k < 64) && decide (k / 8 = i)) := by
  have h8 : (0xFF : Nat) = 2 ^ 8 - 1 := rfl
  rw [BitVec.getLsbD_ofNat, h8, Nat.testBit_mul_two_pow, Nat.testBit_two_pow_sub_one, ← Bool.decide_and]
  congr 2
  simp only [eq_iff_iff]
  omega

/-- A fold that joins the masks of the enabled bytes has the bits of any of them. -/
theorem getLsbD_foldl_byteMask (be : BitVec 8) (l : List Nat) (m : BitVec 64) (k : Nat) (hk : k < 64) :
    (l.foldl (fun m i => if flag be i then m ||| BitVec.ofNat 64 (0xFF * 2 ^ (8 * i)) else m) m).getLsbD k =
      (m.getLsbD k || (decide (k / 8 ∈ l) && be.getLsbD (k / 8))) := by
  induction l generalizing m with
  | nil => simp
  | cons i l ih =>
    rw [List.foldl_cons, ih]
    by_cases hi : k / 8 = i
    · subst hi
      cases hb : be.getLsbD (k / 8) <;> simp [flag, hb, getLsbD_byteMask, hk]
    · by_cases hb : flag be i <;> simp [hb, getLsbD_byteMask, hi]

/-- R421: bit `k` of a register is covered where the enable of its byte is 1. -/
theorem getLsbD_beMask (be : BitVec 8) {k : Nat} (hk : k < 64) : (beMask be).getLsbD k = be.getLsbD (k / 8) := by
  have h8 : k / 8 < 8 := by omega
  simp [beMask, getLsbD_foldl_byteMask _ _ _ _ hk, h8]

@[simp] theorem getElem_beMask (be : BitVec 8) {k : Nat} (hk : k < 64) : (beMask be)[k] = be.getLsbD (k / 8) := getLsbD_beMask be hk

theorem getElem_ofNat64 (x : Nat) {k : Nat} (hk : k < 64) : (BitVec.ofNat 64 x)[k] = x.testBit k := by
  rw [← BitVec.getLsbD_eq_getElem, BitVec.getLsbD_ofNat, decide_eq_true hk, Bool.true_and]

/-- R421 for a plain value: the covered bytes are the written ones. -/
theorem getLsbD_mergeBytes (old v : BitVec 64) (be : BitVec 8) {k : Nat} (hk : k < 64) :
    (mergeBytes old be v).getLsbD k = if be.getLsbD (k / 8) then v.getLsbD k else old.getLsbD k := by
  cases hb : be.getLsbD (k / 8) <;> simp [mergeBytes, hk, hb]

/-- R5 to R7 and R421: bit `k` of a register after a write under its access codes. -/
theorem getLsbD_regMerge (sp : RegSpec) (old v : BitVec 64) (be : BitVec 8) {k : Nat} (hk : k < 64) :
    (regMerge sp old be v).getLsbD k =
      if be.getLsbD (k / 8) then
        (if sp.rw.testBit k then v.getLsbD k else old.getLsbD k) && !(sp.w1c.testBit k && v.getLsbD k)
      else old.getLsbD k := by
  cases hb : be.getLsbD (k / 8) <;> cases hr : sp.rw.testBit k <;> simp [regMerge, getElem_ofNat64, hk, hb, hr]

/-- A command bit acts where it is WO, written 1 and covered. -/
theorem flag_regCmd (sp : RegSpec) (v : BitVec 64) (be : BitVec 8) {k : Nat} (hk : k < 64) :
    flag (regCmd sp be v) k = (v.getLsbD k && sp.wo.testBit k && be.getLsbD (k / 8)) := by
  simp [flag, regCmd, getElem_ofNat64, hk]

section
variable {be : BitVec 8} {k : Nat} (hk : k < 64) (hbe : be.getLsbD (k / 8) = false)
include hk hbe

/-- A command bit in an uncovered byte does not act. -/
theorem flag_regCmd_uncovered (sp : RegSpec) (v : BitVec 64) : flag (regCmd sp be v) k = false := by
  rw [flag_regCmd sp v be hk, hbe, Bool.and_false]

theorem flag_regMerge_uncovered (sp : RegSpec) (old v : BitVec 64) : flag (regMerge sp old be v) k = flag old k := by
  rw [flag, getLsbD_regMerge sp old v be hk, hbe]
  rfl

theorem flag_and_beMask_uncovered (v : BitVec 64) : flag (v &&& beMask be) k = false := by
  rw [flag, BitVec.getLsbD_and, getLsbD_beMask be hk, hbe, Bool.and_false]

end

theorem testBit_fld {n : Nat} (r : BitVec n) (lo w i : Nat) : (fld r lo w).testBit i = (decide (i < w) && r.getLsbD (lo + i)) := by
  simp [fld, nfld, Nat.testBit_mod_two_pow, Nat.testBit_shiftRight, BitVec.testBit_toNat]

/-- Registers that agree on a field's bits have the same field. -/
theorem fld_congr {n : Nat} {r q : BitVec n} {lo w : Nat} (h : ∀ k, lo ≤ k → k < lo + w → r.getLsbD k = q.getLsbD k) :
    fld r lo w = fld q lo w := by
  apply Nat.eq_of_testBit_eq
  intro i
  by_cases hi : i < w
  · simp [testBit_fld, hi, h (lo + i) (by omega) (by omega)]
  · simp [testBit_fld, hi]

theorem getLsbD_setFld (r : BitVec 64) (lo w x : Nat) {k : Nat} (hk : k < 64) :
    (setFld r lo w x).getLsbD k = if lo ≤ k ∧ k < lo + w then x.testBit (k - lo) else r.getLsbD k := by
  simp only [setFld, BitVec.getLsbD_or, BitVec.getLsbD_and, BitVec.getLsbD_not, BitVec.getLsbD_ofNat, Nat.testBit_shiftLeft,
    Nat.testBit_two_pow_sub_one, Nat.testBit_mod_two_pow]
  by_cases h1 : lo ≤ k <;> by_cases h2 : k - lo < w <;> simp [h1, h2, hk] <;> intros <;> omega

/-! ### A field that keeps its value (keepField) -/

theorem fld_setFld_same (r : BitVec 64) {lo w : Nat} (hw : lo + w ≤ 64) (q : BitVec 64) :
    fld (setFld r lo w (fld q lo w)) lo w = fld q lo w := by
  refine fld_congr fun k hl hu => ?_
  rw [getLsbD_setFld _ _ _ _ (by omega), if_pos ⟨hl, hu⟩, testBit_fld, Nat.add_sub_cancel' hl, decide_eq_true (by omega), Bool.true_and]

/-- The field itself: the new value where it is in range, else the old one. -/
theorem fld_keepField_same (old v : BitVec 64) {lo w : Nat} (hw : lo + w ≤ 64) (ok : Nat → Bool) :
    fld (keepField old v lo w ok) lo w = if ok (fld v lo w) then fld v lo w else fld old lo w := by
  unfold keepField
  split
  · rfl
  · exact fld_setFld_same v hw old

/-- A bit outside the field is as it was written. -/
theorem getLsbD_keepField_outside (old v : BitVec 64) {lo w k : Nat} (ok : Nat → Bool) (hk : k < 64) (ho : k < lo ∨ lo + w ≤ k) :
    (keepField old v lo w ok).getLsbD k = v.getLsbD k := by
  unfold keepField
  split
  · rfl
  · rw [getLsbD_setFld _ _ _ _ hk, if_neg (by omega)]

/-- Another field is as it was written. -/
theorem fld_keepField_outside (old v : BitVec 64) {lo w lo' w' : Nat} (ok : Nat → Bool) (hw : lo' + w' ≤ 64)
    (ho : lo' + w' ≤ lo ∨ lo + w ≤ lo') : fld (keepField old v lo w ok) lo' w' = fld v lo' w' :=
  fld_congr fun _ _ _ => getLsbD_keepField_outside old v ok (by omega) (by omega)

theorem flag_setFlag_same (r : BitVec 64) {k : Nat} (hk : k < 64) (b : Bool) : flag (setFlag r k b) k = b := by
  rw [flag, setFlag, getLsbD_setFld _ _ _ _ hk, if_pos ⟨Nat.le_refl k, by omega⟩]
  cases b <;> simp

theorem getLsbD_allOnes8 : ∀ k < 64, (0xFF : BitVec 8).getLsbD (k / 8) = true := by decide

/-- An RW field after a write of all 8 bytes reads what was written. -/
theorem fld_regMerge_rw (sp : RegSpec) (old v : BitVec 64) {lo w : Nat} (hw : lo + w ≤ 64)
    (h : ∀ k < 64, lo ≤ k → k < lo + w → sp.rw.testBit k = true ∧ sp.w1c.testBit k = false) :
    fld (regMerge sp old 0xFF v) lo w = fld v lo w := by
  refine fld_congr fun k hl hu => ?_
  obtain ⟨hr, hc⟩ := h k (by omega) hl hu
  rw [getLsbD_regMerge _ _ _ _ (by omega), if_pos (getLsbD_allOnes8 k (by omega))]
  simp [hr, hc]

/-- A field without RW or W1C bits is left by every write. -/
theorem fld_regMerge_ro (sp : RegSpec) (old v : BitVec 64) (be : BitVec 8) {lo w : Nat} (hw : lo + w ≤ 64)
    (h : ∀ k < 64, lo ≤ k → k < lo + w → sp.rw.testBit k = false ∧ sp.w1c.testBit k = false) :
    fld (regMerge sp old be v) lo w = fld old lo w := by
  refine fld_congr fun k hl hu => ?_
  obtain ⟨hr, hc⟩ := h k (by omega) hl hu
  simp [getLsbD_regMerge _ _ _ _ (show k < 64 by omega), hr, hc]

/-! ### Only the covered bytes act -/

/-- Values that agree on the covered bytes agree under the mask. -/
theorem and_beMask_congr {be : BitVec 8} {v w : BitVec 64}
    (h : ∀ k < 8, be.getLsbD k = true → v.extractLsb' (8 * k) 8 = w.extractLsb' (8 * k) 8) : v &&& beMask be = w &&& beMask be := by
  refine BitVec.eq_of_getLsbD_eq fun i hi => ?_
  rw [BitVec.getLsbD_and, BitVec.getLsbD_and, getLsbD_beMask be hi]
  cases hb : be.getLsbD (i / 8) with
  | false => simp
  | true =>
    have hbyte := congrArg (·.getLsbD (i % 8)) (h (i / 8) (by omega) hb)
    simpa [BitVec.getLsbD_extractLsb', Nat.mod_lt, Nat.div_add_mod, hi] using hbyte

theorem regMerge_eq_covered (sp : RegSpec) (old v : BitVec 64) (be : BitVec 8) :
    regMerge sp old be v = regMerge sp old be (v &&& beMask be) := by
  refine BitVec.eq_of_getLsbD_eq fun i hi => ?_
  rw [getLsbD_regMerge _ _ _ _ hi, getLsbD_regMerge _ _ _ _ hi, BitVec.getLsbD_and, getLsbD_beMask be hi]
  cases be.getLsbD (i / 8) <;> simp

theorem regCmd_eq_covered (sp : RegSpec) (v : BitVec 64) (be : BitVec 8) : regCmd sp be v = regCmd sp be (v &&& beMask be) := by
  refine BitVec.eq_of_getLsbD_eq fun i hi => ?_
  simp only [regCmd, BitVec.getLsbD_and]
  cases (beMask be).getLsbD i <;> simp

section
variable {be : BitVec 8} {v w : BitVec 64}

/-- A page's register takes the same from writes with the same covered bytes. -/
theorem tilePageWrite_congr (s : State) (t o : Nat) (h : v &&& beMask be = w &&& beMask be) :
    tilePageWrite s t o be v = tilePageWrite s t o be w := by
  unfold tilePageWrite tileRegWrite pageWrite mergeBytes
  rw [h]

/-- Every register takes the same from writes with the same covered bytes. -/
theorem regWrite_congr (s : State) (a : Nat) (h : v &&& beMask be = w &&& beMask be) : regWrite s a be v = regWrite s a be w := by
  have hm (sp : RegSpec) (old : BitVec 64) : regMerge sp old be v = regMerge sp old be w := by
    rw [regMerge_eq_covered, h, ← regMerge_eq_covered]
  have hc (sp : RegSpec) : regCmd sp be v = regCmd sp be w := by rw [regCmd_eq_covered, h, ← regCmd_eq_covered]
  simp only [regWrite, tilePageWrite_congr _ _ _ h, hm, hc, h]

end

/-- The sender and the place decide whether a write arrives, not its value. -/
theorem agentWrite_congr {be : BitVec 8} {v w : BitVec 64} (s : State) (who : Agent) (a : Nat) (h : v &&& beMask be = w &&& beMask be) :
    agentWrite s who a be v = agentWrite s who a be w := by
  simp only [agentWrite, regWrite_congr _ _ h]

/-! ### Where a register lies -/

/-- Registers of `regSpec` lie above the tile pages. -/
theorem not_page_of_regSpec {a : Nat} {sp : RegSpec} (h : regSpec a = some sp) : ¬ (pageBase 0 ≤ a ∧ a < pageBase 768) := by
  intro hp
  have hlt : a < mgtBlk := by simp only [pageBase, mgtBlk] at hp ⊢; omega
  simp [regSpec, hlt] at h

/-- R421: a write that covers no byte of a writable field changes nothing. -/
theorem regWrite_uncovered {a : Nat} {sp : RegSpec} {be : BitVec 8} (s : State) (v : BitVec 64) (h : regSpec a = some sp)
    (hc : sp.covers be = false) : regWrite s a be v = s := by
  simp [regWrite, not_page_of_regSpec h, h, hc]

theorem covers_eq_false_iff (sp : RegSpec) (be : BitVec 8) :
    sp.covers be = false ↔ ∀ k < 64, be.getLsbD (k / 8) = true → (sp.rw ||| sp.w1c ||| sp.wo).testBit k = false := by
  rw [RegSpec.covers, decide_eq_false_iff_not, Decidable.not_not]
  constructor
  · intro h k hk hb
    have hbit := congrArg (·.getLsbD k) h
    simpa [getElem_ofNat64, hk, hb] using hbit
  · intro h
    refine BitVec.eq_of_getLsbD_eq fun k hk => ?_
    cases hb : be.getLsbD (k / 8) with
    | false => simp [hk, hb]
    | true => simpa [getElem_ofNat64, hk, hb] using h k hk hb

/-! ### The seven blocks (R395) -/

/-- The map of block `b`. -/
def blockSpec (b o : Nat) : Option RegSpec :=
  match b with
  | 0 => mgtSpec o
  | 1 => hstSpec o
  | 2 => lnkSpec o
  | 3 => rosSpec o
  | 4 => ckpSpec o
  | 5 => clsSpec o
  | 6 => talSpec o
  | _ => none

/-- A write in block `b`: the merged value, the command bits and the covered bytes as written. -/
def blockWrite (b : Nat) (s : State) (o : Nat) (v cmd raw : BitVec 64) : State :=
  match b with
  | 0 => mgtWrite s o v cmd
  | 1 => hstWrite s o v
  | 2 => lnkWrite s o v
  | 3 => rosWrite s o v
  | 4 => ckpWrite s o v
  | 5 => clsWrite s o v raw
  | _ => talWrite s o v cmd

section
variable {base b o : Nat} (hb : base = mgtBlk + b * 0x200000) (ho : o < 0x200000)
include hb ho

/-- An offset below 2 MiB lies in its own block. -/
theorem block_place :
    ¬ base + o < mgtBlk ∧ (base + o) % 8 = o % 8 ∧ (base + o - mgtBlk) / 0x200000 = b ∧ (base + o - mgtBlk) % 0x200000 = o := by
  subst hb
  simp only [mgtBlk]
  omega

theorem regSpec_block (h8 : o % 8 = 0) : regSpec (base + o) = blockSpec b o := by
  obtain ⟨hlo, ha, hd, hm⟩ := block_place hb ho
  simp only [regSpec, hlo, ha, h8, hd, hm, ne_eq, not_true_eq_false, if_false]
  rfl

theorem regWrite_block {sp : RegSpec} {be : BitVec 8} (s : State) (v : BitVec 64) (h : regSpec (base + o) = some sp)
    (hc : sp.covers be = true) :
    regWrite s (base + o) be v = blockWrite b s o (regMerge sp (rget s (base + o)) be v) (regCmd sp be v) (v &&& beMask be) := by
  obtain ⟨-, -, hd, hm⟩ := block_place hb ho
  simp only [regWrite, not_page_of_regSpec h, h, hc, hd, hm, if_false, Bool.not_true, Bool.false_eq_true]
  rfl

end

/-! ### Plain registers -/

/-- Nothing differs but the stored value of the register at `a`. -/
structure RegOnly (s u : State) (a : Nat) : Prop where
  rest : u = { s with regs := u.regs }
  others : ∀ c, c ≠ a → rget u c = rget s c

theorem RegOnly.of_eq {s u : State} {a : Nat} (h : u = s) : RegOnly s u a := h ▸ ⟨rfl, fun _ _ => rfl⟩
theorem RegOnly.of_rset {s u : State} {a : Nat} {x : BitVec 64} (h : u = rset s a x) : RegOnly s u a :=
  h ▸ ⟨rfl, fun _ hne => rget_rset_ne s x hne⟩

/-- A write of the register at `a` acts by the masks `rw` and `w1c` alone and changes nothing else. -/
def WritesPlainly (a rw w1c : Nat) : Prop :=
  ∀ (s : State) (be : BitVec 8) (v : BitVec 64), RegOnly s (regWrite s a be v) a ∧
      ∀ k < 64, (rget (regWrite s a be v) a).getLsbD k = if be.getLsbD (k / 8) then (if rw.testBit k then v.getLsbD k
        else if w1c.testBit k then (rget s a).getLsbD k && !v.getLsbD k else (rget s a).getLsbD k) else (rget s a).getLsbD k

/-- A register that stores the merged value and has no bit both RW and W1C is plain. -/
theorem writesPlainly_of_stored {a : Nat} {sp : RegSpec} (h : regSpec a = some sp) (hd : sp.rw = 0 ∨ sp.w1c = 0)
    (hst : ∀ s be v, sp.covers be = true → regWrite s a be v = rset s a (regMerge sp (rget s a) be v)) : WritesPlainly a sp.rw sp.w1c := by
  intro s be v
  by_cases hc : sp.covers be = true
  · rw [hst s be v hc]
    refine ⟨.of_rset rfl, fun k hk => ?_⟩
    rw [rget_rset_self, getLsbD_regMerge _ _ _ _ hk]
    rcases hd with hd | hd <;> cases hr : sp.rw.testBit k <;> cases hw : sp.w1c.testBit k <;> simp_all
  · rw [Bool.not_eq_true] at hc
    rw [regWrite_uncovered s v h hc]
    refine ⟨.of_eq rfl, fun k hk => ?_⟩
    have hun := (covers_eq_false_iff sp be).1 hc k hk
    split
    · next hbe =>
      have hbits := hun hbe
      simp only [Nat.testBit_or, Bool.or_eq_false_iff] at hbits
      simp [hbits]
    · rfl

/-- A row of a block's table of plain registers: first offset, distance, number, RW bits and W1C bits. -/
abbrev Row := Nat × Nat × Nat × Nat × Nat

/-- In block `b` at `base` the registers of a row have the row's masks, and a write that has a bit to act on stores the merged value. -/
def RowStored (base b : Nat) (r : Row) : Prop :=
  let (off, stride, count, rw, w1c) := r
  ∀ n < count, (blockSpec b (off + stride * n)).map (fun sp => (sp.rw, sp.w1c, sp.wo)) = some (rw, w1c, 0) ∧
    off + stride * n < 0x200000 ∧ (off + stride * n) % 8 = 0 ∧ (rw = 0 ∨ w1c = 0) ∧
    (¬ (rw = 0 ∧ w1c = 0) → ∀ s v cmd raw, blockWrite b s (off + stride * n) v cmd raw = rset s (base + (off + stride * n)) v)

theorem entryAt_iff (o base stride n k : Nat) :
    entryAt o base stride n k = true ↔ base ≤ o ∧ (o - base) / stride < n ∧ (o - base) % stride = k := by
  simp [entryAt, and_assoc]

theorem lnkSelf_iff (o : Nat) : lnkBlk + o = lnkSelf ↔ o = 0x9020 := by unfold lnkSelf; omega

/-- A row of registers without writable bits. -/
theorem rowStored_ro {base b off stride count : Nat}
    (h : ∀ n < count, (blockSpec b (off + stride * n)).map (fun sp => (sp.rw, sp.w1c, sp.wo)) = some (0, 0, 0) ∧
      off + stride * n < 0x200000 ∧ (off + stride * n) % 8 = 0) : RowStored base b (off, stride, count, 0, 0) := by
  intro n hn
  obtain ⟨hsp, ho, h8⟩ := h n hn
  exact ⟨hsp, ho, h8, .inl rfl, fun hne => absurd ⟨rfl, rfl⟩ hne⟩

/-- A row of one register. -/
theorem rowStored_one {base b off rw w1c : Nat} (hsp : (blockSpec b off).map (fun sp => (sp.rw, sp.w1c, sp.wo)) = some (rw, w1c, 0))
    (ho : off < 0x200000 ∧ off % 8 = 0 ∧ (rw = 0 ∨ w1c = 0))
    (hw : ∀ s v cmd raw, blockWrite b s off v cmd raw = rset s (base + off) v) : RowStored base b (off, 8, 1, rw, w1c) := by
  intro n hn
  obtain rfl : n = 0 := by omega
  exact ⟨hsp, ho.1, ho.2.1, ho.2.2, fun _ => hw⟩

/-- Plain rows of the LNK block (R237). -/
def lnkRows : List Row :=
  [(8, 64, 36, 0, bmask 2 3), (16, 64, 36, 0, 0), (0x5000, 8, 2048, bmask 0 30, 0), (0x9000, 8, 1, bmask 0 7, 0),
   (0x9008, 8, 1, 0, 2), (0x9010, 8, 2, bmask 0 32, 0)]

theorem lnkRows_stored : ∀ r ∈ lnkRows, RowStored lnkBlk 2 r := by
  simp only [lnkRows, List.forall_mem_cons, List.not_mem_nil, false_imp_iff, implies_true, and_true]
  refine ⟨fun n hn => ?_, fun n hn => ?_, fun n hn => ?_, rowStored_one rfl (by decide) fun _ _ _ _ => rfl,
    rowStored_one rfl (by decide) fun _ _ _ _ => rfl, fun n hn => ?_⟩
  case refine_4 => -- the two registers of the last row have tests of their own in the map
    obtain rfl | rfl : n = 0 ∨ n = 1 := by omega
    · exact ⟨rfl, by decide, by decide, by decide, fun _ _ _ _ _ => rfl⟩
    · exact ⟨rfl, by decide, by decide, by decide, fun _ _ _ _ _ => rfl⟩
  all_goals
    refine ⟨?_, by omega, by omega, by simp, fun _ s v cmd raw => ?_⟩
    · simp (disch := omega) only [blockSpec, lnkSpec, entryAt_iff, if_pos, if_neg, Option.map_some]
    · simp (disch := omega) only [blockWrite, lnkWrite, entryAt_iff, lnkSelf_iff, if_neg]

/-- Plain rows of the MGT block (R367, R407, R420). -/
def mgtRows : List Row :=
  [(0, 8, 3, 0, 0), (0x100, 8, 16, 0, 0), (0x818, 8, 1, 0, 0), (0x828, 8, 1, 0, bmask 16 1), (0x908, 8, 1, 0, bmask 40 2),
   (0x918, 8, 1, 0, bmask 34 1)]

theorem mgtRows_stored : ∀ r ∈ mgtRows, RowStored mgtBlk 0 r := by
  simp only [mgtRows, List.forall_mem_cons, List.not_mem_nil, false_imp_iff, implies_true, and_true]
  refine ⟨rowStored_ro fun n hn => ?_, rowStored_ro fun n hn => ⟨?_, by omega, by omega⟩, ?_, ?_, ?_, ?_⟩
  · obtain rfl | rfl | rfl : n = 0 ∨ n = 1 ∨ n = 2 := by omega
    · exact ⟨rfl, by decide⟩
    · exact ⟨rfl, by decide⟩
    · exact ⟨rfl, by decide⟩
  · simp (disch := omega) only [blockSpec, mgtSpec, entryAt_iff, if_pos, if_neg, Option.map_some]
  all_goals exact rowStored_one rfl (by decide) fun _ _ _ _ => rfl

/-- Plain rows of the HST block (R407). -/
def hstRows : List Row := [(0, 8, 1, 1, 0), (8, 8, 1, 0, 0), (0x1018, 64, 513, 0, 0), (0x1028, 64, 513, 0, 0)]

theorem hstRows_stored : ∀ r ∈ hstRows, RowStored hstBlk 1 r := by
  simp only [hstRows, List.forall_mem_cons, List.not_mem_nil, false_imp_iff, implies_true, and_true]
  refine ⟨rowStored_one rfl (by decide) fun _ _ _ _ => rfl, rowStored_one rfl (by decide) fun _ _ _ _ => rfl,
    rowStored_ro fun n hn => ⟨?_, by omega, by omega⟩, rowStored_ro fun n hn => ⟨?_, by omega, by omega⟩⟩
  all_goals simp (disch := omega) only [blockSpec, hstSpec, entryAt_iff, if_pos, if_neg, Option.map_some]

/-- Plain rows of the ROS block (R326). -/
def rosRows : List Row :=
  [(8, 8, 1, 0, 2), (0x1000, 32, 512, bmask 0 64, 0), (0x1008, 32, 512, bmask 0 16, 0), (0x1010, 32, 512, 0, 0),
   (0x5000, 32, 512, bmask 12 52, 0), (0x5010, 32, 512, 0, 0), (0x5018, 32, 512, bmask 0 25, 0)]

theorem rosRows_stored : ∀ r ∈ rosRows, RowStored rosBlk 3 r := by
  simp only [rosRows, List.forall_mem_cons, List.not_mem_nil, false_imp_iff, implies_true, and_true]
  refine ⟨rowStored_one rfl (by decide) fun _ _ _ _ => rfl, ?_, ?_, ?_, ?_, ?_, ?_⟩
  all_goals
    intro n hn
    refine ⟨?_, by omega, by omega, by simp, fun _ s v cmd raw => ?_⟩
    · simp (disch := omega) only [blockSpec, rosSpec, entryAt_iff, if_pos, if_neg, Option.map_some]
    · simp (disch := omega) only [blockWrite, rosWrite, entryAt_iff, if_neg]

/-- Plain rows of the CKP block (R347). -/
def ckpRows : List Row := [(8, 8, 1, 0, bmask 35 3), (0x20, 8, 1, bmask 0 32, 0), (0x28, 8, 1, 0, 0)]

theorem ckpRows_stored : ∀ r ∈ ckpRows, RowStored ckpBlk 4 r := by
  simp only [ckpRows, List.forall_mem_cons, List.not_mem_nil, false_imp_iff, implies_true, and_true]
  refine ⟨?_, ?_, ?_⟩
  all_goals exact rowStored_one rfl (by decide) fun _ _ _ _ => rfl

/-- Plain rows of the CLS block (R378). -/
def clsRows : List Row :=
  [(0x100, 32, 16, bmask 0 16, 0), (0x110, 32, 16, 0, bmask 16 1), (0x2008, 32, 512, 0, 0), (0x2010, 32, 512, 0, 0),
   (0x2018, 32, 512, 0, 0)]

theorem clsRows_stored : ∀ r ∈ clsRows, RowStored clsBlk 5 r := by
  simp only [clsRows, List.forall_mem_cons, List.not_mem_nil, false_imp_iff, implies_true, and_true]
  refine ⟨?_, ?_, ?_, ?_, ?_⟩
  all_goals
    intro n hn
    refine ⟨?_, by omega, by omega, by simp, fun _ s v cmd raw => ?_⟩
    · simp (disch := omega) only [blockSpec, clsSpec, entryAt_iff, if_pos, if_neg, Option.map_some]
    · simp (disch := omega) only [blockWrite, clsWrite, entryAt_iff, if_neg]

/-- Plain rows of the TAL block (R383, R385, R390). -/
def talRows : List Row :=
  [(0, 8, 1, bmask 0 64, 0), (0x10, 8, 1, 0, bmask 19 1 + bmask 21 1), (0x18, 8, 1, 0, 0), (0x100, 8, 9, 0, 0),
   (0x1000, 64, 512, bmask 12 52, 0), (0x1010, 64, 512, 0, 0), (0x1018, 64, 512, bmask 0 25, 0), (0x1020, 64, 512, 0, 0)]

theorem talRows_stored : ∀ r ∈ talRows, RowStored talBlk 6 r := by
  simp only [talRows, List.forall_mem_cons, List.not_mem_nil, false_imp_iff, implies_true, and_true]
  refine ⟨rowStored_one rfl (by decide) fun _ _ _ _ => rfl, rowStored_one rfl (by decide) fun _ _ _ _ => rfl,
    rowStored_one rfl (by decide) fun _ _ _ _ => rfl, ?_, ?_, ?_, ?_, ?_⟩
  all_goals
    intro n hn
    refine ⟨?_, by omega, by omega, by simp, fun _ s v cmd raw => ?_⟩
    · simp (disch := omega) only [blockSpec, talSpec, entryAt_iff, if_pos, if_neg, Option.map_some]
    · simp (disch := omega) only [blockWrite, talWrite, entryAt_iff, if_neg]

/-- Base, number and plain rows of every block. -/
def blockRows : List (Nat × Nat × List Row) :=
  [(mgtBlk, 0, mgtRows), (hstBlk, 1, hstRows), (lnkBlk, 2, lnkRows), (rosBlk, 3, rosRows), (ckpBlk, 4, ckpRows), (clsBlk, 5, clsRows),
   (talBlk, 6, talRows)]

/-- The plain registers of the map by module-local address. -/
def plainRows : List Row := blockRows.flatMap fun (base, _, rows) => rows.map fun (off, r) => (base + off, r)

theorem blockRows_stored : ∀ x ∈ blockRows, x.1 = mgtBlk + x.2.1 * 0x200000 ∧ ∀ r ∈ x.2.2, RowStored x.1 x.2.1 r := by
  simp only [blockRows, List.forall_mem_cons, List.not_mem_nil, false_imp_iff, implies_true, and_true]
  exact ⟨⟨rfl, mgtRows_stored⟩, ⟨rfl, hstRows_stored⟩, ⟨rfl, lnkRows_stored⟩, ⟨rfl, rosRows_stored⟩, ⟨rfl, ckpRows_stored⟩,
    ⟨rfl, clsRows_stored⟩, rfl, talRows_stored⟩

theorem writesPlainly_of_rowStored {base b off stride count rw w1c n : Nat} (hb : base = mgtBlk + b * 0x200000)
    (h : RowStored base b (off, stride, count, rw, w1c)) (hn : n < count) : WritesPlainly (base + (off + stride * n)) rw w1c := by
  obtain ⟨hmask, ho, h8, hd, hw⟩ := h n hn
  obtain ⟨sp, hsp, hm⟩ := Option.map_eq_some_iff.1 hmask
  simp only [Prod.mk.injEq] at hm
  obtain ⟨rfl, rfl, hwo⟩ := hm
  have ha := (regSpec_block hb ho h8).trans hsp
  refine writesPlainly_of_stored ha hd fun s be v hc => (regWrite_block hb ho s v ha hc).trans (hw ?_ _ _ _ _)
  rintro ⟨hrw, hw1c⟩
  simp [RegSpec.covers, hrw, hw1c, hwo] at hc

theorem plainRows_writePlainly {base stride count rw w1c n : Nat} (h : (base, stride, count, rw, w1c) ∈ plainRows) (hn : n < count) :
    WritesPlainly (base + stride * n) rw w1c := by
  obtain ⟨⟨blk, b, rows⟩, hblk, hr⟩ := List.mem_flatMap.1 h
  obtain ⟨⟨off, r⟩, hrow, heq⟩ := List.mem_map.1 hr
  obtain ⟨rfl, rfl⟩ := Prod.mk.inj heq
  obtain ⟨hb, hst⟩ := blockRows_stored _ hblk
  rw [Nat.add_assoc]
  exact writesPlainly_of_rowStored hb (hst _ hrow) hn

theorem exec_firmwareWrite (a : BitVec 48) (be : BitVec 8) (v : BitVec 64) (s : State) :
    exec (.registerWrite .firmware a be v) s = .next (regWrite s a.toNat be v) := rfl

/-! ### WO bits and ranges of the MGT and TAL blocks (R363, R367, R385, R420) -/

section
variable (s : State) (be : BitVec 8) (v : BitVec 64)

/-- A write of a register of a block either covers nothing writable and changes nothing, or is the block's write. -/
theorem regWrite_eq_or {base b o : Nat} {sp : RegSpec} (hb : base = mgtBlk + b * 0x200000) (ho : o < 0x200000) (h : regSpec (base + o) = some sp) :
    regWrite s (base + o) be v = s ∨
      regWrite s (base + o) be v = blockWrite b s o (regMerge sp (rget s (base + o)) be v) (regCmd sp be v) (v &&& beMask be) := by
  cases hc : sp.covers be with
  | false => exact .inl (regWrite_uncovered s v h hc)
  | true => exact .inr (regWrite_block hb ho s v h hc)

/-- GO of MGT_RESET does not act from an uncovered byte. -/
theorem regWrite_mgtReset (hbe : be.getLsbD 1 = false) : regWrite s (mgtBlk + 0x820) be v = s := by
  obtain h | h := regWrite_eq_or s be v (base := mgtBlk) (b := 0) (o := 0x820) rfl (by decide) rfl
  · exact h
  · exact h.trans (if_pos (by rw [flag_regCmd_uncovered (by decide) hbe]; rfl))

/-- A write of MGT_WDOG that neither pets nor enables stores a value and starts no count. -/
theorem wdogWrite_of_enabled_same (h : flag v 16 = flag (rget s wdogReg) 16) : ∃ x, wdogWrite s v false = rset s wdogReg x := by
  simp only [wdogWrite, flag_setFlag_same _ (show 16 < 64 by decide), h, Bool.or_self, Bool.and_not_self, Bool.false_eq_true, if_false]
  exact ⟨_, rfl⟩

/-- PET and the first ENABLE do not act from an uncovered byte. -/
theorem regWrite_wdog (hbe : be.getLsbD 2 = false) : RegOnly s (regWrite s wdogReg be v) wdogReg := by
  obtain h | h := regWrite_eq_or s be v (base := mgtBlk) (b := 0) (o := 0x808) rfl (by decide) rfl
  · exact .of_eq h
  · have hw (x c r : BitVec 64) : blockWrite 0 s 0x808 x c r = wdogWrite s x (flag c 17) := rfl
    rw [hw, flag_regCmd_uncovered (by decide) hbe] at h
    obtain ⟨x, hx⟩ := wdogWrite_of_enabled_same s _ (flag_regMerge_uncovered (k := 16) (by decide) hbe _ _ v)
    exact .of_rset (h.trans hx)

/-- ARM and ACK do not act from an uncovered byte. -/
theorem regWrite_rcCtl (hbe : be.getLsbD 2 = false) : RegOnly s (regWrite s rcCtl be v) rcCtl := by
  obtain h | h := regWrite_eq_or s be v (base := talBlk) (b := 6) (o := 8) rfl (by decide) rfl
  · exact .of_eq h
  · have hw (x c r : BitVec 64) : blockWrite 6 s 8 x c r =
        if flag c 16 then rcArm (if flag c 18 then rollAck s else s) (BitVec.ofNat 16 (fld x 0 16)) (flag x 17)
        else if flag c 18 then rollAck (rset s rcCtl x) else rset s rcCtl x := rfl
    rw [hw, flag_regCmd_uncovered (by decide) hbe, flag_regCmd_uncovered (by decide) hbe] at h
    exact .of_rset h

/-- MGT_PWR_CAP (R420). -/
def pwrCapSpec : RegSpec := { rw := bmask 0 10 + bmask 16 13, reset := 0x2D0 + 0x1DB0 * 2 ^ 16 }

/-- MGT_THERM (R420). -/
def thermSpec : RegSpec := { rw := bmask 24 8, w1c := bmask 32 1, reset := 0x5F * 2 ^ 24 }

theorem pwrCapSpec_bits : ∀ k < 64, pwrCapSpec.rw.testBit k = decide (k < 10 ∨ 16 ≤ k ∧ k < 29) ∧ pwrCapSpec.w1c.testBit k = false := by decide
theorem thermSpec_bits : ∀ k < 64, thermSpec.rw.testBit k = decide (24 ≤ k ∧ k < 32) ∧ thermSpec.w1c.testBit k = decide (k = 32) := by decide

/-- What a write of all 8 bytes leaves in MGT_PWR_CAP: the merged value with its two fields held to their ranges. -/
def pwrCapWritten (old v : BitVec 64) : BitVec 64 :=
  keepField old (keepField old (regMerge pwrCapSpec old 0xFF v) 0 10 (fun x => decide (200 ≤ x ∧ x ≤ 720)))
    16 13 (fun x => decide (3000 ≤ x ∧ x ≤ 7600))

/-- What a write of all 8 bytes leaves in MGT_THERM: the merged value with THROTTLE_C held to its range. -/
def thermWritten (old v : BitVec 64) : BitVec 64 :=
  keepField old (regMerge thermSpec old 0xFF v) 24 8 (fun x => decide (80 ≤ x ∧ x ≤ 95))

theorem regWrite_pwrCap : regWrite s (mgtBlk + 0x900) 0xFF v = rset s (mgtBlk + 0x900) (pwrCapWritten (rget s (mgtBlk + 0x900)) v) :=
  regWrite_block (base := mgtBlk) (b := 0) (o := 0x900) (sp := pwrCapSpec) rfl (by decide) s v rfl (by decide)

theorem regWrite_therm : regWrite s (mgtBlk + 0x910) 0xFF v = rset s (mgtBlk + 0x910) (thermWritten (rget s (mgtBlk + 0x910)) v) :=
  regWrite_block (base := mgtBlk) (b := 0) (o := 0x910) (sp := thermSpec) rfl (by decide) s v rfl (by decide)

end

/-- Each field of MGT_PWR_CAP takes the written value where it is in range; the bits of no field stay. -/
theorem pwrCapWritten_fields (old v : BitVec 64) :
    fld (pwrCapWritten old v) 0 10 = (if 200 ≤ fld v 0 10 ∧ fld v 0 10 ≤ 720 then fld v 0 10 else fld old 0 10) ∧
      fld (pwrCapWritten old v) 16 13 = (if 3000 ≤ fld v 16 13 ∧ fld v 16 13 ≤ 7600 then fld v 16 13 else fld old 16 13) ∧
      fld (pwrCapWritten old v) 10 6 = fld old 10 6 ∧ fld (pwrCapWritten old v) 29 35 = fld old 29 35 := by
  have hrw {lo w : Nat} (h : lo + w ≤ 10 ∨ 16 ≤ lo ∧ lo + w ≤ 29) : fld (regMerge pwrCapSpec old 0xFF v) lo w = fld v lo w :=
    fld_regMerge_rw _ _ _ (by omega) fun k hk _ _ => by simp only [pwrCapSpec_bits k hk, decide_eq_true_eq, and_true]; omega
  have hro {lo w : Nat} (hw : lo + w ≤ 64) (h : 10 ≤ lo ∧ lo + w ≤ 16 ∨ 29 ≤ lo) :
      fld (regMerge pwrCapSpec old 0xFF v) lo w = fld old lo w :=
    fld_regMerge_ro _ _ _ _ hw fun k hk _ _ => by simp only [pwrCapSpec_bits k hk, decide_eq_false_iff_not, and_true]; omega
  unfold pwrCapWritten
  refine ⟨?_, ?_, ?_, ?_⟩
  · rw [fld_keepField_outside _ _ _ (by decide) (by decide), fld_keepField_same _ _ (by decide), hrw (by decide)]
    simp only [decide_eq_true_eq]
  · rw [fld_keepField_same _ _ (by decide), fld_keepField_outside _ _ _ (by decide) (by decide), hrw (by decide)]
    simp only [decide_eq_true_eq]
  · rw [fld_keepField_outside _ _ _ (by decide) (by decide), fld_keepField_outside _ _ _ (by decide) (by decide), hro (by decide) (by decide)]
  · rw [fld_keepField_outside _ _ _ (by decide) (by decide), fld_keepField_outside _ _ _ (by decide) (by decide), hro (by decide) (by decide)]

/-- THROTTLE_C takes the written value where it is in range, bit 32 is cleared by 1, and the bits below are RO. -/
theorem thermWritten_fields (old v : BitVec 64) :
    fld (thermWritten old v) 24 8 = (if 80 ≤ fld v 24 8 ∧ fld v 24 8 ≤ 95 then fld v 24 8 else fld old 24 8) ∧
      fld (thermWritten old v) 0 24 = fld old 0 24 ∧ flag (thermWritten old v) 32 = (flag old 32 && !flag v 32) := by
  unfold thermWritten
  refine ⟨?_, ?_, ?_⟩
  · rw [fld_keepField_same _ _ (by decide), fld_regMerge_rw _ _ _ (by decide)
      fun k hk _ _ => by simp only [thermSpec_bits k hk, decide_eq_true_eq, decide_eq_false_iff_not]; omega]
    simp only [decide_eq_true_eq]
  · rw [fld_keepField_outside _ _ _ (by decide) (by decide), fld_regMerge_ro _ _ _ _ (by decide)
      fun k hk _ _ => by simp only [thermSpec_bits k hk, decide_eq_false_iff_not]; omega]
  · rw [flag, getLsbD_keepField_outside _ _ _ (by decide) (by decide), getLsbD_regMerge _ _ _ _ (by decide), if_pos (by decide)]
    simp [thermSpec_bits 32 (by decide), flag]

/-! ### Tile pages (R98, R105, R133, R185, R209) -/

theorem tileOnly_setTile (s : State) (t : Nat) (T : Tile) : TileOnly s (s.setTile t T) t :=
  ⟨rfl, fun _ h => tile_setTile_ne s T h, fun _ => rfl⟩

/-- A write of an offset of a tile's page. -/
theorem regWrite_page (s : State) (t : TileNo) {o : Nat} (ho : o < 0x100000) (be : BitVec 8) (v : BitVec 64) :
    regWrite s (pageBase t + o) be v = tilePageWrite s t o be v := by
  have ht := t.isLt
  have hp : pageBase 0 ≤ pageBase t + o ∧ pageBase t + o < pageBase 768 ∧ (pageBase t + o - pageBase 0) / 0x200000 = t ∧
      (pageBase t + o - pageBase 0) % 0x200000 = o := by
    simp only [pageBase]
    omega
  obtain ⟨hlo, hhi, hd, hm⟩ := hp
  simp only [regWrite, hlo, hhi, hd, hm, ho, and_self, if_true]

/-- Byte `k` of a merged value is the written one where it is covered. -/
theorem byte_mergeBytes (old v : BitVec 64) (be : BitVec 8) {k : Nat} (hk : k < 8) :
    (mergeBytes old be v).extractLsb' (8 * k) 8 = if be.getLsbD k then v.extractLsb' (8 * k) 8 else old.extractLsb' (8 * k) 8 := by
  refine BitVec.eq_of_getLsbD_eq fun i hi => ?_
  have hki : (8 * k + i) / 8 = k := by omega
  rw [BitVec.getLsbD_extractLsb', getLsbD_mergeBytes _ _ _ (by omega), hki]
  split <;> rw [BitVec.getLsbD_extractLsb']

/-- The low 4 bytes of a value are those of its low word. -/
theorem byte_setWidth_setWidth (x : BitVec 64) {k : Nat} (hk : k < 4) :
    ((x.setWidth 32).setWidth 64).extractLsb' (8 * k) 8 = x.extractLsb' (8 * k) 8 := by
  refine BitVec.eq_of_getLsbD_eq fun i hi => ?_
  have h32 : 8 * k + i < 32 := by omega
  have h64 : 8 * k + i < 64 := by omega
  simp [BitVec.getLsbD_extractLsb', BitVec.getLsbD_setWidth, h32, h64, -BitVec.getLsbD_eq_getElem]

/-- PREEMPT_LIMIT stands in bits [31:16] of its register. -/
theorem byte_field16 (x : BitVec 64) {k : Nat} (hk : k < 2) :
    (BitVec.ofNat 16 (fld x 16 16)).extractLsb' (8 * k) 8 = x.extractLsb' (8 * (2 + k)) 8 := by
  refine BitVec.eq_of_getLsbD_eq fun i hi => ?_
  have h16 : 8 * k + i < 16 := by omega
  rw [BitVec.getLsbD_extractLsb', BitVec.getLsbD_extractLsb', BitVec.getLsbD_ofNat, testBit_fld, decide_eq_true h16,
    show 16 + (8 * k + i) = 8 * (2 + k) + i by omega]
  simp

theorem byte_packLimit (p : BitVec 16) {k : Nat} (hk : k < 2) :
    (packBits [(16, p.toNat)]).extractLsb' (8 * (2 + k)) 8 = p.extractLsb' (8 * k) 8 := by
  refine BitVec.eq_of_getLsbD_eq fun i hi => ?_
  have h64 : 8 * (2 + k) + i < 64 := by omega
  have hle : 16 ≤ 8 * (2 + k) + i := by omega
  have hpos : 8 * (2 + k) + i - 16 = 8 * k + i := by omega
  simp only [packBits, List.foldl_cons, List.foldl_nil, Nat.zero_add, BitVec.getLsbD_extractLsb', BitVec.getLsbD_ofNat,
    Nat.testBit_mul_two_pow, hpos, BitVec.testBit_toNat, h64, hle, decide_true, Bool.true_and]

section
variable {u : State} (s : State) (t : TileNo) (be : BitVec 8) (v : BitVec 64)

/-- TILE_SEED takes its covered bytes. -/
theorem tilePageWrite_seed (hu : u = tilePageWrite s t 0x20 be v) :
    TileOnly s u t ∧ u.tile t = { s.tile t with seed := (u.tile t).seed } ∧ ∀ k < 8, (u.tile t).seed.extractLsb' (8 * k) 8 =
      if be.getLsbD k then v.extractLsb' (8 * k) 8 else (s.tile t).seed.extractLsb' (8 * k) 8 := by
  have hw : tilePageWrite s t 0x20 be v = s.setTile t { s.tile t with seed := mergeBytes (s.tile t).seed be v } := rfl
  rw [hu, hw, tile_setTile_self]
  exact ⟨tileOnly_setTile .., rfl, fun k hk => byte_mergeBytes _ _ _ hk⟩

/-- TILE_STEP.STEP takes its covered bytes. -/
theorem tilePageWrite_step (hu : u = tilePageWrite s t 0x18 be v) :
    TileOnly s u t ∧ u.tile t = { s.tile t with step := (u.tile t).step } ∧ ∀ k < 4, ((u.tile t).step.setWidth 64).extractLsb' (8 * k) 8 =
      if be.getLsbD k then v.extractLsb' (8 * k) 8 else ((s.tile t).step.setWidth 64).extractLsb' (8 * k) 8 := by
  have hw : tilePageWrite s t 0x18 be v =
    s.setTile t { s.tile t with step := (mergeBytes ((s.tile t).step.setWidth 64) be v).setWidth 32 } := rfl
  rw [hu, hw, tile_setTile_self]
  exact ⟨tileOnly_setTile .., rfl, fun k hk => (byte_setWidth_setWidth _ hk).trans (byte_mergeBytes _ _ _ (by omega))⟩

/-- The command bits of TILE_CTRL do not act from an uncovered byte; PREEMPT_LIMIT takes its covered bytes. -/
theorem tilePageWrite_ctrl (hu : u = tilePageWrite s t 0x08 be v) (hbe : be.getLsbD 0 = false) :
    TileOnly s u t ∧ u.tile t = { s.tile t with preLimit := (u.tile t).preLimit } ∧ ∀ k < 2, (u.tile t).preLimit.extractLsb' (8 * k) 8 =
      if be.getLsbD (2 + k) then v.extractLsb' (16 + 8 * k) 8 else (s.tile t).preLimit.extractLsb' (8 * k) 8 := by
  have hoff {k : Nat} (hk : k < 8) : flag (v &&& beMask be) k = false :=
    flag_and_beMask_uncovered (by omega) (by rwa [Nat.div_eq_of_lt hk]) v
  have hidle (u : State) : tileCommand u t (v &&& beMask be) = u := by
    simp only [tileCommand, hoff (show 0 < 8 by decide), hoff (show 1 < 8 by decide), hoff (show 2 < 8 by decide),
      hoff (show 3 < 8 by decide), hoff (show 4 < 8 by decide), hoff (show 5 < 8 by decide), Bool.false_eq_true, if_false]
  have hw : tilePageWrite s t 0x08 be v = s.setTile t
    { s.tile t with preLimit := BitVec.ofNat 16 (fld (mergeBytes (packBits [(16, (s.tile t).preLimit.toNat)]) be v) 16 16) } := hidle _
  rw [hu, hw, tile_setTile_self]
  refine ⟨tileOnly_setTile .., rfl, fun k hk => ?_⟩
  rw [byte_field16 _ hk, byte_mergeBytes _ _ _ (by omega), byte_packLimit _ hk, show 8 * (2 + k) = 16 + 8 * k by omega]

/-- PREEMPT_FAIL, TILE_FAULT.VALID and TILE_PC keep their value where their bytes are not covered. -/
theorem tilePageWrite_uncovered {o : Nat}
    (h : o = 0 ∧ be.getLsbD 0 = false ∨ o = 0x48 ∧ be.getLsbD 1 = false ∨ o = 0x10 ∧ be.extractLsb' 0 6 = 0) :
    tilePageWrite s t o be v = s := by
  have hoff {k : Nat} (hk : k < 64) (hb : be.getLsbD (k / 8) = false) : ¬ flag (v &&& beMask be) k = true := by
    rw [flag_and_beMask_uncovered hk hb]
    decide
  obtain ⟨rfl, hb⟩ | ⟨rfl, hb⟩ | ⟨rfl, hb⟩ := h
  · exact if_neg (hoff (k := 4) (by decide) hb)
  · exact if_neg (hoff (k := 12) (by decide) hb)
  · have hz : fld be 0 6 = 0 := congrArg BitVec.toNat hb
    exact if_pos (Or.inr hz)

/-- The W1C flags of the engines' status registers keep their value where their byte is not covered. -/
theorem tilePageWrite_status {o : Nat}
    (h : (o = 0x400 ∨ o = 0x500 ∨ o = 0x600) ∧ be.getLsbD 1 = false ∨ o = 0x580 ∧ be.getLsbD 0 = false) :
    TileOnly s (tilePageWrite s t o be v) t ∧ (tilePageWrite s t o be v).tile t = s.tile t := by
  have hoff {k : Nat} (hk : k < 64) (hb : be.getLsbD (k / 8) = false) : flag (v &&& beMask be) k = false :=
    flag_and_beMask_uncovered hk hb v
  have key (f : Tile → Tile) (hw : tilePageWrite s t o be v = s.onTile t f) (hf : f (s.tile t) = s.tile t) :
      TileOnly s (tilePageWrite s t o be v) t ∧ (tilePageWrite s t o be v).tile t = s.tile t := by
    rw [hw, tile_onTile_self]
    exact ⟨tileOnly_setTile .., hf⟩
  obtain ⟨rfl | rfl | rfl, hb⟩ | ⟨rfl, hb⟩ := h
  · have hovf : ((v &&& beMask be) >>> 8).setWidth 4 = 0#4 := by
      refine BitVec.eq_of_getLsbD_eq fun i hi => ?_
      have hbit := hoff (k := 8 + i) (by omega) (by rwa [show (8 + i) / 8 = 1 by omega])
      rw [BitVec.getLsbD_setWidth, BitVec.getLsbD_ushiftRight, ← flag, hbit, Bool.and_false, BitVec.getLsbD_zero]
    refine key (fun T => { T with aba := { T.aba with ovf := T.aba.ovf &&& ~~~(((v &&& beMask be) >>> 8).setWidth 4) } }) rfl ?_
    simp only [hovf, BitVec.not_zero, BitVec.and_allOnes]
  · refine key (fun T => { T with eng := { T.eng with
      rowOvf := T.eng.rowOvf && !flag (v &&& beMask be) 8, readInf := T.eng.readInf && !flag (v &&& beMask be) 9 } }) rfl ?_
    simp only [hoff (k := 8) (by decide) hb, hoff (k := 9) (by decide) hb, Bool.not_false, Bool.and_true]
  · refine key (fun T => { T with eng := { T.eng with
      clipSeen := T.eng.clipSeen && !flag (v &&& beMask be) 8, nonfSeen := T.eng.nonfSeen && !flag (v &&& beMask be) 9,
      outInf := T.eng.outInf && !flag (v &&& beMask be) 10 } }) rfl ?_
    simp only [hoff (k := 8) (by decide) hb, hoff (k := 9) (by decide) hb, hoff (k := 10) (by decide) hb, Bool.not_false, Bool.and_true]
  · refine key (fun T => { T with eng := { T.eng with
      nanSeen := T.eng.nanSeen && !flag (v &&& beMask be) 1, negP := T.eng.negP && !flag (v &&& beMask be) 2 } }) rfl ?_
    simp only [hoff (k := 1) (by decide) hb, hoff (k := 2) (by decide) hb, Bool.not_false, Bool.and_true]

end

/-! ### Stage entries (R202, R209) -/

/-- Two tables of stage entries that differ in the ACTIVE marks alone. -/
inductive SameButActive : Tab Stage → Tab Stage → Prop where
  | nil : SameButActive [] []
  | cons (k : Nat) (e : Stage) (a : Bool) {l l' : Tab Stage} (h : SameButActive l l') :
    SameButActive ((k, e) :: l) ((k, { e with active := a }) :: l')

theorem SameButActive.tget {l l' : Tab Stage} (h : SameButActive l l') (n : Nat) :
    Machine.tget {} l' n = { Machine.tget {} l n with active := (Machine.tget {} l' n).active } := by
  induction h with
  | nil => rfl
  | cons k e a _ ih =>
    simp only [Machine.tget]
    split
    · rfl
    · exact ih

/-- One more entry at the end, active or not. -/
theorem SameButActive.snoc {l l' : Tab Stage} (h : SameButActive l l') (k : Nat) (e : Stage) (a : Bool) :
    SameButActive (l ++ [(k, e)]) (l' ++ [(k, { e with active := a })]) := by
  induction h with
  | nil => exact .cons k e a .nil
  | cons k' e' a' _ ih => exact .cons k' e' a' ih

/-- A walk that lists every entry again, active or not, changes ACTIVE marks alone. -/
theorem sameButActive_foldl (f : Nat × Tab Stage → Nat × Stage → Nat × Tab Stage)
    (hf : ∀ x e, ∃ a, (f x e).2 = x.2 ++ [(e.1, { e.2 with active := a })]) (l : Tab Stage) :
    ∀ {done : Tab Stage} {x : Nat × Tab Stage}, SameButActive done x.2 → SameButActive (done ++ l) (l.foldl f x).2 := by
  induction l with
  | nil => intro done x h; rwa [List.append_nil]
  | cons e l ih =>
    intro done x h
    obtain ⟨a, ha⟩ := hf x e
    have hstep : SameButActive (done ++ [e]) (f x e).2 := by
      rw [ha]
      exact h.snoc e.1 e.2 a
    rw [List.append_cons]
    exact ih hstep

/-- Taking waiting copies changes ACTIVE marks alone (R198). -/
theorem stageFill_sameButActive (l : Tab Stage) : SameButActive l (stageFill l) := by
  refine sameButActive_foldl _ (fun x e => ?_) l (done := []) (x := (_, [])) .nil
  dsimp only
  split
  · exact ⟨true, rfl⟩
  · exact ⟨e.2.active, rfl⟩

/-- A write of MOV_STGn_CTL that does not cover byte 0 carries no command. -/
theorem tilePageWrite_stageCtl (s : State) (t : TileNo) (n : Fin 64) (be : BitVec 8) (v : BitVec 64) (hbe : be.getLsbD 0 = false) :
    ∃ sheets sitout, tilePageWrite s t (0x818 + 32 * n) be v = stageCtl s t n false false false sheets sitout := by
  have hoff {k : Nat} (hk : k < 8) : flag (v &&& beMask be) k = false :=
    flag_and_beMask_uncovered (by omega) (by rwa [Nat.div_eq_of_lt hk]) v
  have hn := n.isLt
  have hrange : 0x800 ≤ 0x818 + 32 * n.val ∧ 0x818 + 32 * n.val < 0x1000 ∧ (0x818 + 32 * n.val) % 8 = 0 := by omega
  have hidx : (0x818 + 32 * n.val - 0x800) / 32 = n := by omega
  have hreg : (0x818 + 32 * n.val - 0x800) % 32 / 8 = 3 := by omega
  have htile : isTileReg (0x818 + 32 * n) = false := by simp only [isTileReg, decide_eq_false_iff_not]; omega
  simp only [tilePageWrite, htile, Bool.false_eq_true, if_false]
  unfold pageWrite
  split
  case h_5 =>
    simp only [hrange, and_self, if_true, hidx, hreg, hoff (show 2 < 8 by decide), hoff (show 4 < 8 by decide), hoff (show 5 < 8 by decide)]
    exact ⟨_, _, rfl⟩
  all_goals omega

/-- A write without a command sets SITOUT, SHEETS and the ACTIVE marks alone (R202). -/
theorem stageCtl_noCommand (s : State) (t n : Nat) (sheets : BitVec 16) (sitout : Bool) :
    TileOnly s (stageCtl s t n false false false sheets sitout) t ∧
      ∃ sh act, ((stageCtl s t n false false false sheets sitout).tile t).stage n =
        { (s.tile t).stage n with sitout := sitout, sheets := sh, active := act } := by
  refine ⟨tileOnly_setTile .., ?_⟩
  simp only [stageCtl, Bool.false_eq_true, if_false, Bool.false_and, tile_onTile_self]
  have hfill := (stageFill_sameButActive ((s.tile t).setStage n { (s.tile t).stage n with
    sitout := sitout, sheets := if decide (((s.tile t).stage n).state = 0) || false then sheets else ((s.tile t).stage n).sheets }).stages).tget n
  rw [← Tile.stage, stage_setStage, if_pos rfl] at hfill
  exact ⟨_, _, hfill⟩

/-! ### Reads (R392, R421) -/

/-- A read of BAR0 that no rule refuses returns the bytes that it covers as they stand in the whole registers. -/
theorem barRead_bytes {s : State} {x n : Nat} (hq : moduleQuiet s = false) (hr : ready s = true)
    (hlo : inWindows (pageBase 0 + x) = true) (hhi : inWindows (pageBase 0 + x + n - 1) = true)
    (hd : deadPage s (pageBase 0 + x) n = false) (hx : x + n ≤ 2 ^ 40) :
    barAccess s 0 0 x (.read n) = { s with reply := .data ((List.range n).map fun k =>
      (regRead s ((pageBase 0 + x + k) / 8 * 8)).extractLsb' (8 * ((pageBase 0 + x + k) % 8)) 8) } := by
  have hbytes : regReadBytes s (pageBase 0 + x) n = (List.range n).map fun k =>
      (regRead s ((pageBase 0 + x + k) / 8 * 8)).extractLsb' (8 * ((pageBase 0 + x + k) % 8)) 8 := by
    simp only [regReadBytes, upto, List.map_map]
    refine List.map_congr_left fun k _ => BitVec.eq_of_toNat_eq ?_
    simp [fld, nfld]
  have hpf : barAccess s 0 0 x (.read n) = pfAccess s true (pageBase 0 + x) (.read n) := by
    rw [barAccess, if_neg (by decide), if_pos ⟨rfl, hx⟩]
  simp [hpf, pfAccess, barLen, hq, hr, hlo, hhi, hd, regAccess, hbytes]

/-! ### The obligation -/

/-- Settles O22: a write acts by each field's access code on the bytes it covers, and a read returns the bytes it covers (R5, R420, R421). -/
theorem registerWriteAccessCodes : Obligations.RegisterWriteAccessCodes := by
  unfold Obligations.RegisterWriteAccessCodes
  refine ⟨fun who a be v w s h => ?_, fun a be v s => ?_, fun s x n hq hr hlo hhi hd hx => ?_⟩
  · exact congrArg Host.Outcome.next (agentWrite_congr s who a.toNat (and_beMask_congr h))
  · intro i old Plain
    have next : exec i s = .next (regWrite s a.toNat be v) := exec_firmwareWrite a be v s
    refine ⟨fun base stride count rw w1c n hrow hn ha => ?_, fun sp hsp hun => ?_, fun ha hbe => ?_, fun ha hbe => ?_, fun ha hbe => ?_,
      fun hbe => ⟨fun ha => ?_, fun ha => ?_⟩, fun t => ?_⟩
    · obtain ⟨honly, hbits⟩ := plainRows_writePlainly hrow hn s be v
      rw [← ha] at honly hbits
      exact ⟨_, next, honly.rest, honly.others, hbits⟩
    · rw [next, regWrite_uncovered s v hsp ((covers_eq_false_iff sp be).2 hun)]
    · rw [next, ha, regWrite_mgtReset s be v hbe]
    · rw [next, ha]
      exact ⟨_, rfl, (regWrite_wdog s be v hbe).rest⟩
    · rw [next, ha]
      exact ⟨_, rfl, (regWrite_rcCtl s be v hbe).rest, (regWrite_rcCtl s be v hbe).others⟩
    · subst hbe
      rw [next]
      simp only [old, ha, regWrite_pwrCap]
      exact ⟨_, rfl, rfl, fun b hb => rget_rset_ne _ _ hb, by rw [rget_rset_self]; exact pwrCapWritten_fields _ _⟩
    · subst hbe
      rw [next]
      simp only [old, ha, regWrite_therm]
      exact ⟨_, rfl, rfl, fun b hb => rget_rset_ne _ _ hb, by rw [rget_rset_self]; exact thermWritten_fields _ _⟩
    · intro T merge
      have page {o : Nat} (ho : o < 0x100000) (ha : a.toNat = pageBase t + o) : exec i s = .next (tilePageWrite s t o be v) := by
        rw [next, ha, regWrite_page s t ho]
      refine ⟨fun ha => ?_, fun ha => ?_, fun ha hbe => ?_, fun h => ?_, fun h => ?_, fun n ha hbe => ?_⟩
      · exact ⟨_, page (by decide) ha, tilePageWrite_seed s t be v rfl⟩
      · exact ⟨_, page (by decide) ha, tilePageWrite_step s t be v rfl⟩
      · exact ⟨_, page (by decide) ha, tilePageWrite_ctrl s t be v rfl hbe⟩
      · obtain ⟨ha, hbe⟩ | ⟨ha, hbe⟩ | ⟨ha, hbe⟩ := h
        · rw [page (by decide) (ha.trans (Nat.add_zero _).symm), tilePageWrite_uncovered s t be v (.inl ⟨rfl, hbe⟩)]
        · rw [page (by decide) ha, tilePageWrite_uncovered s t be v (.inr (.inl ⟨rfl, hbe⟩))]
        · rw [page (by decide) ha, tilePageWrite_uncovered s t be v (.inr (.inr ⟨rfl, hbe⟩))]
      · obtain ⟨ha | ha | ha, hbe⟩ | ⟨ha, hbe⟩ := h
        · exact ⟨_, page (by decide) ha, tilePageWrite_status s t be v (.inl ⟨.inl rfl, hbe⟩)⟩
        · exact ⟨_, page (by decide) ha, tilePageWrite_status s t be v (.inl ⟨.inr (.inl rfl), hbe⟩)⟩
        · exact ⟨_, page (by decide) ha, tilePageWrite_status s t be v (.inl ⟨.inr (.inr rfl), hbe⟩)⟩
        · exact ⟨_, page (by decide) ha, tilePageWrite_status s t be v (.inr ⟨rfl, hbe⟩)⟩
      · obtain ⟨sheets, sitout, hw⟩ := tilePageWrite_stageCtl s t n be v hbe
        obtain ⟨honly, sh, act, hg⟩ := stageCtl_noCommand s t n sheets sitout
        refine ⟨_, page (o := 0x818 + 32 * n.val) (by omega) (ha.trans (Nat.add_assoc ..)), ?_⟩
        rw [hw, hg]
        exact ⟨honly, rfl, rfl, rfl, rfl⟩
  · have hread := barRead_bytes hq hr hlo hhi hd hx
    have haddr : (BitVec.ofNat 64 x).toNat = x := by rw [BitVec.toNat_ofNat, Nat.mod_eq_of_lt (by omega)]
    exact ⟨_, congrArg Host.Outcome.next ((congrArg (barAccess s 0 0 · (.read n)) haddr).trans hread), rfl, rfl⟩

end Sys2Proof.RegisterWrites

/-! The test port (R402): what each of its four instructions selects and answers, the fields of IDCODE, and the stage from which
EXTEST is BYPASS. -/
namespace Sys2Proof.TestPort
open Sys2Proof.Machine

/-! ### Selecting an instruction -/

@[simp] theorem jtag_selected (s : State) (i : BitVec 4) (r : Reply) : (jtag s i r).sys.jtag = i := rfl
@[simp] theorem jtag_reply (s : State) (i : BitVec 4) (r : Reply) : (jtag s i r).reply = r := rfl

/-- Nothing but the selection and the answer changes. -/
theorem jtag_frame (s : State) (i : BitVec 4) (r : Reply) :
    jtag s i r = { s with sys := { s.sys with jtag := (jtag s i r).sys.jtag }, reply := (jtag s i r).reply } := rfl

/-- Two selections leave different states unless both the instruction and the answer agree. -/
theorem jtag_inj {s : State} {i j : BitVec 4} {r q : Reply} : jtag s i r = jtag s j q ↔ i = j ∧ r = q := by
  refine ⟨fun h => ⟨?_, ?_⟩, fun ⟨hi, hr⟩ => hi ▸ hr ▸ rfl⟩
  · simpa using congrArg (fun u : State => u.sys.jtag) h
  · simpa using congrArg State.reply h

/-! ### The four instructions -/

/-- The word that IDCODE shifts out (R402). -/
def idcodeWord : BitVec 64 := 0x132802AB

theorem idcodeWord_fields : idcodeWord.extractLsb' 28 36 = 1 ∧ idcodeWord.extractLsb' 12 16 = 0x3280 ∧
    idcodeWord.extractLsb' 1 11 = 0x155 ∧ idcodeWord.getLsbD 0 = true := by decide

section
variable (s : State)

theorem exec_bypass : exec .bypass s = .next (jtag s 15 .none) := rfl
theorem exec_idcode : exec .idcode s = .next (jtag s 1 (.value idcodeWord)) := rfl
theorem exec_samplePreload : exec .samplePreload s = .next (jtag s 2 .none) := rfl
theorem exec_extest : exec .extest s = .next (jtag s (if stageOf s < 3 then 0 else 15) .none) := rfl

/-- Each of the four does nothing but select and answer, and IDCODE answers its word. -/
theorem exec_testPort {i : Instr} (hi : i ∈ ([.bypass, .idcode, .samplePreload, .extest] : List Instr)) :
    ∃ c r, exec i s = .next (jtag s c r) ∧ (i = .idcode → r = .value idcodeWord) := by
  simp only [List.mem_cons, List.not_mem_nil, or_false] at hi
  obtain rfl | rfl | rfl | rfl := hi
  · exact ⟨_, _, exec_bypass s, nofun⟩
  · exact ⟨_, _, exec_idcode s, fun _ => rfl⟩
  · exact ⟨_, _, exec_samplePreload s, nofun⟩
  · exact ⟨_, _, exec_extest s, nofun⟩

/-- EXTEST behaves as BYPASS exactly from stage 3 on. -/
theorem exec_extest_eq_bypass_iff : exec .extest s = exec .bypass s ↔ 3 ≤ stageOf s := by
  rw [exec_extest, exec_bypass, Host.Outcome.next.injEq, jtag_inj]
  by_cases h : stageOf s < 3
  · simp [h]
  · simp [h, Nat.le_of_not_lt h]

end

/-! ### The obligation -/

/-- Settles O35: each instruction only selects and answers, IDCODE reads its word, and EXTEST is BYPASS from stage 3 on (R402). -/
theorem testPortInstructions : Obligations.TestPortInstructions := by
  unfold Obligations.TestPortInstructions
  refine fun s => ⟨fun i hi => ?_, fun hlow => ?_, (exec_extest_eq_bypass_iff s).2⟩
  · obtain ⟨c, r, hexec, hid⟩ := exec_testPort s hi
    exact ⟨_, hexec, jtag_frame s c r, fun h => ⟨idcodeWord, hid h, idcodeWord_fields⟩⟩
  · exact fun heq => absurd ((exec_extest_eq_bypass_iff s).1 heq) (Nat.not_le.2 hlow)

end Sys2Proof.TestPort
